-- ==== Sys2Proof/Word.lean ====
section
/-! DEFINITION. The word types of the core (spec/00_scope.md R9 to R11) and three-axis vectors. -/

namespace Sys2Proof

/-- A byte of a bus transaction or of a byte buffer. -/
abbrev Byte := BitVec 8

/-- A 32-bit data register, host register or FX value (spec/10_state.md R21, spec/40_numerics.md R130). -/
abbrev Word := BitVec 32

/-- A 64-bit count of microseconds (spec/10_state.md R36). -/
abbrev Stamp := BitVec 64

/-- A value for each of the axes X, Y, Z (indices 0, 1, 2 of the spec's `[0..2]` arrays). -/
structure Vec3 where
  x : Word
  y : Word
  z : Word
deriving DecidableEq, Repr

/-- The same word on the three axes. -/
def Vec3.all (v : Word) : Vec3 := ⟨v, v, v⟩

/-- A 3×3 matrix by rows, `cal_mmat[r][c]` of spec/10_state.md R28. -/
structure Mat3 where
  r0 : Vec3
  r1 : Vec3
  r2 : Vec3
deriving DecidableEq, Repr

/-- The two devices of the register bus: `DEV` = 0 and `DEV` = 1 (spec/30_encoding.md R109). -/
inductive Dev where
  | ag
  | mg
deriving DecidableEq, Repr

/-- The number of a device in the `DEV` fields. -/
def Dev.num : Dev → Nat
  | .ag => 0
  | .mg => 1

end Sys2Proof
end

