-- ==== Sys2Proof/Syntax.lean ====
section
/-! DEFINITION. The command words of the core as an inductive type: one constructor for each row of
spec/opcode_table.json (spec/30_encoding.md R108 to R110). -/

namespace Sys2Proof

/-- A command. Field widths are those of spec/30_encoding.md R109 with the must-be-zero bits of R110
taken away; values that R112 forbids are still terms and are refused by `Instr.wellFormed`. -/
inductive Instr where
  /-- BT.WRITE, spec/41_bus_transport.md R156 -/
  | btWrite (a : BitVec 7) (reg : Byte) (len : BitVec 11)
  /-- BT.READ, R157 -/
  | btRead (a : BitVec 7) (reg : Byte) (len : BitVec 11)
  /-- BT.WRBYTE, R158 -/
  | btWrbyte (a : BitVec 7) (reg : Byte) (val : Byte)
  /-- BT.RDBYTE, R159 -/
  | btRdbyte (a : BitVec 7) (reg : Byte)
  /-- RD.RBIT, spec/42_register_device.md R174 -/
  | rdRbit (dev : Dev) (reg : Byte) (first : BitVec 3)
  /-- RD.WBIT, R175 -/
  | rdWbit (dev : Dev) (reg : Byte) (first : BitVec 3) (val : BitVec 1)
  /-- RD.RBITS, R176 -/
  | rdRbits (dev : Dev) (reg : Byte) (first : BitVec 3) (flen : BitVec 4)
  /-- RD.WBITS, R177 -/
  | rdWbits (dev : Dev) (reg : Byte) (first : BitVec 3) (flen : BitVec 4) (val : Byte)
  /-- AG.INIT, spec/43_accel_gyro.md R194 -/
  | agInit
  /-- AG.SETAR, R197 -/
  | agSetar (code : BitVec 2)
  /-- AG.SETGR, R198 -/
  | agSetgr (code : BitVec 2)
  /-- AG.RDARAW, R200 -/
  | agRdaraw
  /-- AG.RDGRAW, R201 -/
  | agRdgraw
  /-- AG.RDA, R202 -/
  | agRda
  /-- AG.RDG, R203 -/
  | agRdg
  /-- MG.INIT, spec/44_mag.md R224 -/
  | mgInit
  /-- MG.SETMODE, R226 -/
  | mgSetmode (mode : BitVec 3)
  /-- MG.SETRES, R228 -/
  | mgSetres (code : BitVec 1)
  /-- MG.RDRAW, R234 -/
  | mgRdraw
  /-- MG.RD, R235 -/
  | mgRd
  /-- MG.GETOVF, R236 -/
  | mgGetovf
  /-- SA.POLLA, spec/45_aggregator.md R254 -/
  | saPolla
  /-- SA.POLLG, R255 -/
  | saPollg
  /-- SA.POLLM, R256 -/
  | saPollm
  /-- SA.POLL, R257 -/
  | saPoll
  /-- SA.RDYA, R258 -/
  | saRdya
  /-- SA.RDYG, R259 -/
  | saRdyg
  /-- SA.RDYM, R260 -/
  | saRdym
  /-- CA.APPLY, spec/46_calibration.md R275 -/
  | caApply (mask : BitVec 3)
  /-- OE.STEP, spec/47_estimator.md R288 -/
  | oeStep
  /-- SS.RUN, spec/48_scheduler.md R302 -/
  | ssRun (count : BitVec 16)
deriving DecidableEq, Repr

end Sys2Proof
end

