-- ==== Sys2Proof/WellFormed.lean ====
section
/-! DEFINITION. Which operand values make a legal command (spec/30_encoding.md R92, R112), as checks
on the command alone. (That SS.RUN is illegal with `ss_period = 0` is a check on the state and stands
in its meaning.) -/

namespace Sys2Proof

/-- The valid `(firstBit, length)` pairs of spec/30_encoding.md R92, R112. -/
def validField (first : BitVec 3) (flen : BitVec 4) : Bool :=
  decide (1 ≤ flen.toNat) && decide (flen.toNat ≤ 8) && decide (flen.toNat ≤ first.toNat + 1)

/-- The legal lengths of BT.READ (R112). -/
def validReadLen (len : BitVec 11) : Bool := decide (1 ≤ len.toNat) && decide (len.toNat ≤ 511)

/-- The legal mode numbers of MG.SETMODE (R112). -/
def validMode (mode : BitVec 3) : Bool := decide (mode.toNat ≠ 7)

/-- A command whose operands R112 allows. -/
def Instr.wellFormed : Instr → Bool
  | .btWrite _ _ _ => true
  | .btRead _ _ len => validReadLen len
  | .btWrbyte _ _ _ => true
  | .btRdbyte _ _ => true
  | .rdRbit _ _ _ => true
  | .rdWbit _ _ _ _ => true
  | .rdRbits _ _ first flen => validField first flen
  | .rdWbits _ _ first flen _ => validField first flen
  | .agInit => true
  | .agSetar _ => true
  | .agSetgr _ => true
  | .agRdaraw => true
  | .agRdgraw => true
  | .agRda => true
  | .agRdg => true
  | .mgInit => true
  | .mgSetmode mode => validMode mode
  | .mgSetres _ => true
  | .mgRdraw => true
  | .mgRd => true
  | .mgGetovf => true
  | .saPolla => true
  | .saPollg => true
  | .saPollm => true
  | .saPoll => true
  | .saRdya => true
  | .saRdyg => true
  | .saRdym => true
  | .caApply _ => true
  | .oeStep => true
  | .ssRun _ => true

end Sys2Proof
end

