-- ==== Sys2Proof/Decode.lean ====
section
/-! DEFINITION. The decoder and the encoder of command words (spec/30_encoding.md R108 to R113). A
command word is one 32-bit value; the host register map has no byte order (spec/10_state.md R40), so
there is none here. -/

namespace Sys2Proof

/-- Why a word is no legal command, the three clauses of spec/30_encoding.md R111. -/
inductive DecodeError where
  /-- (a) the opcode is not in the opcode map of R110 -/
  | reservedOpcode
  /-- (b) a field that must be zero is not -/
  | nonzeroField
  /-- (c) an operand has a value R112 forbids -/
  | forbiddenOperand
deriving DecidableEq, Repr

/-- `OPC`, bits 31:26 (R108). -/
def opcOf (w : Word) : BitVec 6 := w.extractLsb' 26 6

/-- `A`, bits 25:19 of formats T and V. -/
def fldA (w : Word) : BitVec 7 := w.extractLsb' 19 7

/-- `REG`, bits 18:11 of formats T and V. -/
def fldReg (w : Word) : Byte := w.extractLsb' 11 8

/-- `LEN`, bits 10:0 of format T. -/
def fldLen (w : Word) : BitVec 11 := w.extractLsb' 0 11

/-- `VAL`, bits 7:0 of formats V and B. -/
def fldVal (w : Word) : Byte := w.extractLsb' 0 8

/-- `DEV`, bit 25 of format B. -/
def fldDev (w : Word) : Dev := if w.extractLsb' 25 1 = 1#1 then .mg else .ag

/-- `REG`, bits 24:17 of format B. -/
def fldRegB (w : Word) : Byte := w.extractLsb' 17 8

/-- `FIRST`, bits 16:14 of format B. -/
def fldFirst (w : Word) : BitVec 3 := w.extractLsb' 14 3

/-- `FLEN`, bits 13:10 of format B. -/
def fldFlen (w : Word) : BitVec 4 := w.extractLsb' 10 4

/-- Decoding one command: the must-be-zero bits first (R111 b), then R112 (R111 c). -/
def checked (zeros : Bool) (i : Instr) : Except DecodeError Instr :=
  if zeros then (if i.wellFormed then .ok i else .error .forbiddenOperand) else .error .nonzeroField

/-- The command a word encodes, or why it is illegal. -/
def decode (w : Word) : Except DecodeError Instr :=
  match (opcOf w).toNat with
  | 0x01 => checked true (.btWrite (fldA w) (fldReg w) (fldLen w))
  | 0x02 => checked true (.btRead (fldA w) (fldReg w) (fldLen w))
  | 0x03 => checked (w.extractLsb' 8 3 == 0) (.btWrbyte (fldA w) (fldReg w) (fldVal w))
  | 0x04 => checked (w.extractLsb' 0 11 == 0) (.btRdbyte (fldA w) (fldReg w))
  | 0x08 => checked (w.extractLsb' 0 14 == 0) (.rdRbit (fldDev w) (fldRegB w) (fldFirst w))
  | 0x09 => checked (w.extractLsb' 1 13 == 0)
      (.rdWbit (fldDev w) (fldRegB w) (fldFirst w) (w.extractLsb' 0 1))
  | 0x0A => checked (w.extractLsb' 0 10 == 0)
      (.rdRbits (fldDev w) (fldRegB w) (fldFirst w) (fldFlen w))
  | 0x0B => checked (w.extractLsb' 8 2 == 0)
      (.rdWbits (fldDev w) (fldRegB w) (fldFirst w) (fldFlen w) (fldVal w))
  | 0x10 => checked (w.extractLsb' 0 26 == 0) .agInit
  | 0x11 => checked (w.extractLsb' 2 24 == 0) (.agSetar (w.extractLsb' 0 2))
  | 0x12 => checked (w.extractLsb' 2 24 == 0) (.agSetgr (w.extractLsb' 0 2))
  | 0x13 => checked (w.extractLsb' 0 26 == 0) .agRdaraw
  | 0x14 => checked (w.extractLsb' 0 26 == 0) .agRdgraw
  | 0x15 => checked (w.extractLsb' 0 26 == 0) .agRda
  | 0x16 => checked (w.extractLsb' 0 26 == 0) .agRdg
  | 0x18 => checked (w.extractLsb' 0 26 == 0) .mgInit
  | 0x19 => checked (w.extractLsb' 3 23 == 0) (.mgSetmode (w.extractLsb' 0 3))
  | 0x1A => checked (w.extractLsb' 1 25 == 0) (.mgSetres (w.extractLsb' 0 1))
  | 0x1B => checked (w.extractLsb' 0 26 == 0) .mgRdraw
  | 0x1C => checked (w.extractLsb' 0 26 == 0) .mgRd
  | 0x1D => checked (w.extractLsb' 0 26 == 0) .mgGetovf
  | 0x20 => checked (w.extractLsb' 0 26 == 0) .saPolla
  | 0x21 => checked (w.extractLsb' 0 26 == 0) .saPollg
  | 0x22 => checked (w.extractLsb' 0 26 == 0) .saPollm
  | 0x23 => checked (w.extractLsb' 0 26 == 0) .saPoll
  | 0x24 => checked (w.extractLsb' 0 26 == 0) .saRdya
  | 0x25 => checked (w.extractLsb' 0 26 == 0) .saRdyg
  | 0x26 => checked (w.extractLsb' 0 26 == 0) .saRdym
  | 0x28 => checked (w.extractLsb' 3 23 == 0) (.caApply (w.extractLsb' 0 3))
  | 0x29 => checked (w.extractLsb' 0 26 == 0) .oeStep
  | 0x30 => checked (w.extractLsb' 16 10 == 0) (.ssRun (w.extractLsb' 0 16))
  | _ => .error .reservedOpcode

/-- The opcode of a command (R110). -/
def Instr.opc : Instr → BitVec 6
  | .btWrite _ _ _ => 0x01
  | .btRead _ _ _ => 0x02
  | .btWrbyte _ _ _ => 0x03
  | .btRdbyte _ _ => 0x04
  | .rdRbit _ _ _ => 0x08
  | .rdWbit _ _ _ _ => 0x09
  | .rdRbits _ _ _ _ => 0x0A
  | .rdWbits _ _ _ _ _ => 0x0B
  | .agInit => 0x10
  | .agSetar _ => 0x11
  | .agSetgr _ => 0x12
  | .agRdaraw => 0x13
  | .agRdgraw => 0x14
  | .agRda => 0x15
  | .agRdg => 0x16
  | .mgInit => 0x18
  | .mgSetmode _ => 0x19
  | .mgSetres _ => 0x1A
  | .mgRdraw => 0x1B
  | .mgRd => 0x1C
  | .mgGetovf => 0x1D
  | .saPolla => 0x20
  | .saPollg => 0x21
  | .saPollm => 0x22
  | .saPoll => 0x23
  | .saRdya => 0x24
  | .saRdyg => 0x25
  | .saRdym => 0x26
  | .caApply _ => 0x28
  | .oeStep => 0x29
  | .ssRun _ => 0x30

/-- `DEV` as its bit. -/
def Dev.bits : Dev → BitVec 1
  | .ag => 0
  | .mg => 1

/-- Format T or V operands: `A`, `REG`, and the low 11 bits (R109). -/
def formatTV (a : BitVec 7) (reg : Byte) (low : BitVec 11) : BitVec 26 := a ++ reg ++ low

/-- Format B operands (R109). -/
def formatB (dev : Dev) (reg : Byte) (first : BitVec 3) (flen : BitVec 4) (val : Byte) : BitVec 26 :=
  dev.bits ++ reg ++ first ++ flen ++ 0#2 ++ val

/-- Bits 25:0 of a command word, the operands in the format R110 gives the command. -/
def Instr.operands : Instr → BitVec 26
  | .btWrite a reg len => formatTV a reg len
  | .btRead a reg len => formatTV a reg len
  | .btWrbyte a reg val => formatTV a reg (0#3 ++ val)
  | .btRdbyte a reg => formatTV a reg 0
  | .rdRbit dev reg first => formatB dev reg first 0 0
  | .rdWbit dev reg first val => formatB dev reg first 0 (0#7 ++ val)
  | .rdRbits dev reg first flen => formatB dev reg first flen 0
  | .rdWbits dev reg first flen val => formatB dev reg first flen val
  | .agInit => 0
  | .agSetar code => 0#24 ++ code
  | .agSetgr code => 0#24 ++ code
  | .agRdaraw => 0
  | .agRdgraw => 0
  | .agRda => 0
  | .agRdg => 0
  | .mgInit => 0
  | .mgSetmode mode => 0#23 ++ mode
  | .mgSetres code => 0#25 ++ code
  | .mgRdraw => 0
  | .mgRd => 0
  | .mgGetovf => 0
  | .saPolla => 0
  | .saPollg => 0
  | .saPollm => 0
  | .saPoll => 0
  | .saRdya => 0
  | .saRdyg => 0
  | .saRdym => 0
  | .caApply mask => 0#23 ++ mask
  | .oeStep => 0
  | .ssRun count => 0#10 ++ count

/-- The word of a command: opcode in bits 31:26, operands below (R108). -/
def encode (i : Instr) : Word := i.opc ++ i.operands

/-- The command the decoder reads from a table row's word, given as `nbits` bits of `w` (bit 0 the
least significant; bits from `nbits` up are zero). -/
def decodeTableWord (nbits w : Nat) : Option Instr :=
  match decode (BitVec.ofNat 32 (w % 2 ^ nbits)) with
  | .ok i => some i
  | .error _ => none

end Sys2Proof
end

