-- ==== Sys2Proof/Config.lean ====
section
/-! DEFINITION. What an implementation fixes (spec/00_scope.md R8) and the free values.

The constants AHRS-SPEC or a decision of the spec fixes are definitions here. The parameters for which
the spec gives only a default are the fields of `Params`; a value of `Params` stands in the state
(notes/assumptions/5.md), so that every statement about all states is about all parameters. Values the
spec leaves open with no limit are opaque constants. -/

namespace Sys2Proof

/-- A RegisterSpec, a bit-field of a device register `(reg, firstBit, length)` (spec/30_encoding.md R92). Only
valid ones are in the type, since every entry of a register map or of an initialization table must be one
(R100, R101). -/
structure RegSpec where
  reg : Byte
  first : Nat
  len : Nat
  /-- the pair `(firstBit, length)` is valid (R92) -/
  valid : first ≤ 7 ∧ 1 ≤ len ∧ len ≤ first + 1 := by decide
deriving DecidableEq, Repr

/-- A micro-operation of an initialization stage (spec/43_accel_gyro.md R192). -/
inductive MicroOp where
  /-- a bit-field write -/
  | wbits (f : RegSpec) (v : Byte)
  /-- a byte write -/
  | wbyte (reg v : Byte)
  /-- the routine `AG_SETGR` -/
  | setgr (code : BitVec 2)
  /-- the routine `AG_SETAR` -/
  | setar (code : BitVec 2)
  /-- a wait of `d` microseconds -/
  | delay (d : Nat)
deriving DecidableEq, Repr

/-- `AG_INIT_TABLE`: the micro-operations of each of the five stages, under the name of the state the
stage reaches (R191, R193). -/
structure InitTable where
  reset : List MicroOp
  clock : List MicroOp
  filters : List MicroOp
  bypass : List MicroOp
  range : List MicroOp
deriving DecidableEq, Repr

/-- `MG_MODE_CODE[0..6]`, the device code of each magnetometer mode (spec/30_encoding.md R104). -/
structure ModeCodes where
  powerDown : Byte
  single : Byte
  cont8Hz : Byte
  cont100Hz : Byte
  extTrigger : Byte
  selfTest : Byte
  fuseRom : Byte
deriving DecidableEq, Repr

/-- The implementation parameters that have only a default (spec/00_scope.md R8, spec/30_encoding.md
R100, R101, R104, spec/43_accel_gyro.md R193): the tables that R100 and R101 admit. `REGMAP` entries that
only the initialization table uses stand in the table itself. -/
structure Params where
  /-- `AG_BUS_ADDR` -/
  agAddr : BitVec 7
  /-- `MG_BUS_ADDR` -/
  mgAddr : BitVec 7
  /-- `AG_F_GFS` -/
  agGfs : RegSpec
  /-- `AG_F_AFS` -/
  agAfs : RegSpec
  /-- the range selectors have 2 bits (R100) -/
  rangeBits : agGfs.len = 2 ∧ agAfs.len = 2 := by decide
  /-- `AG_ACCEL_OUT` -/
  agAccelOut : Byte
  /-- `AG_GYRO_OUT` -/
  agGyroOut : Byte
  /-- `AG_INIT_TABLE` -/
  agInit : InitTable
  /-- `MG_F_MODE` -/
  mgMode : RegSpec
  /-- `MG_F_BIT` -/
  mgBit : RegSpec
  /-- `MG_MODE_CODE` -/
  mgModeCode : ModeCodes
  /-- `MG_ASA` -/
  mgAsa : Byte
  /-- `MG_BURST_REG` -/
  mgBurstReg : Byte
  /-- `MG_DRDY_BIT`, a bit of a byte -/
  mgDrdyBit : Fin 8
  /-- `MG_HOFL_BIT`, a bit of a byte -/
  mgHoflBit : Fin 8
  /-- `MAG_LOW_BYTE_FIRST` -/
  magLowByteFirst : Bool
  /-- `POLICY_RESET` -/
  policyReset : Bool
deriving DecidableEq, Repr

namespace Config

/-- `WR_MAX`, the largest payload of one write (R8). -/
def wrMax : Nat := 511

/-- `RD_ATTEMPTS` (R8, spec/90_conflicts.md C3). -/
def rdAttempts : Nat := 5

/-- `RD_RETRY_US` (R8). -/
def rdRetryUs : Nat := 10000

/-- `MG_SETTLE_US` (R8). -/
def mgSettleUs : Nat := 100

/-- `PERIOD_RESET` (R8). -/
def periodReset : Word := 10000

/-- `MG_BURST_LEN` (spec/30_encoding.md R101, R102); spec/44_mag.md R229 reads 8 bytes. -/
def mgBurstLen : Nat := 8

/-- `A_GYRO`, 0.98 in FX (spec/40_numerics.md R137). -/
def aGyro : Word := 64225

/-- `A_ACC`, 0.02 in FX (R137). -/
def aAcc : Word := 1311

/-- `AG_F_HRESET`. PRESUMED (spec/93 GK1). -/
def agFHreset : RegSpec where
  reg := 0x6B
  first := 7
  len := 1

/-- `AG_F_CLKSEL`. PRESUMED (GK1). -/
def agFClksel : RegSpec where
  reg := 0x6B
  first := 2
  len := 3

/-- `AG_F_DLPF`. PRESUMED (GK1). -/
def agFDlpf : RegSpec where
  reg := 0x1A
  first := 2
  len := 3

/-- `AG_SMPLRT_DIV`, the offset. PRESUMED (GK1). -/
def agSmplrtDiv : Byte := 0x19

/-- `AG_F_I2CMST`. PRESUMED (GK1). -/
def agFI2cmst : RegSpec where
  reg := 0x6A
  first := 5
  len := 1

/-- `AG_F_BYPASS`. PRESUMED (GK1). -/
def agFBypass : RegSpec where
  reg := 0x37
  first := 1
  len := 1

/-- `AG_DLPF_CFG` (spec D17). PRESUMED (GK4). -/
def agDlpfCfg : Byte := 3

/-- `AG_RATE_DIV` (spec D17). PRESUMED (GK4). -/
def agRateDiv : Byte := 9

/-- `AG_INIT_ARANGE` (spec D17). -/
def agInitArange : BitVec 2 := 0

/-- `AG_INIT_GRANGE` (spec D17). -/
def agInitGrange : BitVec 2 := 0

/-- The default `AG_INIT_TABLE` of spec/43_accel_gyro.md R193. PRESUMED (GK4). -/
def initTable : InitTable where
  reset := [.wbits agFHreset 1]
  clock := [.wbits agFClksel 1]
  filters := [.wbits agFDlpf agDlpfCfg, .wbyte agSmplrtDiv agRateDiv]
  bypass := [.wbits agFI2cmst 0, .wbits agFBypass 1]
  range := [.setgr agInitGrange, .setar agInitArange]

/-- The defaults of spec/00_scope.md R8 and spec/30_encoding.md R100, R101, R104. PRESUMED (GK1 to
GK3) but for the last two, whose values the spec gives for this hardware. -/
def defaults : Params where
  agAddr := 0x68
  mgAddr := 0x0C
  agGfs := { reg := 0x1B, first := 4, len := 2 }
  agAfs := { reg := 0x1C, first := 4, len := 2 }
  agAccelOut := 0x3B
  agGyroOut := 0x43
  agInit := initTable
  mgMode := { reg := 0x0A, first := 3, len := 4 }
  mgBit := { reg := 0x0A, first := 4, len := 1 }
  mgModeCode := ⟨0b0000, 0b0001, 0b0010, 0b0110, 0b0100, 0b1000, 0b1111⟩
  mgAsa := 0x10
  mgBurstReg := 0x02
  mgDrdyBit := 0
  mgHoflBit := 3
  magLowByteFirst := false
  policyReset := false

/-- The free part of `ATAN2D` (spec/40_numerics.md R140): its value off the anchors, before the range
of P-A2 is imposed. DESIGN CHOICE, notes/assumptions/10.md. -/
opaque atan2dFree : Word → Word → Word

/-- The free part of `SIND` (R140). DESIGN CHOICE, notes/assumptions/10.md. -/
opaque sindFree : Word → Word

/-- The free part of `COSD` (R140). DESIGN CHOICE, notes/assumptions/10.md. -/
opaque cosdFree : Word → Word

/-- `TRIG_ERR`, the named parameter of the accuracy of the three functions, in units in the last place
(spec/40_numerics.md R143): no value is given, notes/assumptions/11.md. -/
opaque trigErr : Nat

/-- The bytes `rxbuf` holds after a read that raised (spec/93 U9): the draw's number and the index.
DESIGN CHOICE, notes/assumptions/12.md. -/
opaque rxByteFree : Nat → Nat → Byte

/-- What the host reads from a register whose value the spec leaves open (spec/93 U10): the draw's
number. DESIGN CHOICE, notes/assumptions/13.md. -/
opaque hostWordFree : Nat → Word

end Config

end Sys2Proof
end

