-- ==== Sys2Proof/Machine/State.lean ====
section
/-! DEFINITION. The state of the core (spec/10_state.md R20 to R36), grouped by the unit that owns it,
with the environment of spec/00_scope.md R7 as plain data beside it, and the state after reset (R58). -/

namespace Sys2Proof.Machine

open Sys2Proof

/-- A byte-addressed memory the core owns (`txbuf`, `rxbuf`): cells with rising addresses, none of them
equal to the reset byte 0, which is what an unlisted address reads as (spec/10_state.md R24). -/
abbrev Memory := List Host.Cell

/-! ## The environment (spec/20_memory.md R62, R78; spec/60_exceptions.md R335) -/

/-- What the bus environment may answer to a primitive (R62). -/
inductive Answer where
  /-- `BusSelect` answered `ok` -/
  | selectOk
  /-- `BusSelect` answered `fail` -/
  | selectFail
  /-- `BusWrite` answered `Done(k)` -/
  | wrote (k : Nat)
  /-- `BusRead` answered `Done(k, bs)` with `k = bs.length` -/
  | received (bs : List Byte)
  /-- `BusWrite` or `BusRead` answered `TimedOut` -/
  | timedOut
deriving DecidableEq, Repr

/-- One host access (spec/10_state.md R40). -/
inductive HostAccess where
  /-- an aligned 32-bit read, if the address is a multiple of 4 -/
  | read (addr : BitVec 9)
  /-- an aligned 32-bit write, if the address is a multiple of 4 -/
  | write (addr : BitVec 9) (v : Word)
  /-- an access of another width (R57 gives it no meaning) -/
  | partWord (addr : BitVec 9)
deriving DecidableEq, Repr

/-- What can happen outside the core between two of its steps. -/
inductive Outside where
  /-- `d` microseconds pass on the timebase -/
  | elapse (d : Nat)
  /-- the host makes an access -/
  | host (a : HostAccess)
  /-- `rst` is asserted (spec/70_reset_and_hazards.md R360) -/
  | rst
  /-- `rst` is released (R360) -/
  | release
deriving DecidableEq, Repr

/-- The environment's moves. A `turn` is the core's: the moves before it, back to the bus answer before
them, come before the core's next internal step (`turnAhead`). -/
inductive Event where
  | outside (o : Outside)
  | turn
  | answer (a : Answer)
deriving DecidableEq, Repr

/-- What the core sends out: the bus primitives and waits it enters (spec/20_memory.md R62, R75) and
the words host reads return. -/
inductive PortEvent where
  | select (a : BitVec 7)
  | write (bs : List Byte)
  | read (n : Nat)
  | wait (d : Nat)
  | waitUntil (t : Stamp)
  | hostData (addr : BitVec 9) (v : Word)
deriving DecidableEq, Repr

/-! ## The units -/

/-- The bits of `CTRL` (spec/10_state.md R44), each the storage of the state element R44 names. -/
structure Ctrl where
  btAttach : Bool
  agTAttach : Bool
  mgTAttach : Bool
  saAcc : Bool
  saGyr : Bool
  saMag : Bool
  cancel : Bool
  outRaw : Bool
  policyStale : Bool
  ieRec : Bool
  ieDone : Bool
deriving DecidableEq, Repr

/-- BusTransport (R23): `bt_sel`, `bt_attempt`. -/
structure Transport where
  sel : Option (BitVec 7)
  attempt : Nat
deriving DecidableEq, Repr

/-- The byte buffers of the transport and their pointers (R24). -/
structure Buffers where
  tx : Memory
  txLen : Nat
  rx : Memory
  rxLen : Nat
  rxRptr : Nat
deriving DecidableEq, Repr

/-- The initialization states of the AccelGyroDriver, numbers 0 to 6 (R25). -/
inductive AgState where
  | uninitialized
  | reset
  | clockConfigured
  | filtersConfigured
  | bypassConfigured
  | rangeConfigured
  | ready
deriving DecidableEq, Repr

/-- AccelGyroDriver (R25). -/
structure AgDriver where
  state : AgState
  arange : BitVec 2
  ares : Word
  grange : BitVec 2
  gres : Word
deriving DecidableEq, Repr

/-- The modes of the magnetometer, numbers 0 to 6 (R26). -/
inductive MagMode where
  | powerDown
  | single
  | cont8Hz
  | cont100Hz
  | extTrigger
  | selfTest
  | fuseRom
deriving DecidableEq, Repr

/-- MagDriver (R26). -/
structure MgDriver where
  mode : MagMode
  stage : BitVec 3
  initDone : Bool
  adj : Vec3
  resbit : BitVec 1
  res : Word
  ovf : Bool
deriving DecidableEq, Repr

/-- SensorAggregator (R27): `raw_ok[A, G, M]`, `raw_ts`. -/
structure Aggregator where
  okA : Bool
  okG : Bool
  okM : Bool
  ts : Stamp
deriving DecidableEq, Repr

/-- CalibrationProfile (R28). -/
structure Profile where
  aoff : Vec3
  goff : Vec3
  moff : Vec3
  mmat : Mat3
deriving DecidableEq, Repr

/-- The sequencer position `(op, phase)` of a running command (R30). -/
structure SeqPos where
  op : BitVec 6
  phase : BitVec 8
deriving DecidableEq, Repr

/-- The place inside a tick, `ss_phase` 0 to 5 (R31). -/
inductive SsPhase where
  | idle
  | startStamp
  | poll
  | fuse
  | emit
  | wait
deriving DecidableEq, Repr

/-- SamplingScheduler (R31). `count` and `ran` are the locals `count` and `n` of `SS_RUN`
(spec/48_scheduler.md R302), which live as long as the command does (notes/assumptions/25.md). -/
structure Sched where
  running : Bool
  epoch : Stamp
  period : Word
  lastTs : Stamp
  left : BitVec 16
  ticks : Word
  phase : SsPhase
  tStart : Stamp
  tEnd : Stamp
  lasttick : Word
  count : BitVec 16
  ran : Nat
deriving DecidableEq, Repr

/-- The output record (R32). -/
structure Rcd where
  roll : Word
  pitch : Word
  head : Word
  mag : Vec3
  tStart : Stamp
  tEnd : Stamp
  valid : Bool
  ovr : Bool
deriving DecidableEq, Repr

/-- Command and status (R33). -/
structure CmdStatus where
  busy : Bool
  done : Bool
  fail : Bool
  cmdOvr : Bool
  fxSat : Bool
  err : Word
deriving DecidableEq, Repr

/-- The state of the core, and the model's own fields after it. -/
structure State where
  /-- `x[0..31]` (R21) -/
  x : Vector Word 32
  ctrl : Ctrl
  bt : Transport
  buf : Buffers
  ag : AgDriver
  mg : MgDriver
  sa : Aggregator
  cal : Profile
  /-- `est_ts` (R29) -/
  estTs : Stamp
  /-- `seq`, `none` when idle (R30) -/
  seq : Option SeqPos
  ss : Sched
  rcd : Rcd
  cmd : CmdStatus
  /-- the read-modify-write temporary (R35 d) -/
  rmw : Byte
  /-- whether the input `rst` is asserted (spec/70_reset_and_hazards.md R360) -/
  held : Bool
  /-- the implementation parameters; no step changes them (notes/assumptions/5.md) -/
  cfg : Params
  /-- the timebase's present count (R36) -/
  clock : Stamp
  /-- what the outside will do, in order (notes/assumptions/2.md) -/
  env : List Event
  /-- what the core has sent out, newest first (notes/assumptions/24.md) -/
  port : List PortEvent
  /-- how many free values were drawn (notes/assumptions/32.md) -/
  free : Nat
deriving DecidableEq, Repr

/-- Why the machine stops. -/
inductive Fault where
  /-- A bus primitive the core has issued is never answered: nothing more comes from outside and the
  core stays in the primitive for ever with `busy` = 1 (spec/93 U1 "stuck", spec/20_memory.md R62).
  Raised where a primitive waits for its answer. Safe: it is the spec's own outcome. -/
  | busHung
deriving DecidableEq, Repr

/-- Why the model gives no meaning. -/
inductive Refusal where
  /-- The instruction has no meaning yet, by its mnemonic. No arm of `exec` answers it. Safe. -/
  | notModelled (mnemonic : String)
  /-- A host access that is not an aligned 32-bit word (spec/10_state.md R57, spec/93 U5 "refuse").
  Raised where a host access is made. Safe. -/
  | unalignedHostAccess
  /-- The timebase, or the deadline of a wait, passes 2^64 - 1 (spec/93 U7 "refuse"). Raised where time
  passes. Safe. -/
  | timebaseWrap
  /-- `ss_epoch + ss_period` passes 2^64 - 1 (spec/93 U7 "refuse"). Raised by the loop of SS.RUN. Safe. -/
  | epochWrap
deriving DecidableEq, Repr

/-- The state when `rst` is released, for given parameters (R58), nothing outside having happened. -/
def State.resetFor (p : Params) : State where
  x := Vector.replicate 32 0
  ctrl := ⟨false, false, false, false, false, false, false, false, p.policyReset, false, false⟩
  bt := ⟨none, 0⟩
  buf := ⟨[], 0, [], 0, 0⟩
  ag := ⟨.uninitialized, 0, 4, 0, 500⟩
  mg := ⟨.powerDown, 0, false, Vec3.all 65536, 0, 39322, false⟩
  sa := ⟨false, false, false, 0⟩
  cal := ⟨Vec3.all 0, Vec3.all 0, Vec3.all 0, ⟨⟨65536, 0, 0⟩, ⟨0, 65536, 0⟩, ⟨0, 0, 65536⟩⟩⟩
  estTs := 0
  seq := none
  ss := ⟨false, 0, Config.periodReset, 0, 0, 0, .idle, 0, 0, 0, 0, 0⟩
  rcd := ⟨0, 0, 0, Vec3.all 0, 0, 0, false, false⟩
  cmd := ⟨false, false, false, false, false, 0⟩
  rmw := 0
  held := false
  cfg := p
  clock := 0
  env := []
  port := []
  free := 0

/-- The machine right after reset, with the default parameters. -/
def State.reset : State := State.resetFor Config.defaults

end Sys2Proof.Machine
end

