-- ==== Sys2Proof/Machine/Operands.lean ====
section
/-! DEFINITION. The operand forms: bit-fields of a device byte, axis pairs, code numbers and resolution
tables (spec/30_encoding.md R92 to R107, spec/20_memory.md R67, R68). -/

namespace Sys2Proof.Machine

open Sys2Proof

/-! ## Bit-fields (R93, R94) -/

/-- `shift = firstBit - length + 1`, for a valid pair. -/
def fieldShift (first len : Nat) : Nat := first + 1 - len

/-- `mask = ((1 << length) - 1) << shift`, 8 bits (spec/90_conflicts.md C6). -/
def fieldMask (first len : Nat) : Byte := BitVec.ofNat 8 (((1 <<< len) - 1) <<< fieldShift first len)

/-- Extraction, `(byte & mask) >> shift`. -/
def fieldGet (first len : Nat) (b : Byte) : Byte := (b &&& fieldMask first len) >>> fieldShift first len

/-- Insertion, `(byte & ~mask) | ((v << shift) & mask)`. -/
def fieldPut (first len : Nat) (b v : Byte) : Byte :=
  (b &&& ~~~fieldMask first len) ||| ((v <<< fieldShift first len) &&& fieldMask first len)

/-! ## Devices and codes -/

/-- The BusAddress of a device (spec/42_register_device.md R170). -/
def busAddr (p : Params) : Dev → BitVec 7
  | .ag => p.agAddr
  | .mg => p.mgAddr

/-- The number of an initialization state (spec/10_state.md R25). -/
def agStateNum : AgState → BitVec 3
  | .uninitialized => 0
  | .reset => 1
  | .clockConfigured => 2
  | .filtersConfigured => 3
  | .bypassConfigured => 4
  | .rangeConfigured => 5
  | .ready => 6

/-- The number of a mode (spec/10_state.md R26, spec/30_encoding.md R104). -/
def magModeNum : MagMode → BitVec 3
  | .powerDown => 0
  | .single => 1
  | .cont8Hz => 2
  | .cont100Hz => 3
  | .extTrigger => 4
  | .selfTest => 5
  | .fuseRom => 6

/-- The mode a number names; 7 names none (R104, R112). -/
def magModeOf (n : BitVec 3) : Option MagMode :=
  match n.toNat with
  | 0 => some .powerDown
  | 1 => some .single
  | 2 => some .cont8Hz
  | 3 => some .cont100Hz
  | 4 => some .extTrigger
  | 5 => some .selfTest
  | 6 => some .fuseRom
  | _ => none

/-- `MG_MODE_CODE[mode]` (R104). -/
def magModeCode (c : ModeCodes) : MagMode → Byte
  | .powerDown => c.powerDown
  | .single => c.single
  | .cont8Hz => c.cont8Hz
  | .cont100Hz => c.cont100Hz
  | .extTrigger => c.extTrigger
  | .selfTest => c.selfTest
  | .fuseRom => c.fuseRom

/-! ## Resolution tables, as FX bits -/

/-- `ARES_TABLE` (R105). -/
def aresTable (code : BitVec 2) : Word :=
  match code.toNat with
  | 0 => 4
  | 1 => 8
  | 2 => 16
  | _ => 32

/-- `GRES_TABLE` (R106). -/
def gresTable (code : BitVec 2) : Word :=
  match code.toNat with
  | 0 => 500
  | 1 => 1000
  | 2 => 2000
  | _ => 4000

/-- `MRES_TABLE` (R107). -/
def mresTable (code : BitVec 1) : Word :=
  match code.toNat with
  | 0 => 39322
  | _ => 9830

/-! ## Assembled values -/

/-- Byte `i` of a received list. -/
def byteAt (bs : List Byte) (i : Nat) : Byte := bs.getD i 0

/-- An axis pair, high byte first (spec/20_memory.md R67). -/
def axisBE (bs : List Byte) (i : Nat) : BitVec 16 := byteAt bs i ++ byteAt bs (i + 1)

/-- An axis pair, low byte first: only for `MAG_LOW_BYTE_FIRST` (R67). -/
def axisLE (bs : List Byte) (i : Nat) : BitVec 16 := byteAt bs (i + 1) ++ byteAt bs i

/-- A raw sample of three axes. -/
structure Raw3 where
  x : BitVec 16
  y : BitVec 16
  z : BitVec 16
deriving DecidableEq, Repr

/-- The decoding of a 6-byte axis burst (R68). -/
def decode6 (bs : List Byte) : Raw3 := ⟨axisBE bs 0, axisBE bs 2, axisBE bs 4⟩

/-- The axes of a magnetometer status burst, bytes 1 to 6 (spec/30_encoding.md R102, spec/44_mag.md R229). -/
def decodeBurst (lowFirst : Bool) (bs : List Byte) : Raw3 :=
  if lowFirst then ⟨axisLE bs 1, axisLE bs 3, axisLE bs 5⟩ else ⟨axisBE bs 1, axisBE bs 3, axisBE bs 5⟩

/-- A raw value as its data register holds it, `sext_16` to 32 bits (spec/30_encoding.md R95). -/
def sext16 (v : BitVec 16) : Word := v.signExtend 32

/-- A magnetometer sensitivity multiplier from a fuse-ROM byte, `(r + 128) * 256` (R96). -/
def adjOf (r : Byte) : Word := (r.zeroExtend 32 + 128) * 256

/-- A component of a vector by its index 0, 1, 2. -/
def vecGet (v : Vec3) (i : Fin 3) : Word :=
  match i with
  | 0 => v.x
  | 1 => v.y
  | 2 => v.z

/-- A vector with the component of index `i` replaced. -/
def vecPut (v : Vec3) (i : Fin 3) (w : Word) : Vec3 :=
  match i with
  | 0 => { v with x := w }
  | 1 => { v with y := w }
  | 2 => { v with z := w }

end Sys2Proof.Machine
end

