-- ==== Sys2Proof/Machine/Flags.lean ====
section
/-! DEFINITION. The errors and the status words the host reads, computed from the state
(spec/10_state.md R34, R42 to R52, spec/60_exceptions.md R320, R321, R338). -/

namespace Sys2Proof.Machine

open Sys2Proof

/-- A truth value as a bit. -/
def bit (b : Bool) : Nat := if b then 1 else 0

/-! ## Errors -/

/-- The transport errors, `Io(kind)` (R320). -/
inductive IoKind where
  | notConnected
  | selectFailed
  | shortTransfer
  | tooLarge
  | timeout
deriving DecidableEq, Repr

/-- The errors of R320. -/
inductive ErrKind where
  | io (k : IoKind)
  /-- `Driver(InitSequenceFailed)` with the stage reached and the wrapped transport error -/
  | initSequenceFailed (stage : BitVec 3) (inner : Option IoKind)
  /-- `Driver(SelfTestFailed)`: raised by nothing (spec/43_accel_gyro.md R204) -/
  | selfTestFailed
  /-- `Driver(Disconnected)`, which wraps `Io(NotConnected)` (R324) -/
  | disconnected
  /-- `Data(NotReady)` -/
  | notReady
  /-- `Data(Overflow)` -/
  | overflow
  | illegal
deriving DecidableEq, Repr

/-- An error and the device it arose on (`ERR.DEV`). -/
structure Err where
  kind : ErrKind
  dev : Dev
deriving DecidableEq, Repr

/-- The transport error an error is or wraps. -/
def ErrKind.inner : ErrKind → Option IoKind
  | .io k => some k
  | .initSequenceFailed _ k => k
  | .selfTestFailed => none
  | .disconnected => some .notConnected
  | .notReady => none
  | .overflow => none
  | .illegal => none

/-- `ERR.CLASS` (R321). -/
def ErrKind.classNum : ErrKind → Nat
  | .io _ => 1
  | .initSequenceFailed _ _ => 2
  | .selfTestFailed => 2
  | .disconnected => 2
  | .notReady => 3
  | .overflow => 3
  | .illegal => 4

/-- The `IO` number of a transport error (R321). -/
def IoKind.num : IoKind → Nat
  | .notConnected => 1
  | .selectFailed => 2
  | .shortTransfer => 3
  | .tooLarge => 4
  | .timeout => 5

/-- `ERR.IO` (R321). -/
def ErrKind.ioNum (k : ErrKind) : Nat :=
  match k.inner with
  | none => 0
  | some j => j.num

/-- `ERR.DRV` (R321). -/
def ErrKind.drvNum : ErrKind → Nat
  | .io _ => 0
  | .initSequenceFailed _ _ => 1
  | .selfTestFailed => 2
  | .disconnected => 3
  | .notReady => 0
  | .overflow => 0
  | .illegal => 0

/-- `ERR.STAGE` (R321). -/
def ErrKind.stageNum : ErrKind → Nat
  | .io _ => 0
  | .initSequenceFailed s _ => s.toNat
  | .selfTestFailed => 0
  | .disconnected => 0
  | .notReady => 0
  | .overflow => 0
  | .illegal => 0

/-- `ERR.DATA` (R321). -/
def ErrKind.dataNum : ErrKind → Nat
  | .io _ => 0
  | .initSequenceFailed _ _ => 0
  | .selfTestFailed => 0
  | .disconnected => 0
  | .notReady => 1
  | .overflow => 2
  | .illegal => 0

/-- `errword(e)` (R321). -/
def errword (e : Err) : Word :=
  BitVec.ofNat 32 (e.kind.classNum + e.kind.ioNum * 2 ^ 4 + e.kind.drvNum * 2 ^ 8
    + e.kind.stageNum * 2 ^ 12 + e.kind.dataNum * 2 ^ 16 + e.dev.num * 2 ^ 20)

/-! ## Status words -/

/-- The level of the `irq` output (R338); 0 while `rst` is asserted (spec/70_reset_and_hazards.md R360). -/
def irq (s : State) : Bool := !s.held && ((s.rcd.valid && s.ctrl.ieRec) || (s.cmd.done && s.ctrl.ieDone))

/-- `STATUS` (spec/10_state.md R42). -/
def statusWord (s : State) : Word :=
  BitVec.ofNat 32 (bit s.cmd.busy + bit s.cmd.done * 2 ^ 1 + bit s.cmd.fail * 2 ^ 2
    + bit s.ss.running * 2 ^ 3 + bit s.cmd.cmdOvr * 2 ^ 4 + bit s.rcd.valid * 2 ^ 5
    + bit s.rcd.ovr * 2 ^ 6 + bit s.cmd.fxSat * 2 ^ 7 + bit s.mg.ovf * 2 ^ 8
    + bit s.sa.okA * 2 ^ 9 + bit s.sa.okG * 2 ^ 10 + bit s.sa.okM * 2 ^ 11 + bit (irq s) * 2 ^ 12)

/-- `CTRL` (R44). -/
def ctrlWord (c : Ctrl) : Word :=
  BitVec.ofNat 32 (bit c.btAttach + bit c.agTAttach * 2 ^ 1 + bit c.mgTAttach * 2 ^ 2
    + bit c.saAcc * 2 ^ 3 + bit c.saGyr * 2 ^ 4 + bit c.saMag * 2 ^ 5 + bit c.cancel * 2 ^ 6
    + bit c.outRaw * 2 ^ 7 + bit c.policyStale * 2 ^ 8 + bit c.ieRec * 2 ^ 9 + bit c.ieDone * 2 ^ 10)

/-- The bits of a word written to `CTRL` (R44). -/
def ctrlOfWord (v : Word) : Ctrl where
  btAttach := v.getLsbD 0
  agTAttach := v.getLsbD 1
  mgTAttach := v.getLsbD 2
  saAcc := v.getLsbD 3
  saGyr := v.getLsbD 4
  saMag := v.getLsbD 5
  cancel := v.getLsbD 6
  outRaw := v.getLsbD 7
  policyStale := v.getLsbD 8
  ieRec := v.getLsbD 9
  ieDone := v.getLsbD 10

/-- `AGSTAT` (R48). -/
def agstatWord (a : AgDriver) : Word :=
  BitVec.ofNat 32 ((agStateNum a.state).toNat + a.arange.toNat * 2 ^ 4 + a.grange.toNat * 2 ^ 6)

/-- `MGSTAT` (R49). -/
def mgstatWord (m : MgDriver) : Word :=
  BitVec.ofNat 32 ((magModeNum m.mode).toNat + m.resbit.toNat * 2 ^ 4 + bit m.ovf * 2 ^ 5
    + bit m.initDone * 2 ^ 6 + m.stage.toNat * 2 ^ 8)

/-- `BUSADDR` (R52). -/
def busaddrWord (p : Params) (t : Transport) : Word :=
  BitVec.ofNat 32 (p.agAddr.toNat + p.mgAddr.toNat * 2 ^ 8
    + (match t.sel with
      | none => 0
      | some a => a.toNat * 2 ^ 16 + 2 ^ 23))

/-- `RXCTL` (R51). -/
def rxctlWord (b : Buffers) : Word := BitVec.ofNat 32 (b.rxLen % 2 ^ 11 + b.rxRptr % 2 ^ 11 * 2 ^ 16)

/-- The three `raw_ok` bits as a number, group A in bit 0. -/
def rawOkNum (a : Aggregator) : Nat := bit a.okA + bit a.okG * 2 + bit a.okM * 4

/-- `LASTTICK` (R47): `firsterr` is the error word of the first group poll that raised, or 0. -/
def lasttickWord (a : Aggregator) (fused rej : Bool) (firsterr : Word) : Word :=
  BitVec.ofNat 32 (rawOkNum a + bit fused * 2 ^ 3 + bit rej * 2 ^ 4 + firsterr.toNat % 2 ^ 24 * 2 ^ 8)

/-- The low and high half of a 64-bit value (R46). -/
def loWord (t : Stamp) : Word := t.extractLsb' 0 32

/-- The high half. -/
def hiWord (t : Stamp) : Word := t.extractLsb' 32 32

end Sys2Proof.Machine
end

