-- ==== Sys2Proof/Machine/Numerics.lean ====
section
/-! DEFINITION. The fixed-point operations and the trigonometric parameter functions
(spec/40_numerics.md R130 to R144). -/

namespace Sys2Proof.Machine

open Sys2Proof

/-- An FX value in the course of a computation: its bits, and whether `sat32` changed a value in any
operation it was computed with (R132). -/
structure Fx where
  val : Word
  sat : Bool
deriving DecidableEq, Repr

/-- An FX value that is an operand. -/
def Fx.of (v : Word) : Fx := ⟨v, false⟩

/-- The greatest FX value's bits as an integer. -/
def fxMax : Int := 2147483647

/-- The least FX value's bits as an integer. -/
def fxMin : Int := -2147483648

/-- `sat32` (R131). -/
def sat32 (v : Int) : Word :=
  if fxMax < v then BitVec.ofInt 32 fxMax
  else if v < fxMin then BitVec.ofInt 32 fxMin
  else BitVec.ofInt 32 v

/-- Whether `sat32 v` differs from `v` (R132). -/
def saturates (v : Int) : Bool := decide (fxMax < v) || decide (v < fxMin)

/-- The result of an operation whose exact integer result is `v`, from operands that saturated or not. -/
def fxResult (v : Int) (sat : Bool) : Fx := ⟨sat32 v, sat || saturates v⟩

/-- `fx_add` (R134). -/
def fxAdd (a b : Fx) : Fx := fxResult (a.val.toInt + b.val.toInt) (a.sat || b.sat)

/-- `fx_sub` (R134). -/
def fxSub (a b : Fx) : Fx := fxResult (a.val.toInt - b.val.toInt) (a.sat || b.sat)

/-- `fx_mul`: the exact product shifted right by 16, rounding toward minus infinity (R133). -/
def fxMul (a b : Fx) : Fx := fxResult (a.val.toInt * b.val.toInt / 65536) (a.sat || b.sat)

/-- `fx_scale` (R135). -/
def fxScale (raw : BitVec 16) (res : Word) : Fx := fxResult (raw.toInt * res.toInt) false

/-- `fx_from_us` (R136). -/
def fxFromUs (d : Int) : Fx := if d ≤ 0 then Fx.of 0 else fxResult (d * 1024 / 15625) false

/-- `MG_SCALE` (spec/44_mag.md R235). -/
def mgScale (raw : BitVec 16) (res adj : Word) : Fx := fxMul (fxScale raw res) (Fx.of adj)

/-! ## The parameter functions

Each is the anchors the spec names, and off them a free function limited to the named range: exactly
the functions that R140 to R142 admit (notes/assumptions/10.md). -/

/-- A word limited to `-m .. m`. -/
def limited (m : Int) (v : Word) : Word :=
  if m < v.toInt then BitVec.ofInt 32 m else if v.toInt < -m then BitVec.ofInt 32 (-m) else v

/-- `ATAN2D(y, x)`, degrees (R141: P-A2, P-A3, P-A4). -/
def atan2d (y x : Word) : Word :=
  if y = 0 then (if x.toInt < 0 then 11796480 else 0)
  else if x = 0 then (if 0 < y.toInt then 5898240 else BitVec.ofInt 32 (-5898240))
  else if y = x ∧ 0 < y.toInt then 2949120
  else limited 11796480 (Config.atan2dFree y x)

/-- The number of right angles in an angle that is a whole number of them, modulo 4. -/
def quadrant (d : Word) : Int := d.toInt / 5898240 % 4

/-- Whether an angle is `90 k` degrees for an integer `k`. -/
def rightAngle (d : Word) : Bool := d.toInt % 5898240 == 0

/-- `SIND` (R142: P-T2, P-T3). -/
def sind (d : Word) : Word :=
  if rightAngle d then
    (if quadrant d = 1 then 65536 else if quadrant d = 3 then BitVec.ofInt 32 (-65536) else 0)
  else limited 65536 (Config.sindFree d)

/-- `COSD` (R142: P-T2, P-T3). -/
def cosd (d : Word) : Word :=
  if rightAngle d then
    (if quadrant d = 0 then 65536 else if quadrant d = 2 then BitVec.ofInt 32 (-65536) else 0)
  else limited 65536 (Config.cosdFree d)

end Sys2Proof.Machine
end

