-- ==== Sys2Proof/Machine/Ops.lean ====
section
/-! DEFINITION. The named operations over the state: field updates, data registers, byte buffers, and
what starts and ends a command. The failing completion `failCommand` is this machine's analogue of
taking an exception, and the completions leave the core idle for the host's next command, which is its
analogue of returning from one (spec/60_exceptions.md R328 to R331). -/

namespace Sys2Proof.Machine

open Sys2Proof

/-! ## One update for each field of the state -/

def State.withCtrl (s : State) (v : Ctrl) : State := { s with ctrl := v }
def State.withBt (s : State) (v : Transport) : State := { s with bt := v }
def State.withBuf (s : State) (v : Buffers) : State := { s with buf := v }
def State.withAg (s : State) (v : AgDriver) : State := { s with ag := v }
def State.withMg (s : State) (v : MgDriver) : State := { s with mg := v }
def State.withSa (s : State) (v : Aggregator) : State := { s with sa := v }
def State.withCal (s : State) (v : Profile) : State := { s with cal := v }
def State.withEstTs (s : State) (v : Stamp) : State := { s with estTs := v }
def State.withSeq (s : State) (v : Option SeqPos) : State := { s with seq := v }
def State.withSs (s : State) (v : Sched) : State := { s with ss := v }
def State.withRcd (s : State) (v : Rcd) : State := { s with rcd := v }
def State.withCmd (s : State) (v : CmdStatus) : State := { s with cmd := v }
def State.withRmw (s : State) (v : Byte) : State := { s with rmw := v }
def State.withHeld (s : State) (v : Bool) : State := { s with held := v }
def State.withClock (s : State) (v : Stamp) : State := { s with clock := v }
def State.withEnv (s : State) (v : List Event) : State := { s with env := v }
def State.withPort (s : State) (v : List PortEvent) : State := { s with port := v }
def State.withFree (s : State) (v : Nat) : State := { s with free := v }

/-- `x[i] <- v` (spec/10_state.md R21: no hardwired register). -/
def State.setX (s : State) (i : Fin 32) (v : Word) : State := { s with x := s.x.set i v }

/-- `x[i]`. -/
def State.getX (s : State) (i : Fin 32) : Word := s.x.get i

/-- The general registers by number (R21). -/
def State.setX3 (s : State) (i j k : Fin 32) (a b c : Word) : State :=
  ((s.setX i a).setX j b).setX k c

/-- `x[31] <- v`, the value a command returns. -/
def setResult (s : State) (v : Word) : State := s.setX 31 v

/-- The core sends something out on a port. -/
def sendOut (s : State) (e : PortEvent) : State := s.withPort (e :: s.port)

/-- `fx_sat` is sticky: set when an operation saturated (spec/40_numerics.md R132). -/
def orSat (s : State) (sat : Bool) : State := s.withCmd { s.cmd with fxSat := s.cmd.fxSat || sat }

/-! ## The byte buffers as memories (spec/10_state.md R24) -/

/-- The byte at an address; an unlisted address reads as the reset value 0. -/
def Memory.read : Memory → Nat → Byte
  | [], _ => 0
  | (a, b) :: m, k => if a = k then b else Memory.read m k

/-- Writing a byte, keeping the canonical form. -/
def Memory.write : Memory → Nat → Byte → Memory
  | [], k, v => if v = 0 then [] else [(k, v)]
  | (a, b) :: m, k, v =>
    if k < a then (if v = 0 then (a, b) :: m else (k, v) :: (a, b) :: m)
    else if k = a then (if v = 0 then m else (k, v) :: m)
    else (a, b) :: Memory.write m k v

/-- Writing bytes at consecutive addresses from `k`. -/
def Memory.writeFrom : Memory → Nat → List Byte → Memory
  | m, _, [] => m
  | m, k, b :: bs => Memory.writeFrom (Memory.write m k b) (k + 1) bs

/-- The first `n` bytes. -/
def Memory.take (m : Memory) (n : Nat) : List Byte := (List.range n).map (Memory.read m)

/-- The canonical form: addresses strictly rising, no listed byte equal to what an unlisted one reads as. -/
def Memory.wf (m : Memory) : Bool :=
  decide (m.Pairwise fun c d => c.1 < d.1) && m.all fun c => c.2 != 0

/-- `rxbuf` after a read that raised: 511 free bytes (spec/93 U9, notes/assumptions/12.md). -/
def freeBuffer (k : Nat) : Memory :=
  ((List.range 511).map fun i => (i, Config.rxByteFree k i)).filter fun c => c.2 != 0

/-- The receive buffer after a full read (spec/41_bus_transport.md R154, R160). -/
def rxStore (s : State) (bs : List Byte) : State :=
  s.withBuf { s.buf with rx := Memory.writeFrom s.buf.rx 0 bs, rxLen := bs.length, rxRptr := 0 }

/-- The receive buffer after a read that raised (R154, R160): `rx_len` is 0, the bytes are open. -/
def rxFailed (s : State) : State :=
  (s.withBuf { s.buf with rx := freeBuffer s.free, rxLen := 0 }).withFree (s.free + 1)

/-! ## Devices -/

/-- Whether a driver has a transport (spec/42_register_device.md R170). -/
def attached (s : State) : Dev → Bool
  | .ag => s.ctrl.agTAttach
  | .mg => s.ctrl.mgTAttach

/-! ## Start and end of a command -/

/-- The sequencer goes on to its next phase (spec/10_state.md R30; the numbering is the model's,
notes/assumptions/18.md). -/
def nextPhase (s : State) : State :=
  s.withSeq (match s.seq with
    | none => none
    | some q => some { q with phase := q.phase + 1 })

/-- Start (spec/60_exceptions.md R328). -/
def startCommand (op : BitVec 6) (s : State) : State :=
  (s.withCmd { s.cmd with busy := true, done := false, fail := false, err := 0 }).withSeq (some ⟨op, 0⟩)

/-- Successful completion (R329). -/
def completeCommand (s : State) : State :=
  (s.withCmd { s.cmd with busy := false, done := true }).withSeq none

/-- Failing completion with error `e`, taking the place of exception entry (R330). `result` is what
R330 does to `x[31]` for the command. -/
def failCommand (result : State → State) (e : Err) (s : State) : State :=
  let t := result s
  (t.withCmd { t.cmd with busy := false, done := true, fail := true, err := errword e }).withSeq none

/-- The `Illegal` completion: `busy` goes 1 and back to 0 in the same step (R327, R328). -/
def illegalCommand (s : State) : State :=
  s.withCmd { s.cmd with busy := false, done := true, fail := true, err := errword ⟨.illegal, .ag⟩ }

/-- `x[31] <- 0`, what most commands do when they fail (R330). -/
def resultZero (s : State) : State := setResult s 0

/-- `x[31] <- ag_state`, AG.INIT's (R330). -/
def resultAgState (s : State) : State := setResult s ((agStateNum s.ag.state).zeroExtend 32)

/-- `x[31] <- mg_stage`, MG.INIT's (R330). -/
def resultMgStage (s : State) : State := setResult s (s.mg.stage.zeroExtend 32)

/-- `x[31]` keeps what the command wrote, SA.POLL's (R330). -/
def resultKept (s : State) : State := s

/-- The state when `rst` is released (spec/70_reset_and_hazards.md R360, R362): the core at its reset
values; the parameters, the timebase and the environment are not the core's to reset. -/
def afterReset (s : State) : State :=
  { State.resetFor s.cfg with clock := s.clock, env := s.env, port := s.port, free := s.free }

/-- The state while `rst` is asserted (R360): whatever ran is abandoned, and the core stands at the values
it will have at the release (notes/assumptions/35.md). -/
def inReset (s : State) : State := (afterReset s).withHeld true

end Sys2Proof.Machine
end

