-- ==== Sys2Proof/Machine/Host.lean ====
section
/-! DEFINITION. The host register map: every read and write of it, idle and busy (spec/10_state.md R40
to R57). A write of CMD while idle, which starts a command, is in Machine/Fetch.lean. -/

namespace Sys2Proof.Machine

open Sys2Proof

/-- The registers of the map (R40). -/
inductive HostReg where
  | cmd
  | status
  | err
  | ctrl
  | period
  | timeLo
  | timeHi
  | epochLo
  | epochHi
  | ticks
  | lasttick
  | agstat
  | agares
  | aggres
  | mgstat
  | mgres
  | mgadj (i : Fin 3)
  | rawtsLo
  | rawtsHi
  | esttsLo
  | esttsHi
  | txdata
  | txctl
  | rxdata
  | rxctl
  | busaddr
  | x (i : Fin 32)
  | caloff (group i : Fin 3)
  | calmat (r c : Fin 3)
  | recRoll
  | recPitch
  | recHead
  | recMag (i : Fin 3)
  | recStartLo
  | recStartHi
  | recEndLo
  | recEndHi
  | recCtl
  | reserved
deriving DecidableEq, Repr

/-- The low registers, 0x000 to 0x07C, by word index. -/
def lowReg (i : Nat) : HostReg :=
  match i with
  | 0 => .cmd
  | 1 => .status
  | 3 => .err
  | 4 => .ctrl
  | 5 => .period
  | 6 => .timeLo
  | 7 => .timeHi
  | 8 => .epochLo
  | 9 => .epochHi
  | 10 => .ticks
  | 11 => .lasttick
  | 12 => .agstat
  | 13 => .agares
  | 14 => .aggres
  | 15 => .mgstat
  | 16 => .mgres
  | 17 => .mgadj 0
  | 18 => .mgadj 1
  | 19 => .mgadj 2
  | 20 => .rawtsLo
  | 21 => .rawtsHi
  | 22 => .esttsLo
  | 23 => .esttsHi
  | 24 => .txdata
  | 25 => .txctl
  | 26 => .rxdata
  | 27 => .rxctl
  | 28 => .busaddr
  | _ => .reserved

/-- The record window, 0x180 to 0x1FC, by word index from 0x180 (R55). -/
def recReg (i : Nat) : HostReg :=
  match i with
  | 0 => .recRoll
  | 1 => .recPitch
  | 2 => .recHead
  | 3 => .recMag 0
  | 4 => .recMag 1
  | 5 => .recMag 2
  | 6 => .recStartLo
  | 7 => .recStartHi
  | 8 => .recEndLo
  | 9 => .recEndHi
  | 10 => .recCtl
  | _ => .reserved

/-- A number below 3 as an index. -/
def idx3 (n : Nat) : Fin 3 := Fin.ofNat 3 n

/-- The register at an aligned address (R40, R54). -/
def hostReg (addr : BitVec 9) : HostReg :=
  let i := addr.toNat / 4
  if i < 32 then lowReg i
  else if i < 64 then .x (Fin.ofNat 32 (i - 32))
  else if i < 73 then .caloff (idx3 ((i - 64) / 3)) (idx3 ((i - 64) % 3))
  else if i < 82 then .calmat (idx3 ((i - 73) / 3)) (idx3 ((i - 73) % 3))
  else if i < 96 then .reserved
  else recReg (i - 96)

/-- Whether an address is that of a word (R40). -/
def wordAligned (addr : BitVec 9) : Bool := addr.toNat % 4 == 0

/-! ## Reads -/

/-- The offset vector of a group, A, G, M (R28, R54). -/
def offsetOf (c : Profile) (group : Fin 3) : Vec3 :=
  match group with
  | 0 => c.aoff
  | 1 => c.goff
  | 2 => c.moff

/-- A row of the matrix. -/
def rowOf (m : Mat3) (r : Fin 3) : Vec3 :=
  match r with
  | 0 => m.r0
  | 1 => m.r1
  | 2 => m.r2

/-- What a register holds when the read has a stated value: every register but REC_CTL (R40 to R55).
RXDATA's side effect is in `hostRead`. -/
def regValue (s : State) : HostReg → Option Word
  | .cmd => some 0
  | .status => some (statusWord s)
  | .err => some s.cmd.err
  | .ctrl => some (ctrlWord s.ctrl)
  | .period => some s.ss.period
  | .timeLo => some (loWord s.clock)
  | .timeHi => some (hiWord s.clock)
  | .epochLo => some (loWord s.ss.epoch)
  | .epochHi => some (hiWord s.ss.epoch)
  | .ticks => some s.ss.ticks
  | .lasttick => some s.ss.lasttick
  | .agstat => some (agstatWord s.ag)
  | .agares => some s.ag.ares
  | .aggres => some s.ag.gres
  | .mgstat => some (mgstatWord s.mg)
  | .mgres => some s.mg.res
  | .mgadj i => some (vecGet s.mg.adj i)
  | .rawtsLo => some (loWord s.sa.ts)
  | .rawtsHi => some (hiWord s.sa.ts)
  | .esttsLo => some (loWord s.estTs)
  | .esttsHi => some (hiWord s.estTs)
  | .txdata => some 0
  | .txctl => some (BitVec.ofNat 32 s.buf.txLen)
  | .rxdata => some (if s.buf.rxRptr < s.buf.rxLen then (Memory.read s.buf.rx s.buf.rxRptr).zeroExtend 32 else 0)
  | .rxctl => some (rxctlWord s.buf)
  | .busaddr => some (busaddrWord s.cfg s.bt)
  | .x i => some (s.getX i)
  | .caloff g i => some (vecGet (offsetOf s.cal g) i)
  | .calmat r c => some (vecGet (rowOf s.cal.mmat r) c)
  | .recRoll => some s.rcd.roll
  | .recPitch => some s.rcd.pitch
  | .recHead => some s.rcd.head
  | .recMag i => some (vecGet s.rcd.mag i)
  | .recStartLo => some (loWord s.rcd.tStart)
  | .recStartHi => some (hiWord s.rcd.tStart)
  | .recEndLo => some (loWord s.rcd.tEnd)
  | .recEndHi => some (hiWord s.rcd.tEnd)
  | .recCtl => none
  | .reserved => some 0

/-- The registers a host may read while a command runs (R56), and the reserved addresses, which always
read 0 (R57, notes/assumptions/15.md). -/
def readableBusy : HostReg → Bool
  | .status => true
  | .err => true
  | .timeLo => true
  | .timeHi => true
  | .ticks => true
  | .lasttick => true
  | .recRoll => true
  | .recPitch => true
  | .recHead => true
  | .recMag _ => true
  | .recStartLo => true
  | .recStartHi => true
  | .recEndLo => true
  | .recEndHi => true
  | .recCtl => true
  | .reserved => true
  | .cmd => false
  | .ctrl => false
  | .period => false
  | .epochLo => false
  | .epochHi => false
  | .agstat => false
  | .agares => false
  | .aggres => false
  | .mgstat => false
  | .mgres => false
  | .mgadj _ => false
  | .rawtsLo => false
  | .rawtsHi => false
  | .esttsLo => false
  | .esttsHi => false
  | .txdata => false
  | .txctl => false
  | .rxdata => false
  | .rxctl => false
  | .busaddr => false
  | .x _ => false
  | .caloff _ _ => false
  | .calmat _ _ => false

/-- The side effect of a read: only RXDATA has one, only while idle (R51). -/
def readEffect (s : State) (r : HostReg) : State :=
  if r = .rxdata ∧ s.cmd.busy = false ∧ s.buf.rxRptr < s.buf.rxLen then
    s.withBuf { s.buf with rxRptr := s.buf.rxRptr + 1 }
  else s

/-- The stated value of a read, or none where the spec leaves it open (R56, spec/93 U10; REC_CTL,
notes/assumptions/14.md). -/
def readValue (s : State) (r : HostReg) : Option Word :=
  if s.cmd.busy && !readableBusy r then none else regValue s r

/-- A host read whose value the spec leaves open: a free word goes out. -/
def readOpen (s : State) (addr : BitVec 9) : State :=
  (sendOut s (.hostData addr (Config.hostWordFree s.free))).withFree (s.free + 1)

/-- A host read of the register `r` at address `addr`: the word goes out on the host port. -/
def hostRead (s : State) (addr : BitVec 9) (r : HostReg) : State :=
  match readValue s r with
  | some v => sendOut (readEffect s r) (.hostData addr v)
  | none => readOpen s addr

/-! ## Writes -/

/-- A write of `STATUS`: each of bits 4, 6, 7 written 1 is cleared (R42). -/
def writeStatus (s : State) (v : Word) : State :=
  (s.withCmd { s.cmd with
      cmdOvr := s.cmd.cmdOvr && !v.getLsbD 4
      fxSat := s.cmd.fxSat && !v.getLsbD 7 }).withRcd { s.rcd with ovr := s.rcd.ovr && !v.getLsbD 6 }

/-- A write of `CTRL` (R44). While busy only CANCEL, IE_REC and IE_DONE are taken; clearing BT_ATTACH
also forgets the selection. -/
def writeCtrl (s : State) (v : Word) : State :=
  let w := ctrlOfWord v
  if s.cmd.busy then
    s.withCtrl { s.ctrl with cancel := w.cancel, ieRec := w.ieRec, ieDone := w.ieDone }
  else
    (s.withCtrl w).withBt (if w.btAttach then s.bt else { s.bt with sel := none })

/-- A push into `txbuf` (R51). -/
def writeTxdata (s : State) (v : Word) : State :=
  if s.buf.txLen < Config.wrMax then
    s.withBuf { s.buf with
      tx := Memory.write s.buf.tx s.buf.txLen (v.truncate 8)
      txLen := s.buf.txLen + 1 }
  else s

/-- Whether the host may write `x[i]`: not the angles, not the result (R22). -/
def hostWritableX (i : Fin 32) : Bool := decide (i.val ≤ 26) || decide (i.val = 30)

/-- A write of an offset (R54). -/
def writeOffset (c : Profile) (group i : Fin 3) (v : Word) : Profile :=
  match group with
  | 0 => { c with aoff := vecPut c.aoff i v }
  | 1 => { c with goff := vecPut c.goff i v }
  | 2 => { c with moff := vecPut c.moff i v }

/-- A write of a matrix entry (R54). -/
def writeMat (m : Mat3) (r c : Fin 3) (v : Word) : Mat3 :=
  match r with
  | 0 => { m with r0 := vecPut m.r0 c v }
  | 1 => { m with r1 := vecPut m.r1 c v }
  | 2 => { m with r2 := vecPut m.r2 c v }

/-- A write of a register other than `CMD`, `STATUS`, `CTRL`, `REC_CTL` while idle (R40, R45, R51,
R53, R54). Read-only registers ignore it (notes/assumptions/16.md). -/
def writeIdle (s : State) (v : Word) : HostReg → State
  | .period => s.withSs { s.ss with period := v }
  | .txdata => writeTxdata s v
  | .txctl => s.withBuf { s.buf with txLen := 0 }
  | .rxctl => s.withBuf { s.buf with rxRptr := 0 }
  | .x i => if hostWritableX i then s.setX i v else s
  | .caloff g i => s.withCal (writeOffset s.cal g i v)
  | .calmat r c => s.withCal { s.cal with mmat := writeMat s.cal.mmat r c v }
  | .cmd => s
  | .status => s
  | .err => s
  | .ctrl => s
  | .timeLo => s
  | .timeHi => s
  | .epochLo => s
  | .epochHi => s
  | .ticks => s
  | .lasttick => s
  | .agstat => s
  | .agares => s
  | .aggres => s
  | .mgstat => s
  | .mgres => s
  | .mgadj _ => s
  | .rawtsLo => s
  | .rawtsHi => s
  | .esttsLo => s
  | .esttsHi => s
  | .rxdata => s
  | .busaddr => s
  | .recRoll => s
  | .recPitch => s
  | .recHead => s
  | .recMag _ => s
  | .recStartLo => s
  | .recStartHi => s
  | .recEndLo => s
  | .recEndHi => s
  | .recCtl => s
  | .reserved => s

/-- A host write of the register `r`. A write of CMD while busy sets `cmd_ovr` (R41); while idle it
starts a command, which is `fetchCommand`'s, and this operation is not used. -/
def hostWrite (s : State) (v : Word) (r : HostReg) : State :=
  if r = .status then writeStatus s v
  else if r = .ctrl then writeCtrl s v
  else if r = .recCtl then s.withRcd { s.rcd with valid := false }
  else if r = .cmd then (if s.cmd.busy then s.withCmd { s.cmd with cmdOvr := true } else s)
  else if s.cmd.busy then s
  else writeIdle s v r

/-- A host access. One that is not an aligned word has no meaning (R57). -/
def hostAccess (s : State) : HostAccess → Except Refusal State
  | .read addr => if wordAligned addr then .ok (hostRead s addr (hostReg addr)) else .error .unalignedHostAccess
  | .write addr v => if wordAligned addr then .ok (hostWrite s v (hostReg addr)) else .error .unalignedHostAccess
  | .partWord _ => .error .unalignedHostAccess

/-- A host access while `rst` is asserted: the core does nothing, so a write is lost, of CMD too; what a
read gives the spec does not say (spec/70_reset_and_hazards.md R360, notes/assumptions/35.md). -/
def heldAccess (s : State) : HostAccess → Except Refusal State
  | .read addr => if wordAligned addr then .ok (readOpen s addr) else .error .unalignedHostAccess
  | .write addr _ => if wordAligned addr then .ok s else .error .unalignedHostAccess
  | .partWord _ => .error .unalignedHostAccess

end Sys2Proof.Machine
end

