-- ==== Sys2Proof/Machine/Env.lean ====
section
/-! DEFINITION. How a routine of the core runs against its environment: results of routines, the core's
steps, the three bus primitives, the timebase and the waits (spec/00_scope.md R11, spec/20_memory.md
R62, R75, R78, spec/10_state.md R36), and the frame every command runs in (spec/60_exceptions.md R328
to R330). -/

namespace Sys2Proof.Machine

open Sys2Proof

/-- What comes of running a routine: it returns, it raises (R11), or the command ends under it: `rst`
came, the bus never answers, or the environment does what the spec gives no meaning. -/
inductive Res (α : Type) where
  | ret (a : α) (s : State)
  | raise (e : Err) (s : State)
  | stop (o : Host.Outcome State Fault Refusal)

/-- One routine after another; a raise ends both (R11). -/
def Res.andThen {α β : Type} (r : Res α) (f : α → State → Res β) : Res β :=
  match r with
  | .ret a s => f a s
  | .raise e s => .raise e s
  | .stop o => .stop o

/-- `try R catch e` (R11): go on in either case. -/
def Res.handle {α β : Type} (r : Res α) (f : α → State → Res β) (g : Err → State → Res β) : Res β :=
  match r with
  | .ret a s => f a s
  | .raise e s => g e s
  | .stop o => .stop o

/-- Raise another error in place of the one raised, in the state of the raise. -/
def Res.mapErr {α : Type} (r : Res α) (f : Err → State → Err) : Res α :=
  match r with
  | .ret a s => .ret a s
  | .raise e s => .raise (f e s) s
  | .stop o => .stop o

/-- Raising a transport error. It is of no device yet (`ERR.DEV` 0); a device routine says which. -/
def raiseIo {α : Type} (k : IoKind) (s : State) : Res α := .raise ⟨.io k, .ag⟩ s

/-! ## The outside moves -/

/-- The timebase goes on by `d` microseconds; past 2^64 - 1 there is no meaning (spec/93 U7). -/
def elapse (d : Nat) (s : State) : Res Unit :=
  if s.clock.toNat + d < 2 ^ 64 then .ret () (s.withClock (BitVec.ofNat 64 (s.clock.toNat + d)))
  else .stop (.refused .timebaseWrap)

/-- One move of the outside while a command runs. `rst` abandons the command, and the core stands in reset
(spec/70_reset_and_hazards.md R360). Releasing what is not asserted does nothing. -/
def outsideMove (o : Outside) (s : State) : Res Unit :=
  match o with
  | .elapse d => elapse d s
  | .host a =>
    match hostAccess s a with
    | .ok t => .ret () t
    | .error r => .stop (.refused r)
  | .rst => .stop (.next (inReset s))
  | .release => .ret () s

/-- Whether a `turn` stands ahead of the next bus answer: the outside moves before it come before the
core's next internal step. With no turn ahead the core runs on, and what the outside does next finds it
in a bus primitive, in a wait, or idle (notes/assumptions/2.md). -/
def turnAhead : List Event → Bool
  | [] => false
  | .outside _ :: es => turnAhead es
  | .turn :: _ => true
  | .answer _ :: _ => false

/-- The outside moves that come before the core's next internal step (spec/20_memory.md R78): those
before a turn ahead, and those that come while the timebase is below `deadline`. -/
def letOutside (deadline : Nat) : List Event → State → Res Unit
  | [], s => .ret () (s.withEnv [])
  | .outside o :: es, s =>
    if turnAhead es || decide (s.clock.toNat < deadline) then
      (outsideMove o (s.withEnv es)).andThen fun _ t => letOutside deadline es t
    else .ret () (s.withEnv (.outside o :: es))
  | .turn :: es, s => .ret () (s.withEnv es)
  | .answer a :: es, s => .ret () (s.withEnv (.answer a :: es))

/-- Waiting for the answer of a bus primitive: outside moves go on; what is no answer to this primitive
is passed over (notes/assumptions/4.md); with nothing more to come the primitive never answers. -/
def awaitAnswer {β : Type} (accept : Answer → Option β) : List Event → State → Res β
  | [], _ => .stop (.fault .busHung)
  | .outside o :: es, s => (outsideMove o (s.withEnv es)).andThen fun _ t => awaitAnswer accept es t
  | .turn :: es, s => awaitAnswer accept es s
  | .answer a :: es, s =>
    match accept a with
    | some b => .ret b (s.withEnv es)
    | none => awaitAnswer accept es s

/-! ## The core's steps -/

/-- The core's next step, of those spec/00_scope.md R6 names: outside moves may come before it. -/
def corePoint (s : State) : Res Unit := letOutside 0 s.env (nextPhase s)

/-- `Now()`, a step of its own (R6): a routine whose next step would show the host what is done with the
reading puts a `corePoint` after it (notes/assumptions/28.md). -/
def readTime (s : State) : Res Stamp := (corePoint s).andThen fun _ t => .ret t.clock t

/-- The timebase is at `t` or later when a wait ends; `t` past 2^64 - 1 has no meaning (spec/93 U7). -/
def wakeAt (t : Nat) (s : State) : Res Unit :=
  if t < 2 ^ 64 then .ret () (s.withClock (BitVec.ofNat 64 (max s.clock.toNat t)))
  else .stop (.refused .timebaseWrap)

/-- Waiting until the timebase is at `t`: the outside goes on meanwhile. -/
def waitTo (t : Nat) (s : State) : Res Unit :=
  (letOutside t s.env (nextPhase s)).andThen fun _ u => wakeAt t u

/-- `Wait(d)`: a step of its own, so outside moves may come before it; it ends at a reading at or after the
one at its start plus `d` (spec/00_scope.md R6, spec/10_state.md R36). -/
def waitFor (d : Nat) (s : State) : Res Unit :=
  (corePoint s).andThen fun _ t => waitTo (t.clock.toNat + d) (sendOut t (.wait d))

/-- `WaitUntil(t)`, a step of its own (R6). -/
def waitUntil (t : Stamp) (s : State) : Res Unit :=
  (corePoint s).andThen fun _ u => waitTo t.toNat (sendOut u (.waitUntil t))

/-- A bus primitive, a step of its own (R6): outside moves may come before it is sent out, and while its
answer is awaited (R62). -/
def busPrimitive {β : Type} (sent : PortEvent) (accept : Answer → Option β) (s : State) : Res β :=
  (corePoint s).andThen fun _ t => awaitAnswer accept t.env (nextPhase (sendOut t sent))

/-- The answers to `BusSelect`: `true` for `ok`. -/
def selectAnswer : Answer → Option Bool
  | .selectOk => some true
  | .selectFail => some false
  | .wrote _ => none
  | .received _ => none
  | .timedOut => none

/-- The answers to a `BusWrite` of `n` bytes: `none` inside for `TimedOut`, else the count taken. -/
def writeAnswer (n : Nat) : Answer → Option (Option Nat)
  | .selectOk => none
  | .selectFail => none
  | .wrote k => if k ≤ n then some (some k) else none
  | .received _ => none
  | .timedOut => some none

/-- The answers to a `BusRead` of `n` bytes: `none` inside for `TimedOut`, else the bytes received. -/
def readAnswer (n : Nat) : Answer → Option (Option (List Byte))
  | .selectOk => none
  | .selectFail => none
  | .wrote _ => none
  | .received bs => if bs.length ≤ n then some (some bs) else none
  | .timedOut => some none

/-- `BusSelect(a)`. -/
def busSelect (a : BitVec 7) (s : State) : Res Bool := busPrimitive (.select a) selectAnswer s

/-- `BusWrite(bs)`. -/
def busWrite (bs : List Byte) (s : State) : Res (Option Nat) :=
  busPrimitive (.write bs) (writeAnswer bs.length) s

/-- `BusRead(n)`. -/
def busRead (n : Nat) (s : State) : Res (Option (List Byte)) := busPrimitive (.read n) (readAnswer n) s

/-! ## The frame of a command -/

/-- The last step of a command, after the host accesses that come before it. -/
def closing (r : Res Unit) (f : State → State) : Host.Outcome State Fault Refusal :=
  match r with
  | .ret _ s => .next (f s)
  | .raise _ s => .next (f s)
  | .stop o => o

/-- Completion, successful or failing, of what the routine of a command came to (R329, R330). -/
def completing (result : State → State) (r : Res Unit) : Host.Outcome State Fault Refusal :=
  match r with
  | .ret _ s => closing (corePoint s) completeCommand
  | .raise e s => closing (corePoint s) (failCommand result e)
  | .stop o => o

/-- A write of `CMD` that the core does not take as a start: while busy it only sets `cmd_ovr`
(spec/10_state.md R41); an illegal command completes at once (R327). -/
def turnedAway (legal : Bool) (s : State) (run : Host.Outcome State Fault Refusal) :
    Host.Outcome State Fault Refusal :=
  if s.cmd.busy then .next (s.withCmd { s.cmd with cmdOvr := true })
  else if legal then run
  else .next (illegalCommand s)

/-- A command: start, its routine, its completion (R328 to R330). -/
def command (op : BitVec 6) (legal : Bool) (result : State → State) (body : State → Res Unit)
    (s : State) : Host.Outcome State Fault Refusal :=
  turnedAway legal s
    (completing result ((corePoint (startCommand op s)).andThen fun _ t => body t))

end Sys2Proof.Machine
end

