-- ==== Sys2Proof/Machine/Transport.lean ====
section
/-! DEFINITION. BusTransport: selection, write, read with retry, and the BT commands
(spec/41_bus_transport.md R150 to R161). -/

namespace Sys2Proof.Machine

open Sys2Proof

/-- `BT_SELECT(a)` (R151). -/
def btSelect (a : BitVec 7) (s : State) : Res Unit :=
  if s.bt.sel = some a then .ret () s
  else (busSelect a s).andThen fun ok t =>
    if ok then .ret () (t.withBt { t.bt with sel := some a })
    else raiseIo .selectFailed (t.withBt { t.bt with sel := none })

/-- The routine `BT_WRITE(a, reg, bs)` (R150, R152). -/
def memWrite (a : BitVec 7) (reg : Byte) (bs : List Byte) (s : State) : Res Unit :=
  if s.ctrl.btAttach = false then raiseIo .notConnected s
  else if Config.wrMax < bs.length then raiseIo .tooLarge s
  else (btSelect a s).andThen fun _ t =>
    (busWrite (reg :: bs) t).andThen fun r u =>
      match r with
      | none => raiseIo .timeout u
      | some k => if k = 1 + bs.length then .ret () u else raiseIo .shortTransfer u

/-- After a short attempt: give up after the last, else wait and go on (R154). -/
def afterShort (left : Nat) (s : State) (again : State → Res (List Byte)) : Res (List Byte) :=
  if left = 0 then raiseIo .shortTransfer (rxFailed s)
  else (waitFor Config.rdRetryUs s).andThen fun _ t => again t

/-- The read attempts: prime, then read, at most `left` of them; `bt_attempt` is the number of the one
at hand, 1 to 5 (R154). -/
def readAttempts (reg : Byte) (n : Nat) : Nat → State → Res (List Byte)
  | 0, s => raiseIo .shortTransfer (rxFailed s)
  | left + 1, s =>
    (busWrite [reg] (s.withBt { s.bt with attempt := Config.rdAttempts - left })).andThen fun w t =>
      match w with
      | none => raiseIo .timeout (rxFailed t)
      | some k =>
        if k = 1 then
          (busRead n t).andThen fun r u =>
            match r with
            | none => raiseIo .timeout (rxFailed u)
            | some bs =>
              if bs.length = n then .ret bs (rxStore u bs)
              else afterShort left u (readAttempts reg n left)
        else afterShort left t (readAttempts reg n left)

/-- The routine `BT_READ(a, reg, n)` (R154). -/
def memRead (a : BitVec 7) (reg : Byte) (n : Nat) (s : State) : Res (List Byte) :=
  if s.ctrl.btAttach = false then raiseIo .notConnected s
  else (btSelect a s).andThen fun _ t =>
    readAttempts reg n Config.rdAttempts (t.withBt { t.bt with attempt := 0 })

/-- The payload of a BT.WRITE of `n` bytes (R156): beyond 511 its content is irrelevant, the write is
refused by its length. -/
def txPayload (s : State) (n : Nat) : List Byte :=
  if n ≤ Config.wrMax then Memory.take s.buf.tx n else List.replicate n 0

/-- BT.WRITE (R156). -/
def execBtWrite (a : BitVec 7) (reg : Byte) (len : BitVec 11) (s : State) :
    Host.Outcome State Fault Refusal :=
  command 0x01 true resultZero
    (fun t => (memWrite a reg (txPayload t len.toNat) t).andThen fun _ u =>
      .ret () (setResult u (len.zeroExtend 32))) s

/-- BT.READ (R157). -/
def execBtRead (a : BitVec 7) (reg : Byte) (len : BitVec 11) (s : State) :
    Host.Outcome State Fault Refusal :=
  command 0x02 (validReadLen len) resultZero
    (fun t => (memRead a reg len.toNat t).andThen fun _ u =>
      .ret () (setResult u (len.zeroExtend 32))) s

/-- BT.WRBYTE (R158). -/
def execBtWrbyte (a : BitVec 7) (reg val : Byte) (s : State) : Host.Outcome State Fault Refusal :=
  command 0x03 true resultZero
    (fun t => (memWrite a reg [val] t).andThen fun _ u => .ret () (setResult u 1)) s

/-- BT.RDBYTE (R159). -/
def execBtRdbyte (a : BitVec 7) (reg : Byte) (s : State) : Host.Outcome State Fault Refusal :=
  command 0x04 true resultZero
    (fun t => (memRead a reg 1 t).andThen fun bs u =>
      .ret () (setResult u ((byteAt bs 0).zeroExtend 32))) s

end Sys2Proof.Machine
end

