-- ==== Sys2Proof/Machine/Device.lean ====
section
/-! DEFINITION. RegisterDevice: device binding, bit-field read and read-modify-write, and the RD
commands (spec/42_register_device.md R170 to R179). -/

namespace Sys2Proof.Machine

open Sys2Proof

/-- The error of an operation on a device says which device (`ERR.DEV`, spec/60_exceptions.md R321). -/
def onDev {α : Type} (dev : Dev) (r : Res α) : Res α := r.mapErr fun e _ => { e with dev := dev }

/-- `RD_CHECK(dev)` (R171). -/
def rdCheck (dev : Dev) (s : State) : Res Unit :=
  if attached s dev then .ret () s else .raise ⟨.disconnected, dev⟩ s

/-- `MemRead` on a device of the drivers. -/
def devRead (dev : Dev) (reg : Byte) (n : Nat) (s : State) : Res (List Byte) :=
  onDev dev (memRead (busAddr s.cfg dev) reg n s)

/-- `MemWrite` on a device of the drivers. -/
def devWrite (dev : Dev) (reg : Byte) (bs : List Byte) (s : State) : Res Unit :=
  onDev dev (memWrite (busAddr s.cfg dev) reg bs s)

/-- `RD_RBITS` (R172). -/
def rdBits (dev : Dev) (reg : Byte) (first len : Nat) (s : State) : Res Byte :=
  (rdCheck dev s).andThen fun _ t =>
    (devRead dev reg 1 t).andThen fun bs u => .ret (fieldGet first len (byteAt bs 0)) u

/-- `RD_WBITS` (R173). The byte read is held between the read and the write-back (spec/10_state.md
R35 d). -/
def wrBits (dev : Dev) (reg : Byte) (first len : Nat) (v : Byte) (s : State) : Res Unit :=
  (rdCheck dev s).andThen fun _ t =>
    (devRead dev reg 1 t).andThen fun bs u =>
      let w := u.withRmw (byteAt bs 0)
      devWrite dev reg [fieldPut first len w.rmw v] w

/-- RD.RBIT (R174). -/
def execRdRbit (dev : Dev) (reg : Byte) (first : BitVec 3) (s : State) :
    Host.Outcome State Fault Refusal :=
  command 0x08 true resultZero
    (fun t => (rdBits dev reg first.toNat 1 t).andThen fun v u =>
      .ret () (setResult u (v.zeroExtend 32))) s

/-- RD.WBIT (R175). -/
def execRdWbit (dev : Dev) (reg : Byte) (first : BitVec 3) (val : BitVec 1) (s : State) :
    Host.Outcome State Fault Refusal :=
  command 0x09 true resultZero
    (fun t => (wrBits dev reg first.toNat 1 (val.zeroExtend 8) t).andThen fun _ u =>
      .ret () (setResult u 0)) s

/-- RD.RBITS (R176). -/
def execRdRbits (dev : Dev) (reg : Byte) (first : BitVec 3) (flen : BitVec 4) (s : State) :
    Host.Outcome State Fault Refusal :=
  command 0x0A (validField first flen) resultZero
    (fun t => (rdBits dev reg first.toNat flen.toNat t).andThen fun v u =>
      .ret () (setResult u (v.zeroExtend 32))) s

/-- RD.WBITS (R177). -/
def execRdWbits (dev : Dev) (reg : Byte) (first : BitVec 3) (flen : BitVec 4) (val : Byte) (s : State) :
    Host.Outcome State Fault Refusal :=
  command 0x0B (validField first flen) resultZero
    (fun t => (wrBits dev reg first.toNat flen.toNat val t).andThen fun _ u =>
      .ret () (setResult u 0)) s

end Sys2Proof.Machine
end

