-- ==== Sys2Proof/Machine/AccelGyro.lean ====
section
/-! DEFINITION. AccelGyroDriver: range selection, initialization sequencer, raw and scaled reads, and the
AG commands (spec/43_accel_gyro.md R190 to R205). -/

namespace Sys2Proof.Machine

open Sys2Proof

/-- `AG_SETAR` (R197): the caches follow the write only if it succeeds. -/
def agSetRangeA (code : BitVec 2) (s : State) : Res Unit :=
  (wrBits .ag s.cfg.agAfs.reg s.cfg.agAfs.first 2 (code.zeroExtend 8) s).andThen fun _ t =>
    .ret () (t.withAg { t.ag with arange := code, ares := aresTable code })

/-- `AG_SETGR` (R198). -/
def agSetRangeG (code : BitVec 2) (s : State) : Res Unit :=
  (wrBits .ag s.cfg.agGfs.reg s.cfg.agGfs.first 2 (code.zeroExtend 8) s).andThen fun _ t =>
    .ret () (t.withAg { t.ag with grange := code, gres := gresTable code })

/-- A micro-operation (R192). -/
def microOp (m : MicroOp) (s : State) : Res Unit :=
  match m with
  | .wbits f v => wrBits .ag f.reg f.first f.len v s
  | .wbyte reg v => devWrite .ag reg [v] s
  | .setgr code => agSetRangeG code s
  | .setar code => agSetRangeA code s
  | .delay d => waitFor d s

/-- The micro-operations of a stage, in order. -/
def microOps : List MicroOp → State → Res Unit
  | [], s => .ret () s
  | m :: ms, s => (microOp m s).andThen fun _ t => microOps ms t

/-- `ag_state <- v`. -/
def setAgState (v : AgState) (s : State) : State := s.withAg { s.ag with state := v }

/-- A stage (R191, R194): its work, then the state it reaches; a failure is wrapped with the stage
reached so far (R195). -/
def agStage (ops : List MicroOp) (reached : AgState) (s : State) : Res Unit :=
  ((microOps ops s).mapErr fun e t =>
      ⟨.initSequenceFailed (agStateNum t.ag.state) e.kind.inner, .ag⟩).andThen fun _ t =>
    .ret () (setAgState reached t)

/-- `AG_INIT()` (R194). -/
def agInitialize (s : State) : Res Unit :=
  (rdCheck .ag s).andThen fun _ t =>
    (agStage t.cfg.agInit.reset .reset (setAgState .uninitialized t)).andThen fun _ t =>
    (agStage t.cfg.agInit.clock .clockConfigured t).andThen fun _ t =>
    (agStage t.cfg.agInit.filters .filtersConfigured t).andThen fun _ t =>
    (agStage t.cfg.agInit.bypass .bypassConfigured t).andThen fun _ t =>
    (agStage t.cfg.agInit.range .rangeConfigured t).andThen fun _ t =>
    .ret () (setAgState .ready t)

/-- `AG_READ6(reg)` (R199). -/
def agRead6 (reg : Byte) (s : State) : Res Raw3 :=
  (rdCheck .ag s).andThen fun _ t =>
    (devRead .ag reg 6 t).andThen fun bs u => .ret (decode6 bs) u

/-- Raw accelerometer values into `x[0..2]` (R200). -/
def putRawA (s : State) (r : Raw3) : State := s.setX3 0 1 2 (sext16 r.x) (sext16 r.y) (sext16 r.z)

/-- Raw gyroscope values into `x[3..5]` (R201). -/
def putRawG (s : State) (r : Raw3) : State := s.setX3 3 4 5 (sext16 r.x) (sext16 r.y) (sext16 r.z)

/-- Three computed values into three registers, and `fx_sat` if any saturated. -/
def putFx3 (s : State) (i j k : Fin 32) (a b c : Fx) : State :=
  orSat (s.setX3 i j k a.val b.val c.val) (a.sat || b.sat || c.sat)

/-- AG.INIT (R194). -/
def execAgInit (s : State) : Host.Outcome State Fault Refusal :=
  command 0x10 true resultAgState
    (fun t => (agInitialize t).andThen fun _ u => .ret () (setResult u 6)) s

/-- AG.SETAR (R197). -/
def execAgSetar (code : BitVec 2) (s : State) : Host.Outcome State Fault Refusal :=
  command 0x11 true resultZero
    (fun t => (agSetRangeA code t).andThen fun _ u => .ret () (setResult u (code.zeroExtend 32))) s

/-- AG.SETGR (R198). -/
def execAgSetgr (code : BitVec 2) (s : State) : Host.Outcome State Fault Refusal :=
  command 0x12 true resultZero
    (fun t => (agSetRangeG code t).andThen fun _ u => .ret () (setResult u (code.zeroExtend 32))) s

/-- AG.RDARAW (R200). -/
def execAgRdaraw (s : State) : Host.Outcome State Fault Refusal :=
  command 0x13 true resultZero
    (fun t => (agRead6 t.cfg.agAccelOut t).andThen fun r u => .ret () (setResult (putRawA u r) 1)) s

/-- AG.RDGRAW (R201). -/
def execAgRdgraw (s : State) : Host.Outcome State Fault Refusal :=
  command 0x14 true resultZero
    (fun t => (agRead6 t.cfg.agGyroOut t).andThen fun r u => .ret () (setResult (putRawG u r) 1)) s

/-- AG.RDA (R202). -/
def execAgRda (s : State) : Host.Outcome State Fault Refusal :=
  command 0x15 true resultZero
    (fun t => (agRead6 t.cfg.agAccelOut t).andThen fun r u =>
      .ret () (setResult (putFx3 (putRawA u r) 9 10 11
        (fxScale r.x u.ag.ares) (fxScale r.y u.ag.ares) (fxScale r.z u.ag.ares)) 1)) s

/-- AG.RDG (R203). -/
def execAgRdg (s : State) : Host.Outcome State Fault Refusal :=
  command 0x16 true resultZero
    (fun t => (agRead6 t.cfg.agGyroOut t).andThen fun r u =>
      .ret () (setResult (putFx3 (putRawG u r) 12 13 14
        (fxScale r.x u.ag.gres) (fxScale r.y u.ag.gres) (fxScale r.z u.ag.gres)) 1)) s

end Sys2Proof.Machine
end

