-- ==== Sys2Proof/Machine/Mag.lean ====
section
/-! DEFINITION. MagDriver: mode state machine, factory sensitivity adjustment, reads with overflow
detection, and the MG commands (spec/44_mag.md R220 to R237). -/

namespace Sys2Proof.Machine

open Sys2Proof

/-- `MG_SETMODE(m)` (R222). The precondition of R221 is the caller's and is not tested. -/
def mgSetMode (m : MagMode) (s : State) : Res Unit :=
  (wrBits .mg s.cfg.mgMode.reg s.cfg.mgMode.first s.cfg.mgMode.len (magModeCode s.cfg.mgModeCode m) s).andThen
    fun _ t =>
      let u := t.withMg { t.mg with mode := m }
      if m = .powerDown then waitFor Config.mgSettleUs u else .ret () u

/-- `mg_stage <- n`. -/
def setMgStage (n : BitVec 3) (s : State) : State := s.withMg { s.mg with stage := n }

/-- The three multipliers from the fuse-ROM bytes (R224, R225). -/
def setMgAdj (bs : List Byte) (s : State) : State :=
  s.withMg { s.mg with adj := ⟨adjOf (byteAt bs 0), adjOf (byteAt bs 1), adjOf (byteAt bs 2)⟩ }

/-- The four stages of MG.INIT (R224). -/
def mgStages (s : State) : Res Unit :=
  (mgSetMode .powerDown s).andThen fun _ t =>
  (mgSetMode .fuseRom (setMgStage 1 t)).andThen fun _ t =>
  (devRead .mg t.cfg.mgAsa 3 (setMgStage 2 t)).andThen fun bs t =>
  (mgSetMode .powerDown (setMgStage 3 (setMgAdj bs t))).andThen fun _ t =>
  .ret () (setMgStage 4 t)

/-- `MG_INIT()` (R224). -/
def mgInitialize (s : State) : Res Unit :=
  (rdCheck .mg s).andThen fun _ t =>
    ((mgStages (t.withMg { t.mg with initDone := false, stage := 0 })).mapErr fun e u =>
        ⟨.initSequenceFailed u.mg.stage e.kind.inner, .mg⟩).andThen fun _ u =>
      .ret () (u.withMg { u.mg with initDone := true })

/-- `MG_BURST()` (R229), with the overflow flag (R233). -/
def mgBurst (s : State) : Res Raw3 :=
  (rdCheck .mg s).andThen fun _ t =>
    (devRead .mg t.cfg.mgBurstReg Config.mgBurstLen t).andThen fun bs u =>
      if (byteAt bs 0).getLsbD u.cfg.mgDrdyBit = false then .raise ⟨.notReady, .mg⟩ u
      else if (byteAt bs 7).getLsbD u.cfg.mgHoflBit then
        .raise ⟨.overflow, .mg⟩ (u.withMg { u.mg with ovf := true })
      else .ret (decodeBurst u.cfg.magLowByteFirst bs) (u.withMg { u.mg with ovf := false })

/-- Raw magnetometer values into `x[6..8]` (R234). -/
def putRawM (s : State) (r : Raw3) : State := s.setX3 6 7 8 (sext16 r.x) (sext16 r.y) (sext16 r.z)

/-- `MG_SETRES(bit)` (R228). -/
def mgSetRes (code : BitVec 1) (s : State) : Res Unit :=
  (wrBits .mg s.cfg.mgBit.reg s.cfg.mgBit.first 1 (code.zeroExtend 8) s).andThen fun _ t =>
    .ret () (t.withMg { t.mg with resbit := code, res := mresTable code })

/-- MG.INIT (R224). -/
def execMgInit (s : State) : Host.Outcome State Fault Refusal :=
  command 0x18 true resultMgStage
    (fun t => (mgInitialize t).andThen fun _ u => .ret () (setResult u 4)) s

/-- The routine of MG.SETMODE for the mode a number names. -/
def mgSetModeNum (mode : BitVec 3) (s : State) : Res Unit :=
  match magModeOf mode with
  | some m => mgSetMode m s
  | none => .raise ⟨.illegal, .ag⟩ s

/-- MG.SETMODE (R226). -/
def execMgSetmode (mode : BitVec 3) (s : State) : Host.Outcome State Fault Refusal :=
  command 0x19 (validMode mode) resultZero
    (fun t => (rdCheck .mg t).andThen fun _ t =>
      (mgSetModeNum mode t).andThen fun _ u => .ret () (setResult u (mode.zeroExtend 32))) s

/-- MG.SETRES (R228). -/
def execMgSetres (code : BitVec 1) (s : State) : Host.Outcome State Fault Refusal :=
  command 0x1A true resultZero
    (fun t => (rdCheck .mg t).andThen fun _ t =>
      (mgSetRes code t).andThen fun _ u => .ret () (setResult u (code.zeroExtend 32))) s

/-- MG.RDRAW (R234). -/
def execMgRdraw (s : State) : Host.Outcome State Fault Refusal :=
  command 0x1B true resultZero
    (fun t => (mgBurst t).andThen fun r u => .ret () (setResult (putRawM u r) 1)) s

/-- MG.RD (R235). -/
def execMgRd (s : State) : Host.Outcome State Fault Refusal :=
  command 0x1C true resultZero
    (fun t => (mgBurst t).andThen fun r u =>
      .ret () (setResult (putFx3 (putRawM u r) 15 16 17
        (mgScale r.x u.mg.res u.mg.adj.x) (mgScale r.y u.mg.res u.mg.adj.y)
        (mgScale r.z u.mg.res u.mg.adj.z)) 1)) s

/-- MG.GETOVF (R236). -/
def execMgGetovf (s : State) : Host.Outcome State Fault Refusal :=
  command 0x1D true resultZero
    (fun t => .ret () (setResult t (BitVec.ofNat 32 (bit t.mg.ovf)))) s

end Sys2Proof.Machine
end

