-- ==== Sys2Proof/Machine/Aggregate.lean ====
section
/-! DEFINITION. SensorAggregator: attachment, readiness, the group poll, and the SA commands
(spec/45_aggregator.md R250 to R262). -/

namespace Sys2Proof.Machine

open Sys2Proof

/-- The three groups, in their order (R250). -/
inductive Group where
  | acc
  | gyr
  | mag
deriving DecidableEq, Repr

/-- `att(g)` (R251). -/
def groupAttached (s : State) : Group → Bool
  | .acc => s.ctrl.saAcc
  | .gyr => s.ctrl.saGyr
  | .mag => s.ctrl.saMag

/-- `ready(g)`, of the core's state alone (R252). -/
def groupReady (s : State) : Group → Bool
  | .acc => s.ctrl.saAcc && s.ctrl.agTAttach && decide (s.ag.state = .ready)
  | .gyr => s.ctrl.saGyr && s.ctrl.agTAttach && decide (s.ag.state = .ready)
  | .mag => s.ctrl.saMag && s.ctrl.mgTAttach && s.mg.initDone
      && decide (s.mg.mode ≠ .powerDown) && decide (s.mg.mode ≠ .fuseRom)

/-- `raw_ok[g] <- v`. -/
def setRawOk (g : Group) (v : Bool) (s : State) : State :=
  match g with
  | .acc => s.withSa { s.sa with okA := v }
  | .gyr => s.withSa { s.sa with okG := v }
  | .mag => s.withSa { s.sa with okM := v }

/-- The driver's read that a group delegates to (R250). -/
def groupRead (g : Group) (s : State) : Res Raw3 :=
  match g with
  | .acc => agRead6 s.cfg.agAccelOut s
  | .gyr => agRead6 s.cfg.agGyroOut s
  | .mag => mgBurst s

/-- The raw registers of a group, `x[3 k .. 3 k + 2]` (R253). -/
def putRaw (g : Group) (s : State) (r : Raw3) : State :=
  match g with
  | .acc => putRawA s r
  | .gyr => putRawG s r
  | .mag => putRawM s r

/-- What a group poll came to. -/
inductive PollResult where
  | ok
  | refused
  | failed (e : Err)
deriving DecidableEq, Repr

/-- `SA_POLL1(g)` (R253): it raises nothing. -/
def pollGroup (g : Group) (s : State) : Res PollResult :=
  if groupAttached s g then
    (groupRead g s).handle
      (fun r t => .ret .ok (setRawOk g true (putRaw g t r)))
      (fun e t => .ret (.failed e) (setRawOk g false t))
  else .ret .refused (setRawOk g false s)

/-- `raw_ts <- Now()`, the first action of every poll (R261), and the point after it: the reading is a step of
its own (spec/00_scope.md R6), so a host access may come between it and the poll. -/
def stampRaw (s : State) : Res Unit :=
  (readTime s).andThen fun now t => corePoint (t.withSa { t.sa with ts := now })

/-- The routine of SA.POLLA, SA.POLLG, SA.POLLM (R254 to R256). -/
def pollOne (g : Group) (s : State) : Res Unit :=
  (stampRaw s).andThen fun _ t =>
    (pollGroup g t).andThen fun r u =>
      match r with
      | .ok => .ret () (setResult u 1)
      | .refused => .ret () (setResult u 0)
      | .failed e => .raise e (setResult u 0)

/-- The error a group poll leaves when the polls before it left `first`. -/
def firstError (first : Option Err) (r : PollResult) : Option Err :=
  match first with
  | some e => some e
  | none =>
    match r with
    | .ok => none
    | .refused => none
    | .failed e => some e

/-- The polls of SA.POLL, in the order given; the first error is kept (R257). -/
def pollAll : List Group → Option Err → State → Res (Option Err)
  | [], first, s => .ret first s
  | g :: gs, first, s =>
    (corePoint s).andThen fun _ t =>
      (pollGroup g t).andThen fun r u => pollAll gs (firstError first r) u

/-- The routine of SA.POLL (R257). -/
def pollFull (s : State) : Res Unit :=
  (stampRaw s).andThen fun _ t =>
    (pollAll [.acc, .gyr, .mag] none t).andThen fun first u =>
      let v := setResult u (BitVec.ofNat 32 (rawOkNum u.sa))
      match first with
      | none => .ret () v
      | some e => .raise e v

/-- SA.POLLA (R254). -/
def execSaPolla (s : State) : Host.Outcome State Fault Refusal :=
  command 0x20 true resultZero (pollOne .acc) s

/-- SA.POLLG (R255). -/
def execSaPollg (s : State) : Host.Outcome State Fault Refusal :=
  command 0x21 true resultZero (pollOne .gyr) s

/-- SA.POLLM (R256). -/
def execSaPollm (s : State) : Host.Outcome State Fault Refusal :=
  command 0x22 true resultZero (pollOne .mag) s

/-- SA.POLL (R257). -/
def execSaPoll (s : State) : Host.Outcome State Fault Refusal :=
  command 0x23 true resultKept pollFull s

/-- The routine of SA.RDYA, SA.RDYG, SA.RDYM (R258 to R260). -/
def readyOf (g : Group) (s : State) : Res Unit :=
  .ret () (setResult s (BitVec.ofNat 32 (bit (groupReady s g))))

/-- SA.RDYA (R258). -/
def execSaRdya (s : State) : Host.Outcome State Fault Refusal :=
  command 0x24 true resultZero (readyOf .acc) s

/-- SA.RDYG (R259). -/
def execSaRdyg (s : State) : Host.Outcome State Fault Refusal :=
  command 0x25 true resultZero (readyOf .gyr) s

/-- SA.RDYM (R260). -/
def execSaRdym (s : State) : Host.Outcome State Fault Refusal :=
  command 0x26 true resultZero (readyOf .mag) s

end Sys2Proof.Machine
end

