-- ==== Sys2Proof/Machine/Calibrate.lean ====
section
/-! DEFINITION. The calibration applicator: scale, offset, soft-iron matrix, and CA.APPLY
(spec/46_calibration.md R270 to R278). -/

namespace Sys2Proof.Machine

open Sys2Proof

/-- Three values in the course of a computation. -/
structure Fx3 where
  x : Fx
  y : Fx
  z : Fx
deriving DecidableEq, Repr

/-- `raw(i)`, the low half of a data register (R271). -/
def rawOf (s : State) (i : Fin 32) : BitVec 16 := (s.getX i).truncate 16

/-- `SC_A` (R272). -/
def scaledA (s : State) : Fx3 :=
  ⟨fxScale (rawOf s 0) s.ag.ares, fxScale (rawOf s 1) s.ag.ares, fxScale (rawOf s 2) s.ag.ares⟩

/-- `SC_G` (R272). -/
def scaledG (s : State) : Fx3 :=
  ⟨fxScale (rawOf s 3) s.ag.gres, fxScale (rawOf s 4) s.ag.gres, fxScale (rawOf s 5) s.ag.gres⟩

/-- `SC_M` (R272). -/
def scaledM (s : State) : Fx3 :=
  ⟨mgScale (rawOf s 6) s.mg.res s.mg.adj.x, mgScale (rawOf s 7) s.mg.res s.mg.adj.y,
    mgScale (rawOf s 8) s.mg.res s.mg.adj.z⟩

/-- The offset step (R273). -/
def addOffset (v : Fx3) (o : Vec3) : Fx3 :=
  ⟨fxAdd v.x (Fx.of o.x), fxAdd v.y (Fx.of o.y), fxAdd v.z (Fx.of o.z)⟩

/-- A row of the matrix step, left to right (R274). -/
def rowTimes (r : Vec3) (v : Fx3) : Fx :=
  fxAdd (fxAdd (fxMul (Fx.of r.x) v.x) (fxMul (Fx.of r.y) v.y)) (fxMul (Fx.of r.z) v.z)

/-- The matrix step (R274). -/
def matTimes (m : Mat3) (v : Fx3) : Fx3 := ⟨rowTimes m.r0 v, rowTimes m.r1 v, rowTimes m.r2 v⟩

/-- Three computed values into three registers. -/
def putFx (s : State) (i j k : Fin 32) (v : Fx3) : State := putFx3 s i j k v.x v.y v.z

/-- Group A of `CA_APPLY` (R275). -/
def calibrateA (s : State) : State :=
  putFx (putFx s 9 10 11 (scaledA s)) 18 19 20 (addOffset (scaledA s) s.cal.aoff)

/-- Group G (R275). -/
def calibrateG (s : State) : State :=
  putFx (putFx s 12 13 14 (scaledG s)) 21 22 23 (addOffset (scaledG s) s.cal.goff)

/-- Group M: all three `V_M` first, then the rows (R275). -/
def calibrateM (s : State) : State :=
  putFx (putFx s 15 16 17 (scaledM s)) 24 25 26
    (matTimes s.cal.mmat (addOffset (scaledM s) s.cal.moff))

/-- `CA_APPLY(mask)`, `x[31]` not written (R275, R277). -/
def caApply (a g m : Bool) (s : State) : State :=
  let t := if a then calibrateA s else s
  let u := if g then calibrateG t else t
  if m then calibrateM u else u

/-- CA.APPLY (R275). -/
def execCaApply (mask : BitVec 3) (s : State) : Host.Outcome State Fault Refusal :=
  command 0x28 true resultZero
    (fun t => .ret () (setResult (caApply (mask.getLsbD 0) (mask.getLsbD 1) (mask.getLsbD 2) t)
      (mask.zeroExtend 32))) s

end Sys2Proof.Machine
end

