-- ==== Sys2Proof/Machine/Estimate.lean ====
section
/-! DEFINITION. OrientationEstimator: the complementary-filter step and OE.STEP
(spec/47_estimator.md R285 to R294). -/

namespace Sys2Proof.Machine

open Sys2Proof

/-- An FX register as an operand. -/
def fxOf (s : State) (i : Fin 32) : Fx := Fx.of (s.getX i)

/-- `fx_add( fx_add( prev, fx_mul( fx_mul(rate, dt), A_GYRO ) ), fx_mul(acc, A_ACC) )`, the form of
the new pitch and of the new roll (R287). -/
def blend (prev rate dt : Fx) (acc : Word) : Fx :=
  fxAdd (fxAdd prev (fxMul (fxMul rate dt) (Fx.of Config.aGyro))) (fxMul (Fx.of acc) (Fx.of Config.aAcc))

/-- The new pitch `p` (R287). -/
def newPitch (s : State) : Fx :=
  blend (fxOf s 28) (fxOf s 21) (fxOf s 30) (atan2d (s.getX 19) (s.getX 20))

/-- The new roll `r` (R287). -/
def newRoll (s : State) : Fx :=
  blend (fxOf s 27) (fxOf s 22) (fxOf s 30) (atan2d (s.getX 18) (s.getX 20))

/-- `mxc` of the tilt compensation, from the new roll (R287). -/
def tiltX (s : State) (roll : Word) : Fx :=
  fxSub (fxMul (fxOf s 24) (Fx.of (cosd roll))) (fxMul (fxOf s 26) (Fx.of (sind roll)))

/-- `myc`, from the new pitch and roll (R287). -/
def tiltY (s : State) (pitch roll : Word) : Fx :=
  fxAdd
    (fxAdd (fxMul (fxMul (fxOf s 24) (Fx.of (sind pitch))) (Fx.of (sind roll)))
      (fxMul (fxOf s 25) (Fx.of (cosd pitch))))
    (fxMul (fxMul (fxOf s 26) (Fx.of (sind pitch))) (Fx.of (cosd roll)))

/-- The new heading (R287), and whether an operation of it saturated. -/
def newHeading (s : State) (pitch roll : Word) : Fx :=
  ⟨atan2d (tiltY s pitch roll).val (tiltX s roll).val, (tiltY s pitch roll).sat || (tiltX s roll).sat⟩

/-- The effect of an accepted step (R287). -/
def oeAccept (s : State) : State :=
  let p := newPitch s
  let r := newRoll s
  (putFx3 s 27 28 29 r p (newHeading s p.val r.val)).withEstTs s.sa.ts

/-- Whether the step takes the `dt` of `x[30]` (R287, R289). -/
def dtAccepted (s : State) : Bool := decide (0 < (s.getX 30).toInt)

/-- `OE_STEP()`: `true` for accepted (R287). -/
def oeStep (s : State) : Bool × State := if dtAccepted s then (true, oeAccept s) else (false, s)

/-- OE.STEP (R288). -/
def execOeStep (s : State) : Host.Outcome State Fault Refusal :=
  command 0x29 true resultZero
    (fun t => .ret () (setResult (oeStep t).2 (BitVec.ofNat 32 (bit (oeStep t).1)))) s

end Sys2Proof.Machine
end

