-- ==== Sys2Proof/Machine/Schedule.lean ====
section
/-! DEFINITION. SamplingScheduler: the tick, the record, the loop, and SS.RUN
(spec/48_scheduler.md R300 to R312). -/

namespace Sys2Proof.Machine

open Sys2Proof

/-- `ss_phase <- v`. -/
def setSsPhase (v : SsPhase) (s : State) : State := s.withSs { s.ss with phase := v }

/-- The polls of a tick: only a ready group is polled; the error word of the first poll that raised is
kept (R303). -/
def tickPolls : List Group → Word → State → Res Word
  | [], first, s => .ret first s
  | g :: gs, first, s =>
    (corePoint s).andThen fun _ t =>
      if groupReady t g then
        (pollGroup g t).andThen fun r u =>
          tickPolls gs
            (match r with
              | .ok => first
              | .refused => first
              | .failed e => if first = 0 then errword e else first) u
      else tickPolls gs first (setRawOk g false t)

/-- What the filter did in a tick. -/
structure Fused where
  fused : Bool
  rej : Bool
deriving DecidableEq, Repr

/-- Whether a tick runs the filter step: the skip-or-stale policy (R303, R304). -/
def tickFuses (s : State) : Bool := (s.sa.okA && s.sa.okG && s.sa.okM) || s.ctrl.policyStale

/-- The `dt` of a tick into `x[30]` (R305). -/
def setDt (s : State) : State :=
  let d := fxFromUs ((s.sa.ts.toNat : Int) - (s.ss.lastTs.toNat : Int))
  orSat (s.setX 30 d.val) d.sat

/-- The filter step of a tick (R303). -/
def tickFuse (s : State) : Fused × State :=
  if tickFuses s then
    let t := setDt s
    let r := oeStep t
    if r.1 then (⟨true, false⟩, r.2.withSs { r.2.ss with lastTs := r.2.sa.ts }) else (⟨false, true⟩, r.2)
  else (⟨false, false⟩, s)

/-- `EMIT()` (R306, spec/30_encoding.md R118). -/
def emitRecord (s : State) : State :=
  s.withRcd
    { roll := s.getX 27
      pitch := s.getX 28
      head := s.getX 29
      mag := if s.ctrl.outRaw then ⟨s.getX 6, s.getX 7, s.getX 8⟩ else Vec3.all 0
      tStart := s.ss.tStart
      tEnd := s.ss.tEnd
      valid := true
      ovr := s.rcd.ovr || s.rcd.valid }

/-- The end of a tick: the tick count, then LASTTICK (R303, spec/10_state.md R47). -/
def tickEnd (f : Fused) (firsterr : Word) (s : State) : Res Unit :=
  (corePoint (s.withSs { s.ss with ticks := s.ss.ticks + 1 })).andThen fun _ t =>
    .ret () (t.withSs { t.ss with lasttick := lasttickWord t.sa f.fused f.rej firsterr })

/-- `TICK()` (R303). The reading of `t_end` and `EMIT()` are two steps (spec/00_scope.md R6, R306). -/
def tick (s : State) : Res Unit :=
  (readTime (setSsPhase .startStamp s)).andThen fun now t =>
  (tickPolls [.acc, .gyr, .mag] 0
      (setSsPhase .poll ((t.withSs { t.ss with tStart := now }).withSa { t.sa with ts := now }))).andThen fun firsterr t =>
  (corePoint (setSsPhase .fuse t)).andThen fun _ t =>
  (corePoint (caApply t.sa.okA t.sa.okG t.sa.okM t)).andThen fun _ t =>
  (readTime (setSsPhase .emit (tickFuse t).2)).andThen fun now u =>
  (corePoint (u.withSs { u.ss with tEnd := now })).andThen fun _ u =>
  (corePoint (emitRecord u)).andThen fun _ u =>
  tickEnd (tickFuse t).1 firsterr u

/-- The end of the loop: `ss_phase`, `ss_running`, and the number of ticks run (R302). -/
def loopEnd (s : State) : State :=
  setResult (s.withSs { s.ss with phase := .idle, running := false }) (BitVec.ofNat 32 s.ss.ran)

/-- The deadline after a tick: the previous target plus the period (R302, R307). -/
def nextEpoch (s : State) : Res Unit :=
  if s.ss.epoch.toNat + s.ss.period.toNat < 2 ^ 64 then
    .ret () (s.withSs { s.ss with epoch := BitVec.ofNat 64 (s.ss.epoch.toNat + s.ss.period.toNat), phase := .wait })
  else .stop (.refused .epochWrap)

/-- The wait for the deadline, if it is still to come (R302). -/
def waitEpoch (s : State) : Res Unit :=
  (readTime s).andThen fun now t =>
    if now.toNat < t.ss.epoch.toNat then waitUntil t.ss.epoch t else .ret () t

/-- `n <- n + 1`, and `ss_left` one less when there is a count (R302). -/
def countTick (s : State) : State :=
  s.withSs { s.ss with
    ran := s.ss.ran + 1
    left := if s.ss.count = 0 then s.ss.left else s.ss.left - 1 }

/-- Whether the count is used up (R302). -/
def countDone (s : State) : Bool := decide (s.ss.count ≠ 0) && decide (s.ss.left = 0)

/-- One turn of the loop of SS.RUN: the cancel check, a tick, the count, the deadline and the wait.
`true` when the loop has ended (R302, R308). -/
def loopTurn (s : State) : Res Bool :=
  (corePoint s).andThen fun _ t =>
    if t.ctrl.cancel then .ret true (loopEnd t)
    else (tick t).andThen fun _ u => (corePoint u).andThen fun _ u =>
      let v := countTick u
      if countDone v then .ret true (loopEnd v)
      else (nextEpoch v).andThen fun _ w => (waitEpoch w).andThen fun _ y => .ret false y

/-- The start of SS.RUN, before its loop (R302). -/
def ssStart (count : BitVec 16) (s : State) : Res Unit :=
  (readTime (s.withSs { s.ss with running := true })).andThen fun now t =>
    .ret () (t.withSs { t.ss with epoch := now, lastTs := now, left := count, count := count, ran := 0 })

/-- The sequencer position at the top of the loop (notes/assumptions/18.md). -/
def atLoopTop (s : State) : State := s.withSeq (some ⟨0x30, 1⟩)

/-- After a turn of the loop: completion if it ended, else the core stays busy at the top of it. -/
def afterTurn (r : Res Bool) : Host.Outcome State Fault Refusal :=
  match r with
  | .ret true s => closing (corePoint s) completeCommand
  | .ret false s => .next (atLoopTop s)
  | .raise e s => closing (corePoint s) (failCommand resultZero e)
  | .stop o => o

/-- SS.RUN (R302): its start and the first turn of its loop. The later turns are the steps that follow,
`continueRun` (notes/assumptions/1.md). With `ss_period` 0 it is illegal. -/
def execSsRun (count : BitVec 16) (s : State) : Host.Outcome State Fault Refusal :=
  turnedAway (decide (s.ss.period ≠ 0)) s
    (afterTurn ((corePoint (startCommand 0x30 s)).andThen fun _ t =>
      (ssStart count t).andThen fun _ u => loopTurn u))

/-- The next turn of the loop of an SS.RUN that is running. -/
def continueRun (s : State) : Host.Outcome State Fault Refusal := afterTurn (loopTurn s)

end Sys2Proof.Machine
end

