-- ==== Sys2Proof/Machine/Dispatch.lean ====
section
/-! DEFINITION. The meaning of each command, one arm per constructor of `Instr`. -/

namespace Sys2Proof.Machine

open Sys2Proof

def exec (i : Instr) (s : State) : Host.Outcome State Fault Refusal :=
  match i with
  | .btWrite a reg len => Sys2Proof.Machine.execBtWrite a reg len s
  | .btRead a reg len => Sys2Proof.Machine.execBtRead a reg len s
  | .btWrbyte a reg val => Sys2Proof.Machine.execBtWrbyte a reg val s
  | .btRdbyte a reg => Sys2Proof.Machine.execBtRdbyte a reg s
  | .rdRbit dev reg first => Sys2Proof.Machine.execRdRbit dev reg first s
  | .rdWbit dev reg first val => Sys2Proof.Machine.execRdWbit dev reg first val s
  | .rdRbits dev reg first flen => Sys2Proof.Machine.execRdRbits dev reg first flen s
  | .rdWbits dev reg first flen val => Sys2Proof.Machine.execRdWbits dev reg first flen val s
  | .agInit => Sys2Proof.Machine.execAgInit s
  | .agSetar code => Sys2Proof.Machine.execAgSetar code s
  | .agSetgr code => Sys2Proof.Machine.execAgSetgr code s
  | .agRdaraw => Sys2Proof.Machine.execAgRdaraw s
  | .agRdgraw => Sys2Proof.Machine.execAgRdgraw s
  | .agRda => Sys2Proof.Machine.execAgRda s
  | .agRdg => Sys2Proof.Machine.execAgRdg s
  | .mgInit => Sys2Proof.Machine.execMgInit s
  | .mgSetmode mode => Sys2Proof.Machine.execMgSetmode mode s
  | .mgSetres code => Sys2Proof.Machine.execMgSetres code s
  | .mgRdraw => Sys2Proof.Machine.execMgRdraw s
  | .mgRd => Sys2Proof.Machine.execMgRd s
  | .mgGetovf => Sys2Proof.Machine.execMgGetovf s
  | .saPolla => Sys2Proof.Machine.execSaPolla s
  | .saPollg => Sys2Proof.Machine.execSaPollg s
  | .saPollm => Sys2Proof.Machine.execSaPollm s
  | .saPoll => Sys2Proof.Machine.execSaPoll s
  | .saRdya => Sys2Proof.Machine.execSaRdya s
  | .saRdyg => Sys2Proof.Machine.execSaRdyg s
  | .saRdym => Sys2Proof.Machine.execSaRdym s
  | .caApply mask => Sys2Proof.Machine.execCaApply mask s
  | .oeStep => Sys2Proof.Machine.execOeStep s
  | .ssRun count => Sys2Proof.Machine.execSsRun count s

end Sys2Proof.Machine
end

