-- ==== Sys2Proof/Machine/Fetch.lean ====
section
/-! DEFINITION. How a command comes to run: the host's write of CMD (spec/10_state.md R41,
spec/20_memory.md R79, spec/60_exceptions.md R328), and the steps between commands. -/

namespace Sys2Proof.Machine

open Sys2Proof

/-- A write of a word to CMD: the command it encodes, or the `Illegal` completion (R327, R328); while
busy, only `cmd_ovr` (R41). -/
def fetchCommand (w : Word) (s : State) : Host.Outcome State Fault Refusal :=
  match decode w with
  | .ok i => exec i s
  | .error _ => turnedAway false s (.next s)

/-- Whether a host access is a write of CMD. -/
def commandWord : HostAccess → Option Word
  | .read _ => none
  | .write addr v => if addr = 0 then some v else none
  | .partWord _ => none

/-- What an outside move does when no command runs: a write of CMD starts one. -/
def idleMove (o : Outside) (s : State) : Host.Outcome State Fault Refusal :=
  match o with
  | .elapse d => closing (elapse d s) id
  | .host a =>
    match commandWord a with
    | some w => fetchCommand w s
    | none =>
      match hostAccess s a with
      | .ok t => .next t
      | .error r => .refused r
  | .rst => .next (inReset s)
  | .release => .next s

/-- What an outside move does while `rst` is asserted: the core does nothing; at the release it is idle at
its reset values (spec/70_reset_and_hazards.md R360). -/
def heldMove (o : Outside) (s : State) : Host.Outcome State Fault Refusal :=
  match o with
  | .elapse d => closing (elapse d s) id
  | .host a =>
    match heldAccess s a with
    | .ok t => .next t
    | .error r => .refused r
  | .rst => .next s
  | .release => .next (afterReset s)

/-- A step while `rst` is asserted. -/
def heldStep (s : State) : Host.Outcome State Fault Refusal :=
  match s.env with
  | [] => .next s
  | .outside o :: es => heldMove o (s.withEnv es)
  | .turn :: es => .next (s.withEnv es)
  | .answer _ :: es => .next (s.withEnv es)

/-- A step with no command running: the next thing outside, or none (notes/assumptions/31.md). -/
def idleStep (s : State) : Host.Outcome State Fault Refusal :=
  match s.env with
  | [] => .next s
  | .outside o :: es => idleMove o (s.withEnv es)
  | .turn :: es => .next (s.withEnv es)
  | .answer _ :: es => .next (s.withEnv es)

/-- A step of a core that is inside a bus primitive without an answer: the host may still act, only
`rst` ends it (spec/93 U1). No step leaves the core there (a command is one step), so this is for states
that no run reaches. -/
def hungStep (s : State) : Host.Outcome State Fault Refusal :=
  match s.env with
  | [] => .fault .busHung
  | .outside o :: es => closing (outsideMove o (s.withEnv es)) id
  | .turn :: es => .next (s.withEnv es)
  | .answer _ :: es => .next (s.withEnv es)

/-- One step: while `rst` is asserted, and with no command running, the next thing outside; else a turn of
the loop of a running SS.RUN. -/
def nextStep (s : State) : Host.Outcome State Fault Refusal :=
  if s.held then heldStep s
  else if s.cmd.busy then (if s.ss.running then continueRun s else hungStep s)
  else idleStep s

/-- The host about to write a command word to CMD of an idle core that is not in reset. -/
def aboutToFetch (s : State) (w : Word) : State :=
  ((s.withCmd { s.cmd with busy := false }).withHeld false).withEnv (.outside (.host (.write 0 w)) :: s.env)

end Sys2Proof.Machine
end

