-- ==== Sys2Proof/Machine/Step.lean ====
section
/-! DEFINITION. One step of the machine. -/

namespace Sys2Proof.Machine

/-- One step (notes/assumptions/1.md): a command, or a turn of SS.RUN's loop, or a move of the outside
while the core is idle or `rst` is asserted. -/
def step (s : State) : Host.Outcome State Fault Refusal := nextStep s

/-- `s` with a command word of `nbits` bits about to be written to CMD, which is where this machine
takes its next instruction from (notes/assumptions/2.md). -/
def State.withFetchWord (s : State) (nbits w : Nat) : State :=
  aboutToFetch s (BitVec.ofNat 32 (w % 2 ^ nbits))

end Sys2Proof.Machine
end

