-- ==== Sys2Proof/Safety.lean ====
section
/-! DEFINITION. The terms that claims about the core use: quiet environments, the answers that carry a
bus transaction through, the states that transactions and completions leave, and the invariants. -/

namespace Sys2Proof.Machine

open Sys2Proof

/-! ## Environments -/

/-- A move of the environment that is neither a host access nor one of `rst`: time passes, the bus answers,
or the core gets a turn. -/
def quietEvent : Event → Bool
  | .outside (.elapse _) => true
  | .outside (.host _) => false
  | .outside .rst => false
  | .outside .release => false
  | .turn => true
  | .answer _ => true

/-- No host access and no `rst` in what is to come. -/
def hostQuiet (es : List Event) : Bool := es.all quietEvent

/-- A move that neither asserts nor releases `rst`. -/
def notRst : Event → Bool
  | .outside (.elapse _) => true
  | .outside (.host _) => true
  | .outside .rst => false
  | .outside .release => false
  | .turn => true
  | .answer _ => true

/-- Neither an assertion nor a release of `rst` in what is to come. -/
def rstFree (es : List Event) : Bool := es.all notRst

/-- The answer a selection of `a` takes: none if `a` is selected (spec/41_bus_transport.md R151). -/
def selectAns (s : State) (a : BitVec 7) : List Event :=
  if s.bt.sel = some a then [] else [.answer .selectOk]

/-- The answers of a read that is full at its first attempt (R154). -/
def readAns (bs : List Byte) : List Event := [.answer (.wrote 1), .answer (.received bs)]

/-- The answer of a full write of `n` payload bytes (R152). -/
def writeAns (n : Nat) : List Event := [.answer (.wrote (1 + n))]

/-- The answers of a bit-field write whose read gives `b` (spec/42_register_device.md R173). -/
def bitsAns (b : Byte) : List Event := readAns [b] ++ writeAns 1

/-- An attempt of a read that falls short (spec/41_bus_transport.md R154): the register write takes no
byte, or the read gives fewer bytes than asked. -/
inductive Short where
  | prime
  | read (bs : List Byte)
deriving DecidableEq, Repr

/-- Whether a short attempt is one for a read of `n` bytes. -/
def Short.fits (n : Nat) : Short → Bool
  | .prime => true
  | .read bs => decide (bs.length < n)

/-- The answers of a short attempt. -/
def Short.ans : Short → List Event
  | .prime => [.answer (.wrote 0)]
  | .read bs => [.answer (.wrote 1), .answer (.received bs)]

/-- A wait with nothing outside before it or in it: the core's turn at its start, and the turn that ends it
(notes/assumptions/2.md). -/
def waitAns : List Event := [.turn, .turn]

/-- The answers of short attempts, each followed by its wait in which nothing outside happens. -/
def shortsAns : List Short → List Event
  | [] => []
  | x :: xs => x.ans ++ (waitAns ++ shortsAns xs)

/-- At most four short attempts of a read of `n` bytes: an attempt is left (R154). -/
def shortsFit (n : Nat) (xs : List Short) : Bool := decide (xs.length ≤ 4) && xs.all (Short.fits n)

/-- How a read ends (R150, R151, R154). -/
inductive ReadEnd where
  /-- no bus is attached -/
  | noBus
  /-- the selection fails -/
  | selectFailed
  /-- after `xs` the register write is answered by a time-out -/
  | primeTimedOut (xs : List Short)
  /-- after `xs` and a register write the read is answered by a time-out -/
  | readTimedOut (xs : List Short)
  /-- all five attempts are short -/
  | givenUp (xs : List Short) (x : Short)
  /-- after `xs` an attempt gives all the bytes -/
  | full (xs : List Short) (bs : List Byte)
deriving DecidableEq, Repr

/-- Whether a read of `n` bytes from `a` can end so. -/
def ReadEnd.fits (a : BitVec 7) (n : Nat) (s : State) : ReadEnd → Bool
  | .noBus => !s.ctrl.btAttach
  | .selectFailed => s.ctrl.btAttach && decide (s.bt.sel ≠ some a)
  | .primeTimedOut xs => s.ctrl.btAttach && shortsFit n xs
  | .readTimedOut xs => s.ctrl.btAttach && shortsFit n xs
  | .givenUp xs x => s.ctrl.btAttach && decide (xs.length = 4) && xs.all (Short.fits n) && x.fits n
  | .full xs bs => s.ctrl.btAttach && shortsFit n xs && decide (bs.length = n)

/-- What a read that ends so takes from the environment. -/
def ReadEnd.ans (a : BitVec 7) (s : State) : ReadEnd → List Event
  | .noBus => []
  | .selectFailed => [.answer .selectFail]
  | .primeTimedOut xs => selectAns s a ++ (shortsAns xs ++ [.answer .timedOut])
  | .readTimedOut xs => selectAns s a ++ (shortsAns xs ++ [.answer (.wrote 1), .answer .timedOut])
  | .givenUp xs x => selectAns s a ++ (shortsAns xs ++ x.ans)
  | .full xs bs => selectAns s a ++ (shortsAns xs ++ readAns bs)

/-- The error a read that ends so raises (R150, R151, R154). -/
def ReadEnd.err : ReadEnd → Option IoKind
  | .noBus => some .notConnected
  | .selectFailed => some .selectFailed
  | .primeTimedOut _ => some .timeout
  | .readTimedOut _ => some .timeout
  | .givenUp _ _ => some .shortTransfer
  | .full _ _ => none

/-- The bytes a read that ends so returns. -/
def ReadEnd.bytes : ReadEnd → List Byte
  | .noBus => []
  | .selectFailed => []
  | .primeTimedOut _ => []
  | .readTimedOut _ => []
  | .givenUp _ _ => []
  | .full _ bs => bs

/-- The time the waits between its attempts take. -/
def ReadEnd.delay : ReadEnd → Nat
  | .noBus => 0
  | .selectFailed => 0
  | .primeTimedOut xs => Config.rdRetryUs * xs.length
  | .readTimedOut xs => Config.rdRetryUs * xs.length
  | .givenUp xs _ => Config.rdRetryUs * xs.length
  | .full xs _ => Config.rdRetryUs * xs.length

/-! ## States after the core's operations -/

/-- The primitives of a short attempt, newest first. -/
def Short.sent (reg : Byte) (n : Nat) : Short → List PortEvent
  | .prime => [.write [reg]]
  | .read _ => [.read n, .write [reg]]

/-- The primitives and waits of short attempts that are not the last, newest first. -/
def shortsSent (reg : Byte) (n : Nat) : List Short → List PortEvent
  | [] => []
  | x :: xs => shortsSent reg n xs ++ .wait Config.rdRetryUs :: x.sent reg n

/-- The primitive a selection of `a` sends: none if `a` is selected (R151). -/
def selectSent (s : State) (a : BitVec 7) : List PortEvent :=
  if s.bt.sel = some a then [] else [.select a]

/-- After a read full at its first attempt: selection, attempt number, receive buffer, primitives sent
(R151, R154, R160). -/
def readDone (a : BitVec 7) (reg : Byte) (bs : List Byte) (s : State) : State :=
  rxStore ((s.withBt ⟨some a, 1⟩).withPort
    (.read bs.length :: .write [reg] :: (selectSent s a ++ s.port))) bs

/-- After a full write (R151, R152). -/
def writeDone (a : BitVec 7) (reg : Byte) (bs : List Byte) (s : State) : State :=
  (s.withBt { s.bt with sel := some a }).withPort (.write (reg :: bs) :: (selectSent s a ++ s.port))

/-- After `xs` short attempts of a read of `n` bytes and one more, which sent `sent` (R154, R155): each retry
waited 10 000 microseconds. -/
def readTried (xs : List Short) (sent : List PortEvent) (a : BitVec 7) (reg : Byte) (n : Nat) (s : State) :
    State :=
  ((s.withBt ⟨some a, xs.length + 1⟩).withPort
    (sent ++ (shortsSent reg n xs ++ (selectSent s a ++ s.port)))).withClock
      (BitVec.ofNat 64 (s.clock.toNat + Config.rdRetryUs * xs.length))

/-- After a read that was short `xs.length` times and then full (R154, R155). -/
def readDoneAfter (xs : List Short) (a : BitVec 7) (reg : Byte) (bs : List Byte) (s : State) : State :=
  rxStore (readTried xs [.read bs.length, .write [reg]] a reg bs.length s) bs

/-- After a read that was short at all five attempts, the last of them `x` (R154, R155, R160). -/
def readGivenUp (xs : List Short) (x : Short) (a : BitVec 7) (reg : Byte) (n : Nat) (s : State) : State :=
  rxFailed (readTried xs (x.sent reg n) a reg n s)

/-- After a selection of `a` that failed (R151). -/
def selectLost (a : BitVec 7) (s : State) : State :=
  (s.withBt { s.bt with sel := none }).withPort (.select a :: s.port)

/-- After a read of `n` bytes that ended so (R150, R151, R154, R160). -/
def ReadEnd.done (a : BitVec 7) (reg : Byte) (n : Nat) (s : State) : ReadEnd → State
  | .noBus => s
  | .selectFailed => selectLost a s
  | .primeTimedOut xs => rxFailed (readTried xs [.write [reg]] a reg n s)
  | .readTimedOut xs => rxFailed (readTried xs [.read n, .write [reg]] a reg n s)
  | .givenUp xs x => readGivenUp xs x a reg n s
  | .full xs bs => readDoneAfter xs a reg bs s

/-- After a bit-field write whose read gave `b` (spec/42_register_device.md R173). -/
def bitsDone (a : BitVec 7) (reg : Byte) (first len : Nat) (v b : Byte) (s : State) : State :=
  writeDone a reg [fieldPut first len b v] ((readDone a reg [b] s).withRmw b)

/-- After a wait of `d` microseconds in which nothing outside happens (spec/10_state.md R36). -/
def waited (d : Nat) (s : State) : State :=
  (s.withPort (.wait d :: s.port)).withClock (BitVec.ofNat 64 (s.clock.toNat + d))

/-! ## States after the drivers' routines -/

/-- After AG_SETAR whose read gave `b` (spec/43_accel_gyro.md R197). -/
def rangeADone (code : BitVec 2) (b : Byte) (s : State) : State :=
  let t := bitsDone s.cfg.agAddr s.cfg.agAfs.reg s.cfg.agAfs.first 2 (code.zeroExtend 8) b s
  t.withAg { t.ag with arange := code, ares := aresTable code }

/-- After AG_SETGR whose read gave `b` (R198). -/
def rangeGDone (code : BitVec 2) (b : Byte) (s : State) : State :=
  let t := bitsDone s.cfg.agAddr s.cfg.agGfs.reg s.cfg.agGfs.first 2 (code.zeroExtend 8) b s
  t.withAg { t.ag with grange := code, gres := gresTable code }

/-- After a micro-operation; `b` is what its read gave, if it has one (R192). -/
def opDone (m : MicroOp) (b : Byte) (s : State) : State :=
  match m with
  | .wbits f v => bitsDone s.cfg.agAddr f.reg f.first f.len v b s
  | .wbyte reg v => writeDone s.cfg.agAddr reg [v] s
  | .setgr code => rangeGDone code b s
  | .setar code => rangeADone code b s
  | .delay d => waited d s

/-- What a micro-operation takes from the environment (R192). -/
def opAns (m : MicroOp) (b : Byte) (s : State) : List Event :=
  match m with
  | .wbits _ _ => selectAns s s.cfg.agAddr ++ bitsAns b
  | .wbyte _ _ => selectAns s s.cfg.agAddr ++ writeAns 1
  | .setgr _ => selectAns s s.cfg.agAddr ++ bitsAns b
  | .setar _ => selectAns s s.cfg.agAddr ++ bitsAns b
  | .delay _ => waitAns

/-- The time a micro-operation waits. -/
def opDelay : MicroOp → Nat
  | .wbits _ _ => 0
  | .wbyte _ _ => 0
  | .setgr _ => 0
  | .setar _ => 0
  | .delay d => d

/-- After the micro-operations of a stage, each with the byte its read gave. -/
def opsDone : List (MicroOp × Byte) → State → State
  | [], s => s
  | c :: cs, s => opsDone cs (opDone c.1 c.2 s)

/-- What the micro-operations of a stage take from the environment. -/
def opsAns : List (MicroOp × Byte) → State → List Event
  | [], _ => []
  | c :: cs, s => opAns c.1 c.2 s ++ opsAns cs (opDone c.1 c.2 s)

/-- The time the micro-operations of a stage wait. -/
def opsDelay : List (MicroOp × Byte) → Nat
  | [] => 0
  | c :: cs => opDelay c.1 + opsDelay cs

/-- After the stages of AG_INIT, each given as its micro-operations and the state it reaches (R191,
R194). -/
def stagesDone : List (List (MicroOp × Byte) × AgState) → State → State
  | [], s => s
  | c :: cs, s => stagesDone cs (setAgState c.2 (opsDone c.1 s))

/-- What the stages take from the environment. -/
def stagesAns : List (List (MicroOp × Byte) × AgState) → State → List Event
  | [], _ => []
  | c :: cs, s => opsAns c.1 s ++ stagesAns cs (setAgState c.2 (opsDone c.1 s))

/-- The time the stages wait. -/
def stagesDelay : List (List (MicroOp × Byte) × AgState) → Nat
  | [] => 0
  | c :: cs => opsDelay c.1 + stagesDelay cs

/-- After MG_SETMODE whose read gave `b` (spec/44_mag.md R222). -/
def modeDone (m : MagMode) (b : Byte) (s : State) : State :=
  let t := bitsDone s.cfg.mgAddr s.cfg.mgMode.reg s.cfg.mgMode.first s.cfg.mgMode.len
    (magModeCode s.cfg.mgModeCode m) b s
  let u := t.withMg { t.mg with mode := m }
  if m = .powerDown then waited Config.mgSettleUs u else u

/-- What MG_SETMODE takes from the environment after the selection: PowerDown has a wait (R222). -/
def modeAns (m : MagMode) (b : Byte) : List Event :=
  if m = .powerDown then bitsAns b ++ waitAns else bitsAns b

/-- After MG_SETRES whose read gave `b` (R228). -/
def resDone (code : BitVec 1) (b : Byte) (s : State) : State :=
  let t := bitsDone s.cfg.mgAddr s.cfg.mgBit.reg s.cfg.mgBit.first 1 (code.zeroExtend 8) b s
  t.withMg { t.mg with resbit := code, res := mresTable code }

/-- After MG_INIT whose mode writes read `b0`, `b1`, `b2` and whose fuse ROM gave `asa` (R224, R225). -/
def mgInitDone (b0 b1 b2 : Byte) (asa : List Byte) (s : State) : State :=
  let s0 := s.withMg { s.mg with initDone := false, stage := 0 }
  let s1 := setMgStage 1 (modeDone .powerDown b0 s0)
  let s2 := setMgStage 2 (modeDone .fuseRom b1 s1)
  let s3 := setMgStage 3 (setMgAdj asa (readDone s2.cfg.mgAddr s2.cfg.mgAsa asa s2))
  let s4 := setMgStage 4 (modeDone .powerDown b2 s3)
  s4.withMg { s4.mg with initDone := true }

/-! ## States after polls and ticks -/

/-- The BusAddress of the device a group's driver reads (spec/45_aggregator.md R250). -/
def groupAddr (g : Group) (s : State) : BitVec 7 :=
  match g with
  | .acc => s.cfg.agAddr
  | .gyr => s.cfg.agAddr
  | .mag => s.cfg.mgAddr

/-- The register a group's driver reads from. -/
def groupReg (g : Group) (s : State) : Byte :=
  match g with
  | .acc => s.cfg.agAccelOut
  | .gyr => s.cfg.agGyroOut
  | .mag => s.cfg.mgBurstReg

/-- Whether the driver of a group has a transport (spec/42_register_device.md R171). -/
def groupDriver (g : Group) (s : State) : Bool :=
  match g with
  | .acc => s.ctrl.agTAttach
  | .gyr => s.ctrl.agTAttach
  | .mag => s.ctrl.mgTAttach

/-- How many bytes a group's driver reads (spec/43_accel_gyro.md R199, spec/44_mag.md R229). -/
def groupLen : Group → Nat
  | .acc => 6
  | .gyr => 6
  | .mag => 8

/-- The device of a group. -/
def groupDev : Group → Dev
  | .acc => .ag
  | .gyr => .ag
  | .mag => .mg

/-- What came of a group in a poll. -/
inductive Polled where
  /-- it was not read: not attached, or in a tick not ready (spec/45_aggregator.md R253, spec/48_scheduler.md
  R303) -/
  | unread
  /-- its driver has no transport (spec/42_register_device.md R171) -/
  | disconnected
  /-- its driver's read ended so -/
  | read (r : ReadEnd)
deriving DecidableEq, Repr

/-- The group was read in full at the first attempt. -/
def Polled.data (bs : List Byte) : Polled := .read (.full [] bs)

/-- The error in the bytes read for a group: a status burst that is not ready, or overflowed
(spec/44_mag.md R229). -/
def burstErr (g : Group) (bs : List Byte) (s : State) : Option Err :=
  match g with
  | .acc => none
  | .gyr => none
  | .mag =>
    if (byteAt bs 0).getLsbD s.cfg.mgDrdyBit = false then some ⟨.notReady, .mg⟩
    else if (byteAt bs 7).getLsbD s.cfg.mgHoflBit then some ⟨.overflow, .mg⟩
    else none

/-- The error a group poll fails with, if it does (spec/45_aggregator.md R253). -/
def Polled.err (g : Group) (s : State) : Polled → Option Err
  | .unread => none
  | .disconnected => some ⟨.disconnected, groupDev g⟩
  | .read r =>
    match r.err with
    | some k => some ⟨.io k, groupDev g⟩
    | none => burstErr g r.bytes s

/-- Whether a group was delivered. -/
def Polled.delivered (g : Group) (s : State) : Polled → Bool
  | .unread => false
  | .disconnected => false
  | .read r => ((Polled.read r).err g s).isNone

/-- After the bytes of a group are read: decoded into its raw registers, or refused, and then only an overflow
is kept (R253, spec/44_mag.md R229, R233). -/
def burstDone (g : Group) (bs : List Byte) (s : State) : State :=
  match g with
  | .acc => setRawOk .acc true (putRawA s (decode6 bs))
  | .gyr => setRawOk .gyr true (putRawG s (decode6 bs))
  | .mag =>
    if (byteAt bs 0).getLsbD s.cfg.mgDrdyBit = false then setRawOk .mag false s
    else if (byteAt bs 7).getLsbD s.cfg.mgHoflBit then setRawOk .mag false (s.withMg { s.mg with ovf := true })
    else setRawOk .mag true
      (putRawM (s.withMg { s.mg with ovf := false }) (decodeBurst s.cfg.magLowByteFirst bs))

/-- After a group poll: a group that is not delivered loses its flag and keeps its raw registers (R253). -/
def pollDone (g : Group) (s : State) : Polled → State
  | .unread => setRawOk g false s
  | .disconnected => setRawOk g false s
  | .read r =>
    let t := r.done (groupAddr g s) (groupReg g s) (groupLen g) s
    if r.err.isSome then setRawOk g false t else burstDone g r.bytes t

/-- What a group poll takes from the environment. -/
def pollAns (g : Group) (s : State) : Polled → List Event
  | .unread => []
  | .disconnected => []
  | .read r => r.ans (groupAddr g s) s

/-- The time a group poll waits. -/
def Polled.delay : Polled → Nat
  | .unread => 0
  | .disconnected => 0
  | .read r => r.delay

/-- After polls in order, each group with what came of it (R257, spec/48_scheduler.md R303). -/
def pollsDone : List (Group × Polled) → State → State
  | [], s => s
  | (g, o) :: cs, s => pollsDone cs (pollDone g s o)

/-- What the polls take from the environment. -/
def pollsAns : List (Group × Polled) → State → List Event
  | [], _ => []
  | (g, o) :: cs, s => pollAns g s o ++ pollsAns cs (pollDone g s o)

/-- The first error of the polls. -/
def pollsErr : List (Group × Polled) → State → Option Err
  | [], _ => none
  | (g, o) :: cs, s =>
    match o.err g s with
    | some e => some e
    | none => pollsErr cs (pollDone g s o)

/-- The time the polls wait. -/
def pollsDelay : List (Group × Polled) → Nat
  | [] => 0
  | (_, o) :: cs => o.delay + pollsDelay cs

/-- Whether this can come of a group in an SA poll: it is not read exactly if it is not attached (R253). -/
def pollFits (g : Group) (s : State) : Polled → Bool
  | .unread => !groupAttached s g
  | .disconnected => groupAttached s g && !groupDriver g s
  | .read r => groupAttached s g && groupDriver g s && r.fits (groupAddr g s) (groupLen g) s

/-- Whether this can come of the groups of an SA.POLL. -/
def pollsFit : List (Group × Polled) → State → Bool
  | [], _ => true
  | (g, o) :: cs, s => pollFits g s o && pollsFit cs (pollDone g s o)

/-- Whether this can come of a group in a tick: it is not read exactly if it is not ready
(spec/48_scheduler.md R303). -/
def tickFits (g : Group) (s : State) : Polled → Bool
  | .unread => !groupReady s g
  | .disconnected => false
  | .read r => groupReady s g && r.fits (groupAddr g s) (groupLen g) s

/-- Whether this can come of the groups of a tick. -/
def ticksFit : List (Group × Polled) → State → Bool
  | [], _ => true
  | (g, o) :: cs, s => tickFits g s o && ticksFit cs (pollDone g s o)

/-- The three groups in their order, each with what came of it. -/
def outcomes (a g m : Polled) : List (Group × Polled) := [(.acc, a), (.gyr, g), (.mag, m)]

/-- FIRSTERR of a tick before it is cut to 24 bits: the word of the first error of its polls, else 0
(R303, spec/10_state.md R47). -/
def firstErrWord (e : Option Err) : Word :=
  match e with
  | none => 0
  | some e => errword e

/-- The start of a tick, with its capture time stamp (R303). -/
def tickStarted (s : State) : State :=
  (s.withSs { s.ss with tStart := s.clock, phase := .poll }).withSa { s.sa with ts := s.clock }

/-- The rest of a tick, after its polls, when no time passes in this part (R303): calibration, the filter by the
policy, the record, the count, LASTTICK. -/
def tickEnded (firsterr : Word) (s : State) : State :=
  let f := tickFuse (caApply s.sa.okA s.sa.okG s.sa.okM s)
  let v := emitRecord (f.2.withSs { f.2.ss with tEnd := f.2.clock, phase := .emit })
  v.withSs { v.ss with
    ticks := v.ss.ticks + 1
    lasttick := lasttickWord v.sa f.1.fused f.1.rej firsterr }

/-- After the start of SS.RUN (spec/48_scheduler.md R302). -/
def runBegun (count : BitVec 16) (s : State) : State :=
  (startCommand 0x30 s).withSs { s.ss with
    running := true
    epoch := s.clock
    lastTs := s.clock
    left := count
    count := count
    ran := 0 }

/-- After a tick of the loop that is not cancelled, counted (R302, R303). -/
def tickCounted (rs : List (Group × Polled)) (s : State) : State :=
  let t := tickEnded (firstErrWord (pollsErr rs (tickStarted s))) (pollsDone rs (tickStarted s))
  t.withSs { t.ss with
    ran := t.ss.ran + 1
    left := if t.ss.count = 0 then t.ss.left else t.ss.left - 1 }

/-- After the loop has ended with successful completion (R302, R329): `x[31]` is the number of ticks. -/
def runEnded (s : State) : State :=
  (((setResult s (BitVec.ofNat 32 s.ss.ran)).withSs { s.ss with phase := .idle, running := false }).withCmd
    { s.cmd with busy := false, done := true }).withSeq none

/-- After the wait for the deadline, if it is still to come, nothing else happening (R302). -/
def deadlineWaited (s : State) : State :=
  if s.clock < s.ss.epoch then (s.withPort (.waitUntil s.ss.epoch :: s.port)).withClock s.ss.epoch else s

/-- After the deadline of a tick is moved on by the period and waited for (R302, R307). -/
def deadlineReached (s : State) : State :=
  deadlineWaited (s.withSs { s.ss with
    epoch := BitVec.ofNat 64 (s.ss.epoch.toNat + s.ss.period.toNat)
    phase := .wait })

/-- Successful completion of a command that was started (spec/60_exceptions.md R328, R329). -/
def succeeded (s : State) : State :=
  (s.withCmd { s.cmd with busy := false, done := true, fail := false, err := 0 }).withSeq none

/-- Failing completion with error `e` of a command that was started (R328, R330), but for `x[31]`. -/
def failedWith (e : Err) (s : State) : State :=
  (s.withCmd { s.cmd with busy := false, done := true, fail := true, err := errword e }).withSeq none

/-- The registers `x[k]` with `k` not in `ds` are the same. -/
def sameXBut (ds : List (Fin 32)) (s t : State) : Prop := ∀ k, k ∉ ds → t.getX k = s.getX k

/-- Every byte of the transmit buffer reads the same, and its length is the same. -/
def sameTx (s t : State) : Prop :=
  (∀ k, Memory.read t.buf.tx k = Memory.read s.buf.tx k) ∧ t.buf.txLen = s.buf.txLen

/-- Every byte of the receive buffer reads the same, and its length and pointer are the same. -/
def sameRx (s t : State) : Prop :=
  (∀ k, Memory.read t.buf.rx k = Memory.read s.buf.rx k) ∧ t.buf.rxLen = s.buf.rxLen
    ∧ t.buf.rxRptr = s.buf.rxRptr

/-! ## What each command may write -/

/-- What a command may write beside `x[31]`, the completion flags and the sequencer. -/
structure Writes where
  /-- data registers -/
  x : List (Fin 32) := []
  /-- it drives the bus: `bt_sel`, what is sent out, the time a bus answer takes -/
  bus : Bool := false
  /-- it reads the bus: `bt_attempt` and the receive buffer -/
  rx : Bool := false
  /-- the read-modify-write temporary -/
  rmw : Bool := false
  /-- the state of the AccelGyroDriver -/
  ag : Bool := false
  /-- the state of the MagDriver but `mg_ovf` -/
  mg : Bool := false
  /-- `mg_ovf` -/
  ovf : Bool := false
  /-- `raw_ok` and `raw_ts` -/
  sa : Bool := false
  /-- `est_ts` -/
  est : Bool := false
  /-- `fx_sat` -/
  fx : Bool := false
  /-- the scheduler's state and the record -/
  loop : Bool := false
deriving DecidableEq, Repr

/-- Everything a command can write. -/
def Writes.all : Writes where
  x := List.finRange 32
  bus := true
  rx := true
  rmw := true
  ag := true
  mg := true
  ovf := true
  sa := true
  est := true
  fx := true
  loop := true

/-- What each command may write (spec/10_state.md R21, R34, R35, spec/20_memory.md R70, and the rule of
each command). -/
def writes : Instr → Writes
  | .btWrite _ _ _ => { bus := true }
  | .btRead _ _ _ => { bus := true, rx := true }
  | .btWrbyte _ _ _ => { bus := true }
  | .btRdbyte _ _ => { bus := true, rx := true }
  | .rdRbit _ _ _ => { bus := true, rx := true }
  | .rdWbit _ _ _ _ => { bus := true, rx := true, rmw := true }
  | .rdRbits _ _ _ _ => { bus := true, rx := true }
  | .rdWbits _ _ _ _ _ => { bus := true, rx := true, rmw := true }
  | .agInit => { bus := true, rx := true, rmw := true, ag := true }
  | .agSetar _ => { bus := true, rx := true, rmw := true, ag := true }
  | .agSetgr _ => { bus := true, rx := true, rmw := true, ag := true }
  | .agRdaraw => { x := [0, 1, 2], bus := true, rx := true }
  | .agRdgraw => { x := [3, 4, 5], bus := true, rx := true }
  | .agRda => { x := [0, 1, 2, 9, 10, 11], bus := true, rx := true, fx := true }
  | .agRdg => { x := [3, 4, 5, 12, 13, 14], bus := true, rx := true, fx := true }
  | .mgInit => { bus := true, rx := true, rmw := true, mg := true }
  | .mgSetmode _ => { bus := true, rx := true, rmw := true, mg := true }
  | .mgSetres _ => { bus := true, rx := true, rmw := true, mg := true }
  | .mgRdraw => { x := [6, 7, 8], bus := true, rx := true, ovf := true }
  | .mgRd => { x := [6, 7, 8, 15, 16, 17], bus := true, rx := true, ovf := true, fx := true }
  | .mgGetovf => {}
  | .saPolla => { x := [0, 1, 2], bus := true, rx := true, sa := true }
  | .saPollg => { x := [3, 4, 5], bus := true, rx := true, sa := true }
  | .saPollm => { x := [6, 7, 8], bus := true, rx := true, ovf := true, sa := true }
  | .saPoll => { x := [0, 1, 2, 3, 4, 5, 6, 7, 8], bus := true, rx := true, ovf := true, sa := true }
  | .saRdya => {}
  | .saRdyg => {}
  | .saRdym => {}
  | .caApply _ =>
    { x := [9, 10, 11, 12, 13, 14, 15, 16, 17, 18, 19, 20, 21, 22, 23, 24, 25, 26], fx := true }
  | .oeStep => { x := [27, 28, 29], est := true, fx := true }
  | .ssRun _ =>
    { x := List.finRange 31 |>.map Fin.castSucc, bus := true, rx := true, ovf := true, sa := true, est := true,
      fx := true, loop := true }

/-- The device whose driver a command goes through, which must have a transport (spec/42_register_device.md
R171); the polls of the aggregator check their attachments themselves. -/
def driverOf : Instr → Option Dev
  | .btWrite _ _ _ => none
  | .btRead _ _ _ => none
  | .btWrbyte _ _ _ => none
  | .btRdbyte _ _ => none
  | .rdRbit dev _ _ => some dev
  | .rdWbit dev _ _ _ => some dev
  | .rdRbits dev _ _ _ => some dev
  | .rdWbits dev _ _ _ _ => some dev
  | .agInit => some .ag
  | .agSetar _ => some .ag
  | .agSetgr _ => some .ag
  | .agRdaraw => some .ag
  | .agRdgraw => some .ag
  | .agRda => some .ag
  | .agRdg => some .ag
  | .mgInit => some .mg
  | .mgSetmode _ => some .mg
  | .mgSetres _ => some .mg
  | .mgRdraw => some .mg
  | .mgRd => some .mg
  | .mgGetovf => none
  | .saPolla => none
  | .saPollg => none
  | .saPollm => none
  | .saPoll => none
  | .saRdya => none
  | .saRdyg => none
  | .saRdym => none
  | .caApply _ => none
  | .oeStep => none
  | .ssRun _ => none

/-- `x[31]` after AG.INIT, MG.INIT or another driver command has failed in the state `s`
(spec/60_exceptions.md R330). -/
def failResult (i : Instr) (s : State) : Word :=
  if i = .agInit then (agStateNum s.ag.state).zeroExtend 32
  else if i = .mgInit then s.mg.stage.zeroExtend 32
  else 0

/-- The raw registers of a group, `x[3 k .. 3 k + 2]` (spec/45_aggregator.md R250). -/
def groupRegs : Group → List (Fin 32)
  | .acc => [0, 1, 2]
  | .gyr => [3, 4, 5]
  | .mag => [6, 7, 8]

/-- `raw_ok[g]` (spec/10_state.md R27). -/
def groupOk (g : Group) (s : State) : Bool :=
  match g with
  | .acc => s.sa.okA
  | .gyr => s.sa.okG
  | .mag => s.sa.okM

/-- The command that polls a group. -/
def pollCommand : Group → Instr
  | .acc => .saPolla
  | .gyr => .saPollg
  | .mag => .saPollm

/-- The command that asks whether a group is ready. -/
def readyCommand : Group → Instr
  | .acc => .saRdya
  | .gyr => .saRdyg
  | .mag => .saRdym

/-! ## Invariants -/

/-- The cached resolutions are those of the cached codes (spec/10_state.md R37). -/
def CachesAgree (s : State) : Prop :=
  s.ag.ares = aresTable s.ag.arange ∧ s.ag.gres = gresTable s.ag.grange
    ∧ s.mg.res = mresTable s.mg.resbit

/-- The byte buffers are in canonical form, below address 511, with lengths and pointer at most 511
(R24). -/
def BuffersOk (s : State) : Prop :=
  Memory.wf s.buf.tx = true ∧ Memory.wf s.buf.rx = true
    ∧ (∀ c ∈ s.buf.tx, c.1 < 511) ∧ (∀ c ∈ s.buf.rx, c.1 < 511)
    ∧ s.buf.txLen ≤ 511 ∧ s.buf.rxLen ≤ 511 ∧ s.buf.rxRptr ≤ 511

/-- `bt_attempt` is at most 5, and an address is selected only with a bus attached (R23, R44). -/
def TransportOk (s : State) : Prop :=
  s.bt.attempt ≤ 5 ∧ (s.bt.sel ≠ none → s.ctrl.btAttach = true)

/-- The command flags (spec/10_state.md R30, R33, R34; spec/60_exceptions.md R328 to R330): `busy` with
a running `seq` and without `done`; `fail` only with `done`; an error word exactly with `fail`. -/
def StatusOk (s : State) : Prop :=
  (s.cmd.busy = s.seq.isSome) ∧ (s.cmd.busy = true → s.cmd.done = false)
    ∧ (s.cmd.fail = true → s.cmd.done = true) ∧ (s.cmd.fail = true ↔ s.cmd.err ≠ 0)

/-- No kept time stamp is later than the timebase, and a record's start is not later than its end
(spec/10_state.md R36, spec/48_scheduler.md R306). -/
def StampsOk (s : State) : Prop :=
  s.sa.ts ≤ s.clock ∧ s.estTs ≤ s.clock ∧ s.ss.lastTs ≤ s.clock
    ∧ s.ss.tStart ≤ s.clock ∧ s.ss.tEnd ≤ s.clock
    ∧ s.rcd.tStart ≤ s.rcd.tEnd ∧ s.rcd.tEnd ≤ s.clock

/-- The magnetometer's initialization stage is one of 0 to 4 (spec/10_state.md R26). -/
def StageOk (s : State) : Prop := s.mg.stage.toNat ≤ 4

/-- While `rst` is asserted the core stands idle at its reset values (spec/70_reset_and_hazards.md R360,
notes/assumptions/35.md). -/
def HeldOk (s : State) : Prop := s.held = true → s = inReset s

/-! ## The accuracy of the trigonometric functions -/

/-- `b` is an FX value, as bits, and none is nearer to the real number `r`. -/
def NearestFx (r : ℝ) (b : Int) : Prop :=
  fxMin ≤ b ∧ b ≤ fxMax ∧ ∀ c : Int, fxMin ≤ c → c ≤ fxMax → |r * 65536 - b| ≤ |r * 65536 - c|

/-- `w` differs from the FX value nearest to `r` by at most `err` units in the last place. -/
def Within (err : Nat) (r : ℝ) (w : Word) : Prop := ∃ b, NearestFx r b ∧ |w.toInt - b| ≤ err

/-- `ATAN2D(y, x)` is within `err` of its reference (P-A1: spec/40_numerics.md R141). The angle of the point
`(x, y)` is that of the complex number `x + i y`; the scale of both coordinates does not matter to it. -/
def AtanWithin (err : Nat) (y x : Word) : Prop :=
  Within err (Complex.arg ⟨x.toInt, y.toInt⟩ * 180 / Real.pi) (atan2d y x)

/-- `SIND(d)` and `COSD(d)` are within `err` of their references (P-T1: R142). -/
def SinCosWithin (err : Nat) (d : Word) : Prop :=
  Within err (Real.sin ((d.toInt : ℝ) / 65536 * Real.pi / 180)) (sind d) ∧
  Within err (Real.cos ((d.toInt : ℝ) / 65536 * Real.pi / 180)) (cosd d)

/-- All three functions are accurate to `err` units in the last place, at all arguments. -/
def TrigAccurate (err : Nat) : Prop :=
  (∀ y x : Word, AtanWithin err y x) ∧ ∀ d : Word, SinCosWithin err d

/-- The named property P-E (R143). A claim that needs the accuracy of the three functions takes it as its
hypothesis (notes/assumptions/11.md). -/
def AccuracyPE : Prop := TrigAccurate Config.trigErr

end Sys2Proof.Machine
end

