-- ==== Sys2Proof/Certificates/Slice0/Obligations.lean ====
section
/-! DEFINITION. The statements for the provers. How the environment list and the port log stand for the bus
and the host is the model's choice (notes/assumptions/2.md, 24.md); every statement that speaks of them
rests on it. -/

section

open Sys2Proof Sys2Proof.Machine

/-! ## Encoding -/

/-- Decoding the word of a legal command gives the command: the encoding tables of spec/30_encoding.md R108
to R112 lose no bit of an operand. -/
def Obligations.DecodeEncode : Prop :=
  ∀ i : Instr, i.wellFormed = true → decode (encode i) = .ok i

/-- A word that decodes is the word of a legal command: no two words are one command, and no bit of a word
is ignored (R109 to R113). -/
def Obligations.EncodeDecode : Prop :=
  ∀ (w : Word) (i : Instr), decode w = .ok i → encode i = w ∧ i.wellFormed = true

/-- The example words of spec/30_encoding.md R114. -/
def Obligations.DecodeSpecWords : Prop :=
  decode 0x07435801 = .ok (.btWrite 0x68 0x6B 1) ∧
  decode 0x0B41D806 = .ok (.btRead 0x68 0x3B 6) ∧
  decode 0x0C605016 = .ok (.btWrbyte 0x0C 0x0A 0x16) ∧
  decode 0x1343A800 = .ok (.btRdbyte 0x68 0x75) ∧
  decode 0x206E4000 = .ok (.rdRbit .ag 0x37 1) ∧
  decode 0x246E4001 = .ok (.rdWbit .ag 0x37 1 1) ∧
  decode 0x28390800 = .ok (.rdRbits .ag 0x1C 4 2) ∧
  decode 0x2C390802 = .ok (.rdWbits .ag 0x1C 4 2 2) ∧
  decode 0x44000002 = .ok (.agSetar 2) ∧
  decode 0x64000003 = .ok (.mgSetmode 3) ∧
  decode 0x68000001 = .ok (.mgSetres 1) ∧
  decode 0xA0000007 = .ok (.caApply 7) ∧
  decode 0xC0000003 = .ok (.ssRun 3) ∧
  decode 0x40000000 = .ok .agInit

/-- Which words R111 (a) calls illegal: exactly those whose opcode is in its list. Of the others, a word of
a command without operands is illegal if any of bits 25:0 is set (R111 b). -/
def Obligations.DecodeRefuses : Prop :=
  (∀ w : Word, decode w = .error .reservedOpcode ↔
    (w.toNat / 2 ^ 26) ∈ [0x00, 0x05, 0x06, 0x07, 0x0C, 0x0D, 0x0E, 0x0F, 0x17, 0x1E, 0x1F, 0x27,
      0x2A, 0x2B, 0x2C, 0x2D, 0x2E, 0x2F, 0x31, 0x32, 0x33, 0x34, 0x35, 0x36, 0x37, 0x38, 0x39, 0x3A,
      0x3B, 0x3C, 0x3D, 0x3E, 0x3F]) ∧
  (∀ w : Word, (w.toNat / 2 ^ 26) ∈ [0x10, 0x13, 0x14, 0x15, 0x16, 0x18, 0x1B, 0x1C, 0x1D, 0x20, 0x21,
      0x22, 0x23, 0x24, 0x25, 0x26, 0x29] → w.toNat % 2 ^ 26 ≠ 0 → decode w = .error .nonzeroField)

/-! ## Starting a command -/

/-- A step whose next outside move is a write to CMD of the word of a command, the core being idle and not in
reset, is that command (spec/10_state.md R41, spec/60_exceptions.md R328); so is a step at `withFetchWord`. Environment:
notes/assumptions/2.md, 24.md. -/
def Obligations.StepRunsDecoded : Prop :=
  (∀ (s : State) (w : Word) (i : Instr) (es : List Event), s.held = false → s.cmd.busy = false →
    s.env = .outside (.host (.write 0 w)) :: es → decode w = .ok i → step s = exec i (s.withEnv es)) ∧
  (∀ (s : State) (nbits w : Nat) (i : Instr), s.held = false → s.cmd.busy = false → decodeTableWord nbits w = some i →
    step (s.withFetchWord nbits w) = exec i s)

/-- The `Illegal` completion (R327): a written word that is no legal command, a command with an operand that
R112 forbids, SS.RUN with `ss_period` 0. `done`, `fail` and `err` are written and nothing else. (`exec` on
an operand the decoder refuses is the model's case: notes/assumptions/26.md.) Environment:
notes/assumptions/2.md, 24.md. -/
def Obligations.IllegalCompletes : Prop :=
  (∀ (s : State) (w : Word) (r : DecodeError) (es : List Event), s.held = false → s.cmd.busy = false →
    s.env = .outside (.host (.write 0 w)) :: es → decode w = .error r →
    step s = .next ((s.withEnv es).withCmd { s.cmd with busy := false, done := true, fail := true, err := 4 })) ∧
  (∀ (s : State) (i : Instr), s.cmd.busy = false → i.wellFormed = false →
    exec i s = .next (s.withCmd { s.cmd with busy := false, done := true, fail := true, err := 4 })) ∧
  (∀ (s : State) (n : BitVec 16), s.cmd.busy = false → s.ss.period = 0 →
    exec (.ssRun n) s = .next (s.withCmd { s.cmd with busy := false, done := true, fail := true, err := 4 }))

/-- While a command runs, a write of CMD sets `cmd_ovr` and does nothing else (R41, R328): as a host access
during the command, and as a command given to `exec`. (`exec` on a busy core is the model's case:
notes/assumptions/26.md.) -/
def Obligations.BusyTurnsAway : Prop :=
  ∀ s : State, s.cmd.busy = true →
    (∀ w : Word, hostAccess s (.write 0 w) = .ok (s.withCmd { s.cmd with cmdOvr := true })) ∧
    (∀ i : Instr, exec i s = .next (s.withCmd { s.cmd with cmdOvr := true }))

/-! ## Bit-fields and numerics -/

/-- Extraction and insertion of a bit-field (spec/30_encoding.md R94), with the shift and mask of R93
(`firstBit - length + 1` is `first + 1 - len` here); the bits of the result one by one, and the round trip
of spec/42_register_device.md R178. -/
def Obligations.FieldExtractInsert : Prop :=
  ∀ (first len : Nat) (b v : Byte), first ≤ 7 → 1 ≤ len → len ≤ first + 1 →
    let mask : Byte := BitVec.ofNat 8 ((2 ^ len - 1) * 2 ^ (first + 1 - len))
    fieldGet first len b = (b &&& mask) >>> (first + 1 - len) ∧
    fieldPut first len b v = (b &&& ~~~mask) ||| ((v <<< (first + 1 - len)) &&& mask) ∧
    (fieldGet first len b).toNat < 2 ^ len ∧
    (fieldGet first len b).toNat = b.toNat / 2 ^ (first + 1 - len) % 2 ^ len ∧
    (∀ k : Nat, (fieldPut first len b v).getLsbD k =
      if first + 1 - len ≤ k ∧ k ≤ first then v.getLsbD (k - (first + 1 - len)) else b.getLsbD k) ∧
    (fieldGet first len (fieldPut first len b v)).toNat = v.toNat % 2 ^ len

/-- `sat32` (spec/40_numerics.md R131). -/
def Obligations.SaturationClamps : Prop :=
  ∀ v : Int,
    (-2 ^ 31 ≤ v → v ≤ 2 ^ 31 - 1 → (sat32 v).toInt = v) ∧
    (2 ^ 31 - 1 < v → (sat32 v).toInt = 2 ^ 31 - 1) ∧
    (v < -2 ^ 31 → (sat32 v).toInt = -2 ^ 31)

/-- The operations of R133 to R136 as integers, each clamped, and the saturation mark of R132: set exactly
when the clamp changed the value, or an operand carried it; the mark reaches `fx_sat`, which stays set
(R132). With the numbers of the examples of R133 and R136. -/
def Obligations.FixedPointOperations : Prop :=
  let clamp : Int → Int := fun v => max (-2 ^ 31) (min v (2 ^ 31 - 1))
  (∀ a b : Fx, (fxAdd a b).val.toInt = clamp (a.val.toInt + b.val.toInt) ∧
    ((fxAdd a b).sat = true ↔ a.sat = true ∨ b.sat = true ∨
      clamp (a.val.toInt + b.val.toInt) ≠ a.val.toInt + b.val.toInt) ∧ fxAdd a b = fxAdd b a) ∧
  (∀ a b c : Fx, clamp (a.val.toInt + b.val.toInt) = a.val.toInt + b.val.toInt →
    clamp (b.val.toInt + c.val.toInt) = b.val.toInt + c.val.toInt →
    (fxAdd (fxAdd a b) c).val = (fxAdd a (fxAdd b c)).val) ∧
  (∀ a b : Fx, (fxSub a b).val.toInt = clamp (a.val.toInt - b.val.toInt) ∧
    ((fxSub a b).sat = true ↔ a.sat = true ∨ b.sat = true ∨
      clamp (a.val.toInt - b.val.toInt) ≠ a.val.toInt - b.val.toInt)) ∧
  (∀ a b : Fx, (fxMul a b).val.toInt = clamp ((a.val.toInt * b.val.toInt) / 2 ^ 16) ∧
    ((fxMul a b).sat = true ↔ a.sat = true ∨ b.sat = true ∨
      clamp ((a.val.toInt * b.val.toInt) / 2 ^ 16) ≠ (a.val.toInt * b.val.toInt) / 2 ^ 16) ∧
    fxMul a b = fxMul b a ∧ fxMul a (.of 65536) = a ∧ (fxMul a (.of 0)).val = 0) ∧
  (∃ a b c : Fx, (fxMul (fxMul a b) c).val ≠ (fxMul a (fxMul b c)).val) ∧
  (fxMul (.of (-1)) (.of 32768)).val = -1 ∧ (fxMul (.of 1) (.of 32768)).val = 0 ∧
  (∀ (raw : BitVec 16) (res : Word), (fxScale raw res).val.toInt = clamp (raw.toInt * res.toInt) ∧
    ((fxScale raw res).sat = true ↔ clamp (raw.toInt * res.toInt) ≠ raw.toInt * res.toInt) ∧
    (0 ≤ res.toInt → res.toInt ≤ 39322 → (fxScale raw res).sat = false)) ∧
  (∀ d : Int, (d ≤ 0 → (fxFromUs d).val = 0 ∧ (fxFromUs d).sat = false) ∧
    (0 < d → (fxFromUs d).val.toInt = clamp (d * 65536 / 1000000) ∧
      ((fxFromUs d).sat = true ↔ clamp (d * 65536 / 1000000) ≠ d * 65536 / 1000000))) ∧
  (fxFromUs 10000).val = 655 ∧ (fxFromUs 15).val = 0 ∧ (fxFromUs 16).val = 1 ∧
  (fxFromUs 1000000).val = 65536 ∧ fxFromUs 32768000000 = ⟨2147483647, true⟩ ∧
  (∀ (s : State) (sat : Bool), orSat s sat = s.withCmd { s.cmd with fxSat := s.cmd.fxSat || sat })

/-- What the spec promises of the three parameter functions (R141 P-A2 to P-A4, R142 P-T2, P-T3), for every
value of the model's free functions (notes/assumptions/10.md); and at the anchors they are their references
of P-A1 and P-T1 exactly, so that P-E (R143, notes/assumptions/11.md) holds there whatever TRIG_ERR is. -/
def Obligations.TrigProperties : Prop :=
  (∀ y x : Word, -11796480 ≤ (atan2d y x).toInt ∧ (atan2d y x).toInt ≤ 11796480) ∧
  (∀ x : Word, (0 ≤ x.toInt → atan2d 0 x = 0) ∧ (x.toInt < 0 → atan2d 0 x = 11796480)) ∧
  (∀ y : Word, 0 < y.toInt → atan2d y 0 = 5898240 ∧ atan2d y y = 2949120) ∧
  (∀ y : Word, y.toInt < 0 → (atan2d y 0).toInt = -5898240) ∧
  (∀ d : Word, -65536 ≤ (sind d).toInt ∧ (sind d).toInt ≤ 65536 ∧
    -65536 ≤ (cosd d).toInt ∧ (cosd d).toInt ≤ 65536) ∧
  (∀ (d : Word) (k : Int), d.toInt = 90 * k * 65536 →
    (k % 4 = 0 → (sind d).toInt = 0 ∧ (cosd d).toInt = 65536) ∧
    (k % 4 = 1 → (sind d).toInt = 65536 ∧ (cosd d).toInt = 0) ∧
    (k % 4 = 2 → (sind d).toInt = 0 ∧ (cosd d).toInt = -65536) ∧
    (k % 4 = 3 → (sind d).toInt = -65536 ∧ (cosd d).toInt = 0)) ∧
  (∀ y x : Word, y = 0 ∨ x = 0 ∨ y = x ∧ 0 < y.toInt → AtanWithin 0 y x) ∧
  (∀ (d : Word) (k : Int), d.toInt = 90 * k * 65536 → SinCosWithin 0 d)

/-! ## BusTransport -/

/-- BT.WRITE with a payload of at most 511 bytes and BT.WRBYTE, the bus answering in full: one selection if
another address is selected, one write transaction, `x[31]`; BT.WRITE leaves the payload where it is
(spec/41_bus_transport.md R151, R152, R156, R158). Environment: notes/assumptions/2.md, 24.md. -/
def Obligations.BtWritesSend : Prop :=
  ∀ (s : State) (a : BitVec 7) (reg : Byte) (es : List Event), s.cmd.busy = false →
    s.ctrl.btAttach = true → turnAhead es = false →
    (∀ len : BitVec 11, len.toNat ≤ 511 → s.env = selectAns s a ++ (writeAns len.toNat ++ es) →
      exec (.btWrite a reg len) s = .next (succeeded (setResult
        ((writeDone a reg (Memory.take s.buf.tx len.toNat) s).withEnv es) (len.zeroExtend 32)))) ∧
    (∀ val : Byte, s.env = selectAns s a ++ (writeAns 1 ++ es) →
      exec (.btWrbyte a reg val) s =
        .next (succeeded (setResult ((writeDone a reg [val] s).withEnv es) 1)))

/-- BT.READ of a legal length and BT.RDBYTE, after up to four short attempts: each attempt is a prime and a
read, a wait of 10 000 microseconds stands between two attempts, the bytes of the full one are in the
receive buffer (R154, R157, R159, R160). (The exact end of a wait, and so the exact clock, is DEDUCED,
notes/assumptions/22.md.) Environment: notes/assumptions/2.md, 24.md. -/
def Obligations.BtReadsReceive : Prop :=
  ∀ (s : State) (a : BitVec 7) (reg : Byte) (xs : List Short) (bs : List Byte) (es : List Event),
    s.cmd.busy = false → s.ctrl.btAttach = true → turnAhead es = false →
    xs.length ≤ 4 → (∀ x ∈ xs, x.fits bs.length = true) →
    s.env = selectAns s a ++ (shortsAns xs ++ (readAns bs ++ es)) →
    s.clock.toNat + 10000 * xs.length < 2 ^ 64 →
    (∀ len : BitVec 11, bs.length = len.toNat → 1 ≤ len.toNat → len.toNat ≤ 511 →
      exec (.btRead a reg len) s = .next (succeeded (setResult
        ((readDoneAfter xs a reg bs s).withEnv es) (len.zeroExtend 32)))) ∧
    (∀ b : Byte, bs = [b] →
      exec (.btRdbyte a reg) s = .next (succeeded (setResult
        ((readDoneAfter xs a reg [b] s).withEnv es) (b.zeroExtend 32))))

/-- What a full read leaves in the receive buffer (R160): the bytes at their places, the rest as it was,
`rx_len` and `rx_rptr`; the transmit buffer untouched. Environment: notes/assumptions/2.md, 24.md. -/
def Obligations.BtReadFillsBuffer : Prop :=
  ∀ (s : State) (a : BitVec 7) (reg : Byte) (len : BitVec 11) (bs : List Byte) (es : List Event),
    s.cmd.busy = false → s.ctrl.btAttach = true → turnAhead es = false → Memory.wf s.buf.rx = true →
    bs.length = len.toNat → 1 ≤ len.toNat → len.toNat ≤ 511 →
    s.env = selectAns s a ++ (readAns bs ++ es) →
    ∃ t, exec (.btRead a reg len) s = .next t ∧
      (∀ k, k < len.toNat → Memory.read t.buf.rx k = bs.getD k 0) ∧
      (∀ k, len.toNat ≤ k → Memory.read t.buf.rx k = Memory.read s.buf.rx k) ∧
      t.buf.rxLen = len.toNat ∧ t.buf.rxRptr = 0 ∧ sameTx s t ∧ Memory.wf t.buf.rx = true ∧
      (∀ k, k ≠ 31 → t.getX k = s.getX k) ∧ t.bt.sel = some a

/-- A bus on which every transaction is short (R155): five attempts, four waits, then `Io(ShortTransfer)`, no
sooner than 40 000 microseconds after the start (R390); `x[31]` is 0 and `rx_len` is 0 (R154, R160,
spec/60_exceptions.md R330). That each wait ends exactly at its deadline when nothing happens outside is the
model's (DEDUCED, notes/assumptions/22.md). The bytes of the receive buffer are free
(notes/assumptions/12.md). Environment: notes/assumptions/2.md, 24.md. -/
def Obligations.BtReadGivesUp : Prop :=
  ∀ (s : State) (a : BitVec 7) (reg : Byte) (len : BitVec 11) (xs : List Short) (x : Short)
    (es : List Event), s.cmd.busy = false → s.ctrl.btAttach = true → turnAhead es = false →
    1 ≤ len.toNat → len.toNat ≤ 511 → xs.length = 4 → (∀ y ∈ x :: xs, y.fits len.toNat = true) →
    s.env = selectAns s a ++ (shortsAns xs ++ (x.ans ++ es)) → s.clock.toNat + 40000 < 2 ^ 64 →
    exec (.btRead a reg len) s = .next (failedWith ⟨.io .shortTransfer, .ag⟩
      (setResult ((readGivenUp xs x a reg len.toNat s).withEnv es) 0))

/-- Checks (1) and (2) of R150, in that order: with no bus attached every BT command fails with
`Io(NotConnected)`, a BT.WRITE of more than 511 bytes too; with a bus, such a write fails with
`Io(TooLarge)`. Neither sends anything. Environment: notes/assumptions/2.md, 24.md. -/
def Obligations.BtRefusesFirst : Prop :=
  ∀ (s : State) (a : BitVec 7) (reg : Byte), s.cmd.busy = false → turnAhead s.env = false →
    (s.ctrl.btAttach = false →
      (∀ len : BitVec 11, exec (.btWrite a reg len) s =
        .next (failedWith ⟨.io .notConnected, .ag⟩ (setResult s 0))) ∧
      (∀ len : BitVec 11, 1 ≤ len.toNat → len.toNat ≤ 511 → exec (.btRead a reg len) s =
        .next (failedWith ⟨.io .notConnected, .ag⟩ (setResult s 0))) ∧
      (∀ val : Byte, exec (.btWrbyte a reg val) s =
        .next (failedWith ⟨.io .notConnected, .ag⟩ (setResult s 0))) ∧
      exec (.btRdbyte a reg) s = .next (failedWith ⟨.io .notConnected, .ag⟩ (setResult s 0))) ∧
    (s.ctrl.btAttach = true → ∀ len : BitVec 11, 511 < len.toNat → exec (.btWrite a reg len) s =
      .next (failedWith ⟨.io .tooLarge, .ag⟩ (setResult s 0)))

/-- A selection that fails empties the cache and ends the command (R151); a write answered by a time-out or
taken in part ends the command and is not repeated (R152): BT.WRITE and BT.WRBYTE. Every way a read can fail,
a time-out of the register write or of the read after up to four short attempts among them (R151, R154, R160):
BT.READ and BT.RDBYTE. (The bytes of the receive buffer after a failed read are free, notes/assumptions/12.md;
the exact end of a wait is DEDUCED, notes/assumptions/22.md.) Environment: notes/assumptions/2.md, 24.md. -/
def Obligations.BtTransferFails : Prop :=
  ∀ (s : State) (a : BitVec 7) (reg : Byte) (es : List Event), s.cmd.busy = false →
    s.ctrl.btAttach = true → turnAhead es = false →
    (s.bt.sel ≠ some a → s.env = .answer .selectFail :: es →
      let o := Host.Outcome.next (failedWith ⟨.io .selectFailed, .ag⟩
        (setResult (((s.withBt { s.bt with sel := none }).withPort (.select a :: s.port)).withEnv es) 0))
      (∀ val : Byte, exec (.btWrbyte a reg val) s = o) ∧
      (∀ len : BitVec 11, len.toNat ≤ 511 → exec (.btWrite a reg len) s = o)) ∧
    (s.env = selectAns s a ++ .answer .timedOut :: es →
      (∀ val : Byte, exec (.btWrbyte a reg val) s = .next (failedWith ⟨.io .timeout, .ag⟩
        (setResult ((writeDone a reg [val] s).withEnv es) 0))) ∧
      (∀ len : BitVec 11, len.toNat ≤ 511 → exec (.btWrite a reg len) s =
        .next (failedWith ⟨.io .timeout, .ag⟩
          (setResult ((writeDone a reg (Memory.take s.buf.tx len.toNat) s).withEnv es) 0)))) ∧
    (∀ k : Nat, s.env = selectAns s a ++ .answer (.wrote k) :: es →
      (∀ val : Byte, k < 2 → exec (.btWrbyte a reg val) s = .next (failedWith ⟨.io .shortTransfer, .ag⟩
        (setResult ((writeDone a reg [val] s).withEnv es) 0))) ∧
      (∀ len : BitVec 11, len.toNat ≤ 511 → k < 1 + len.toNat → exec (.btWrite a reg len) s =
        .next (failedWith ⟨.io .shortTransfer, .ag⟩
          (setResult ((writeDone a reg (Memory.take s.buf.tx len.toNat) s).withEnv es) 0)))) ∧
    (∀ (r : ReadEnd) (k : IoKind), r.err = some k → s.env = r.ans a s ++ es →
      s.clock.toNat + r.delay < 2 ^ 64 →
      (r.fits a 1 s = true → exec (.btRdbyte a reg) s = .next (failedWith ⟨.io k, .ag⟩
        (setResult ((r.done a reg 1 s).withEnv es) 0))) ∧
      (∀ len : BitVec 11, 1 ≤ len.toNat → len.toNat ≤ 511 → r.fits a len.toNat s = true →
        exec (.btRead a reg len) s = .next (failedWith ⟨.io k, .ag⟩
          (setResult ((r.done a reg len.toNat s).withEnv es) 0))))

/-! ## RegisterDevice -/

/-- RD.RBIT and RD.RBITS, the bus answering in full: one read of one byte of the device, the field of it in
`x[31]` (spec/42_register_device.md R172, R174, R176). Environment: notes/assumptions/2.md, 24.md. -/
def Obligations.RdReadsField : Prop :=
  ∀ (s : State) (dev : Dev) (reg b : Byte) (first : BitVec 3) (es : List Event), s.cmd.busy = false →
    attached s dev = true → s.ctrl.btAttach = true → turnAhead es = false →
    s.env = selectAns s (busAddr s.cfg dev) ++ (readAns [b] ++ es) →
    exec (.rdRbit dev reg first) s = .next (succeeded (setResult
      ((readDone (busAddr s.cfg dev) reg [b] s).withEnv es) (if b.getLsbD first.toNat then 1 else 0))) ∧
    (∀ flen : BitVec 4, validField first flen = true →
      exec (.rdRbits dev reg first flen) s = .next (succeeded (setResult
        ((readDone (busAddr s.cfg dev) reg [b] s).withEnv es)
        ((fieldGet first.toNat flen.toNat b).zeroExtend 32))))

/-- RD.WBIT and RD.WBITS, the bus answering in full: one read of one byte, then one write of it with the
field replaced, nothing between; `x[31]` is 0 (R173, R175, R177). Environment: notes/assumptions/2.md,
24.md. -/
def Obligations.RdWritesField : Prop :=
  ∀ (s : State) (dev : Dev) (reg b : Byte) (first : BitVec 3) (es : List Event), s.cmd.busy = false →
    attached s dev = true → s.ctrl.btAttach = true → turnAhead es = false →
    s.env = selectAns s (busAddr s.cfg dev) ++ (bitsAns b ++ es) →
    (∀ val : BitVec 1, exec (.rdWbit dev reg first val) s = .next (succeeded (setResult
      ((bitsDone (busAddr s.cfg dev) reg first.toNat 1 (val.zeroExtend 8) b s).withEnv es) 0))) ∧
    (∀ (flen : BitVec 4) (val : Byte), validField first flen = true →
      exec (.rdWbits dev reg first flen val) s = .next (succeeded (setResult
        ((bitsDone (busAddr s.cfg dev) reg first.toNat flen.toNat val b s).withEnv es) 0)))

/-- A bit-field write, RD.WBIT or RD.WBITS, whose read fails in any way writes nothing (R173): no bus, a failed
selection, a time-out of the register write or of the read, the read given up after five attempts. Nothing
but address-only writes is sent. The error is of the device addressed (spec/60_exceptions.md R321, R323).
(The bytes of the receive buffer are free, notes/assumptions/12.md; the exact end of a wait is DEDUCED,
notes/assumptions/22.md.) Environment: notes/assumptions/2.md, 24.md. -/
def Obligations.RdWriteNeedsRead : Prop :=
  ∀ (s : State) (dev : Dev) (reg : Byte) (first : BitVec 3) (r : ReadEnd) (k : IoKind) (es : List Event),
    s.cmd.busy = false → attached s dev = true → turnAhead es = false → r.err = some k →
    r.fits (busAddr s.cfg dev) 1 s = true → s.env = r.ans (busAddr s.cfg dev) s ++ es →
    s.clock.toNat + r.delay < 2 ^ 64 →
    let t := (r.done (busAddr s.cfg dev) reg 1 s).withEnv es
    (∃ sent, t.port = sent ++ s.port ∧ ∀ bs, PortEvent.write bs ∈ sent → bs = [reg]) ∧
    (∀ val : BitVec 1, exec (.rdWbit dev reg first val) s =
      .next (failedWith ⟨.io k, dev⟩ (setResult t 0))) ∧
    (∀ (flen : BitVec 4) (val : Byte), validField first flen = true →
      exec (.rdWbits dev reg first flen val) s = .next (failedWith ⟨.io k, dev⟩ (setResult t 0)))

/-- Every command of a driver that has no transport fails with `Driver(Disconnected)` before it touches
anything (R171, spec/60_exceptions.md R324, R330, R332). Environment: notes/assumptions/2.md, 24.md. -/
def Obligations.DriverDisconnected : Prop :=
  ∀ (i : Instr) (s : State) (dev : Dev), driverOf i = some dev → i.wellFormed = true →
    s.cmd.busy = false → attached s dev = false → turnAhead s.env = false →
    exec i s = .next (failedWith ⟨.disconnected, dev⟩ (setResult s (failResult i s)))

/-! ## The drivers -/

/-- AG.SETAR, AG.SETGR, MG.SETRES and MG.SETMODE, the bus answering in full: the bit-field write, the code
and the resolution it stands for in the cache, the code in `x[31]`; for MG.SETMODE the mode's code, the mode
kept, and the settle wait after PowerDown only (spec/43_accel_gyro.md R197, R198, spec/44_mag.md R222, R226,
R228). (The exact end of the settle wait, and so the exact clock, is DEDUCED,
notes/assumptions/22.md.) Environment: notes/assumptions/2.md, 24.md. -/
def Obligations.SettersSet : Prop :=
  ∀ (s : State) (b : Byte) (es : List Event), s.cmd.busy = false → s.ctrl.btAttach = true →
    turnAhead es = false →
    (∀ code : BitVec 2, s.ctrl.agTAttach = true → s.env = selectAns s s.cfg.agAddr ++ (bitsAns b ++ es) →
      exec (.agSetar code) s = .next (succeeded (setResult
        ((rangeADone code b s).withEnv es) (code.zeroExtend 32))) ∧
      exec (.agSetgr code) s = .next (succeeded (setResult
        ((rangeGDone code b s).withEnv es) (code.zeroExtend 32)))) ∧
    (∀ code : BitVec 1, s.ctrl.mgTAttach = true → s.env = selectAns s s.cfg.mgAddr ++ (bitsAns b ++ es) →
      exec (.mgSetres code) s = .next (succeeded (setResult
        ((resDone code b s).withEnv es) (code.zeroExtend 32)))) ∧
    (∀ (n : BitVec 3) (m : MagMode), s.ctrl.mgTAttach = true → magModeOf n = some m →
      s.env = selectAns s s.cfg.mgAddr ++ (modeAns m b ++ es) →
      (m = .powerDown → s.clock.toNat + 100 < 2 ^ 64) →
      exec (.mgSetmode n) s = .next (succeeded (setResult
        ((modeDone m b s).withEnv es) (n.zeroExtend 32))))

/-- "if the write fails, the cached resolution is left unchanged": whatever the bus answers, a setter or a
mode command that fails leaves the driver's caches as they were, and one that succeeds leaves those of its
code (R197, R198, R205, spec/44_mag.md R222, R228). Environment: notes/assumptions/2.md, 24.md. -/
def Obligations.SettersKeepOnFailure : Prop :=
  ∀ s t : State, s.cmd.busy = false → hostQuiet s.env = true →
    (∀ code : BitVec 2, exec (.agSetar code) s = .next t →
      (t.cmd.fail = true ∧ t.ag = s.ag ∧ t.getX 31 = 0) ∨
      (t.cmd.fail = false ∧ t.ag = { s.ag with arange := code, ares := aresTable code } ∧
        t.getX 31 = code.zeroExtend 32)) ∧
    (∀ code : BitVec 2, exec (.agSetgr code) s = .next t →
      (t.cmd.fail = true ∧ t.ag = s.ag ∧ t.getX 31 = 0) ∨
      (t.cmd.fail = false ∧ t.ag = { s.ag with grange := code, gres := gresTable code } ∧
        t.getX 31 = code.zeroExtend 32)) ∧
    (∀ code : BitVec 1, exec (.mgSetres code) s = .next t →
      (t.cmd.fail = true ∧ t.mg = s.mg ∧ t.getX 31 = 0) ∨
      (t.cmd.fail = false ∧ t.mg = { s.mg with resbit := code, res := mresTable code } ∧
        t.getX 31 = code.zeroExtend 32)) ∧
    (∀ (n : BitVec 3) (m : MagMode), magModeOf n = some m → exec (.mgSetmode n) s = .next t →
      (t.cmd.fail = true ∧ t.mg = s.mg ∧ t.getX 31 = 0) ∨
      (t.cmd.fail = false ∧ t.mg = { s.mg with mode := m } ∧ t.getX 31 = n.zeroExtend 32))

/-- AG.INIT against a bus that answers every transaction in full, for any table of micro-operations `l1` to
`l5`, each with the byte its read gives: every micro-operation in order, the state `Ready`, `x[31]` 6
(spec/43_accel_gyro.md R191, R192, R194). (The exact end of a delay, and so the exact clock, is DEDUCED,
notes/assumptions/22.md.) Environment: notes/assumptions/2.md, 24.md. -/
def Obligations.AgInitCompletes : Prop :=
  ∀ (s : State) (l1 l2 l3 l4 l5 : List (MicroOp × Byte)) (es : List Event), s.cmd.busy = false →
    s.ctrl.agTAttach = true → s.ctrl.btAttach = true → turnAhead es = false →
    s.cfg.agInit = ⟨l1.map Prod.fst, l2.map Prod.fst, l3.map Prod.fst, l4.map Prod.fst, l5.map Prod.fst⟩ →
    let stages := [(l1, AgState.reset), (l2, .clockConfigured), (l3, .filtersConfigured),
      (l4, .bypassConfigured), (l5, .rangeConfigured)]
    s.clock.toNat + stagesDelay stages < 2 ^ 64 →
    s.env = .turn :: (stagesAns stages (setAgState .uninitialized s) ++ es) →
    exec .agInit s = .next (succeeded (setResult
      ((setAgState .ready (stagesDone stages (setAgState .uninitialized s))).withEnv es) 6))

/-- Whatever the bus answers, AG.INIT with a transport ends `Ready` with `x[31]` 6, or fails in a stage: the
error names the state reached, which `ag_state` and `x[31]` hold too, one of the first five (R190, R194,
R195, spec/60_exceptions.md R323). Environment: notes/assumptions/2.md, 24.md. -/
def Obligations.AgInitOutcome : Prop :=
  ∀ s t : State, s.cmd.busy = false → s.ctrl.agTAttach = true → hostQuiet s.env = true →
    exec .agInit s = .next t →
    (t.cmd.fail = false ∧ t.cmd.err = 0 ∧ t.ag.state = .ready ∧ t.getX 31 = 6) ∨
    (t.cmd.fail = true ∧ t.ag.state ≠ .ready ∧ t.ag.state ≠ .rangeConfigured ∧
      t.getX 31 = (agStateNum t.ag.state).zeroExtend 32 ∧
      ∃ k : IoKind, t.cmd.err = errword ⟨.initSequenceFailed (agStateNum t.ag.state) (some k), .ag⟩)

/-- The four reads of the AccelGyroDriver, the bus answering in full with six bytes: the axes high byte
first into the raw registers, and for the scaled reads raw times the cached resolution; with a resolution of
the table nothing saturates (R199 to R203, spec/20_memory.md R68). Environment: notes/assumptions/2.md,
24.md. -/
def Obligations.AgReads : Prop :=
  ∀ (s : State) (b0 b1 b2 b3 b4 b5 : Byte) (es : List Event), s.cmd.busy = false →
    s.ctrl.agTAttach = true → s.ctrl.btAttach = true → turnAhead es = false →
    s.env = selectAns s s.cfg.agAddr ++ (readAns [b0, b1, b2, b3, b4, b5] ++ es) →
    let x : BitVec 16 := b0 ++ b1
    let y : BitVec 16 := b2 ++ b3
    let z : BitVec 16 := b4 ++ b5
    let rd : Byte → State := fun reg => (readDone s.cfg.agAddr reg [b0, b1, b2, b3, b4, b5] s).withEnv es
    exec .agRdaraw s = .next (succeeded (setResult ((rd s.cfg.agAccelOut).setX3 0 1 2
      (x.signExtend 32) (y.signExtend 32) (z.signExtend 32)) 1)) ∧
    exec .agRdgraw s = .next (succeeded (setResult ((rd s.cfg.agGyroOut).setX3 3 4 5
      (x.signExtend 32) (y.signExtend 32) (z.signExtend 32)) 1)) ∧
    (CachesAgree s →
      exec .agRda s = .next (succeeded (setResult (((rd s.cfg.agAccelOut).setX3 0 1 2
        (x.signExtend 32) (y.signExtend 32) (z.signExtend 32)).setX3 9 10 11
        (x.signExtend 32 * s.ag.ares) (y.signExtend 32 * s.ag.ares) (z.signExtend 32 * s.ag.ares)) 1)) ∧
      exec .agRdg s = .next (succeeded (setResult (((rd s.cfg.agGyroOut).setX3 3 4 5
        (x.signExtend 32) (y.signExtend 32) (z.signExtend 32)).setX3 12 13 14
        (x.signExtend 32 * s.ag.gres) (y.signExtend 32 * s.ag.gres) (z.signExtend 32 * s.ag.gres)) 1))) ∧
    (∃ t, exec .agRda s = .next t ∧ t.getX 9 = (fxScale x s.ag.ares).val ∧
      t.getX 10 = (fxScale y s.ag.ares).val ∧ t.getX 11 = (fxScale z s.ag.ares).val) ∧
    (∃ t, exec .agRdg s = .next t ∧ t.getX 12 = (fxScale x s.ag.gres).val ∧
      t.getX 13 = (fxScale y s.ag.gres).val ∧ t.getX 14 = (fxScale z s.ag.gres).val)

/-- MG.INIT against a bus that answers every transaction in full: power down and settle, fuse ROM access,
three bytes, the multipliers, power down and settle (spec/44_mag.md R222 to R225), in no less than 200
microseconds (R390). That each settle wait ends exactly at its deadline when nothing happens outside is the
model's (DEDUCED, notes/assumptions/22.md). Environment: notes/assumptions/2.md, 24.md. -/
def Obligations.MgInitCompletes : Prop :=
  ∀ (s : State) (m0 m1 m2 a0 a1 a2 : Byte) (es : List Event), s.cmd.busy = false →
    s.ctrl.mgTAttach = true → s.ctrl.btAttach = true → turnAhead es = false →
    s.clock.toNat + 200 < 2 ^ 64 →
    s.env = selectAns s s.cfg.mgAddr ++ (modeAns .powerDown m0 ++ (modeAns .fuseRom m1 ++
      (readAns [a0, a1, a2] ++ (modeAns .powerDown m2 ++ es)))) →
    exec .mgInit s = .next (succeeded (setResult ((mgInitDone m0 m1 m2 [a0, a1, a2] s).withEnv es) 4)) ∧
    (mgInitDone m0 m1 m2 [a0, a1, a2] s).mg = { s.mg with
      mode := .powerDown, stage := 4, initDone := true
      adj := ⟨BitVec.ofNat 32 ((a0.toNat + 128) * 256), BitVec.ofNat 32 ((a1.toNat + 128) * 256),
        BitVec.ofNat 32 ((a2.toNat + 128) * 256)⟩ } ∧
    (mgInitDone m0 m1 m2 [a0, a1, a2] s).clock.toNat = s.clock.toNat + 200

/-- Whatever the bus answers, MG.INIT with a transport ends with stage 4 and `mg_init_done`, or fails in a
stage 0 to 3 that the error, `mg_stage` and `x[31]` name, without `mg_init_done`; the resolution and
`mg_ovf` are untouched, and so are the multipliers if the stage is below 3 (R224, R233). Environment:
notes/assumptions/2.md, 24.md. -/
def Obligations.MgInitOutcome : Prop :=
  ∀ s t : State, s.cmd.busy = false → s.ctrl.mgTAttach = true → hostQuiet s.env = true →
    exec .mgInit s = .next t →
    t.mg.resbit = s.mg.resbit ∧ t.mg.res = s.mg.res ∧ t.mg.ovf = s.mg.ovf ∧
    ((t.cmd.fail = false ∧ t.cmd.err = 0 ∧ t.mg.stage = 4 ∧ t.mg.initDone = true ∧
      t.mg.mode = .powerDown ∧ t.getX 31 = 4) ∨
    (t.cmd.fail = true ∧ t.mg.stage.toNat ≤ 3 ∧ t.mg.initDone = false ∧
      t.getX 31 = t.mg.stage.zeroExtend 32 ∧ (t.mg.stage.toNat < 3 → t.mg.adj = s.mg.adj) ∧
      ∃ k : IoKind, t.cmd.err = errword ⟨.initSequenceFailed t.mg.stage (some k), .mg⟩))

/-- MG.RDRAW and MG.RD of a burst that is ready and has not overflowed: the axes in the byte order of the
parameter `MAG_LOW_BYTE_FIRST`, `mg_ovf` 0, and for MG.RD raw times resolution, then times the multiplier;
`fx_sat` is not set with a resolution of the table and multipliers that a fuse ROM can give (R229, R233, R234,
R235). Environment: notes/assumptions/2.md, 24.md. -/
def Obligations.MgReads : Prop :=
  ∀ (s : State) (b0 b1 b2 b3 b4 b5 b6 b7 : Byte) (es : List Event), s.cmd.busy = false →
    s.ctrl.mgTAttach = true → s.ctrl.btAttach = true → turnAhead es = false →
    b0.getLsbD s.cfg.mgDrdyBit = true → b7.getLsbD s.cfg.mgHoflBit = false →
    s.env = selectAns s s.cfg.mgAddr ++ (readAns [b0, b1, b2, b3, b4, b5, b6, b7] ++ es) →
    let x : BitVec 16 := if s.cfg.magLowByteFirst then b2 ++ b1 else b1 ++ b2
    let y : BitVec 16 := if s.cfg.magLowByteFirst then b4 ++ b3 else b3 ++ b4
    let z : BitVec 16 := if s.cfg.magLowByteFirst then b6 ++ b5 else b5 ++ b6
    let u := ((readDone s.cfg.mgAddr s.cfg.mgBurstReg [b0, b1, b2, b3, b4, b5, b6, b7] s).withMg
      { s.mg with ovf := false }).withEnv es
    exec .mgRdraw s = .next (succeeded (setResult
      (u.setX3 6 7 8 (x.signExtend 32) (y.signExtend 32) (z.signExtend 32)) 1)) ∧
    ∃ t, exec .mgRd s = .next t ∧
      t.getX 6 = x.signExtend 32 ∧ t.getX 7 = y.signExtend 32 ∧ t.getX 8 = z.signExtend 32 ∧
      t.getX 15 = (fxMul (fxScale x s.mg.res) (.of s.mg.adj.x)).val ∧
      t.getX 16 = (fxMul (fxScale y s.mg.res) (.of s.mg.adj.y)).val ∧
      t.getX 17 = (fxMul (fxScale z s.mg.res) (.of s.mg.adj.z)).val ∧
      t.getX 31 = 1 ∧ sameXBut [6, 7, 8, 15, 16, 17, 31] s t ∧ t.mg = { s.mg with ovf := false } ∧
      t.buf = u.buf ∧ t.port = u.port ∧ t.cmd.fail = false ∧ t.cmd.done = true ∧
      (CachesAgree s → s.mg.adj.x.toNat ≤ 98048 → s.mg.adj.y.toNat ≤ 98048 → s.mg.adj.z.toNat ≤ 98048 →
        t.cmd.fxSat = s.cmd.fxSat)

/-- A burst whose ready bit is 0, and a ready burst whose overflow bit is 1: the reads fail with
`Data(NotReady)` and `Data(Overflow)`, decode nothing, and `mg_ovf` is unchanged, and 1 (R229, R233).
Environment: notes/assumptions/2.md, 24.md. -/
def Obligations.MgBurstRefused : Prop :=
  ∀ (s : State) (bs : List Byte) (es : List Event), s.cmd.busy = false →
    s.ctrl.mgTAttach = true → s.ctrl.btAttach = true → turnAhead es = false → bs.length = 8 →
    s.env = selectAns s s.cfg.mgAddr ++ (readAns bs ++ es) →
    let u := (readDone s.cfg.mgAddr s.cfg.mgBurstReg bs s).withEnv es
    ((byteAt bs 0).getLsbD s.cfg.mgDrdyBit = false → ∀ i ∈ [Instr.mgRdraw, .mgRd],
      exec i s = .next (failedWith ⟨.notReady, .mg⟩ (setResult u 0))) ∧
    ((byteAt bs 0).getLsbD s.cfg.mgDrdyBit = true → (byteAt bs 7).getLsbD s.cfg.mgHoflBit = true →
      ∀ i ∈ [Instr.mgRdraw, .mgRd],
        exec i s = .next (failedWith ⟨.overflow, .mg⟩ (setResult (u.withMg { u.mg with ovf := true }) 0)))

/-- MG.GETOVF (R236): word, result, no error and no bus primitive, whatever the attachments; 0 after reset;
and after a burst that failed by overflow, 1. Environment: notes/assumptions/2.md, 24.md. -/
def Obligations.MgGetovf : Prop :=
  decode 0x74000000 = .ok .mgGetovf ∧
  (∀ s : State, s.cmd.busy = false → turnAhead s.env = false →
    exec .mgGetovf s = .next (succeeded (setResult s (if s.mg.ovf then 1 else 0)))) ∧
  State.reset.mg.ovf = false ∧
  (∀ s t : State, hostQuiet s.env = true → s.cmd.busy = false → exec .mgRd s = .next t →
    t.cmd.err = errword ⟨.overflow, .mg⟩ → t.mg.ovf = true) ∧
  (∀ s t : State, hostQuiet s.env = true → s.cmd.busy = false → exec .mgRd s = .next t →
    t.cmd.fail = false → t.mg.ovf = false)

/-! ## SensorAggregator -/

/-- SA.RDYA, SA.RDYG, SA.RDYM (spec/45_aggregator.md R252, R258 to R260): the predicates of R252 into
`x[31]`; no bus primitive; no error. Environment: notes/assumptions/2.md, 24.md. -/
def Obligations.SaReady : Prop :=
  decode 0x90000000 = .ok .saRdya ∧ decode 0x94000000 = .ok .saRdyg ∧ decode 0x98000000 = .ok .saRdym ∧
  (∀ s : State, s.cmd.busy = false → turnAhead s.env = false →
    exec .saRdya s = .next (succeeded (setResult s
      (if s.ctrl.saAcc = true ∧ s.ctrl.agTAttach = true ∧ s.ag.state = .ready then 1 else 0))) ∧
    exec .saRdyg s = .next (succeeded (setResult s
      (if s.ctrl.saGyr = true ∧ s.ctrl.agTAttach = true ∧ s.ag.state = .ready then 1 else 0))) ∧
    exec .saRdym s = .next (succeeded (setResult s
      (if s.ctrl.saMag = true ∧ s.ctrl.mgTAttach = true ∧ s.mg.initDone = true ∧
        s.mg.mode ≠ .powerDown ∧ s.mg.mode ≠ .fuseRom then 1 else 0)))) ∧
  (∃ t, exec .saRdya State.reset = .next t ∧ t.getX 31 = 0)

/-- SA.POLLA, SA.POLLG, SA.POLLM, whatever comes of the group: an unattached capability is no error and gives
0; a delivered group gives its raw registers and 1; a poll that fails (no transport, a bus error, a burst that
is not ready or has overflowed) ends the command with that error, 0 in `x[31]`. A group that is not delivered
loses its `raw_ok` and keeps its raw registers; the capture time stamp is taken first (R253 to R256, R261,
spec/60_exceptions.md R330). (The bytes of the receive buffer after a failed read are free,
notes/assumptions/12.md; the exact end of a wait is DEDUCED, notes/assumptions/22.md.) Environment:
notes/assumptions/2.md, 24.md. -/
def Obligations.SaPollOne : Prop :=
  ∀ (s : State) (g : Group) (o : Polled) (es : List Event), s.cmd.busy = false →
    turnAhead es = false → pollFits g s o = true → s.clock.toNat + o.delay < 2 ^ 64 →
    s.env = pollAns g s o ++ es →
    let t := (pollDone g (s.withSa { s.sa with ts := s.clock }) o).withEnv es
    exec (pollCommand g) s = .next (match o.err g s with
      | none => succeeded (setResult t (if o.delivered g s then 1 else 0))
      | some e => failedWith e (setResult t 0)) ∧
    (o.delivered g s = false → ∀ k, t.getX k = s.getX k) ∧ groupOk g t = o.delivered g s ∧
    (∀ g', g' ≠ g → groupOk g' t = groupOk g' s) ∧ t.sa.ts = s.clock

/-- SA.POLL, whatever comes of each group: the polls in the order A, G, M, all three of them also after one
that fails, the three `raw_ok` bits in `x[31]`, and the first error, if there is one, ends the command (R257,
spec/60_exceptions.md R330). (The bytes of the receive buffer after a failed read are free,
notes/assumptions/12.md; the exact end of a wait is DEDUCED, notes/assumptions/22.md.) Environment:
notes/assumptions/2.md, 24.md. -/
def Obligations.SaPollFull : Prop :=
  ∀ (s : State) (a g m : Polled) (es : List Event), s.cmd.busy = false → turnAhead es = false →
    pollsFit (outcomes a g m) s = true → s.clock.toNat + pollsDelay (outcomes a g m) < 2 ^ 64 →
    s.env = pollsAns (outcomes a g m) s ++ es →
    let t := setResult ((pollsDone (outcomes a g m) (s.withSa { s.sa with ts := s.clock })).withEnv es)
      (BitVec.ofNat 32 (bit (a.delivered .acc s) + 2 * bit (g.delivered .gyr s) +
        4 * bit (m.delivered .mag s)))
    exec .saPoll s = .next (match pollsErr (outcomes a g m) s with
      | none => succeeded t
      | some e => failedWith e t)

/-- Whatever the bus answers, SA.POLLA, SA.POLLG and SA.POLLM deliver their group, with 1 in `x[31]`; or find
it unattached, with 0 and no error; or fail with a transport error, `Disconnected`, or for the magnetometer
`NotReady` or `Overflow`, with 0. SA.POLL leaves the three `raw_ok` bits in `x[31]`, failing or not. A group
that was not delivered keeps its raw registers, and a capability that is not attached is not delivered (R253
to R257, spec/60_exceptions.md R320, R321, R330). Environment: notes/assumptions/2.md, 24.md. -/
def Obligations.SaPollOutcome : Prop :=
  (∀ (g : Group) (s t : State), s.cmd.busy = false → hostQuiet s.env = true →
    exec (pollCommand g) s = .next t →
    (groupOk g t = false → ∀ k ∈ groupRegs g, t.getX k = s.getX k) ∧
    s.clock ≤ t.sa.ts ∧ t.sa.ts ≤ t.clock ∧
    ((t.cmd.fail = false ∧ groupAttached s g = true ∧ groupOk g t = true ∧ t.getX 31 = 1) ∨
      (t.cmd.fail = false ∧ groupAttached s g = false ∧ groupOk g t = false ∧ t.getX 31 = 0) ∨
      (t.cmd.fail = true ∧ groupAttached s g = true ∧ groupOk g t = false ∧ t.getX 31 = 0 ∧
        ∃ k : ErrKind, t.cmd.err = errword ⟨k, groupDev g⟩ ∧
          ((∃ j, k = .io j) ∨ k = .disconnected ∨ g = .mag ∧ (k = .notReady ∨ k = .overflow))))) ∧
  (∀ s t : State, s.cmd.busy = false → hostQuiet s.env = true → exec .saPoll s = .next t →
    t.getX 31 = BitVec.ofNat 32 (bit t.sa.okA + 2 * bit t.sa.okG + 4 * bit t.sa.okM) ∧
    (t.sa.okA = false → ∀ k ∈ groupRegs .acc, t.getX k = s.getX k) ∧
    (t.sa.okG = false → ∀ k ∈ groupRegs .gyr, t.getX k = s.getX k) ∧
    (t.sa.okM = false → ∀ k ∈ groupRegs .mag, t.getX k = s.getX k) ∧
    (s.ctrl.saAcc = false → t.sa.okA = false) ∧ (s.ctrl.saGyr = false → t.sa.okG = false) ∧
    (s.ctrl.saMag = false → t.sa.okM = false) ∧
    (t.cmd.fail = false → (s.ctrl.saAcc = true → t.sa.okA = true) ∧
      (s.ctrl.saGyr = true → t.sa.okG = true) ∧ (s.ctrl.saMag = true → t.sa.okM = true)) ∧
    s.clock ≤ t.sa.ts ∧ t.sa.ts ≤ t.clock)

/-! ## Calibration -/

/-- CA.APPLY (spec/46_calibration.md R271 to R275): the scaled and the calibrated registers of the groups of
the mask, by the formulas of R272, R273 and R274; every other register but `x[31]` unchanged; and `fx_sat`,
set if an operation saturated and never cleared. Environment: notes/assumptions/2.md, 24.md. -/
def Obligations.CaApply : Prop :=
  ∀ (s : State) (mask : BitVec 3), s.cmd.busy = false → turnAhead s.env = false →
    let raw : Fin 32 → BitVec 16 := fun i => (s.getX i).truncate 16
    let c := s.cal
    let sa : Fin 32 → Fx := fun i => fxScale (raw i) s.ag.ares
    let sg : Fin 32 → Fx := fun i => fxScale (raw i) s.ag.gres
    let sm : Fin 32 → Word → Fx := fun i adj => fxMul (fxScale (raw i) s.mg.res) (.of adj)
    let vx := fxAdd (sm 6 s.mg.adj.x) (.of c.moff.x)
    let vy := fxAdd (sm 7 s.mg.adj.y) (.of c.moff.y)
    let vz := fxAdd (sm 8 s.mg.adj.z) (.of c.moff.z)
    let row : Vec3 → Fx := fun r =>
      fxAdd (fxAdd (fxMul (.of r.x) vx) (fxMul (.of r.y) vy)) (fxMul (.of r.z) vz)
    ∃ t, exec (.caApply mask) s = .next t ∧ t.getX 31 = mask.zeroExtend 32 ∧
      (if mask.getLsbD 0 then
        t.getX 9 = (sa 0).val ∧ t.getX 10 = (sa 1).val ∧ t.getX 11 = (sa 2).val ∧
        t.getX 18 = (fxAdd (sa 0) (.of c.aoff.x)).val ∧ t.getX 19 = (fxAdd (sa 1) (.of c.aoff.y)).val ∧
        t.getX 20 = (fxAdd (sa 2) (.of c.aoff.z)).val
      else ∀ k ∈ [(9 : Fin 32), 10, 11, 18, 19, 20], t.getX k = s.getX k) ∧
      (if mask.getLsbD 1 then
        t.getX 12 = (sg 3).val ∧ t.getX 13 = (sg 4).val ∧ t.getX 14 = (sg 5).val ∧
        t.getX 21 = (fxAdd (sg 3) (.of c.goff.x)).val ∧ t.getX 22 = (fxAdd (sg 4) (.of c.goff.y)).val ∧
        t.getX 23 = (fxAdd (sg 5) (.of c.goff.z)).val
      else ∀ k ∈ [(12 : Fin 32), 13, 14, 21, 22, 23], t.getX k = s.getX k) ∧
      (if mask.getLsbD 2 then
        t.getX 15 = (sm 6 s.mg.adj.x).val ∧ t.getX 16 = (sm 7 s.mg.adj.y).val ∧
        t.getX 17 = (sm 8 s.mg.adj.z).val ∧
        t.getX 24 = (row c.mmat.r0).val ∧ t.getX 25 = (row c.mmat.r1).val ∧ t.getX 26 = (row c.mmat.r2).val
      else ∀ k ∈ [(15 : Fin 32), 16, 17, 24, 25, 26], t.getX k = s.getX k) ∧
      (∀ k : Fin 32, k.val < 9 ∨ 27 ≤ k.val ∧ k.val < 31 → t.getX k = s.getX k) ∧
      t.cmd.fail = false ∧ t.cmd.done = true ∧ t.cmd.busy = false ∧ t.cmd.cmdOvr = s.cmd.cmdOvr ∧
      (t.cmd.fxSat = (s.cmd.fxSat ||
        (mask.getLsbD 0 && ((fxAdd (sa 0) (.of c.aoff.x)).sat || (fxAdd (sa 1) (.of c.aoff.y)).sat ||
          (fxAdd (sa 2) (.of c.aoff.z)).sat)) ||
        (mask.getLsbD 1 && ((fxAdd (sg 3) (.of c.goff.x)).sat || (fxAdd (sg 4) (.of c.goff.y)).sat ||
          (fxAdd (sg 5) (.of c.goff.z)).sat)) ||
        (mask.getLsbD 2 && ((row c.mmat.r0).sat || (row c.mmat.r1).sat || (row c.mmat.r2).sat))))

/-- With the reset profile (offsets 0, identity matrix) the calibrated values are the scaled ones exactly
(R275). Environment: notes/assumptions/2.md, 24.md. -/
def Obligations.CaIdentityProfile : Prop :=
  ∀ (s t : State) (mask : BitVec 3), s.cmd.busy = false → turnAhead s.env = false →
    s.cal = State.reset.cal → exec (.caApply mask) s = .next t →
    (mask.getLsbD 0 = true → t.getX 18 = t.getX 9 ∧ t.getX 19 = t.getX 10 ∧ t.getX 20 = t.getX 11) ∧
    (mask.getLsbD 1 = true → t.getX 21 = t.getX 12 ∧ t.getX 22 = t.getX 13 ∧ t.getX 23 = t.getX 14) ∧
    (mask.getLsbD 2 = true → t.getX 24 = t.getX 15 ∧ t.getX 25 = t.getX 16 ∧ t.getX 26 = t.getX 17)

/-! ## OrientationEstimator -/

/-- OE.STEP with `dt` above 0 (spec/47_estimator.md R287, R288): the formulas of R287, `est_ts`, and 1 in
`x[31]`; every other register unchanged. Environment: notes/assumptions/2.md, 24.md. -/
def Obligations.OeStepAccepts : Prop :=
  ∀ s : State, s.cmd.busy = false → turnAhead s.env = false → 0 < (s.getX 30).toInt →
    let f : Fin 32 → Fx := fun i => .of (s.getX i)
    let pa := atan2d (s.getX 19) (s.getX 20)
    let ra := atan2d (s.getX 18) (s.getX 20)
    let p := fxAdd (fxAdd (f 28) (fxMul (fxMul (f 21) (f 30)) (.of 64225))) (fxMul (.of pa) (.of 1311))
    let r := fxAdd (fxAdd (f 27) (fxMul (fxMul (f 22) (f 30)) (.of 64225))) (fxMul (.of ra) (.of 1311))
    let cp : Fx := .of (cosd p.val)
    let sp : Fx := .of (sind p.val)
    let cr : Fx := .of (cosd r.val)
    let sr : Fx := .of (sind r.val)
    let mxc := fxSub (fxMul (f 24) cr) (fxMul (f 26) sr)
    let myc := fxAdd (fxAdd (fxMul (fxMul (f 24) sp) sr) (fxMul (f 25) cp)) (fxMul (fxMul (f 26) sp) cr)
    ∃ t, exec .oeStep s = .next t ∧ t.getX 27 = r.val ∧ t.getX 28 = p.val ∧
      t.getX 29 = atan2d myc.val mxc.val ∧ t.getX 31 = 1 ∧ t.estTs = s.sa.ts ∧
      sameXBut [27, 28, 29, 31] s t ∧ t.cmd.fail = false ∧ t.cmd.done = true ∧
      t.cmd.fxSat = (s.cmd.fxSat || (r.sat || p.sat || (myc.sat || mxc.sat)))

/-- OE.STEP with `dt` 0 or negative is rejected: nothing but the completion and 0 in `x[31]` (R288, R289).
Environment: notes/assumptions/2.md, 24.md. -/
def Obligations.OeStepRejects : Prop :=
  ∀ s : State, s.cmd.busy = false → turnAhead s.env = false → (s.getX 30).toInt ≤ 0 →
    exec .oeStep s = .next (succeeded (setResult s 0))

/-! ## SamplingScheduler -/

/-- SS.RUN and its first turn (spec/48_scheduler.md R302): cancelled at the start, no tick and 0 in `x[31]`;
with a count of 1, one tick and completion; else one tick, the deadline and the wait, the core busy at the
top of the loop. Each group is not ready, or ready and its poll comes to anything a poll can come to: a poll
that fails clears `raw_ok`, its error word is the tick's FIRSTERR if it is the first, and the run goes on
(R303). (A turn as a step, the sequencer's number at the top of the loop, and what `ss.count` and `ss.ran` hold
after the command are the model's: DESIGN CHOICE, notes/assumptions/1.md, 18.md, 25.md; the bytes of the receive
buffer after a failed read are free, notes/assumptions/12.md; the exact end of a wait is DEDUCED,
notes/assumptions/22.md.) Environment: notes/assumptions/2.md, 24.md. -/
def Obligations.SsRunTurn : Prop :=
  ∀ (s : State) (count : BitVec 16) (a g m : Polled) (es : List Event), s.cmd.busy = false →
    s.ss.period ≠ 0 → turnAhead es = false →
    let s0 := runBegun count s
    (s.ctrl.cancel = true → s.env = es →
      exec (.ssRun count) s = .next (runEnded s0)) ∧
    (s.ctrl.cancel = false → ticksFit (outcomes a g m) (tickStarted s0) = true →
      s.clock.toNat + pollsDelay (outcomes a g m) < 2 ^ 64 →
      s.env = pollsAns (outcomes a g m) (tickStarted s0) ++ es →
      (count = 1 → exec (.ssRun count) s =
        .next ((runEnded (tickCounted (outcomes a g m) s0)).withEnv es)) ∧
      (count ≠ 1 → es = [] → s.clock.toNat + s.ss.period.toNat < 2 ^ 64 → exec (.ssRun count) s =
        .next (atLoopTop ((deadlineReached (tickCounted (outcomes a g m) s0)).withEnv []))))

/-- A step of a core that runs SS.RUN is the next turn of its loop (R302, R307, R308): the cancel check
first; then a tick, whatever comes of its polls (R303); then completion if the count is used up, else the
deadline moved on by the period from the deadline before, and the wait for it. (A turn as a step, the
sequencer's number at the top of the loop, and what `ss.count` and `ss.ran` hold after the command are the
model's: DESIGN CHOICE, notes/assumptions/1.md, 18.md, 25.md; the bytes of the receive buffer after a failed
read are free, notes/assumptions/12.md; the exact end of a wait is DEDUCED, notes/assumptions/22.md.)
Environment: notes/assumptions/2.md, 24.md. -/
def Obligations.RunningTurn : Prop :=
  ∀ (s : State) (a g m : Polled) (es : List Event), s.held = false → s.cmd.busy = true →
    s.ss.running = true → turnAhead es = false →
    (s.ctrl.cancel = true → s.env = es → step s = .next (runEnded s)) ∧
    (s.ctrl.cancel = false → ticksFit (outcomes a g m) (tickStarted s) = true →
      s.clock.toNat + pollsDelay (outcomes a g m) < 2 ^ 64 →
      s.env = pollsAns (outcomes a g m) (tickStarted s) ++ es →
      (s.ss.count ≠ 0 → s.ss.left = 1 → step s =
        .next ((runEnded (tickCounted (outcomes a g m) s)).withEnv es)) ∧
      (s.ss.count = 0 ∨ s.ss.left ≠ 1 → es = [] →
        s.ss.epoch.toNat + s.ss.period.toNat < 2 ^ 64 → step s =
        .next (atLoopTop ((deadlineReached (tickCounted (outcomes a g m) s)).withEnv []))))

/-- SS.RUN with a count and no group ready, nothing happening outside: after as many steps as the count it
has completed; it ran that many ticks and `x[31]` says so; the last tick began exactly count - 1 periods
after the first, on schedule, and the deadline stands there (R302, R307, R310). (A turn as a step is the
model's: notes/assumptions/1.md; that a wait ends exactly at its deadline when nothing happens outside is
DEDUCED: notes/assumptions/22.md.) Environment: notes/assumptions/2.md, 24.md. -/
def Obligations.SsRunCounted : Prop :=
  ∀ (s : State) (count : BitVec 16), s.held = false → s.cmd.busy = false → s.ctrl.cancel = false → count ≠ 0 →
    s.ss.period ≠ 0 → s.env = [] → (∀ g : Group, groupReady s g = false) →
    s.clock.toNat + count.toNat * s.ss.period.toNat < 2 ^ 64 →
    ∃ u t, exec (.ssRun count) s = .next u ∧ Host.Core.run Sys2Proof.core (count.toNat - 1) u = .next t ∧
      t.cmd.busy = false ∧ t.cmd.done = true ∧ t.cmd.fail = false ∧ t.ss.running = false ∧
      t.getX 31 = count.zeroExtend 32 ∧
      t.ss.ticks = s.ss.ticks + count.zeroExtend 32 ∧
      t.clock.toNat = s.clock.toNat + (count.toNat - 1) * s.ss.period.toNat ∧
      t.ss.tStart = t.clock ∧ t.ss.epoch = t.clock ∧ t.ss.left = 0 ∧ t.ss.period = s.ss.period

/-- The filter's part in a tick (R303 to R305): skipped unless all three groups were delivered or the policy
is to use stale data, and then nothing changes; else `x[30]` is the time since the last accepted sample, the
step is accepted exactly if that is above 0, and only then `ss_last_ts` and `est_ts` move and the angles are
those of spec/47_estimator.md R287. -/
def Obligations.TickFusesByPolicy : Prop :=
  ∀ s : State,
    let all := s.sa.okA && s.sa.okG && s.sa.okM
    let dt := fxFromUs ((s.sa.ts.toNat : Int) - s.ss.lastTs.toNat)
    let f : Fin 32 → Fx := fun i => .of (s.getX i)
    let pa := atan2d (s.getX 19) (s.getX 20)
    let ra := atan2d (s.getX 18) (s.getX 20)
    let p := fxAdd (fxAdd (f 28) (fxMul (fxMul (f 21) (.of dt.val)) (.of 64225))) (fxMul (.of pa) (.of 1311))
    let r := fxAdd (fxAdd (f 27) (fxMul (fxMul (f 22) (.of dt.val)) (.of 64225))) (fxMul (.of ra) (.of 1311))
    let cp : Fx := .of (cosd p.val)
    let sp : Fx := .of (sind p.val)
    let cr : Fx := .of (cosd r.val)
    let sr : Fx := .of (sind r.val)
    let mxc := fxSub (fxMul (f 24) cr) (fxMul (f 26) sr)
    let myc := fxAdd (fxAdd (fxMul (fxMul (f 24) sp) sr) (fxMul (f 25) cp)) (fxMul (fxMul (f 26) sp) cr)
    (all = false → s.ctrl.policyStale = false → tickFuse s = (⟨false, false⟩, s)) ∧
    (all = true ∨ s.ctrl.policyStale = true →
      (tickFuse s).2.getX 30 = dt.val ∧
      (0 < dt.val.toInt → (tickFuse s).1 = ⟨true, false⟩ ∧ (tickFuse s).2.ss.lastTs = s.sa.ts ∧
        (tickFuse s).2.estTs = s.sa.ts ∧ sameXBut [27, 28, 29, 30] s (tickFuse s).2 ∧
        (tickFuse s).2.getX 27 = r.val ∧ (tickFuse s).2.getX 28 = p.val ∧
        (tickFuse s).2.getX 29 = atan2d myc.val mxc.val ∧
        (tickFuse s).2.cmd.fxSat =
          ((s.cmd.fxSat || dt.sat) || (r.sat || p.sat || (myc.sat || mxc.sat)))) ∧
      (dt.val.toInt ≤ 0 → (tickFuse s).1 = ⟨false, true⟩ ∧ (tickFuse s).2.ss = s.ss ∧
        (tickFuse s).2.estTs = s.estTs ∧ sameXBut [30] s (tickFuse s).2 ∧
        (tickFuse s).2.cmd.fxSat = (s.cmd.fxSat || dt.sat)))

/-- The record that a tick emits (R306, spec/30_encoding.md R118), the tick count and every bit of LASTTICK
(spec/10_state.md R47), as the end of a tick leaves them: FUSED and REJ when the filter step is skipped, when
it is accepted, and when it is rejected. -/
def Obligations.TickEmitsRecord : Prop :=
  ∀ (s : State) (firsterr : Word),
    let t := tickEnded firsterr s
    t.rcd.roll = t.getX 27 ∧ t.rcd.pitch = t.getX 28 ∧ t.rcd.head = t.getX 29 ∧
    t.rcd.mag = (if s.ctrl.outRaw then ⟨s.getX 6, s.getX 7, s.getX 8⟩ else ⟨0, 0, 0⟩) ∧
    t.rcd.tStart = s.ss.tStart ∧ t.rcd.tEnd = s.clock ∧ t.ss.tEnd = s.clock ∧ t.rcd.valid = true ∧
    (t.rcd.ovr = true ↔ s.rcd.ovr = true ∨ s.rcd.valid = true) ∧
    t.ss.ticks = s.ss.ticks + 1 ∧
    t.ss.lasttick.getLsbD 0 = s.sa.okA ∧ t.ss.lasttick.getLsbD 1 = s.sa.okG ∧
    t.ss.lasttick.getLsbD 2 = s.sa.okM ∧ t.ss.lasttick.toNat / 2 ^ 8 = firsterr.toNat % 2 ^ 24 ∧
    t.ss.lasttick.toNat / 2 ^ 5 % 2 ^ 3 = 0 ∧
    ((s.sa.okA && s.sa.okG && s.sa.okM) = false → s.ctrl.policyStale = false →
      t.ss.lasttick.getLsbD 3 = false ∧ t.ss.lasttick.getLsbD 4 = false ∧
      t.rcd.roll = s.getX 27 ∧ t.rcd.pitch = s.getX 28 ∧ t.rcd.head = s.getX 29) ∧
    ((s.sa.okA && s.sa.okG && s.sa.okM) = true ∨ s.ctrl.policyStale = true →
      let dt := fxFromUs ((s.sa.ts.toNat : Int) - s.ss.lastTs.toNat)
      (0 < dt.val.toInt → t.ss.lasttick.getLsbD 3 = true ∧ t.ss.lasttick.getLsbD 4 = false) ∧
      (dt.val.toInt ≤ 0 → t.ss.lasttick.getLsbD 3 = false ∧ t.ss.lasttick.getLsbD 4 = true ∧
        t.rcd.roll = s.getX 27 ∧ t.rcd.pitch = s.getX 28 ∧ t.rcd.head = s.getX 29)) ∧
    sameXBut [9, 10, 11, 12, 13, 14, 15, 16, 17, 18, 19, 20, 21, 22, 23, 24, 25, 26, 27, 28, 29, 30] s t

/-! ## The whole machine -/

/-- "OrientationState angles are only ever written by the estimator's step function, never externally"
(spec/47_estimator.md R293, spec/10_state.md R22, R29): no command but OE.STEP and SS.RUN changes an angle
or `est_ts`, and no host access does. Environment: notes/assumptions/2.md, 24.md. -/
def Obligations.OnlyEstimatorWritesAngles : Prop :=
  (∀ (i : Instr) (s t : State), i ≠ .oeStep → (∀ n, i ≠ .ssRun n) → rstFree s.env = true →
    exec i s = .next t →
    t.getX 27 = s.getX 27 ∧ t.getX 28 = s.getX 28 ∧ t.getX 29 = s.getX 29 ∧ t.estTs = s.estTs) ∧
  (∀ (s t : State) (a : HostAccess), hostAccess s a = .ok t →
    t.getX 27 = s.getX 27 ∧ t.getX 28 = s.getX 28 ∧ t.getX 29 = s.getX 29 ∧ t.estTs = s.estTs ∧
    t.getX 31 = s.getX 31)

/-- The core only reads the calibration profile (spec/10_state.md R28, R37, spec/46_calibration.md R278), and
the parameters never change (spec/00_scope.md R8, spec/10_state.md R20): that they stand in the state, and that
`rst` keeps them, is the model's (DESIGN CHOICE, notes/assumptions/5.md, 21.md). Environment:
notes/assumptions/2.md, 24.md. -/
def Obligations.ProfileAndParametersFixed : Prop :=
  (∀ (i : Instr) (s t : State), rstFree s.env = true → exec i s = .next t → t.cal = s.cal) ∧
  (∀ s t : State, s.cmd.busy = true → rstFree s.env = true → step s = .next t → t.cal = s.cal) ∧
  (∀ s t : State, step s = .next t → t.cfg = s.cfg)

/-- Every step keeps the agreement of the cached resolutions with the cached codes (R37). -/
def Obligations.CachesAgreeKept : Prop :=
  ∀ s t : State, CachesAgree s → step s = .next t → CachesAgree t

/-- Every step keeps the byte buffers in canonical form and in bounds (spec/10_state.md R24 for the bounds;
that a buffer is held in a canonical form is the model's, DESIGN CHOICE, notes/assumptions/23.md). -/
def Obligations.BuffersKept : Prop :=
  ∀ s t : State, BuffersOk s → step s = .next t → BuffersOk t

/-- Every step keeps `bt_attempt` at most 5, a selection only with a bus attached (R23, R44), and `mg_stage`
at most 4 (R26). -/
def Obligations.TransportKept : Prop :=
  ∀ s t : State, TransportOk s → StageOk s → step s = .next t → TransportOk t ∧ StageOk t

/-- Every step keeps the command flags consistent (R30, R33, spec/60_exceptions.md R328 to R330), and while
`rst` is asserted the core at its reset values (spec/70_reset_and_hazards.md R360; that it takes them at the
assertion is the model's, DESIGN CHOICE, notes/assumptions/35.md). -/
def Obligations.StatusKept : Prop :=
  (∀ s t : State, StatusOk s → step s = .next t → StatusOk t) ∧
  (∀ s t : State, HeldOk s → step s = .next t → HeldOk t)

/-- The timebase never goes back, no kept time stamp passes it, and the capture time stamps of successive
polls do not decrease, but for a reset (R36, R37). Environment: notes/assumptions/2.md, 24.md. -/
def Obligations.StampsKept : Prop :=
  (∀ s t : State, StampsOk s → step s = .next t → StampsOk t ∧ s.clock ≤ t.clock) ∧
  (∀ s t : State, StampsOk s → rstFree s.env = true → step s = .next t → s.sa.ts ≤ t.sa.ts)

/-- The state after reset meets every invariant, and so do the states that the assertion and the release of
`rst` lead to. (That the core stands at its reset values from the assertion on, where
spec/70_reset_and_hazards.md R360 gives them at the release, and what `rst` keeps beside the timebase, are the
model's: DESIGN CHOICE, notes/assumptions/35.md, 21.md.) -/
def Obligations.InvariantsAtReset : Prop :=
  CachesAgree State.reset ∧ BuffersOk State.reset ∧ TransportOk State.reset ∧ StageOk State.reset ∧
  StatusOk State.reset ∧ StampsOk State.reset ∧ HeldOk State.reset ∧
  ∀ s : State, ∀ t ∈ [inReset s, afterReset s], CachesAgree t ∧ BuffersOk t ∧ TransportOk t ∧ StageOk t ∧
    StatusOk t ∧ StampsOk t ∧ HeldOk t

/-- The reset values of R58, read where they can be through the host's registers and else in the state, and
`rst` (spec/70_reset_and_hazards.md R360, R362). Its assertion is taken whatever the core is doing: idle, or
busy without an answer; at the top of the loop of SS.RUN (V-RST10); before the first step of any command; in a
bus primitive; in a wait between read attempts; and in the wait of SS.RUN for its deadline. The running command
is abandoned, and nothing more is sent. While it is asserted the core does nothing: a write is lost, of CMD
too, time passes, `irq` is 0. At the release the core is idle at the reset values; the timebase has gone on.
(That `rst` keeps the parameters and the timebase, and what the host sees while it is asserted, are the
model's: notes/assumptions/21.md, 35.md.) Environment: notes/assumptions/2.md, 24.md. -/
def Obligations.ResetState : Prop :=
  let atReset : State → Prop := fun t =>
    (∀ k, t.getX k = 0) ∧ t.bt = ⟨none, 0⟩ ∧ sameTx State.reset t ∧ sameRx State.reset t ∧
    (∀ k, Memory.read t.buf.tx k = 0 ∧ Memory.read t.buf.rx k = 0) ∧
    t.buf.txLen = 0 ∧ t.buf.rxLen = 0 ∧ t.buf.rxRptr = 0 ∧
    regValue t .agstat = some 0 ∧ t.ag.ares = 4 ∧ t.ag.gres = 500 ∧
    regValue t .mgstat = some 0 ∧ t.mg.adj = ⟨65536, 65536, 65536⟩ ∧ t.mg.res = 39322 ∧
    t.sa = ⟨false, false, false, 0⟩ ∧ t.cal.aoff = ⟨0, 0, 0⟩ ∧ t.cal.goff = ⟨0, 0, 0⟩ ∧
    t.cal.moff = ⟨0, 0, 0⟩ ∧ t.cal.mmat = ⟨⟨65536, 0, 0⟩, ⟨0, 65536, 0⟩, ⟨0, 0, 65536⟩⟩ ∧
    t.estTs = 0 ∧ t.seq = none ∧ t.ss.running = false ∧ t.ss.epoch = 0 ∧ t.ss.period = 10000 ∧
    t.ss.lastTs = 0 ∧ t.ss.left = 0 ∧ t.ss.ticks = 0 ∧ t.ss.phase = .idle ∧ t.ss.tStart = 0 ∧
    t.ss.tEnd = 0 ∧ t.ss.lasttick = 0 ∧ t.rcd = ⟨0, 0, 0, ⟨0, 0, 0⟩, 0, 0, false, false⟩ ∧
    t.cmd = ⟨false, false, false, false, false, 0⟩ ∧
    ctrlWord t.ctrl = (if t.cfg.policyReset then 256 else 0) ∧ irq t = false
  let asserted : State → List Event → List PortEvent → State → Prop := fun s es sent t =>
    atReset t ∧ t.held = true ∧ t.clock = s.clock ∧ t.cfg = s.cfg ∧ t.env = es ∧ t.port = sent ++ s.port
  (∀ (s : State) (es : List Event), s.held = false → s.env = .outside .rst :: es →
    s.cmd.busy = false ∨ s.ss.running = false ∨ turnAhead es = true →
    ∃ t, step s = .next t ∧ asserted s es [] t) ∧
  (∀ (i : Instr) (s : State) (es : List Event), s.cmd.busy = false → i.wellFormed = true →
    (∀ n, i = .ssRun n → s.ss.period ≠ 0) → s.env = .outside .rst :: es → turnAhead es = true →
    ∃ t, exec i s = .next t ∧ asserted s es [] t) ∧
  (∀ (s : State) (a : BitVec 7) (reg val : Byte) (es : List Event), s.cmd.busy = false →
    s.ctrl.btAttach = true → turnAhead es = false → s.env = .outside .rst :: es →
    ∃ t, exec (.btWrbyte a reg val) s = .next t ∧
      asserted s es [if s.bt.sel = some a then .write [reg, val] else .select a] t) ∧
  (∀ (s : State) (a : BitVec 7) (reg : Byte) (es : List Event), s.cmd.busy = false →
    s.ctrl.btAttach = true → turnAhead es = false → s.bt.sel = some a →
    s.env = .answer (.wrote 0) :: .turn :: .outside .rst :: es →
    ∃ t, exec (.btRdbyte a reg) s = .next t ∧ asserted s es [.wait 10000, .write [reg]] t) ∧
  (∀ (s : State) (es : List Event), s.held = false → s.cmd.busy = true → s.ss.running = true →
    s.ctrl.cancel = false → (∀ g, groupReady s g = false) → s.ss.count = 0 ∨ s.ss.left ≠ 1 →
    s.ss.epoch.toNat + s.ss.period.toNat < 2 ^ 64 → s.clock.toNat < s.ss.epoch.toNat + s.ss.period.toNat →
    turnAhead es = false → s.env = .outside .rst :: es →
    ∃ t, step s = .next t ∧
      asserted s es [.waitUntil (BitVec.ofNat 64 (s.ss.epoch.toNat + s.ss.period.toNat))] t) ∧
  (∀ (s : State) (es : List Event), s.held = true → irq s = false ∧
    (s.env = [] → step s = .next s) ∧
    (∀ d, s.env = .outside (.elapse d) :: es → s.clock.toNat + d < 2 ^ 64 →
      step s = .next ((s.withEnv es).withClock (BitVec.ofNat 64 (s.clock.toNat + d)))) ∧
    (∀ addr v, addr.toNat % 4 = 0 → s.env = .outside (.host (.write addr v)) :: es →
      step s = .next (s.withEnv es)) ∧
    (∀ addr, addr.toNat % 4 = 0 → s.env = .outside (.host (.read addr)) :: es →
      ∃ w, step s = .next (((s.withEnv es).withPort (.hostData addr w :: s.port)).withFree (s.free + 1))) ∧
    (∀ e ∈ [.outside .rst, .turn, .answer .timedOut], s.env = e :: es → step s = .next (s.withEnv es)) ∧
    (s.env = .outside .release :: es → ∃ t, step s = .next t ∧ atReset t ∧ t.held = false ∧
      t.clock = s.clock ∧ t.cfg = s.cfg ∧ t.env = es ∧ t.port = s.port))

/-- Frame, registers: a command changes no data register but `x[31]` and those its rule names, and the
general registers it may write are listed by `writes`. Environment: notes/assumptions/2.md, 24.md. -/
def Obligations.FrameRegisters : Prop :=
  ∀ (i : Instr) (s t : State), s.cmd.busy = false → hostQuiet s.env = true → exec i s = .next t →
    sameXBut (31 :: (writes i).x) s t

/-- Frame, special registers and flags: a command changes the state of a unit only if its rule says so; the
control bits, the calibration profile and `cmd_ovr` never; `fx_sat` is never cleared; and a command that is
not SS.RUN has completed. Environment: notes/assumptions/2.md, 24.md. -/
def Obligations.FrameUnits : Prop :=
  ∀ (i : Instr) (s t : State), s.cmd.busy = false → hostQuiet s.env = true → exec i s = .next t →
    ((writes i).ag = false → t.ag = s.ag) ∧
    ((writes i).mg = false → (writes i).ovf = false → t.mg = s.mg) ∧
    ((writes i).mg = false → t.mg = { s.mg with ovf := t.mg.ovf }) ∧
    ((writes i).ovf = false → t.mg.ovf = s.mg.ovf) ∧
    ((writes i).sa = false → t.sa = s.sa) ∧
    ((writes i).est = false → t.estTs = s.estTs) ∧
    ((writes i).loop = false → t.ss = s.ss ∧ t.rcd = s.rcd ∧ t.cmd.busy = false ∧ t.cmd.done = true ∧
      (t.cmd.fail = false → t.cmd.err = 0)) ∧
    ((writes i).rmw = false → t.rmw = s.rmw) ∧
    ((writes i).fx = false → t.cmd.fxSat = s.cmd.fxSat) ∧
    (s.cmd.fxSat = true → t.cmd.fxSat = true) ∧
    t.ctrl = s.ctrl ∧ t.cal = s.cal ∧ t.cfg = s.cfg ∧ t.cmd.cmdOvr = s.cmd.cmdOvr

/-- Frame, memory and bus: no command changes a byte of the transmit buffer; only a command that reads the
bus changes the receive buffer; a command that does not drive the bus sends nothing out and leaves the
selection alone. Environment: notes/assumptions/2.md, 24.md. -/
def Obligations.FrameBuffers : Prop :=
  ∀ (i : Instr) (s t : State), s.cmd.busy = false → hostQuiet s.env = true → exec i s = .next t →
    sameTx s t ∧ ((writes i).rx = false → sameRx s t ∧ t.bt.attempt = s.bt.attempt) ∧
    ((writes i).bus = false → t.bt = s.bt ∧ t.port = s.port)

/-- The host while a command runs (spec/10_state.md R44, R56): STATUS, ERR, TIME, TICKS, LASTTICK and the
record window read as they stand, reserved addresses read 0 (R57, notes/assumptions/15.md), and a read
changes nothing but what is sent out and, where the value is unspecified, the count of free values; a write
reaches only the sticky bits, CANCEL, IE_REC, IE_DONE and `rec_valid`, and of any other register but CMD it is
ignored. (What an unreadable register reads as is free: notes/assumptions/13.md, 14.md.) Environment:
notes/assumptions/2.md, 24.md. -/
def Obligations.HostWhileBusy : Prop :=
  ∀ s : State, s.cmd.busy = true →
    let readable : List (BitVec 9 × Word) := [(0x004, statusWord s), (0x00C, s.cmd.err),
      (0x018, loWord s.clock), (0x01C, hiWord s.clock), (0x028, s.ss.ticks), (0x02C, s.ss.lasttick),
      (0x180, s.rcd.roll), (0x184, s.rcd.pitch), (0x188, s.rcd.head), (0x18C, s.rcd.mag.x),
      (0x190, s.rcd.mag.y), (0x194, s.rcd.mag.z), (0x198, loWord s.rcd.tStart), (0x19C, hiWord s.rcd.tStart),
      (0x1A0, loWord s.rcd.tEnd), (0x1A4, hiWord s.rcd.tEnd)]
    let reserved : BitVec 9 → Prop := fun addr => addr = 0x008 ∨ 0x074 ≤ addr.toNat ∧ addr.toNat ≤ 0x07C ∨
      0x148 ≤ addr.toNat ∧ addr.toNat ≤ 0x17C ∨ 0x1AC ≤ addr.toNat
    (∀ p ∈ readable, hostAccess s (.read p.1) = .ok (sendOut s (.hostData p.1 p.2))) ∧
    (∀ addr : BitVec 9, addr.toNat % 4 = 0 → reserved addr →
      hostAccess s (.read addr) = .ok (sendOut s (.hostData addr 0))) ∧
    (∀ addr : BitVec 9, addr.toNat % 4 = 0 → ¬reserved addr → addr ∉ readable.map Prod.fst →
      hostAccess s (.read addr) = .ok ((sendOut s (.hostData addr (Config.hostWordFree s.free))).withFree
        (s.free + 1))) ∧
    (∀ (addr : BitVec 9) (v : Word) (t : State), hostAccess s (.write addr v) = .ok t →
      (addr = 0x010 → t = s.withCtrl { s.ctrl with
        cancel := v.getLsbD 6, ieRec := v.getLsbD 9, ieDone := v.getLsbD 10 }) ∧
      (addr = 0x004 → t = (s.withCmd { s.cmd with
        cmdOvr := s.cmd.cmdOvr && !v.getLsbD 4, fxSat := s.cmd.fxSat && !v.getLsbD 7 }).withRcd
        { s.rcd with ovr := s.rcd.ovr && !v.getLsbD 6 }) ∧
      (addr = 0x1A8 → t = s.withRcd { s.rcd with valid := false }) ∧
      (addr = 0 → t = s.withCmd { s.cmd with cmdOvr := true }) ∧
      (addr ≠ 0x010 → addr ≠ 0x004 → addr ≠ 0x1A8 → addr ≠ 0 → t = s))

/-- The host and an idle core. Its reads (R40 to R55): the word each address gives, STATUS, AGSTAT, MGSTAT
and BUSADDR field by field, reserved addresses 0 (R57); RXDATA alone has a side effect, its pointer moves on
while it is below `rx_len` (R51); what the write-only REC_CTL gives is free (notes/assumptions/14.md). Its
writes (R22, R42, R44, R45, R51, R54, R55): the data registers but for `x[27]` to `x[29]` and `x[31]`, the sticky
bits, the control bits (clearing BT_ATTACH forgets the selection), the period, the calibration window, offsets
and matrix each without the other, the transmit buffer and its length, the read pointer, `rec_valid`; any other
but CMD is ignored (R57; of a read-only register it is the model's, notes/assumptions/16.md). -/
def Obligations.HostWhileIdle : Prop :=
  ∀ s : State, s.cmd.busy = false →
    let rd : BitVec 9 → Word → Prop := fun addr w =>
      hostAccess s (.read addr) = .ok (sendOut s (.hostData addr w))
    let reserved : BitVec 9 → Prop := fun addr => addr = 0x008 ∨ 0x074 ≤ addr.toNat ∧ addr.toNat ≤ 0x07C ∨
      0x148 ≤ addr.toNat ∧ addr.toNat ≤ 0x17C ∨ 0x1AC ≤ addr.toNat
    let writable : BitVec 9 → Prop := fun addr => addr ∈ [(0x000 : BitVec 9), 0x004, 0x010, 0x014, 0x060, 0x064,
      0x06C, 0x1A8] ∨ 0x080 ≤ addr.toNat ∧ addr.toNat ≤ 0x0FC ∨ 0x100 ≤ addr.toNat ∧ addr.toNat ≤ 0x144
    (∃ w, rd 0x004 w ∧ w.getLsbD 0 = false ∧ w.getLsbD 1 = s.cmd.done ∧ w.getLsbD 2 = s.cmd.fail ∧
      w.getLsbD 3 = s.ss.running ∧ w.getLsbD 4 = s.cmd.cmdOvr ∧ w.getLsbD 5 = s.rcd.valid ∧
      w.getLsbD 6 = s.rcd.ovr ∧ w.getLsbD 7 = s.cmd.fxSat ∧ w.getLsbD 8 = s.mg.ovf ∧
      w.getLsbD 9 = s.sa.okA ∧ w.getLsbD 10 = s.sa.okG ∧ w.getLsbD 11 = s.sa.okM ∧
      w.getLsbD 12 = irq s ∧ w.toNat < 2 ^ 13) ∧
    (∃ w, rd 0x010 w ∧ w.getLsbD 0 = s.ctrl.btAttach ∧ w.getLsbD 1 = s.ctrl.agTAttach ∧
      w.getLsbD 2 = s.ctrl.mgTAttach ∧ w.getLsbD 3 = s.ctrl.saAcc ∧ w.getLsbD 4 = s.ctrl.saGyr ∧
      w.getLsbD 5 = s.ctrl.saMag ∧ w.getLsbD 6 = s.ctrl.cancel ∧ w.getLsbD 7 = s.ctrl.outRaw ∧
      w.getLsbD 8 = s.ctrl.policyStale ∧ w.getLsbD 9 = s.ctrl.ieRec ∧ w.getLsbD 10 = s.ctrl.ieDone ∧
      w.toNat < 2 ^ 11) ∧
    rd 0x030 (BitVec.ofNat 32 ((agStateNum s.ag.state).toNat + 2 ^ 4 * s.ag.arange.toNat +
      2 ^ 6 * s.ag.grange.toNat)) ∧
    rd 0x03C (BitVec.ofNat 32 ((magModeNum s.mg.mode).toNat + 2 ^ 4 * s.mg.resbit.toNat + 2 ^ 5 * bit s.mg.ovf +
      2 ^ 6 * bit s.mg.initDone + 2 ^ 8 * s.mg.stage.toNat)) ∧
    rd 0x070 (BitVec.ofNat 32 (s.cfg.agAddr.toNat + 2 ^ 8 * s.cfg.mgAddr.toNat +
      (match s.bt.sel with
        | none => 0
        | some a => 2 ^ 16 * a.toNat + 2 ^ 23))) ∧
    (s.buf.rxLen ≤ 511 → s.buf.rxRptr ≤ 511 →
      rd 0x06C (BitVec.ofNat 32 (s.buf.rxLen + 2 ^ 16 * s.buf.rxRptr))) ∧
    (s.buf.rxRptr < s.buf.rxLen → hostAccess s (.read 0x068) = .ok
      ((sendOut s (.hostData 0x068 ((Memory.read s.buf.rx s.buf.rxRptr).zeroExtend 32))).withBuf
        { s.buf with rxRptr := s.buf.rxRptr + 1 })) ∧
    (s.buf.rxLen ≤ s.buf.rxRptr → rd 0x068 0) ∧
    (∀ p ∈ [((0x000 : BitVec 9), (0 : Word)), (0x00C, s.cmd.err), (0x014, s.ss.period), (0x018, loWord s.clock),
      (0x01C, hiWord s.clock), (0x020, loWord s.ss.epoch), (0x024, hiWord s.ss.epoch), (0x028, s.ss.ticks),
      (0x02C, s.ss.lasttick), (0x034, s.ag.ares), (0x038, s.ag.gres), (0x040, s.mg.res), (0x044, s.mg.adj.x),
      (0x048, s.mg.adj.y), (0x04C, s.mg.adj.z), (0x050, loWord s.sa.ts), (0x054, hiWord s.sa.ts),
      (0x058, loWord s.estTs), (0x05C, hiWord s.estTs), (0x060, 0), (0x064, BitVec.ofNat 32 s.buf.txLen),
      (0x180, s.rcd.roll), (0x184, s.rcd.pitch), (0x188, s.rcd.head), (0x18C, s.rcd.mag.x),
      (0x190, s.rcd.mag.y), (0x194, s.rcd.mag.z), (0x198, loWord s.rcd.tStart), (0x19C, hiWord s.rcd.tStart),
      (0x1A0, loWord s.rcd.tEnd), (0x1A4, hiWord s.rcd.tEnd)], rd p.1 p.2) ∧
    (∀ i : Fin 32, rd (BitVec.ofNat 9 (0x080 + 4 * i.val)) (s.getX i)) ∧
    (∀ g i : Fin 3, rd (BitVec.ofNat 9 (0x100 + 4 * (3 * g.val + i.val)))
      (vecGet (![s.cal.aoff, s.cal.goff, s.cal.moff] g) i)) ∧
    (∀ r c : Fin 3, rd (BitVec.ofNat 9 (0x124 + 4 * (3 * r.val + c.val)))
      (vecGet (![s.cal.mmat.r0, s.cal.mmat.r1, s.cal.mmat.r2] r) c)) ∧
    (∀ addr : BitVec 9, addr.toNat % 4 = 0 → reserved addr → rd addr 0) ∧
    (∃ w, hostAccess s (.read 0x1A8) = .ok ((sendOut s (.hostData 0x1A8 w)).withFree (s.free + 1))) ∧
    (∀ (v : Word) (t : State),
      (∀ i : Fin 32, hostAccess s (.write (BitVec.ofNat 9 (0x080 + 4 * i.val)) v) = .ok t →
        t = (if i.val ≤ 26 ∨ i.val = 30 then s.setX i v else s)) ∧
      (hostAccess s (.write 0x004 v) = .ok t → t = (s.withCmd { s.cmd with
        cmdOvr := s.cmd.cmdOvr && !v.getLsbD 4, fxSat := s.cmd.fxSat && !v.getLsbD 7 }).withRcd
        { s.rcd with ovr := s.rcd.ovr && !v.getLsbD 6 }) ∧
      (hostAccess s (.write 0x010 v) = .ok t → ctrlWord t.ctrl = v &&& 0x7FF ∧
        t.bt.sel = (if v.getLsbD 0 then s.bt.sel else none) ∧
        t = (s.withCtrl t.ctrl).withBt { s.bt with sel := t.bt.sel }) ∧
      (hostAccess s (.write 0x014 v) = .ok t → t = s.withSs { s.ss with period := v }) ∧
      (∀ g i : Fin 3, hostAccess s (.write (BitVec.ofNat 9 (0x100 + 4 * (3 * g.val + i.val))) v) = .ok t →
        t = s.withCal t.cal ∧ t.cal.mmat = s.cal.mmat ∧
        ∀ g' i' : Fin 3, vecGet (![t.cal.aoff, t.cal.goff, t.cal.moff] g') i' =
          if (g', i') = (g, i) then v else vecGet (![s.cal.aoff, s.cal.goff, s.cal.moff] g') i') ∧
      (∀ r c : Fin 3, hostAccess s (.write (BitVec.ofNat 9 (0x124 + 4 * (3 * r.val + c.val))) v) = .ok t →
        t = s.withCal { s.cal with mmat := t.cal.mmat } ∧
        ∀ r' c' : Fin 3, vecGet (![t.cal.mmat.r0, t.cal.mmat.r1, t.cal.mmat.r2] r') c' =
          if (r', c') = (r, c) then v
          else vecGet (![s.cal.mmat.r0, s.cal.mmat.r1, s.cal.mmat.r2] r') c') ∧
      (hostAccess s (.write 0x060 v) = .ok t → Memory.wf s.buf.tx = true →
        (s.buf.txLen < 511 → t.buf.txLen = s.buf.txLen + 1 ∧
          (∀ k, Memory.read t.buf.tx k =
            if k = s.buf.txLen then v.truncate 8 else Memory.read s.buf.tx k) ∧
          t = s.withBuf { s.buf with tx := t.buf.tx, txLen := t.buf.txLen }) ∧
        (511 ≤ s.buf.txLen → t = s)) ∧
      (hostAccess s (.write 0x064 v) = .ok t → t = s.withBuf { s.buf with txLen := 0 }) ∧
      (hostAccess s (.write 0x06C v) = .ok t → t = s.withBuf { s.buf with rxRptr := 0 }) ∧
      (hostAccess s (.write 0x1A8 v) = .ok t → t = s.withRcd { s.rcd with valid := false }) ∧
      (∀ addr : BitVec 9, addr.toNat % 4 = 0 → ¬writable addr → hostAccess s (.write addr v) = .ok t → t = s))

/-- The `irq` level (spec/60_exceptions.md R338): its formula, `STATUS.IRQ`, its reset value, and its
sources going away at a write of REC_CTL and at the start of a command; and 0 while `rst` is asserted
(spec/70_reset_and_hazards.md R360). -/
def Obligations.IrqLevel : Prop :=
  (∀ s : State, (s.held = false → irq s = ((s.rcd.valid && s.ctrl.ieRec) || (s.cmd.done && s.ctrl.ieDone))) ∧
    (s.held = true → irq s = false) ∧
    (statusWord s).getLsbD 12 = irq s ∧ (statusWord s).getLsbD 1 = s.cmd.done ∧
    (statusWord s).getLsbD 5 = s.rcd.valid) ∧
  irq State.reset = false ∧
  (∀ (s t : State) (v : Word), s.held = false → hostAccess s (.write 0x1A8 v) = .ok t → t.rcd.valid = false ∧
    irq t = (s.cmd.done && s.ctrl.ieDone)) ∧
  (∀ (s : State) (op : BitVec 6), s.held = false → irq (startCommand op s) = (s.rcd.valid && s.ctrl.ieRec)) ∧
  (∀ (s t : State) (v : Word), s.held = false → v.getLsbD 10 = false → hostAccess s (.write 0x010 v) = .ok t →
    irq t = (s.rcd.valid && v.getLsbD 9))

/-- `errword` (R321): the examples the rule gives. -/
def Obligations.ErrorWords : Prop :=
  errword ⟨.io .notConnected, .ag⟩ = 0x00000011 ∧ errword ⟨.io .selectFailed, .ag⟩ = 0x00000021 ∧
  errword ⟨.io .shortTransfer, .ag⟩ = 0x00000031 ∧ errword ⟨.io .shortTransfer, .mg⟩ = 0x00100031 ∧
  errword ⟨.io .tooLarge, .ag⟩ = 0x00000041 ∧ errword ⟨.io .timeout, .ag⟩ = 0x00000051 ∧
  errword ⟨.disconnected, .ag⟩ = 0x00000312 ∧ errword ⟨.disconnected, .mg⟩ = 0x00100312 ∧
  errword ⟨.initSequenceFailed 2 (some .shortTransfer), .ag⟩ = 0x00002132 ∧
  errword ⟨.notReady, .mg⟩ = 0x00110003 ∧ errword ⟨.overflow, .mg⟩ = 0x00120003 ∧
  errword ⟨.illegal, .ag⟩ = 0x00000004

end
end

