-- ==== Sys2Proof/Laws/State.lean ====
section
/-! SUPPORT. What each update of the state leaves in each field: one lemma per field per update, so that
no proof unfolds a record update. -/

namespace Sys2Proof.Machine

open Sys2Proof

section
variable (s : State) (v : Ctrl)
@[simp] theorem State.withCtrl_x : (s.withCtrl v).x = s.x := rfl
@[simp] theorem State.withCtrl_ctrl : (s.withCtrl v).ctrl = v := rfl
@[simp] theorem State.withCtrl_bt : (s.withCtrl v).bt = s.bt := rfl
@[simp] theorem State.withCtrl_buf : (s.withCtrl v).buf = s.buf := rfl
@[simp] theorem State.withCtrl_ag : (s.withCtrl v).ag = s.ag := rfl
@[simp] theorem State.withCtrl_mg : (s.withCtrl v).mg = s.mg := rfl
@[simp] theorem State.withCtrl_sa : (s.withCtrl v).sa = s.sa := rfl
@[simp] theorem State.withCtrl_cal : (s.withCtrl v).cal = s.cal := rfl
@[simp] theorem State.withCtrl_estTs : (s.withCtrl v).estTs = s.estTs := rfl
@[simp] theorem State.withCtrl_seq : (s.withCtrl v).seq = s.seq := rfl
@[simp] theorem State.withCtrl_ss : (s.withCtrl v).ss = s.ss := rfl
@[simp] theorem State.withCtrl_rcd : (s.withCtrl v).rcd = s.rcd := rfl
@[simp] theorem State.withCtrl_cmd : (s.withCtrl v).cmd = s.cmd := rfl
@[simp] theorem State.withCtrl_rmw : (s.withCtrl v).rmw = s.rmw := rfl
@[simp] theorem State.withCtrl_held : (s.withCtrl v).held = s.held := rfl
@[simp] theorem State.withCtrl_cfg : (s.withCtrl v).cfg = s.cfg := rfl
@[simp] theorem State.withCtrl_clock : (s.withCtrl v).clock = s.clock := rfl
@[simp] theorem State.withCtrl_env : (s.withCtrl v).env = s.env := rfl
@[simp] theorem State.withCtrl_port : (s.withCtrl v).port = s.port := rfl
@[simp] theorem State.withCtrl_free : (s.withCtrl v).free = s.free := rfl
@[simp] theorem State.withCtrl_getX (i : Fin 32) : (s.withCtrl v).getX i = s.getX i := rfl
end

section
variable (s : State) (v : Transport)
@[simp] theorem State.withBt_x : (s.withBt v).x = s.x := rfl
@[simp] theorem State.withBt_ctrl : (s.withBt v).ctrl = s.ctrl := rfl
@[simp] theorem State.withBt_bt : (s.withBt v).bt = v := rfl
@[simp] theorem State.withBt_buf : (s.withBt v).buf = s.buf := rfl
@[simp] theorem State.withBt_ag : (s.withBt v).ag = s.ag := rfl
@[simp] theorem State.withBt_mg : (s.withBt v).mg = s.mg := rfl
@[simp] theorem State.withBt_sa : (s.withBt v).sa = s.sa := rfl
@[simp] theorem State.withBt_cal : (s.withBt v).cal = s.cal := rfl
@[simp] theorem State.withBt_estTs : (s.withBt v).estTs = s.estTs := rfl
@[simp] theorem State.withBt_seq : (s.withBt v).seq = s.seq := rfl
@[simp] theorem State.withBt_ss : (s.withBt v).ss = s.ss := rfl
@[simp] theorem State.withBt_rcd : (s.withBt v).rcd = s.rcd := rfl
@[simp] theorem State.withBt_cmd : (s.withBt v).cmd = s.cmd := rfl
@[simp] theorem State.withBt_rmw : (s.withBt v).rmw = s.rmw := rfl
@[simp] theorem State.withBt_held : (s.withBt v).held = s.held := rfl
@[simp] theorem State.withBt_cfg : (s.withBt v).cfg = s.cfg := rfl
@[simp] theorem State.withBt_clock : (s.withBt v).clock = s.clock := rfl
@[simp] theorem State.withBt_env : (s.withBt v).env = s.env := rfl
@[simp] theorem State.withBt_port : (s.withBt v).port = s.port := rfl
@[simp] theorem State.withBt_free : (s.withBt v).free = s.free := rfl
@[simp] theorem State.withBt_getX (i : Fin 32) : (s.withBt v).getX i = s.getX i := rfl
end

section
variable (s : State) (v : Buffers)
@[simp] theorem State.withBuf_x : (s.withBuf v).x = s.x := rfl
@[simp] theorem State.withBuf_ctrl : (s.withBuf v).ctrl = s.ctrl := rfl
@[simp] theorem State.withBuf_bt : (s.withBuf v).bt = s.bt := rfl
@[simp] theorem State.withBuf_buf : (s.withBuf v).buf = v := rfl
@[simp] theorem State.withBuf_ag : (s.withBuf v).ag = s.ag := rfl
@[simp] theorem State.withBuf_mg : (s.withBuf v).mg = s.mg := rfl
@[simp] theorem State.withBuf_sa : (s.withBuf v).sa = s.sa := rfl
@[simp] theorem State.withBuf_cal : (s.withBuf v).cal = s.cal := rfl
@[simp] theorem State.withBuf_estTs : (s.withBuf v).estTs = s.estTs := rfl
@[simp] theorem State.withBuf_seq : (s.withBuf v).seq = s.seq := rfl
@[simp] theorem State.withBuf_ss : (s.withBuf v).ss = s.ss := rfl
@[simp] theorem State.withBuf_rcd : (s.withBuf v).rcd = s.rcd := rfl
@[simp] theorem State.withBuf_cmd : (s.withBuf v).cmd = s.cmd := rfl
@[simp] theorem State.withBuf_rmw : (s.withBuf v).rmw = s.rmw := rfl
@[simp] theorem State.withBuf_held : (s.withBuf v).held = s.held := rfl
@[simp] theorem State.withBuf_cfg : (s.withBuf v).cfg = s.cfg := rfl
@[simp] theorem State.withBuf_clock : (s.withBuf v).clock = s.clock := rfl
@[simp] theorem State.withBuf_env : (s.withBuf v).env = s.env := rfl
@[simp] theorem State.withBuf_port : (s.withBuf v).port = s.port := rfl
@[simp] theorem State.withBuf_free : (s.withBuf v).free = s.free := rfl
@[simp] theorem State.withBuf_getX (i : Fin 32) : (s.withBuf v).getX i = s.getX i := rfl
end

section
variable (s : State) (v : AgDriver)
@[simp] theorem State.withAg_x : (s.withAg v).x = s.x := rfl
@[simp] theorem State.withAg_ctrl : (s.withAg v).ctrl = s.ctrl := rfl
@[simp] theorem State.withAg_bt : (s.withAg v).bt = s.bt := rfl
@[simp] theorem State.withAg_buf : (s.withAg v).buf = s.buf := rfl
@[simp] theorem State.withAg_ag : (s.withAg v).ag = v := rfl
@[simp] theorem State.withAg_mg : (s.withAg v).mg = s.mg := rfl
@[simp] theorem State.withAg_sa : (s.withAg v).sa = s.sa := rfl
@[simp] theorem State.withAg_cal : (s.withAg v).cal = s.cal := rfl
@[simp] theorem State.withAg_estTs : (s.withAg v).estTs = s.estTs := rfl
@[simp] theorem State.withAg_seq : (s.withAg v).seq = s.seq := rfl
@[simp] theorem State.withAg_ss : (s.withAg v).ss = s.ss := rfl
@[simp] theorem State.withAg_rcd : (s.withAg v).rcd = s.rcd := rfl
@[simp] theorem State.withAg_cmd : (s.withAg v).cmd = s.cmd := rfl
@[simp] theorem State.withAg_rmw : (s.withAg v).rmw = s.rmw := rfl
@[simp] theorem State.withAg_held : (s.withAg v).held = s.held := rfl
@[simp] theorem State.withAg_cfg : (s.withAg v).cfg = s.cfg := rfl
@[simp] theorem State.withAg_clock : (s.withAg v).clock = s.clock := rfl
@[simp] theorem State.withAg_env : (s.withAg v).env = s.env := rfl
@[simp] theorem State.withAg_port : (s.withAg v).port = s.port := rfl
@[simp] theorem State.withAg_free : (s.withAg v).free = s.free := rfl
@[simp] theorem State.withAg_getX (i : Fin 32) : (s.withAg v).getX i = s.getX i := rfl
end

section
variable (s : State) (v : MgDriver)
@[simp] theorem State.withMg_x : (s.withMg v).x = s.x := rfl
@[simp] theorem State.withMg_ctrl : (s.withMg v).ctrl = s.ctrl := rfl
@[simp] theorem State.withMg_bt : (s.withMg v).bt = s.bt := rfl
@[simp] theorem State.withMg_buf : (s.withMg v).buf = s.buf := rfl
@[simp] theorem State.withMg_ag : (s.withMg v).ag = s.ag := rfl
@[simp] theorem State.withMg_mg : (s.withMg v).mg = v := rfl
@[simp] theorem State.withMg_sa : (s.withMg v).sa = s.sa := rfl
@[simp] theorem State.withMg_cal : (s.withMg v).cal = s.cal := rfl
@[simp] theorem State.withMg_estTs : (s.withMg v).estTs = s.estTs := rfl
@[simp] theorem State.withMg_seq : (s.withMg v).seq = s.seq := rfl
@[simp] theorem State.withMg_ss : (s.withMg v).ss = s.ss := rfl
@[simp] theorem State.withMg_rcd : (s.withMg v).rcd = s.rcd := rfl
@[simp] theorem State.withMg_cmd : (s.withMg v).cmd = s.cmd := rfl
@[simp] theorem State.withMg_rmw : (s.withMg v).rmw = s.rmw := rfl
@[simp] theorem State.withMg_held : (s.withMg v).held = s.held := rfl
@[simp] theorem State.withMg_cfg : (s.withMg v).cfg = s.cfg := rfl
@[simp] theorem State.withMg_clock : (s.withMg v).clock = s.clock := rfl
@[simp] theorem State.withMg_env : (s.withMg v).env = s.env := rfl
@[simp] theorem State.withMg_port : (s.withMg v).port = s.port := rfl
@[simp] theorem State.withMg_free : (s.withMg v).free = s.free := rfl
@[simp] theorem State.withMg_getX (i : Fin 32) : (s.withMg v).getX i = s.getX i := rfl
end

section
variable (s : State) (v : Aggregator)
@[simp] theorem State.withSa_x : (s.withSa v).x = s.x := rfl
@[simp] theorem State.withSa_ctrl : (s.withSa v).ctrl = s.ctrl := rfl
@[simp] theorem State.withSa_bt : (s.withSa v).bt = s.bt := rfl
@[simp] theorem State.withSa_buf : (s.withSa v).buf = s.buf := rfl
@[simp] theorem State.withSa_ag : (s.withSa v).ag = s.ag := rfl
@[simp] theorem State.withSa_mg : (s.withSa v).mg = s.mg := rfl
@[simp] theorem State.withSa_sa : (s.withSa v).sa = v := rfl
@[simp] theorem State.withSa_cal : (s.withSa v).cal = s.cal := rfl
@[simp] theorem State.withSa_estTs : (s.withSa v).estTs = s.estTs := rfl
@[simp] theorem State.withSa_seq : (s.withSa v).seq = s.seq := rfl
@[simp] theorem State.withSa_ss : (s.withSa v).ss = s.ss := rfl
@[simp] theorem State.withSa_rcd : (s.withSa v).rcd = s.rcd := rfl
@[simp] theorem State.withSa_cmd : (s.withSa v).cmd = s.cmd := rfl
@[simp] theorem State.withSa_rmw : (s.withSa v).rmw = s.rmw := rfl
@[simp] theorem State.withSa_held : (s.withSa v).held = s.held := rfl
@[simp] theorem State.withSa_cfg : (s.withSa v).cfg = s.cfg := rfl
@[simp] theorem State.withSa_clock : (s.withSa v).clock = s.clock := rfl
@[simp] theorem State.withSa_env : (s.withSa v).env = s.env := rfl
@[simp] theorem State.withSa_port : (s.withSa v).port = s.port := rfl
@[simp] theorem State.withSa_free : (s.withSa v).free = s.free := rfl
@[simp] theorem State.withSa_getX (i : Fin 32) : (s.withSa v).getX i = s.getX i := rfl
end

section
variable (s : State) (v : Profile)
@[simp] theorem State.withCal_x : (s.withCal v).x = s.x := rfl
@[simp] theorem State.withCal_ctrl : (s.withCal v).ctrl = s.ctrl := rfl
@[simp] theorem State.withCal_bt : (s.withCal v).bt = s.bt := rfl
@[simp] theorem State.withCal_buf : (s.withCal v).buf = s.buf := rfl
@[simp] theorem State.withCal_ag : (s.withCal v).ag = s.ag := rfl
@[simp] theorem State.withCal_mg : (s.withCal v).mg = s.mg := rfl
@[simp] theorem State.withCal_sa : (s.withCal v).sa = s.sa := rfl
@[simp] theorem State.withCal_cal : (s.withCal v).cal = v := rfl
@[simp] theorem State.withCal_estTs : (s.withCal v).estTs = s.estTs := rfl
@[simp] theorem State.withCal_seq : (s.withCal v).seq = s.seq := rfl
@[simp] theorem State.withCal_ss : (s.withCal v).ss = s.ss := rfl
@[simp] theorem State.withCal_rcd : (s.withCal v).rcd = s.rcd := rfl
@[simp] theorem State.withCal_cmd : (s.withCal v).cmd = s.cmd := rfl
@[simp] theorem State.withCal_rmw : (s.withCal v).rmw = s.rmw := rfl
@[simp] theorem State.withCal_held : (s.withCal v).held = s.held := rfl
@[simp] theorem State.withCal_cfg : (s.withCal v).cfg = s.cfg := rfl
@[simp] theorem State.withCal_clock : (s.withCal v).clock = s.clock := rfl
@[simp] theorem State.withCal_env : (s.withCal v).env = s.env := rfl
@[simp] theorem State.withCal_port : (s.withCal v).port = s.port := rfl
@[simp] theorem State.withCal_free : (s.withCal v).free = s.free := rfl
@[simp] theorem State.withCal_getX (i : Fin 32) : (s.withCal v).getX i = s.getX i := rfl
end

section
variable (s : State) (v : Stamp)
@[simp] theorem State.withEstTs_x : (s.withEstTs v).x = s.x := rfl
@[simp] theorem State.withEstTs_ctrl : (s.withEstTs v).ctrl = s.ctrl := rfl
@[simp] theorem State.withEstTs_bt : (s.withEstTs v).bt = s.bt := rfl
@[simp] theorem State.withEstTs_buf : (s.withEstTs v).buf = s.buf := rfl
@[simp] theorem State.withEstTs_ag : (s.withEstTs v).ag = s.ag := rfl
@[simp] theorem State.withEstTs_mg : (s.withEstTs v).mg = s.mg := rfl
@[simp] theorem State.withEstTs_sa : (s.withEstTs v).sa = s.sa := rfl
@[simp] theorem State.withEstTs_cal : (s.withEstTs v).cal = s.cal := rfl
@[simp] theorem State.withEstTs_estTs : (s.withEstTs v).estTs = v := rfl
@[simp] theorem State.withEstTs_seq : (s.withEstTs v).seq = s.seq := rfl
@[simp] theorem State.withEstTs_ss : (s.withEstTs v).ss = s.ss := rfl
@[simp] theorem State.withEstTs_rcd : (s.withEstTs v).rcd = s.rcd := rfl
@[simp] theorem State.withEstTs_cmd : (s.withEstTs v).cmd = s.cmd := rfl
@[simp] theorem State.withEstTs_rmw : (s.withEstTs v).rmw = s.rmw := rfl
@[simp] theorem State.withEstTs_held : (s.withEstTs v).held = s.held := rfl
@[simp] theorem State.withEstTs_cfg : (s.withEstTs v).cfg = s.cfg := rfl
@[simp] theorem State.withEstTs_clock : (s.withEstTs v).clock = s.clock := rfl
@[simp] theorem State.withEstTs_env : (s.withEstTs v).env = s.env := rfl
@[simp] theorem State.withEstTs_port : (s.withEstTs v).port = s.port := rfl
@[simp] theorem State.withEstTs_free : (s.withEstTs v).free = s.free := rfl
@[simp] theorem State.withEstTs_getX (i : Fin 32) : (s.withEstTs v).getX i = s.getX i := rfl
end

section
variable (s : State) (v : Option SeqPos)
@[simp] theorem State.withSeq_x : (s.withSeq v).x = s.x := rfl
@[simp] theorem State.withSeq_ctrl : (s.withSeq v).ctrl = s.ctrl := rfl
@[simp] theorem State.withSeq_bt : (s.withSeq v).bt = s.bt := rfl
@[simp] theorem State.withSeq_buf : (s.withSeq v).buf = s.buf := rfl
@[simp] theorem State.withSeq_ag : (s.withSeq v).ag = s.ag := rfl
@[simp] theorem State.withSeq_mg : (s.withSeq v).mg = s.mg := rfl
@[simp] theorem State.withSeq_sa : (s.withSeq v).sa = s.sa := rfl
@[simp] theorem State.withSeq_cal : (s.withSeq v).cal = s.cal := rfl
@[simp] theorem State.withSeq_estTs : (s.withSeq v).estTs = s.estTs := rfl
@[simp] theorem State.withSeq_seq : (s.withSeq v).seq = v := rfl
@[simp] theorem State.withSeq_ss : (s.withSeq v).ss = s.ss := rfl
@[simp] theorem State.withSeq_rcd : (s.withSeq v).rcd = s.rcd := rfl
@[simp] theorem State.withSeq_cmd : (s.withSeq v).cmd = s.cmd := rfl
@[simp] theorem State.withSeq_rmw : (s.withSeq v).rmw = s.rmw := rfl
@[simp] theorem State.withSeq_held : (s.withSeq v).held = s.held := rfl
@[simp] theorem State.withSeq_cfg : (s.withSeq v).cfg = s.cfg := rfl
@[simp] theorem State.withSeq_clock : (s.withSeq v).clock = s.clock := rfl
@[simp] theorem State.withSeq_env : (s.withSeq v).env = s.env := rfl
@[simp] theorem State.withSeq_port : (s.withSeq v).port = s.port := rfl
@[simp] theorem State.withSeq_free : (s.withSeq v).free = s.free := rfl
@[simp] theorem State.withSeq_getX (i : Fin 32) : (s.withSeq v).getX i = s.getX i := rfl
end

section
variable (s : State) (v : Sched)
@[simp] theorem State.withSs_x : (s.withSs v).x = s.x := rfl
@[simp] theorem State.withSs_ctrl : (s.withSs v).ctrl = s.ctrl := rfl
@[simp] theorem State.withSs_bt : (s.withSs v).bt = s.bt := rfl
@[simp] theorem State.withSs_buf : (s.withSs v).buf = s.buf := rfl
@[simp] theorem State.withSs_ag : (s.withSs v).ag = s.ag := rfl
@[simp] theorem State.withSs_mg : (s.withSs v).mg = s.mg := rfl
@[simp] theorem State.withSs_sa : (s.withSs v).sa = s.sa := rfl
@[simp] theorem State.withSs_cal : (s.withSs v).cal = s.cal := rfl
@[simp] theorem State.withSs_estTs : (s.withSs v).estTs = s.estTs := rfl
@[simp] theorem State.withSs_seq : (s.withSs v).seq = s.seq := rfl
@[simp] theorem State.withSs_ss : (s.withSs v).ss = v := rfl
@[simp] theorem State.withSs_rcd : (s.withSs v).rcd = s.rcd := rfl
@[simp] theorem State.withSs_cmd : (s.withSs v).cmd = s.cmd := rfl
@[simp] theorem State.withSs_rmw : (s.withSs v).rmw = s.rmw := rfl
@[simp] theorem State.withSs_held : (s.withSs v).held = s.held := rfl
@[simp] theorem State.withSs_cfg : (s.withSs v).cfg = s.cfg := rfl
@[simp] theorem State.withSs_clock : (s.withSs v).clock = s.clock := rfl
@[simp] theorem State.withSs_env : (s.withSs v).env = s.env := rfl
@[simp] theorem State.withSs_port : (s.withSs v).port = s.port := rfl
@[simp] theorem State.withSs_free : (s.withSs v).free = s.free := rfl
@[simp] theorem State.withSs_getX (i : Fin 32) : (s.withSs v).getX i = s.getX i := rfl
end

section
variable (s : State) (v : Rcd)
@[simp] theorem State.withRcd_x : (s.withRcd v).x = s.x := rfl
@[simp] theorem State.withRcd_ctrl : (s.withRcd v).ctrl = s.ctrl := rfl
@[simp] theorem State.withRcd_bt : (s.withRcd v).bt = s.bt := rfl
@[simp] theorem State.withRcd_buf : (s.withRcd v).buf = s.buf := rfl
@[simp] theorem State.withRcd_ag : (s.withRcd v).ag = s.ag := rfl
@[simp] theorem State.withRcd_mg : (s.withRcd v).mg = s.mg := rfl
@[simp] theorem State.withRcd_sa : (s.withRcd v).sa = s.sa := rfl
@[simp] theorem State.withRcd_cal : (s.withRcd v).cal = s.cal := rfl
@[simp] theorem State.withRcd_estTs : (s.withRcd v).estTs = s.estTs := rfl
@[simp] theorem State.withRcd_seq : (s.withRcd v).seq = s.seq := rfl
@[simp] theorem State.withRcd_ss : (s.withRcd v).ss = s.ss := rfl
@[simp] theorem State.withRcd_rcd : (s.withRcd v).rcd = v := rfl
@[simp] theorem State.withRcd_cmd : (s.withRcd v).cmd = s.cmd := rfl
@[simp] theorem State.withRcd_rmw : (s.withRcd v).rmw = s.rmw := rfl
@[simp] theorem State.withRcd_held : (s.withRcd v).held = s.held := rfl
@[simp] theorem State.withRcd_cfg : (s.withRcd v).cfg = s.cfg := rfl
@[simp] theorem State.withRcd_clock : (s.withRcd v).clock = s.clock := rfl
@[simp] theorem State.withRcd_env : (s.withRcd v).env = s.env := rfl
@[simp] theorem State.withRcd_port : (s.withRcd v).port = s.port := rfl
@[simp] theorem State.withRcd_free : (s.withRcd v).free = s.free := rfl
@[simp] theorem State.withRcd_getX (i : Fin 32) : (s.withRcd v).getX i = s.getX i := rfl
end

section
variable (s : State) (v : CmdStatus)
@[simp] theorem State.withCmd_x : (s.withCmd v).x = s.x := rfl
@[simp] theorem State.withCmd_ctrl : (s.withCmd v).ctrl = s.ctrl := rfl
@[simp] theorem State.withCmd_bt : (s.withCmd v).bt = s.bt := rfl
@[simp] theorem State.withCmd_buf : (s.withCmd v).buf = s.buf := rfl
@[simp] theorem State.withCmd_ag : (s.withCmd v).ag = s.ag := rfl
@[simp] theorem State.withCmd_mg : (s.withCmd v).mg = s.mg := rfl
@[simp] theorem State.withCmd_sa : (s.withCmd v).sa = s.sa := rfl
@[simp] theorem State.withCmd_cal : (s.withCmd v).cal = s.cal := rfl
@[simp] theorem State.withCmd_estTs : (s.withCmd v).estTs = s.estTs := rfl
@[simp] theorem State.withCmd_seq : (s.withCmd v).seq = s.seq := rfl
@[simp] theorem State.withCmd_ss : (s.withCmd v).ss = s.ss := rfl
@[simp] theorem State.withCmd_rcd : (s.withCmd v).rcd = s.rcd := rfl
@[simp] theorem State.withCmd_cmd : (s.withCmd v).cmd = v := rfl
@[simp] theorem State.withCmd_rmw : (s.withCmd v).rmw = s.rmw := rfl
@[simp] theorem State.withCmd_held : (s.withCmd v).held = s.held := rfl
@[simp] theorem State.withCmd_cfg : (s.withCmd v).cfg = s.cfg := rfl
@[simp] theorem State.withCmd_clock : (s.withCmd v).clock = s.clock := rfl
@[simp] theorem State.withCmd_env : (s.withCmd v).env = s.env := rfl
@[simp] theorem State.withCmd_port : (s.withCmd v).port = s.port := rfl
@[simp] theorem State.withCmd_free : (s.withCmd v).free = s.free := rfl
@[simp] theorem State.withCmd_getX (i : Fin 32) : (s.withCmd v).getX i = s.getX i := rfl
end

section
variable (s : State) (v : Byte)
@[simp] theorem State.withRmw_x : (s.withRmw v).x = s.x := rfl
@[simp] theorem State.withRmw_ctrl : (s.withRmw v).ctrl = s.ctrl := rfl
@[simp] theorem State.withRmw_bt : (s.withRmw v).bt = s.bt := rfl
@[simp] theorem State.withRmw_buf : (s.withRmw v).buf = s.buf := rfl
@[simp] theorem State.withRmw_ag : (s.withRmw v).ag = s.ag := rfl
@[simp] theorem State.withRmw_mg : (s.withRmw v).mg = s.mg := rfl
@[simp] theorem State.withRmw_sa : (s.withRmw v).sa = s.sa := rfl
@[simp] theorem State.withRmw_cal : (s.withRmw v).cal = s.cal := rfl
@[simp] theorem State.withRmw_estTs : (s.withRmw v).estTs = s.estTs := rfl
@[simp] theorem State.withRmw_seq : (s.withRmw v).seq = s.seq := rfl
@[simp] theorem State.withRmw_ss : (s.withRmw v).ss = s.ss := rfl
@[simp] theorem State.withRmw_rcd : (s.withRmw v).rcd = s.rcd := rfl
@[simp] theorem State.withRmw_cmd : (s.withRmw v).cmd = s.cmd := rfl
@[simp] theorem State.withRmw_rmw : (s.withRmw v).rmw = v := rfl
@[simp] theorem State.withRmw_held : (s.withRmw v).held = s.held := rfl
@[simp] theorem State.withRmw_cfg : (s.withRmw v).cfg = s.cfg := rfl
@[simp] theorem State.withRmw_clock : (s.withRmw v).clock = s.clock := rfl
@[simp] theorem State.withRmw_env : (s.withRmw v).env = s.env := rfl
@[simp] theorem State.withRmw_port : (s.withRmw v).port = s.port := rfl
@[simp] theorem State.withRmw_free : (s.withRmw v).free = s.free := rfl
@[simp] theorem State.withRmw_getX (i : Fin 32) : (s.withRmw v).getX i = s.getX i := rfl
end

section
variable (s : State) (v : Bool)
@[simp] theorem State.withHeld_x : (s.withHeld v).x = s.x := rfl
@[simp] theorem State.withHeld_ctrl : (s.withHeld v).ctrl = s.ctrl := rfl
@[simp] theorem State.withHeld_bt : (s.withHeld v).bt = s.bt := rfl
@[simp] theorem State.withHeld_buf : (s.withHeld v).buf = s.buf := rfl
@[simp] theorem State.withHeld_ag : (s.withHeld v).ag = s.ag := rfl
@[simp] theorem State.withHeld_mg : (s.withHeld v).mg = s.mg := rfl
@[simp] theorem State.withHeld_sa : (s.withHeld v).sa = s.sa := rfl
@[simp] theorem State.withHeld_cal : (s.withHeld v).cal = s.cal := rfl
@[simp] theorem State.withHeld_estTs : (s.withHeld v).estTs = s.estTs := rfl
@[simp] theorem State.withHeld_seq : (s.withHeld v).seq = s.seq := rfl
@[simp] theorem State.withHeld_ss : (s.withHeld v).ss = s.ss := rfl
@[simp] theorem State.withHeld_rcd : (s.withHeld v).rcd = s.rcd := rfl
@[simp] theorem State.withHeld_cmd : (s.withHeld v).cmd = s.cmd := rfl
@[simp] theorem State.withHeld_rmw : (s.withHeld v).rmw = s.rmw := rfl
@[simp] theorem State.withHeld_held : (s.withHeld v).held = v := rfl
@[simp] theorem State.withHeld_cfg : (s.withHeld v).cfg = s.cfg := rfl
@[simp] theorem State.withHeld_clock : (s.withHeld v).clock = s.clock := rfl
@[simp] theorem State.withHeld_env : (s.withHeld v).env = s.env := rfl
@[simp] theorem State.withHeld_port : (s.withHeld v).port = s.port := rfl
@[simp] theorem State.withHeld_free : (s.withHeld v).free = s.free := rfl
@[simp] theorem State.withHeld_getX (i : Fin 32) : (s.withHeld v).getX i = s.getX i := rfl
end

section
variable (s : State) (v : Stamp)
@[simp] theorem State.withClock_x : (s.withClock v).x = s.x := rfl
@[simp] theorem State.withClock_ctrl : (s.withClock v).ctrl = s.ctrl := rfl
@[simp] theorem State.withClock_bt : (s.withClock v).bt = s.bt := rfl
@[simp] theorem State.withClock_buf : (s.withClock v).buf = s.buf := rfl
@[simp] theorem State.withClock_ag : (s.withClock v).ag = s.ag := rfl
@[simp] theorem State.withClock_mg : (s.withClock v).mg = s.mg := rfl
@[simp] theorem State.withClock_sa : (s.withClock v).sa = s.sa := rfl
@[simp] theorem State.withClock_cal : (s.withClock v).cal = s.cal := rfl
@[simp] theorem State.withClock_estTs : (s.withClock v).estTs = s.estTs := rfl
@[simp] theorem State.withClock_seq : (s.withClock v).seq = s.seq := rfl
@[simp] theorem State.withClock_ss : (s.withClock v).ss = s.ss := rfl
@[simp] theorem State.withClock_rcd : (s.withClock v).rcd = s.rcd := rfl
@[simp] theorem State.withClock_cmd : (s.withClock v).cmd = s.cmd := rfl
@[simp] theorem State.withClock_rmw : (s.withClock v).rmw = s.rmw := rfl
@[simp] theorem State.withClock_held : (s.withClock v).held = s.held := rfl
@[simp] theorem State.withClock_cfg : (s.withClock v).cfg = s.cfg := rfl
@[simp] theorem State.withClock_clock : (s.withClock v).clock = v := rfl
@[simp] theorem State.withClock_env : (s.withClock v).env = s.env := rfl
@[simp] theorem State.withClock_port : (s.withClock v).port = s.port := rfl
@[simp] theorem State.withClock_free : (s.withClock v).free = s.free := rfl
@[simp] theorem State.withClock_getX (i : Fin 32) : (s.withClock v).getX i = s.getX i := rfl
end

section
variable (s : State) (v : List Event)
@[simp] theorem State.withEnv_x : (s.withEnv v).x = s.x := rfl
@[simp] theorem State.withEnv_ctrl : (s.withEnv v).ctrl = s.ctrl := rfl
@[simp] theorem State.withEnv_bt : (s.withEnv v).bt = s.bt := rfl
@[simp] theorem State.withEnv_buf : (s.withEnv v).buf = s.buf := rfl
@[simp] theorem State.withEnv_ag : (s.withEnv v).ag = s.ag := rfl
@[simp] theorem State.withEnv_mg : (s.withEnv v).mg = s.mg := rfl
@[simp] theorem State.withEnv_sa : (s.withEnv v).sa = s.sa := rfl
@[simp] theorem State.withEnv_cal : (s.withEnv v).cal = s.cal := rfl
@[simp] theorem State.withEnv_estTs : (s.withEnv v).estTs = s.estTs := rfl
@[simp] theorem State.withEnv_seq : (s.withEnv v).seq = s.seq := rfl
@[simp] theorem State.withEnv_ss : (s.withEnv v).ss = s.ss := rfl
@[simp] theorem State.withEnv_rcd : (s.withEnv v).rcd = s.rcd := rfl
@[simp] theorem State.withEnv_cmd : (s.withEnv v).cmd = s.cmd := rfl
@[simp] theorem State.withEnv_rmw : (s.withEnv v).rmw = s.rmw := rfl
@[simp] theorem State.withEnv_held : (s.withEnv v).held = s.held := rfl
@[simp] theorem State.withEnv_cfg : (s.withEnv v).cfg = s.cfg := rfl
@[simp] theorem State.withEnv_clock : (s.withEnv v).clock = s.clock := rfl
@[simp] theorem State.withEnv_env : (s.withEnv v).env = v := rfl
@[simp] theorem State.withEnv_port : (s.withEnv v).port = s.port := rfl
@[simp] theorem State.withEnv_free : (s.withEnv v).free = s.free := rfl
@[simp] theorem State.withEnv_getX (i : Fin 32) : (s.withEnv v).getX i = s.getX i := rfl
end

section
variable (s : State) (v : List PortEvent)
@[simp] theorem State.withPort_x : (s.withPort v).x = s.x := rfl
@[simp] theorem State.withPort_ctrl : (s.withPort v).ctrl = s.ctrl := rfl
@[simp] theorem State.withPort_bt : (s.withPort v).bt = s.bt := rfl
@[simp] theorem State.withPort_buf : (s.withPort v).buf = s.buf := rfl
@[simp] theorem State.withPort_ag : (s.withPort v).ag = s.ag := rfl
@[simp] theorem State.withPort_mg : (s.withPort v).mg = s.mg := rfl
@[simp] theorem State.withPort_sa : (s.withPort v).sa = s.sa := rfl
@[simp] theorem State.withPort_cal : (s.withPort v).cal = s.cal := rfl
@[simp] theorem State.withPort_estTs : (s.withPort v).estTs = s.estTs := rfl
@[simp] theorem State.withPort_seq : (s.withPort v).seq = s.seq := rfl
@[simp] theorem State.withPort_ss : (s.withPort v).ss = s.ss := rfl
@[simp] theorem State.withPort_rcd : (s.withPort v).rcd = s.rcd := rfl
@[simp] theorem State.withPort_cmd : (s.withPort v).cmd = s.cmd := rfl
@[simp] theorem State.withPort_rmw : (s.withPort v).rmw = s.rmw := rfl
@[simp] theorem State.withPort_held : (s.withPort v).held = s.held := rfl
@[simp] theorem State.withPort_cfg : (s.withPort v).cfg = s.cfg := rfl
@[simp] theorem State.withPort_clock : (s.withPort v).clock = s.clock := rfl
@[simp] theorem State.withPort_env : (s.withPort v).env = s.env := rfl
@[simp] theorem State.withPort_port : (s.withPort v).port = v := rfl
@[simp] theorem State.withPort_free : (s.withPort v).free = s.free := rfl
@[simp] theorem State.withPort_getX (i : Fin 32) : (s.withPort v).getX i = s.getX i := rfl
end

section
variable (s : State) (v : Nat)
@[simp] theorem State.withFree_x : (s.withFree v).x = s.x := rfl
@[simp] theorem State.withFree_ctrl : (s.withFree v).ctrl = s.ctrl := rfl
@[simp] theorem State.withFree_bt : (s.withFree v).bt = s.bt := rfl
@[simp] theorem State.withFree_buf : (s.withFree v).buf = s.buf := rfl
@[simp] theorem State.withFree_ag : (s.withFree v).ag = s.ag := rfl
@[simp] theorem State.withFree_mg : (s.withFree v).mg = s.mg := rfl
@[simp] theorem State.withFree_sa : (s.withFree v).sa = s.sa := rfl
@[simp] theorem State.withFree_cal : (s.withFree v).cal = s.cal := rfl
@[simp] theorem State.withFree_estTs : (s.withFree v).estTs = s.estTs := rfl
@[simp] theorem State.withFree_seq : (s.withFree v).seq = s.seq := rfl
@[simp] theorem State.withFree_ss : (s.withFree v).ss = s.ss := rfl
@[simp] theorem State.withFree_rcd : (s.withFree v).rcd = s.rcd := rfl
@[simp] theorem State.withFree_cmd : (s.withFree v).cmd = s.cmd := rfl
@[simp] theorem State.withFree_rmw : (s.withFree v).rmw = s.rmw := rfl
@[simp] theorem State.withFree_held : (s.withFree v).held = s.held := rfl
@[simp] theorem State.withFree_cfg : (s.withFree v).cfg = s.cfg := rfl
@[simp] theorem State.withFree_clock : (s.withFree v).clock = s.clock := rfl
@[simp] theorem State.withFree_env : (s.withFree v).env = s.env := rfl
@[simp] theorem State.withFree_port : (s.withFree v).port = s.port := rfl
@[simp] theorem State.withFree_free : (s.withFree v).free = v := rfl
@[simp] theorem State.withFree_getX (i : Fin 32) : (s.withFree v).getX i = s.getX i := rfl
end

section
variable (s : State) (i : Fin 32) (v : Word)
@[simp] theorem State.setX_ctrl : (s.setX i v).ctrl = s.ctrl := rfl
@[simp] theorem State.setX_bt : (s.setX i v).bt = s.bt := rfl
@[simp] theorem State.setX_buf : (s.setX i v).buf = s.buf := rfl
@[simp] theorem State.setX_ag : (s.setX i v).ag = s.ag := rfl
@[simp] theorem State.setX_mg : (s.setX i v).mg = s.mg := rfl
@[simp] theorem State.setX_sa : (s.setX i v).sa = s.sa := rfl
@[simp] theorem State.setX_cal : (s.setX i v).cal = s.cal := rfl
@[simp] theorem State.setX_estTs : (s.setX i v).estTs = s.estTs := rfl
@[simp] theorem State.setX_seq : (s.setX i v).seq = s.seq := rfl
@[simp] theorem State.setX_ss : (s.setX i v).ss = s.ss := rfl
@[simp] theorem State.setX_rcd : (s.setX i v).rcd = s.rcd := rfl
@[simp] theorem State.setX_cmd : (s.setX i v).cmd = s.cmd := rfl
@[simp] theorem State.setX_rmw : (s.setX i v).rmw = s.rmw := rfl
@[simp] theorem State.setX_held : (s.setX i v).held = s.held := rfl
@[simp] theorem State.setX_cfg : (s.setX i v).cfg = s.cfg := rfl
@[simp] theorem State.setX_clock : (s.setX i v).clock = s.clock := rfl
@[simp] theorem State.setX_env : (s.setX i v).env = s.env := rfl
@[simp] theorem State.setX_port : (s.setX i v).port = s.port := rfl
@[simp] theorem State.setX_free : (s.setX i v).free = s.free := rfl
end

/-- Reading a register after writing one (spec/10_state.md R21: no aliases, none hardwired). -/
@[simp] theorem State.setX_getX (s : State) (i j : Fin 32) (v : Word) :
    (s.setX i v).getX j = if i = j then v else s.getX j := by
  simp only [State.getX, State.setX, Vector.get_eq_getElem, Vector.getElem_set, Fin.ext_iff]

section
variable (s : State) (i j k : Fin 32) (a b c : Word)
@[simp] theorem State.setX3_ctrl : (s.setX3 i j k a b c).ctrl = s.ctrl := rfl
@[simp] theorem State.setX3_bt : (s.setX3 i j k a b c).bt = s.bt := rfl
@[simp] theorem State.setX3_buf : (s.setX3 i j k a b c).buf = s.buf := rfl
@[simp] theorem State.setX3_ag : (s.setX3 i j k a b c).ag = s.ag := rfl
@[simp] theorem State.setX3_mg : (s.setX3 i j k a b c).mg = s.mg := rfl
@[simp] theorem State.setX3_sa : (s.setX3 i j k a b c).sa = s.sa := rfl
@[simp] theorem State.setX3_cal : (s.setX3 i j k a b c).cal = s.cal := rfl
@[simp] theorem State.setX3_estTs : (s.setX3 i j k a b c).estTs = s.estTs := rfl
@[simp] theorem State.setX3_seq : (s.setX3 i j k a b c).seq = s.seq := rfl
@[simp] theorem State.setX3_ss : (s.setX3 i j k a b c).ss = s.ss := rfl
@[simp] theorem State.setX3_rcd : (s.setX3 i j k a b c).rcd = s.rcd := rfl
@[simp] theorem State.setX3_cmd : (s.setX3 i j k a b c).cmd = s.cmd := rfl
@[simp] theorem State.setX3_rmw : (s.setX3 i j k a b c).rmw = s.rmw := rfl
@[simp] theorem State.setX3_held : (s.setX3 i j k a b c).held = s.held := rfl
@[simp] theorem State.setX3_cfg : (s.setX3 i j k a b c).cfg = s.cfg := rfl
@[simp] theorem State.setX3_clock : (s.setX3 i j k a b c).clock = s.clock := rfl
@[simp] theorem State.setX3_env : (s.setX3 i j k a b c).env = s.env := rfl
@[simp] theorem State.setX3_port : (s.setX3 i j k a b c).port = s.port := rfl
@[simp] theorem State.setX3_free : (s.setX3 i j k a b c).free = s.free := rfl
theorem State.setX3_getX (n : Fin 32) : (s.setX3 i j k a b c).getX n =
    if k = n then c else if j = n then b else if i = n then a else s.getX n := by
  simp [State.setX3]
end

/-! Writing registers, and what else is written: in either order. -/

section
variable (s : State) (i j k : Fin 32) (v a b c : Word) (es : List Event) (q : Option SeqPos) (d : CmdStatus)
theorem State.withEnv_setX : (s.withEnv es).setX i v = (s.setX i v).withEnv es := rfl
theorem State.withSeq_setX : (s.withSeq q).setX i v = (s.setX i v).withSeq q := rfl
theorem State.withCmd_setX : (s.withCmd d).setX i v = (s.setX i v).withCmd d := rfl
theorem State.withEnv_setX3 : (s.withEnv es).setX3 i j k a b c = (s.setX3 i j k a b c).withEnv es := by
  simp only [State.setX3, State.withEnv_setX]
theorem State.withSeq_setX3 : (s.withSeq q).setX3 i j k a b c = (s.setX3 i j k a b c).withSeq q := by
  simp only [State.setX3, State.withSeq_setX]
theorem State.withCmd_setX3 : (s.withCmd d).setX3 i j k a b c = (s.setX3 i j k a b c).withCmd d := by
  simp only [State.setX3, State.withCmd_setX]
end

section
variable (s : State) (v : Word)
@[simp] theorem setResult_ctrl : (setResult s v).ctrl = s.ctrl := rfl
@[simp] theorem setResult_bt : (setResult s v).bt = s.bt := rfl
@[simp] theorem setResult_buf : (setResult s v).buf = s.buf := rfl
@[simp] theorem setResult_ag : (setResult s v).ag = s.ag := rfl
@[simp] theorem setResult_mg : (setResult s v).mg = s.mg := rfl
@[simp] theorem setResult_sa : (setResult s v).sa = s.sa := rfl
@[simp] theorem setResult_cal : (setResult s v).cal = s.cal := rfl
@[simp] theorem setResult_estTs : (setResult s v).estTs = s.estTs := rfl
@[simp] theorem setResult_seq : (setResult s v).seq = s.seq := rfl
@[simp] theorem setResult_ss : (setResult s v).ss = s.ss := rfl
@[simp] theorem setResult_rcd : (setResult s v).rcd = s.rcd := rfl
@[simp] theorem setResult_cmd : (setResult s v).cmd = s.cmd := rfl
@[simp] theorem setResult_rmw : (setResult s v).rmw = s.rmw := rfl
@[simp] theorem setResult_held : (setResult s v).held = s.held := rfl
@[simp] theorem setResult_cfg : (setResult s v).cfg = s.cfg := rfl
@[simp] theorem setResult_clock : (setResult s v).clock = s.clock := rfl
@[simp] theorem setResult_env : (setResult s v).env = s.env := rfl
@[simp] theorem setResult_port : (setResult s v).port = s.port := rfl
@[simp] theorem setResult_free : (setResult s v).free = s.free := rfl
@[simp] theorem setResult_getX (n : Fin 32) :
    (setResult s v).getX n = if 31 = n then v else s.getX n := by
  simp [setResult]
end

section
variable (s : State) (e : PortEvent)
@[simp] theorem sendOut_x : (sendOut s e).x = s.x := rfl
@[simp] theorem sendOut_ctrl : (sendOut s e).ctrl = s.ctrl := rfl
@[simp] theorem sendOut_bt : (sendOut s e).bt = s.bt := rfl
@[simp] theorem sendOut_buf : (sendOut s e).buf = s.buf := rfl
@[simp] theorem sendOut_ag : (sendOut s e).ag = s.ag := rfl
@[simp] theorem sendOut_mg : (sendOut s e).mg = s.mg := rfl
@[simp] theorem sendOut_sa : (sendOut s e).sa = s.sa := rfl
@[simp] theorem sendOut_cal : (sendOut s e).cal = s.cal := rfl
@[simp] theorem sendOut_estTs : (sendOut s e).estTs = s.estTs := rfl
@[simp] theorem sendOut_seq : (sendOut s e).seq = s.seq := rfl
@[simp] theorem sendOut_ss : (sendOut s e).ss = s.ss := rfl
@[simp] theorem sendOut_rcd : (sendOut s e).rcd = s.rcd := rfl
@[simp] theorem sendOut_cmd : (sendOut s e).cmd = s.cmd := rfl
@[simp] theorem sendOut_rmw : (sendOut s e).rmw = s.rmw := rfl
@[simp] theorem sendOut_held : (sendOut s e).held = s.held := rfl
@[simp] theorem sendOut_cfg : (sendOut s e).cfg = s.cfg := rfl
@[simp] theorem sendOut_clock : (sendOut s e).clock = s.clock := rfl
@[simp] theorem sendOut_env : (sendOut s e).env = s.env := rfl
@[simp] theorem sendOut_port : (sendOut s e).port = e :: s.port := rfl
@[simp] theorem sendOut_free : (sendOut s e).free = s.free := rfl
@[simp] theorem sendOut_getX (n : Fin 32) : (sendOut s e).getX n = s.getX n := rfl
end

section
variable (s : State) (b : Bool)
@[simp] theorem orSat_x : (orSat s b).x = s.x := rfl
@[simp] theorem orSat_ctrl : (orSat s b).ctrl = s.ctrl := rfl
@[simp] theorem orSat_bt : (orSat s b).bt = s.bt := rfl
@[simp] theorem orSat_buf : (orSat s b).buf = s.buf := rfl
@[simp] theorem orSat_ag : (orSat s b).ag = s.ag := rfl
@[simp] theorem orSat_mg : (orSat s b).mg = s.mg := rfl
@[simp] theorem orSat_sa : (orSat s b).sa = s.sa := rfl
@[simp] theorem orSat_cal : (orSat s b).cal = s.cal := rfl
@[simp] theorem orSat_estTs : (orSat s b).estTs = s.estTs := rfl
@[simp] theorem orSat_seq : (orSat s b).seq = s.seq := rfl
@[simp] theorem orSat_ss : (orSat s b).ss = s.ss := rfl
@[simp] theorem orSat_rcd : (orSat s b).rcd = s.rcd := rfl
@[simp] theorem orSat_cmd : (orSat s b).cmd = { s.cmd with fxSat := s.cmd.fxSat || b } := rfl
@[simp] theorem orSat_rmw : (orSat s b).rmw = s.rmw := rfl
@[simp] theorem orSat_held : (orSat s b).held = s.held := rfl
@[simp] theorem orSat_cfg : (orSat s b).cfg = s.cfg := rfl
@[simp] theorem orSat_clock : (orSat s b).clock = s.clock := rfl
@[simp] theorem orSat_env : (orSat s b).env = s.env := rfl
@[simp] theorem orSat_port : (orSat s b).port = s.port := rfl
@[simp] theorem orSat_free : (orSat s b).free = s.free := rfl
@[simp] theorem orSat_getX (n : Fin 32) : (orSat s b).getX n = s.getX n := rfl
end

section
variable (s : State) 
@[simp] theorem nextPhase_x : (nextPhase s).x = s.x := rfl
@[simp] theorem nextPhase_ctrl : (nextPhase s).ctrl = s.ctrl := rfl
@[simp] theorem nextPhase_bt : (nextPhase s).bt = s.bt := rfl
@[simp] theorem nextPhase_buf : (nextPhase s).buf = s.buf := rfl
@[simp] theorem nextPhase_ag : (nextPhase s).ag = s.ag := rfl
@[simp] theorem nextPhase_mg : (nextPhase s).mg = s.mg := rfl
@[simp] theorem nextPhase_sa : (nextPhase s).sa = s.sa := rfl
@[simp] theorem nextPhase_cal : (nextPhase s).cal = s.cal := rfl
@[simp] theorem nextPhase_estTs : (nextPhase s).estTs = s.estTs := rfl
@[simp] theorem nextPhase_ss : (nextPhase s).ss = s.ss := rfl
@[simp] theorem nextPhase_rcd : (nextPhase s).rcd = s.rcd := rfl
@[simp] theorem nextPhase_cmd : (nextPhase s).cmd = s.cmd := rfl
@[simp] theorem nextPhase_rmw : (nextPhase s).rmw = s.rmw := rfl
@[simp] theorem nextPhase_held : (nextPhase s).held = s.held := rfl
@[simp] theorem nextPhase_cfg : (nextPhase s).cfg = s.cfg := rfl
@[simp] theorem nextPhase_clock : (nextPhase s).clock = s.clock := rfl
@[simp] theorem nextPhase_env : (nextPhase s).env = s.env := rfl
@[simp] theorem nextPhase_port : (nextPhase s).port = s.port := rfl
@[simp] theorem nextPhase_free : (nextPhase s).free = s.free := rfl
@[simp] theorem nextPhase_getX (n : Fin 32) : (nextPhase s).getX n = s.getX n := rfl
end

section
variable (s : State) (bs : List Byte)
@[simp] theorem rxStore_x : (rxStore s bs).x = s.x := rfl
@[simp] theorem rxStore_ctrl : (rxStore s bs).ctrl = s.ctrl := rfl
@[simp] theorem rxStore_bt : (rxStore s bs).bt = s.bt := rfl
@[simp] theorem rxStore_buf : (rxStore s bs).buf = { s.buf with rx := Memory.writeFrom s.buf.rx 0 bs, rxLen := bs.length, rxRptr := 0 } := rfl
@[simp] theorem rxStore_ag : (rxStore s bs).ag = s.ag := rfl
@[simp] theorem rxStore_mg : (rxStore s bs).mg = s.mg := rfl
@[simp] theorem rxStore_sa : (rxStore s bs).sa = s.sa := rfl
@[simp] theorem rxStore_cal : (rxStore s bs).cal = s.cal := rfl
@[simp] theorem rxStore_estTs : (rxStore s bs).estTs = s.estTs := rfl
@[simp] theorem rxStore_seq : (rxStore s bs).seq = s.seq := rfl
@[simp] theorem rxStore_ss : (rxStore s bs).ss = s.ss := rfl
@[simp] theorem rxStore_rcd : (rxStore s bs).rcd = s.rcd := rfl
@[simp] theorem rxStore_cmd : (rxStore s bs).cmd = s.cmd := rfl
@[simp] theorem rxStore_rmw : (rxStore s bs).rmw = s.rmw := rfl
@[simp] theorem rxStore_held : (rxStore s bs).held = s.held := rfl
@[simp] theorem rxStore_cfg : (rxStore s bs).cfg = s.cfg := rfl
@[simp] theorem rxStore_clock : (rxStore s bs).clock = s.clock := rfl
@[simp] theorem rxStore_env : (rxStore s bs).env = s.env := rfl
@[simp] theorem rxStore_port : (rxStore s bs).port = s.port := rfl
@[simp] theorem rxStore_free : (rxStore s bs).free = s.free := rfl
@[simp] theorem rxStore_getX (n : Fin 32) : (rxStore s bs).getX n = s.getX n := rfl
end

section
variable (s : State) 
@[simp] theorem rxFailed_x : (rxFailed s).x = s.x := by simp [rxFailed]
@[simp] theorem rxFailed_ctrl : (rxFailed s).ctrl = s.ctrl := by simp [rxFailed]
@[simp] theorem rxFailed_bt : (rxFailed s).bt = s.bt := by simp [rxFailed]
@[simp] theorem rxFailed_buf : (rxFailed s).buf = { s.buf with rx := freeBuffer s.free, rxLen := 0 } := by simp [rxFailed]
@[simp] theorem rxFailed_ag : (rxFailed s).ag = s.ag := by simp [rxFailed]
@[simp] theorem rxFailed_mg : (rxFailed s).mg = s.mg := by simp [rxFailed]
@[simp] theorem rxFailed_sa : (rxFailed s).sa = s.sa := by simp [rxFailed]
@[simp] theorem rxFailed_cal : (rxFailed s).cal = s.cal := by simp [rxFailed]
@[simp] theorem rxFailed_estTs : (rxFailed s).estTs = s.estTs := by simp [rxFailed]
@[simp] theorem rxFailed_seq : (rxFailed s).seq = s.seq := by simp [rxFailed]
@[simp] theorem rxFailed_ss : (rxFailed s).ss = s.ss := by simp [rxFailed]
@[simp] theorem rxFailed_rcd : (rxFailed s).rcd = s.rcd := by simp [rxFailed]
@[simp] theorem rxFailed_cmd : (rxFailed s).cmd = s.cmd := by simp [rxFailed]
@[simp] theorem rxFailed_rmw : (rxFailed s).rmw = s.rmw := by simp [rxFailed]
@[simp] theorem rxFailed_held : (rxFailed s).held = s.held := by simp [rxFailed]
@[simp] theorem rxFailed_cfg : (rxFailed s).cfg = s.cfg := by simp [rxFailed]
@[simp] theorem rxFailed_clock : (rxFailed s).clock = s.clock := by simp [rxFailed]
@[simp] theorem rxFailed_env : (rxFailed s).env = s.env := by simp [rxFailed]
@[simp] theorem rxFailed_port : (rxFailed s).port = s.port := by simp [rxFailed]
@[simp] theorem rxFailed_free : (rxFailed s).free = s.free + 1 := by simp [rxFailed]
@[simp] theorem rxFailed_getX (n : Fin 32) : (rxFailed s).getX n = s.getX n := by simp [rxFailed]
end

section
variable (s : State) (i j k : Fin 32) (a b c : Fx)
@[simp] theorem putFx3_ctrl : (putFx3 s i j k a b c).ctrl = s.ctrl := rfl
@[simp] theorem putFx3_bt : (putFx3 s i j k a b c).bt = s.bt := rfl
@[simp] theorem putFx3_buf : (putFx3 s i j k a b c).buf = s.buf := rfl
@[simp] theorem putFx3_ag : (putFx3 s i j k a b c).ag = s.ag := rfl
@[simp] theorem putFx3_mg : (putFx3 s i j k a b c).mg = s.mg := rfl
@[simp] theorem putFx3_sa : (putFx3 s i j k a b c).sa = s.sa := rfl
@[simp] theorem putFx3_cal : (putFx3 s i j k a b c).cal = s.cal := rfl
@[simp] theorem putFx3_estTs : (putFx3 s i j k a b c).estTs = s.estTs := rfl
@[simp] theorem putFx3_seq : (putFx3 s i j k a b c).seq = s.seq := rfl
@[simp] theorem putFx3_ss : (putFx3 s i j k a b c).ss = s.ss := rfl
@[simp] theorem putFx3_rcd : (putFx3 s i j k a b c).rcd = s.rcd := rfl
@[simp] theorem putFx3_cmd : (putFx3 s i j k a b c).cmd = { s.cmd with fxSat := s.cmd.fxSat || (a.sat || b.sat || c.sat) } := rfl
@[simp] theorem putFx3_rmw : (putFx3 s i j k a b c).rmw = s.rmw := rfl
@[simp] theorem putFx3_held : (putFx3 s i j k a b c).held = s.held := rfl
@[simp] theorem putFx3_cfg : (putFx3 s i j k a b c).cfg = s.cfg := rfl
@[simp] theorem putFx3_clock : (putFx3 s i j k a b c).clock = s.clock := rfl
@[simp] theorem putFx3_env : (putFx3 s i j k a b c).env = s.env := rfl
@[simp] theorem putFx3_port : (putFx3 s i j k a b c).port = s.port := rfl
@[simp] theorem putFx3_free : (putFx3 s i j k a b c).free = s.free := rfl
theorem putFx3_getX (n : Fin 32) : (putFx3 s i j k a b c).getX n =
    if k = n then c.val else if j = n then b.val else if i = n then a.val else s.getX n := by
  simp [putFx3, State.setX3]
end

section
variable (s : State) (op : BitVec 6)
@[simp] theorem startCommand_x : (startCommand op s).x = s.x := rfl
@[simp] theorem startCommand_ctrl : (startCommand op s).ctrl = s.ctrl := rfl
@[simp] theorem startCommand_bt : (startCommand op s).bt = s.bt := rfl
@[simp] theorem startCommand_buf : (startCommand op s).buf = s.buf := rfl
@[simp] theorem startCommand_ag : (startCommand op s).ag = s.ag := rfl
@[simp] theorem startCommand_mg : (startCommand op s).mg = s.mg := rfl
@[simp] theorem startCommand_sa : (startCommand op s).sa = s.sa := rfl
@[simp] theorem startCommand_cal : (startCommand op s).cal = s.cal := rfl
@[simp] theorem startCommand_estTs : (startCommand op s).estTs = s.estTs := rfl
@[simp] theorem startCommand_seq : (startCommand op s).seq = some ⟨op, 0⟩ := rfl
@[simp] theorem startCommand_ss : (startCommand op s).ss = s.ss := rfl
@[simp] theorem startCommand_rcd : (startCommand op s).rcd = s.rcd := rfl
@[simp] theorem startCommand_cmd : (startCommand op s).cmd = { s.cmd with busy := true, done := false, fail := false, err := 0 } := rfl
@[simp] theorem startCommand_rmw : (startCommand op s).rmw = s.rmw := rfl
@[simp] theorem startCommand_held : (startCommand op s).held = s.held := rfl
@[simp] theorem startCommand_cfg : (startCommand op s).cfg = s.cfg := rfl
@[simp] theorem startCommand_clock : (startCommand op s).clock = s.clock := rfl
@[simp] theorem startCommand_env : (startCommand op s).env = s.env := rfl
@[simp] theorem startCommand_port : (startCommand op s).port = s.port := rfl
@[simp] theorem startCommand_free : (startCommand op s).free = s.free := rfl
@[simp] theorem startCommand_getX (n : Fin 32) : (startCommand op s).getX n = s.getX n := rfl
end

section
variable (s : State) 
@[simp] theorem completeCommand_x : (completeCommand s).x = s.x := rfl
@[simp] theorem completeCommand_ctrl : (completeCommand s).ctrl = s.ctrl := rfl
@[simp] theorem completeCommand_bt : (completeCommand s).bt = s.bt := rfl
@[simp] theorem completeCommand_buf : (completeCommand s).buf = s.buf := rfl
@[simp] theorem completeCommand_ag : (completeCommand s).ag = s.ag := rfl
@[simp] theorem completeCommand_mg : (completeCommand s).mg = s.mg := rfl
@[simp] theorem completeCommand_sa : (completeCommand s).sa = s.sa := rfl
@[simp] theorem completeCommand_cal : (completeCommand s).cal = s.cal := rfl
@[simp] theorem completeCommand_estTs : (completeCommand s).estTs = s.estTs := rfl
@[simp] theorem completeCommand_seq : (completeCommand s).seq = none := rfl
@[simp] theorem completeCommand_ss : (completeCommand s).ss = s.ss := rfl
@[simp] theorem completeCommand_rcd : (completeCommand s).rcd = s.rcd := rfl
@[simp] theorem completeCommand_cmd : (completeCommand s).cmd = { s.cmd with busy := false, done := true } := rfl
@[simp] theorem completeCommand_rmw : (completeCommand s).rmw = s.rmw := rfl
@[simp] theorem completeCommand_held : (completeCommand s).held = s.held := rfl
@[simp] theorem completeCommand_cfg : (completeCommand s).cfg = s.cfg := rfl
@[simp] theorem completeCommand_clock : (completeCommand s).clock = s.clock := rfl
@[simp] theorem completeCommand_env : (completeCommand s).env = s.env := rfl
@[simp] theorem completeCommand_port : (completeCommand s).port = s.port := rfl
@[simp] theorem completeCommand_free : (completeCommand s).free = s.free := rfl
@[simp] theorem completeCommand_getX (n : Fin 32) : (completeCommand s).getX n = s.getX n := rfl
end

section
variable (s : State) 
@[simp] theorem afterReset_cfg : (afterReset s).cfg = s.cfg := rfl
@[simp] theorem afterReset_clock : (afterReset s).clock = s.clock := rfl
@[simp] theorem afterReset_env : (afterReset s).env = s.env := rfl
@[simp] theorem afterReset_port : (afterReset s).port = s.port := rfl
@[simp] theorem afterReset_free : (afterReset s).free = s.free := rfl
@[simp] theorem afterReset_held : (afterReset s).held = false := rfl
@[simp] theorem inReset_cfg : (inReset s).cfg = s.cfg := rfl
@[simp] theorem inReset_clock : (inReset s).clock = s.clock := rfl
@[simp] theorem inReset_env : (inReset s).env = s.env := rfl
@[simp] theorem inReset_port : (inReset s).port = s.port := rfl
@[simp] theorem inReset_free : (inReset s).free = s.free := rfl
@[simp] theorem inReset_held : (inReset s).held = true := rfl
@[simp] theorem afterReset_inReset : afterReset (inReset s) = afterReset s := rfl
@[simp] theorem inReset_withEnv (es : List Event) : inReset (s.withEnv es) = (inReset s).withEnv es := rfl
end

/-- Every bit-field that a driver writes with a field of the register map is valid (spec/30_encoding.md R92):
the 2 bits of a range selector, the mode field, the resolution bit. -/
theorem driver_fields_valid (p : Params) (n : Nat × Nat)
    (h : n ∈ [(p.agAfs.first, 2), (p.agGfs.first, 2), (p.mgMode.first, p.mgMode.len), (p.mgBit.first, 1)]) :
    n.1 ≤ 7 ∧ 1 ≤ n.2 ∧ n.2 ≤ n.1 + 1 := by
  have h1 := p.agAfs.valid
  have h2 := p.agGfs.valid
  have h3 := p.mgMode.valid
  have h4 := p.mgBit.valid
  have h5 := p.rangeBits
  simp only [List.mem_cons, List.not_mem_nil, or_false] at h
  rcases h with rfl | rfl | rfl | rfl <;> simp only <;> omega

end Sys2Proof.Machine
end

