-- ==== Sys2Proof/Laws/Answered.lean ====
section
/-! SUPPORT. What the shared operations do when the environment list holds their answers and nothing
else intervenes: each gives its result and the state that Sys2Proof/Safety.lean names, but for the phase
number of the sequencer. -/

namespace Sys2Proof.Machine

open Sys2Proof

/-! ## Routines in sequence -/

section
variable {α β : Type} (a : α) (s : State) (e : Err) (f : α → State → Res β)
@[simp] theorem Res.ret_andThen : (Res.ret a s).andThen f = f a s := rfl
@[simp] theorem Res.raise_andThen : (Res.raise e s : Res α).andThen f = .raise e s := rfl
end

/-! ## Environment lists -/

@[simp] theorem turnAhead_nil : turnAhead [] = false := rfl
@[simp] theorem turnAhead_answer (a : Answer) (es : List Event) : turnAhead (.answer a :: es) = false := rfl
@[simp] theorem turnAhead_turn (es : List Event) : turnAhead (.turn :: es) = true := rfl
@[simp] theorem turnAhead_outside (o : Outside) (es : List Event) :
    turnAhead (.outside o :: es) = turnAhead es := rfl

@[simp] theorem turnAhead_readAns (bs : List Byte) (es : List Event) :
    turnAhead (readAns bs ++ es) = false := rfl
@[simp] theorem turnAhead_writeAns (n : Nat) (es : List Event) : turnAhead (writeAns n ++ es) = false := rfl
@[simp] theorem turnAhead_bitsAns (b : Byte) (es : List Event) : turnAhead (bitsAns b ++ es) = false := rfl

theorem turnAhead_selectAns (s : State) (a : BitVec 7) {es : List Event} (h : turnAhead es = false) :
    turnAhead (selectAns s a ++ es) = false := by
  simp only [selectAns]; split <;> simp [h]

/-- An internal step before which nothing outside happens. -/
theorem corePoint_quiet {s : State} (h : turnAhead s.env = false) : corePoint s = .ret () (nextPhase s) := by
  have key : ∀ es, turnAhead es = false → ∀ t : State, letOutside 0 es t = .ret () (t.withEnv es) := by
    intro es he t
    cases es with
    | nil => rfl
    | cons e es =>
      cases e with
      | outside o =>
        simp only [turnAhead_outside] at he
        simp [letOutside, he]
      | turn => cases he
      | answer a => rfl
  rw [corePoint, key _ h]
  rfl

theorem readTime_quiet {s : State} (h : turnAhead s.env = false) :
    readTime s = .ret s.clock (nextPhase s) := by
  rw [readTime, corePoint_quiet h]; rfl

/-! ## `rst` at a step of the core (spec/70_reset_and_hazards.md R360) -/

/-- `rst` before an internal step. -/
theorem corePoint_rst {s : State} {es : List Event} (he : s.env = .outside .rst :: es)
    (ht : turnAhead es = true) : corePoint s = .stop (.next (inReset ((nextPhase s).withEnv es))) := by
  rw [corePoint, he, letOutside]
  simp only [ht, Bool.true_or, if_true, outsideMove, Res.andThen]

/-- `rst` while a wait is below its deadline. -/
theorem waitTo_rst {s : State} {t : Nat} {es : List Event} (he : s.env = .outside .rst :: es)
    (ht : s.clock.toNat < t) : waitTo t s = .stop (.next (inReset ((nextPhase s).withEnv es))) := by
  rw [waitTo, he, letOutside, if_pos (by rw [Bool.or_eq_true, decide_eq_true_eq]; exact .inr ht)]
  simp only [outsideMove, Res.andThen]

/-- `rst` while a bus primitive waits for its answer. -/
theorem busPrimitive_rst {β : Type} {sent : PortEvent} {accept : Answer → Option β} {s : State}
    {es : List Event} (he : s.env = .outside .rst :: es) (ht : turnAhead es = false) :
    busPrimitive sent accept s =
      .stop (.next (inReset ((nextPhase (sendOut (nextPhase s) sent)).withEnv es))) := by
  rw [busPrimitive, corePoint_quiet (by rw [he]; exact ht), Res.ret_andThen,
    show (nextPhase s).env = .outside .rst :: es from he, awaitAnswer]
  rfl

/-! ## Answers and the ends of waits -/

/-- A bus primitive whose answer comes next. -/
theorem busPrimitive_answer {β : Type} {sent : PortEvent} {accept : Answer → Option β} {s : State}
    {a : Answer} {es : List Event} {b : β} (he : s.env = .answer a :: es) (ha : accept a = some b) :
    busPrimitive sent accept s = .ret b ((nextPhase (sendOut (nextPhase s) sent)).withEnv es) := by
  rw [busPrimitive, corePoint_quiet (by rw [he]; rfl), Res.ret_andThen,
    show (nextPhase s).env = .answer a :: es from he, awaitAnswer]
  simp only [ha]

/-- A wait in which the core has its turn before anything outside happens. -/
theorem waitTo_turn {s : State} {t : Nat} {es : List Event} (he : s.env = .turn :: es) (ht : t < 2 ^ 64) :
    waitTo t s =
      .ret () (((nextPhase s).withEnv es).withClock (BitVec.ofNat 64 (max s.clock.toNat t))) := by
  rw [waitTo, he, letOutside]
  simp only [Res.andThen, wakeAt, if_pos ht]
  rfl

/-- A wait at the end of what the environment does. -/
theorem waitTo_end {s : State} {t : Nat} (he : s.env = []) (ht : t < 2 ^ 64) :
    waitTo t s = .ret () ((nextPhase s).withClock (BitVec.ofNat 64 (max s.clock.toNat t))) := by
  rw [waitTo, he, letOutside]
  simp only [Res.andThen, wakeAt, if_pos ht]
  have : (nextPhase s).withEnv [] = nextPhase s := by rw [← he]; rfl
  rw [this]
  rfl

/-- An internal step whose turn comes next. -/
theorem corePoint_turn {s : State} {es : List Event} (he : s.env = .turn :: es) :
    corePoint s = .ret () ((nextPhase s).withEnv es) := by
  rw [corePoint, he, letOutside]

theorem waitFor_turn {s : State} {d : Nat} {es : List Event} (he : s.env = waitAns ++ es)
    (hd : s.clock.toNat + d < 2 ^ 64) :
    waitFor d s = .ret () (nextPhase (nextPhase ((waited d s).withEnv es))) := by
  have he : s.env = .turn :: .turn :: es := he
  rw [waitFor, corePoint_turn he, Res.ret_andThen]
  rw [waitTo_turn (s := sendOut ((nextPhase s).withEnv (.turn :: es)) (.wait d)) (es := es)
    (t := ((nextPhase s).withEnv (.turn :: es)).clock.toNat + d) rfl hd]
  rw [show max (sendOut ((nextPhase s).withEnv (.turn :: es)) (.wait d)).clock.toNat
    (((nextPhase s).withEnv (.turn :: es)).clock.toNat + d) = s.clock.toNat + d from
    Nat.max_eq_right (Nat.le_add_right _ _)]
  rfl

/-- A wait in which nothing outside happens, but for the phase number of the sequencer. -/
theorem waitFor_ends {s : State} {d : Nat} {es : List Event} (he : s.env = waitAns ++ es)
    (hd : s.clock.toNat + d < 2 ^ 64) : ∃ q, waitFor d s = .ret () (((waited d s).withEnv es).withSeq q) := by
  have h : ∀ u : State, nextPhase (nextPhase u) = u.withSeq (nextPhase (nextPhase u)).seq := fun _ => rfl
  exact ⟨_, (waitFor_turn he hd).trans (congrArg (Res.ret ()) (h _))⟩

theorem waitFor_withEnv_turn {s : State} {d : Nat} {es : List Event} (hd : s.clock.toNat + d < 2 ^ 64) :
    waitFor d (s.withEnv (.turn :: .turn :: es)) = .ret () (nextPhase (nextPhase ((waited d s).withEnv es))) :=
  waitFor_turn (s := s.withEnv (.turn :: .turn :: es)) rfl hd

/-! ## Bus operations -/

/-- A selection that is answered `ok`, or needs no answer (R151). -/
theorem btSelect_ok {a : BitVec 7} {s : State} {es : List Event} (he : s.env = selectAns s a ++ es) :
    ∃ q, btSelect a s = .ret () ((((s.withBt { s.bt with sel := some a }).withPort
      (selectSent s a ++ s.port)).withEnv es).withSeq q) := by
  by_cases h : s.bt.sel = some a
  · refine ⟨s.seq, ?_⟩
    simp only [selectAns, if_pos h, List.nil_append] at he
    simp only [btSelect, if_pos h, selectSent, List.nil_append]
    have : s.withBt { s.bt with sel := some a } = s := by rw [← h]; rfl
    rw [this, ← he]
    rfl
  · simp only [selectAns, if_neg h, List.singleton_append] at he
    refine ⟨(nextPhase (nextPhase s)).seq, ?_⟩
    rw [btSelect, if_neg h, busSelect, busPrimitive_answer he (b := true) rfl]
    simp only [selectSent, if_neg h]
    rfl

/-- A selection that is answered `fail` (R151). -/
theorem btSelect_fail {a : BitVec 7} {s : State} {es : List Event} (h : s.bt.sel ≠ some a)
    (he : s.env = .answer .selectFail :: es) :
    ∃ q, btSelect a s = raiseIo .selectFailed (((selectLost a s).withEnv es).withSeq q) := by
  refine ⟨(nextPhase (nextPhase s)).seq, ?_⟩
  rw [btSelect, if_neg h, busSelect, busPrimitive_answer he (b := false) rfl]
  rfl

/-- A full write (R152). -/
theorem memWrite_full {a : BitVec 7} {reg : Byte} {bs : List Byte} {s : State} {es : List Event}
    (hb : s.ctrl.btAttach = true) (hn : bs.length ≤ 511)
    (he : s.env = selectAns s a ++ (writeAns bs.length ++ es)) :
    ∃ q, memWrite a reg bs s = .ret () (((writeDone a reg bs s).withEnv es).withSeq q) := by
  obtain ⟨q, hq⟩ := btSelect_ok he
  refine ⟨(nextPhase (nextPhase (s.withSeq q))).seq, ?_⟩
  rw [memWrite, if_neg (by simp [hb]), if_neg (by simp only [Config.wrMax]; omega), hq]
  simp only [Res.andThen, busWrite]
  rw [busPrimitive_answer (a := .wrote (1 + bs.length)) (es := es) (b := some (1 + bs.length)) rfl
    (by simp [writeAnswer]; omega)]
  simp only [if_true]
  rfl

/-- A read full at the next attempt. -/
theorem readAttempts_full {reg : Byte} {bs : List Byte} {left : Nat} {s : State} {es : List Event}
    (he : s.env = readAns bs ++ es) :
    ∃ q, readAttempts reg bs.length (left + 1) s =
      .ret bs ((rxStore (((s.withBt { s.bt with attempt := Config.rdAttempts - left }).withPort
        (.read bs.length :: .write [reg] :: s.port)).withEnv es) bs).withSeq q) := by
  refine ⟨(nextPhase (nextPhase (nextPhase (nextPhase s)))).seq, ?_⟩
  rw [readAttempts, busWrite, busPrimitive_answer (a := .wrote 1) (es := .answer (.received bs) :: es)
    (b := some 1) (by rw [State.withBt_env, he]; rfl) rfl]
  simp only [Res.andThen, if_true, busRead]
  rw [busPrimitive_answer (a := .received bs) (es := es) (b := some bs) rfl (by simp [readAnswer])]
  simp only [if_true]
  rfl

/-- A short attempt before the last. -/
theorem readAttempts_short {reg : Byte} {n : Nat} {left : Nat} {s : State} {x : Short} {es : List Event}
    (hx : x.fits n = true) (he : s.env = x.ans ++ (waitAns ++ es))
    (hc : s.clock.toNat + Config.rdRetryUs < 2 ^ 64) :
    ∃ q, readAttempts reg n (left + 2) s =
      readAttempts reg n (left + 1) (((((s.withBt { s.bt with attempt := Config.rdAttempts - (left + 1) }).withPort
        (.wait Config.rdRetryUs :: (x.sent reg n ++ s.port))).withClock
          (BitVec.ofNat 64 (s.clock.toNat + Config.rdRetryUs))).withEnv es).withSeq q) := by
  cases x with
  | prime =>
    refine ⟨(nextPhase (nextPhase (nextPhase (nextPhase s)))).seq, ?_⟩
    rw [readAttempts, busWrite, busPrimitive_answer (a := .wrote 0) (es := .turn :: .turn :: es) (b := some 0)
      (by rw [State.withBt_env, he]; rfl) rfl]
    simp only [Res.andThen, afterShort, Nat.add_eq_zero_iff, Nat.one_ne_zero, and_false, if_false,
      Nat.zero_ne_one]
    rw [waitFor_withEnv_turn (by exact hc)]
    rfl
  | read bs =>
    simp only [Short.fits, decide_eq_true_eq] at hx
    refine ⟨(nextPhase (nextPhase (nextPhase (nextPhase (nextPhase (nextPhase s)))))).seq, ?_⟩
    rw [readAttempts, busWrite, busPrimitive_answer (a := .wrote 1)
      (es := .answer (.received bs) :: .turn :: .turn :: es) (b := some 1) (by rw [State.withBt_env, he]; rfl) rfl]
    simp only [Res.andThen, if_true, busRead]
    rw [busPrimitive_answer (a := .received bs) (es := .turn :: .turn :: es) (b := some bs) rfl
      (by simp [readAnswer]; omega)]
    simp only [if_neg (show bs.length ≠ n by omega), afterShort, Nat.add_eq_zero_iff, Nat.one_ne_zero,
      and_false, if_false]
    rw [waitFor_withEnv_turn (by exact hc)]
    rfl

/-- A short last attempt (R154). -/
theorem readAttempts_last {reg : Byte} {n : Nat} {s : State} {x : Short} {es : List Event}
    (hx : x.fits n = true) (he : s.env = x.ans ++ es) :
    ∃ q, readAttempts reg n 1 s = raiseIo .shortTransfer
      ((rxFailed (((s.withBt { s.bt with attempt := Config.rdAttempts }).withPort
        (x.sent reg n ++ s.port)).withEnv es)).withSeq q) := by
  cases x with
  | prime =>
    refine ⟨(nextPhase (nextPhase s)).seq, ?_⟩
    rw [readAttempts, busWrite, busPrimitive_answer (a := .wrote 0) (es := es) (b := some 0)
      (by rw [State.withBt_env, he]; rfl) rfl]
    simp only [Res.andThen, afterShort, if_true, Nat.zero_ne_one, if_false]
    rfl
  | read bs =>
    simp only [Short.fits, decide_eq_true_eq] at hx
    refine ⟨(nextPhase (nextPhase (nextPhase (nextPhase s)))).seq, ?_⟩
    rw [readAttempts, busWrite, busPrimitive_answer (a := .wrote 1) (es := .answer (.received bs) :: es)
      (b := some 1) (by rw [State.withBt_env, he]; rfl) rfl]
    simp only [Res.andThen, if_true, busRead]
    rw [busPrimitive_answer (a := .received bs) (es := es) (b := some bs) rfl (by simp [readAnswer]; omega)]
    simp only [if_neg (show bs.length ≠ n by omega), afterShort, if_true]
    rfl

/-- A full read at the first attempt (R154, R160). -/
theorem memRead_full {a : BitVec 7} {reg : Byte} {bs : List Byte} {s : State} {es : List Event}
    (hb : s.ctrl.btAttach = true) (he : s.env = selectAns s a ++ (readAns bs ++ es)) :
    ∃ q, memRead a reg bs.length s = .ret bs (((readDone a reg bs s).withEnv es).withSeq q) := by
  obtain ⟨q, hq⟩ := btSelect_ok he
  rw [memRead, if_neg (by simp [hb]), hq]
  simp only [Res.andThen]
  obtain ⟨q', hq'⟩ := readAttempts_full (reg := reg) (bs := bs) (left := 4) (es := es)
    (s := (((((s.withBt { s.bt with sel := some a }).withPort (selectSent s a ++ s.port)).withEnv
      (readAns bs ++ es)).withSeq q).withBt ⟨some a, 0⟩)) rfl
  exact ⟨q', hq'⟩

/-- Short attempts, fewer than are left, and then what the next attempt gives. -/
theorem readAttempts_shorts {reg : Byte} {n : Nat} (xs : List Short) :
    ∀ {left : Nat} {s : State} {es : List Event} {c : Stamp}, xs.length ≤ left →
      (∀ x ∈ xs, x.fits n = true) → s.env = shortsAns xs ++ es →
      s.clock.toNat + Config.rdRetryUs * xs.length < 2 ^ 64 →
      c = BitVec.ofNat 64 (s.clock.toNat + Config.rdRetryUs * xs.length) →
      ∃ q k, readAttempts reg n (left + 1) s = readAttempts reg n (left - xs.length + 1)
        (((((s.withBt { s.bt with attempt := k }).withPort (shortsSent reg n xs ++ s.port)).withClock
          c).withEnv es).withSeq q) := by
  induction xs with
  | nil =>
    intro left s es c _ _ he _ hcc
    have hcc : c = s.clock := by simpa using hcc
    have he : s.env = es := he
    subst hcc he
    refine ⟨s.seq, s.bt.attempt, congrArg (readAttempts reg n (left + 1)) ?_⟩
    simp only [shortsSent, List.nil_append, State.withSeq, State.withEnv, State.withClock, State.withPort,
      State.withBt]
  | cons x xs ih =>
    intro left s es c hl hx he hc hcc
    simp only [List.length_cons] at hl hc hcc
    obtain ⟨left, rfl⟩ : ∃ k, left = k + 1 := ⟨left - 1, by omega⟩
    simp only [shortsAns, List.append_assoc] at he
    have hc1 : s.clock.toNat + Config.rdRetryUs < 2 ^ 64 := by
      rw [Nat.mul_add] at hc; omega
    obtain ⟨q, hq⟩ := readAttempts_short (reg := reg) (left := left) (hx x (.head _)) he hc1
    have hclock : (BitVec.ofNat 64 (s.clock.toNat + Config.rdRetryUs)).toNat
        = s.clock.toNat + Config.rdRetryUs := by
      rw [BitVec.toNat_ofNat, Nat.mod_eq_of_lt hc1]
    generalize BitVec.ofNat 64 (s.clock.toNat + Config.rdRetryUs) = c1 at hq hclock
    generalize hT : State.withSeq _ q = T at hq
    have hTe : T.env = shortsAns xs ++ es := by rw [← hT]; rfl
    have hTc : T.clock = c1 := by rw [← hT]; rfl
    obtain ⟨q', k', hq'⟩ := @ih left T es c (by omega) (fun y hy => hx y (.tail _ hy)) hTe
      (by rw [hTc, hclock]; rw [Nat.mul_add] at hc; omega)
      (by rw [hTc, hclock, hcc, Nat.mul_add]; congr 1; omega)
    refine ⟨q', k', (hq.trans hq').trans ?_⟩
    rw [show left + 1 - (x :: xs).length = left - xs.length by simp only [List.length_cons]; omega]
    refine congrArg (readAttempts reg n (left - xs.length + 1)) ?_
    rw [← hT]
    simp only [State.withSeq_port, State.withEnv_port, State.withClock_port, State.withPort_port, shortsSent,
      List.append_assoc, List.cons_append]
    simp only [State.withSeq, State.withEnv, State.withClock, State.withPort, State.withBt]

/-- The register write of an attempt timed out (R154). -/
theorem readAttempts_primeTimedOut {reg : Byte} {n left : Nat} {s : State} {es : List Event}
    (he : s.env = .answer .timedOut :: es) :
    ∃ q, readAttempts reg n (left + 1) s = raiseIo .timeout
      ((rxFailed (((s.withBt { s.bt with attempt := Config.rdAttempts - left }).withPort
        (.write [reg] :: s.port)).withEnv es)).withSeq q) := by
  refine ⟨(nextPhase (nextPhase s)).seq, ?_⟩
  rw [readAttempts, busWrite, busPrimitive_answer (a := .timedOut) (es := es) (b := none)
    (by rw [State.withBt_env]; exact he) rfl]
  rfl

/-- The read of an attempt timed out (R154). -/
theorem readAttempts_readTimedOut {reg : Byte} {n left : Nat} {s : State} {es : List Event}
    (he : s.env = .answer (.wrote 1) :: .answer .timedOut :: es) :
    ∃ q, readAttempts reg n (left + 1) s = raiseIo .timeout
      ((rxFailed (((s.withBt { s.bt with attempt := Config.rdAttempts - left }).withPort
        (.read n :: .write [reg] :: s.port)).withEnv es)).withSeq q) := by
  refine ⟨(nextPhase (nextPhase (nextPhase (nextPhase s)))).seq, ?_⟩
  rw [readAttempts, busWrite, busPrimitive_answer (a := .wrote 1) (es := .answer .timedOut :: es)
    (b := some 1) (by rw [State.withBt_env]; exact he) rfl]
  simp only [Res.andThen, if_true, busRead]
  rw [busPrimitive_answer (a := .timedOut) (es := es) (b := none) rfl rfl]
  rfl

/-- A read as far as the attempt after `xs` short ones, which starts in `T` (R151, R154). -/
theorem memRead_shorts {a : BitVec 7} {reg : Byte} {n : Nat} {xs : List Short} {s : State} {es : List Event}
    (hb : s.ctrl.btAttach = true) (hl : xs.length ≤ 4) (hx : ∀ x ∈ xs, x.fits n = true)
    (he : s.env = selectAns s a ++ (shortsAns xs ++ es))
    (hc : s.clock.toNat + Config.rdRetryUs * xs.length < 2 ^ 64) :
    ∃ T : State, memRead a reg n s = readAttempts reg n (4 - xs.length + 1) T ∧ T.env = es ∧
      ∀ sent, (T.withBt { T.bt with attempt := Config.rdAttempts - (4 - xs.length) }).withPort (sent ++ T.port) =
        ((readTried xs sent a reg n s).withEnv es).withSeq T.seq := by
  obtain ⟨q, hq⟩ := btSelect_ok he
  obtain ⟨c, hcc⟩ : ∃ c, c = BitVec.ofNat 64 (s.clock.toNat + Config.rdRetryUs * xs.length) := ⟨_, rfl⟩
  obtain ⟨q1, k, h1⟩ := readAttempts_shorts (reg := reg) (n := n) xs (left := 4)
    (es := es) (s := (((((s.withBt { s.bt with sel := some a }).withPort
      (selectSent s a ++ s.port)).withEnv (shortsAns xs ++ es)).withSeq q).withBt ⟨some a, 0⟩))
    hl hx rfl hc hcc
  have h2 : memRead a reg n s = readAttempts reg n (4 + 1) (((((s.withBt { s.bt with sel := some a }).withPort
      (selectSent s a ++ s.port)).withEnv (shortsAns xs ++ es)).withSeq q).withBt ⟨some a, 0⟩) := by
    rw [memRead, if_neg (by simp [hb]), hq]
    rfl
  refine ⟨_, h2.trans h1, rfl, fun sent => ?_⟩
  · rw [show Config.rdAttempts - (4 - xs.length) = xs.length + 1 by simp only [Config.rdAttempts]; omega,
      readTried, ← hcc]
    rfl

/-- A read, however it ends (R150, R151, R154, R155, R160). -/
theorem memRead_ends {r : ReadEnd} {a : BitVec 7} {reg : Byte} {n : Nat} {s : State} {es : List Event}
    (hf : r.fits a n s = true) (he : s.env = r.ans a s ++ es) (hc : s.clock.toNat + r.delay < 2 ^ 64) :
    ∃ q, memRead a reg n s =
      (let t := ((r.done a reg n s).withEnv es).withSeq q
       match r.err with
       | some k => raiseIo k t
       | none => .ret r.bytes t) := by
  have fit : ∀ {xs}, shortsFit n xs = true → xs.length ≤ 4 ∧ ∀ x ∈ xs, x.fits n = true := by
    intro xs h
    simpa [shortsFit] using h
  have done : ∀ (u : State) q q', (rxFailed ((u.withEnv es).withSeq q)).withSeq q' =
      ((rxFailed u).withEnv es).withSeq q' := fun _ _ _ => by
    simp only [rxFailed, State.withSeq_free, State.withEnv_free]
    generalize freeBuffer _ = m
    rfl
  have env : ∀ (u : State) (e e' : List Event) q, ((u.withEnv e).withSeq q).withEnv e' = (u.withEnv e').withSeq q :=
    fun _ _ _ _ => rfl
  cases r with
  | noBus =>
    simp only [ReadEnd.fits, Bool.not_eq_true'] at hf
    have he : s.env = es := he
    refine ⟨s.seq, ?_⟩
    subst he
    rw [memRead, if_pos hf]
    exact congrArg (raiseIo .notConnected) (show s = (s.withEnv s.env).withSeq s.seq from rfl)
  | selectFailed =>
    simp only [ReadEnd.fits, Bool.and_eq_true, decide_eq_true_eq] at hf
    obtain ⟨q, hq⟩ := btSelect_fail hf.2 (es := es) he
    refine ⟨q, ?_⟩
    rw [memRead, if_neg (by simp [hf.1]), hq]
    rfl
  | primeTimedOut xs =>
    simp only [ReadEnd.fits, Bool.and_eq_true] at hf
    obtain ⟨hl, hx⟩ := fit hf.2
    simp only [ReadEnd.ans, List.append_assoc] at he
    obtain ⟨T, h1, hT, h2⟩ := memRead_shorts (reg := reg) hf.1 hl hx he hc
    obtain ⟨q, h3⟩ := readAttempts_primeTimedOut (reg := reg) (n := n) (left := 4 - xs.length) (es := es) hT
    refine ⟨q, ?_⟩
    rw [h1, h3, show PortEvent.write [reg] :: T.port = [PortEvent.write [reg]] ++ T.port from rfl, h2, env, done]
    rfl
  | readTimedOut xs =>
    simp only [ReadEnd.fits, Bool.and_eq_true] at hf
    obtain ⟨hl, hx⟩ := fit hf.2
    simp only [ReadEnd.ans, List.append_assoc] at he
    obtain ⟨T, h1, hT, h2⟩ := memRead_shorts (reg := reg) hf.1 hl hx he hc
    obtain ⟨q, h3⟩ := readAttempts_readTimedOut (reg := reg) (n := n) (left := 4 - xs.length) (es := es) hT
    refine ⟨q, ?_⟩
    rw [h1, h3, show PortEvent.read n :: PortEvent.write [reg] :: T.port =
      [PortEvent.read n, .write [reg]] ++ T.port from rfl, h2, env, done]
    rfl
  | givenUp xs x =>
    simp only [ReadEnd.fits, Bool.and_eq_true, decide_eq_true_eq, List.all_eq_true] at hf
    obtain ⟨⟨⟨hb, hl⟩, hx⟩, hy⟩ := hf
    simp only [ReadEnd.ans, List.append_assoc] at he
    obtain ⟨T, h1, hT, h2⟩ := memRead_shorts (reg := reg) hb (by omega) hx he hc
    rw [hl] at h1 h2
    obtain ⟨q, h3⟩ := readAttempts_last (reg := reg) (n := n) hy hT
    refine ⟨q, ?_⟩
    rw [h1, h3, show Config.rdAttempts = Config.rdAttempts - (4 - 4) from rfl, h2, env, done]
    rfl
  | full xs bs =>
    simp only [ReadEnd.fits, Bool.and_eq_true, decide_eq_true_eq] at hf
    obtain ⟨⟨hb, hs⟩, rfl⟩ := hf
    obtain ⟨hl, hx⟩ := fit hs
    simp only [ReadEnd.ans, List.append_assoc] at he
    obtain ⟨T, h1, hT, h2⟩ := memRead_shorts (reg := reg) hb hl hx he hc
    obtain ⟨q, h3⟩ := readAttempts_full (reg := reg) (bs := bs) (left := 4 - xs.length) hT
    refine ⟨q, ?_⟩
    rw [h1, h3, show PortEvent.read bs.length :: PortEvent.write [reg] :: T.port =
      [PortEvent.read bs.length, .write [reg]] ++ T.port from rfl, h2, env]
    rfl

/-- A read that is short up to four times and then full (R154, R155). -/
theorem memRead_after {a : BitVec 7} {reg : Byte} {bs : List Byte} {xs : List Short} {s : State}
    {es : List Event} (hb : s.ctrl.btAttach = true) (hl : xs.length ≤ 4)
    (hx : ∀ x ∈ xs, x.fits bs.length = true)
    (he : s.env = selectAns s a ++ (shortsAns xs ++ (readAns bs ++ es)))
    (hc : s.clock.toNat + Config.rdRetryUs * xs.length < 2 ^ 64) :
    ∃ q, memRead a reg bs.length s = .ret bs (((readDoneAfter xs a reg bs s).withEnv es).withSeq q) :=
  memRead_ends (r := .full xs bs) (by simpa [ReadEnd.fits, hb, shortsFit, hl] using hx)
    (by simpa only [ReadEnd.ans, List.append_assoc] using he) hc

/-- A read that is short at all five attempts (R154, R155). -/
theorem memRead_givesUp {a : BitVec 7} {reg : Byte} {n : Nat} {xs : List Short} {x : Short} {s : State}
    {es : List Event} (hb : s.ctrl.btAttach = true) (hl : xs.length = 4)
    (hx : ∀ y ∈ xs, y.fits n = true) (hy : x.fits n = true)
    (he : s.env = selectAns s a ++ (shortsAns xs ++ (x.ans ++ es)))
    (hc : s.clock.toNat + Config.rdRetryUs * xs.length < 2 ^ 64) :
    ∃ q, memRead a reg n s =
      raiseIo .shortTransfer (((readGivenUp xs x a reg n s).withEnv es).withSeq q) :=
  memRead_ends (r := .givenUp xs x) (by simpa [ReadEnd.fits, hb, hl, hy] using hx)
    (by simpa only [ReadEnd.ans, List.append_assoc] using he) hc

/-! ## Device operations -/

theorem selectAns_selected {s : State} {a : BitVec 7} (h : s.bt.sel = some a) : selectAns s a = [] := by
  simp [selectAns, h]

theorem rdCheck_ok {dev : Dev} {s : State} (h : attached s dev = true) : rdCheck dev s = .ret () s := by
  simp [rdCheck, h]

theorem rdCheck_fails {dev : Dev} {s : State} (h : attached s dev = false) :
    rdCheck dev s = .raise ⟨.disconnected, dev⟩ s := by
  simp [rdCheck, h]

theorem devRead_full {dev : Dev} {reg : Byte} {bs : List Byte} {n : Nat} {s : State} {es : List Event}
    (hb : s.ctrl.btAttach = true) (hn : bs.length = n)
    (he : s.env = selectAns s (busAddr s.cfg dev) ++ (readAns bs ++ es)) :
    ∃ q, devRead dev reg n s =
      .ret bs (((readDone (busAddr s.cfg dev) reg bs s).withEnv es).withSeq q) := by
  subst hn
  obtain ⟨q, hq⟩ := memRead_full (reg := reg) hb he
  exact ⟨q, by rw [devRead, hq]; rfl⟩

/-- A read of a device, however it ends. -/
theorem devRead_ends {r : ReadEnd} {dev : Dev} {reg : Byte} {n : Nat} {s : State} {es : List Event}
    (hf : r.fits (busAddr s.cfg dev) n s = true) (he : s.env = r.ans (busAddr s.cfg dev) s ++ es)
    (hc : s.clock.toNat + r.delay < 2 ^ 64) :
    ∃ q, devRead dev reg n s =
      (let t := ((r.done (busAddr s.cfg dev) reg n s).withEnv es).withSeq q
       match r.err with
       | some k => .raise ⟨.io k, dev⟩ t
       | none => .ret r.bytes t) := by
  obtain ⟨q, hq⟩ := memRead_ends (reg := reg) hf he hc
  refine ⟨q, ?_⟩
  rw [devRead, hq]
  cases r.err <;> rfl

theorem devWrite_full {dev : Dev} {reg : Byte} {bs : List Byte} {s : State} {es : List Event}
    (hb : s.ctrl.btAttach = true) (hn : bs.length ≤ 511)
    (he : s.env = selectAns s (busAddr s.cfg dev) ++ (writeAns bs.length ++ es)) :
    ∃ q, devWrite dev reg bs s =
      .ret () (((writeDone (busAddr s.cfg dev) reg bs s).withEnv es).withSeq q) := by
  obtain ⟨q, hq⟩ := memWrite_full (reg := reg) hb hn he
  exact ⟨q, by rw [devWrite, hq]; rfl⟩

/-- A bit-field read (spec/42_register_device.md R172). -/
theorem rdBits_full {dev : Dev} {reg : Byte} {first len : Nat} {b : Byte} {s : State} {es : List Event}
    (hd : attached s dev = true) (hb : s.ctrl.btAttach = true)
    (he : s.env = selectAns s (busAddr s.cfg dev) ++ (readAns [b] ++ es)) :
    ∃ q, rdBits dev reg first len s =
      .ret (fieldGet first len b) (((readDone (busAddr s.cfg dev) reg [b] s).withEnv es).withSeq q) := by
  obtain ⟨q, hq⟩ := devRead_full (reg := reg) (n := 1) hb rfl he
  exact ⟨q, by rw [rdBits, rdCheck_ok hd, Res.andThen, hq]; rfl⟩

/-- A bit-field write (R173). -/
theorem wrBits_full {dev : Dev} {reg : Byte} {first len : Nat} {v b : Byte} {s : State} {es : List Event}
    (hd : attached s dev = true) (hb : s.ctrl.btAttach = true)
    (he : s.env = selectAns s (busAddr s.cfg dev) ++ (bitsAns b ++ es)) :
    ∃ q, wrBits dev reg first len v s =
      .ret () (((bitsDone (busAddr s.cfg dev) reg first len v b s).withEnv es).withSeq q) := by
  obtain ⟨q, hq⟩ := devRead_full (reg := reg) (n := 1) (bs := [b]) (es := writeAns 1 ++ es) hb rfl he
  obtain ⟨q', hq'⟩ := devWrite_full (dev := dev) (reg := reg) (bs := [fieldPut first len b v]) (es := es)
    (s := ((((readDone (busAddr s.cfg dev) reg [b] s).withEnv (writeAns 1 ++ es)).withSeq q).withRmw b))
    hb (by simp) (by rw [selectAns_selected rfl]; rfl)
  exact ⟨q', by rw [wrBits, rdCheck_ok hd, Res.andThen, hq]; exact hq'⟩

/-- The range commands' routines (spec/43_accel_gyro.md R197, R198). -/
theorem agSetRangeA_full {code : BitVec 2} {b : Byte} {s : State} {es : List Event}
    (hd : s.ctrl.agTAttach = true) (hb : s.ctrl.btAttach = true)
    (he : s.env = selectAns s s.cfg.agAddr ++ (bitsAns b ++ es)) :
    ∃ q, agSetRangeA code s = .ret () (((rangeADone code b s).withEnv es).withSeq q) := by
  obtain ⟨q, hq⟩ := wrBits_full (dev := .ag) (reg := s.cfg.agAfs.reg) (first := s.cfg.agAfs.first) (len := 2)
    (v := code.zeroExtend 8) hd hb he
  exact ⟨q, by rw [agSetRangeA, hq]; rfl⟩

theorem agSetRangeG_full {code : BitVec 2} {b : Byte} {s : State} {es : List Event}
    (hd : s.ctrl.agTAttach = true) (hb : s.ctrl.btAttach = true)
    (he : s.env = selectAns s s.cfg.agAddr ++ (bitsAns b ++ es)) :
    ∃ q, agSetRangeG code s = .ret () (((rangeGDone code b s).withEnv es).withSeq q) := by
  obtain ⟨q, hq⟩ := wrBits_full (dev := .ag) (reg := s.cfg.agGfs.reg) (first := s.cfg.agGfs.first) (len := 2)
    (v := code.zeroExtend 8) hd hb he
  exact ⟨q, by rw [agSetRangeG, hq]; rfl⟩

/-- A micro-operation (R192). -/
theorem microOp_full {m : MicroOp} {b : Byte} {s : State} {es : List Event}
    (hd : s.ctrl.agTAttach = true) (hb : s.ctrl.btAttach = true) (he : s.env = opAns m b s ++ es)
    (hc : s.clock.toNat + opDelay m < 2 ^ 64) :
    ∃ q, microOp m s = .ret () (((opDone m b s).withEnv es).withSeq q) := by
  cases m with
  | wbits f v => exact wrBits_full (dev := .ag) hd hb (by rw [he, opAns, List.append_assoc]; rfl)
  | wbyte reg v => exact devWrite_full (dev := .ag) hb (by simp) (by rw [he, opAns, List.append_assoc]; rfl)
  | setgr code => exact agSetRangeG_full hd hb (by rw [he, opAns, List.append_assoc])
  | setar code => exact agSetRangeA_full hd hb (by rw [he, opAns, List.append_assoc])
  | delay d => exact waitFor_ends he hc

/-- The status burst (spec/44_mag.md R229, R233): not ready, overflow, or the axes. -/
theorem mgBurst_full {bs : List Byte} {s : State} {es : List Event} (hd : s.ctrl.mgTAttach = true)
    (hb : s.ctrl.btAttach = true) (hn : bs.length = 8)
    (he : s.env = selectAns s s.cfg.mgAddr ++ (readAns bs ++ es)) :
    ∃ q, mgBurst s =
      (let t := ((readDone s.cfg.mgAddr s.cfg.mgBurstReg bs s).withEnv es).withSeq q
       if (byteAt bs 0).getLsbD s.cfg.mgDrdyBit = false then .raise ⟨.notReady, .mg⟩ t
       else if (byteAt bs 7).getLsbD s.cfg.mgHoflBit then
        .raise ⟨.overflow, .mg⟩ (t.withMg { t.mg with ovf := true })
       else .ret (decodeBurst s.cfg.magLowByteFirst bs) (t.withMg { t.mg with ovf := false })) := by
  obtain ⟨q, hq⟩ := devRead_full (dev := .mg) (reg := s.cfg.mgBurstReg) (n := Config.mgBurstLen) hb hn he
  exact ⟨q, by rw [mgBurst, rdCheck_ok (dev := .mg) hd, Res.andThen, hq]; rfl⟩

/-- An axis burst of the accelerometer or gyroscope (spec/43_accel_gyro.md R199). -/
theorem agRead6_full {reg : Byte} {bs : List Byte} {s : State} {es : List Event}
    (hd : s.ctrl.agTAttach = true) (hb : s.ctrl.btAttach = true) (hn : bs.length = 6)
    (he : s.env = selectAns s s.cfg.agAddr ++ (readAns bs ++ es)) :
    ∃ q, agRead6 reg s =
      .ret (decode6 bs) (((readDone s.cfg.agAddr reg bs s).withEnv es).withSeq q) := by
  obtain ⟨q, hq⟩ := devRead_full (dev := .ag) (reg := reg) (n := 6) hb hn he
  exact ⟨q, by rw [agRead6, rdCheck_ok (dev := .ag) hd, Res.andThen, hq]; rfl⟩

/-- A mode change (spec/44_mag.md R222). -/
theorem mgSetMode_full {m : MagMode} {b : Byte} {s : State} {es : List Event}
    (hd : s.ctrl.mgTAttach = true) (hb : s.ctrl.btAttach = true)
    (he : s.env = selectAns s s.cfg.mgAddr ++ (modeAns m b ++ es))
    (hc : m = .powerDown → s.clock.toNat + Config.mgSettleUs < 2 ^ 64) :
    ∃ q, mgSetMode m s = .ret () (((modeDone m b s).withEnv es).withSeq q) := by
  by_cases hm : m = .powerDown
  · simp only [modeAns, if_pos hm, List.append_assoc] at he
    obtain ⟨q, hq⟩ := wrBits_full (dev := .mg) (reg := s.cfg.mgMode.reg) (first := s.cfg.mgMode.first)
      (len := s.cfg.mgMode.len) (v := magModeCode s.cfg.mgModeCode m) hd hb he
    have hk : ∀ u : State, u.clock = s.clock → ∃ q', waitFor Config.mgSettleUs
        (((u.withEnv (waitAns ++ es)).withSeq q).withMg { u.mg with mode := m }) =
        .ret () (((waited Config.mgSettleUs (u.withMg { u.mg with mode := m })).withEnv es).withSeq q') := by
      intro u hu
      obtain ⟨q', hw⟩ := waitFor_ends (es := es) (d := Config.mgSettleUs)
        (s := ((u.withEnv (waitAns ++ es)).withSeq q).withMg { u.mg with mode := m }) rfl
        (by show u.clock.toNat + _ < _; rw [hu]; exact hc hm)
      exact ⟨q', hw⟩
    simp only [mgSetMode, hq, Res.andThen, if_pos hm, modeDone]
    exact hk _ rfl
  · simp only [modeAns, if_neg hm] at he
    obtain ⟨q, hq⟩ := wrBits_full (dev := .mg) (reg := s.cfg.mgMode.reg) (first := s.cfg.mgMode.first)
      (len := s.cfg.mgMode.len) (v := magModeCode s.cfg.mgModeCode m) hd hb he
    refine ⟨q, ?_⟩
    rw [mgSetMode, hq]
    simp only [Res.andThen, if_neg hm, modeDone]
    rfl

/-- The resolution command's routine (R228). -/
theorem mgSetRes_full {code : BitVec 1} {b : Byte} {s : State} {es : List Event}
    (hd : s.ctrl.mgTAttach = true) (hb : s.ctrl.btAttach = true)
    (he : s.env = selectAns s s.cfg.mgAddr ++ (bitsAns b ++ es)) :
    ∃ q, mgSetRes code s = .ret () (((resDone code b s).withEnv es).withSeq q) := by
  obtain ⟨q, hq⟩ := wrBits_full (dev := .mg) (reg := s.cfg.mgBit.reg) (first := s.cfg.mgBit.first) (len := 1)
    (v := code.zeroExtend 8) hd hb he
  exact ⟨q, by rw [mgSetRes, hq]; rfl⟩

/-! ## Commands -/

/-- A command whose routine returns, nothing outside intervening at its start and end (R328, R329). -/
theorem command_succeeds {op : BitVec 6} {legal : Bool} {result : State → State} {body : State → Res Unit}
    {s u : State} (hb : s.cmd.busy = false) (hl : legal = true) (hq : turnAhead s.env = false)
    (hbody : body (nextPhase (startCommand op s)) = .ret () u) (hu : turnAhead u.env = false) :
    command op legal result body s = .next (completeCommand (nextPhase u)) := by
  rw [command, turnedAway, if_neg (by simp [hb]), if_pos hl, corePoint_quiet (s := startCommand op s) hq]
  simp only [Res.andThen, hbody, completing, corePoint_quiet hu, closing]

/-- A command whose routine raises (R328, R330). -/
theorem command_raises {op : BitVec 6} {legal : Bool} {result : State → State} {body : State → Res Unit}
    {s u : State} {e : Err} (hb : s.cmd.busy = false) (hl : legal = true) (hq : turnAhead s.env = false)
    (hbody : body (nextPhase (startCommand op s)) = .raise e u) (hu : turnAhead u.env = false) :
    command op legal result body s = .next (failCommand result e (nextPhase u)) := by
  rw [command, turnedAway, if_neg (by simp [hb]), if_pos hl, corePoint_quiet (s := startCommand op s) hq]
  simp only [Res.andThen, hbody, completing, corePoint_quiet hu, closing]

/-! ## Whole commands -/

/-- What does not look at the command flags or the sequencer's position, and leaves both alone. -/
structure Neutral (f : State → State) : Prop where
  commutes : ∀ (c : CmdStatus) (q : Option SeqPos) (s : State),
    f ((s.withCmd c).withSeq q) = ((f s).withCmd c).withSeq q
  cmd : ∀ s : State, (f s).cmd = s.cmd

theorem Neutral.after {f g : State → State} (hg : Neutral g) (hf : Neutral f) : Neutral fun s => g (f s) where
  commutes := fun c q s => by rw [hf.commutes, hg.commutes]
  cmd := fun s => by rw [hg.cmd, hf.cmd]

theorem neutral_setX3 (i j k : Fin 32) (a b c : Word) : Neutral fun s => s.setX3 i j k a b c :=
  ⟨fun _ _ _ => rfl, fun _ => rfl⟩

theorem neutral_ovf (v : Bool) : Neutral fun s => s.withMg { s.mg with ovf := v } :=
  ⟨fun _ _ _ => rfl, fun _ => rfl⟩

theorem neutral_readDone (a : BitVec 7) (reg : Byte) (bs : List Byte) : Neutral (readDone a reg bs) :=
  ⟨fun _ _ _ => rfl, fun _ => rfl⟩

theorem neutral_bitsDone (a : BitVec 7) (reg : Byte) (first len : Nat) (v b : Byte) :
    Neutral (bitsDone a reg first len v b) :=
  ⟨fun _ _ _ => rfl, fun _ => rfl⟩

/-- The state in which the routine of a started command begins. -/
theorem running_eq (op : BitVec 6) (s : State) : nextPhase (startCommand op s) =
    (s.withCmd { s.cmd with busy := true, done := false, fail := false, err := 0 }).withSeq
      (some ⟨op, 0 + 1⟩) := by
  simp only [nextPhase, startCommand, State.withSeq, State.withCmd]

section
variable {op : BitVec 6} {legal : Bool} {result : State → State} {body : State → Res Unit} {s : State}
  {f : State → State} {es : List Event} {q : Option SeqPos} {v : Word}

/-- A command whose routine does `f` and gives `v`, nothing outside intervening at its start and end: all
it changes is what `f` changes, `x[31]`, and the completion flags (R328, R329). -/
theorem command_does (hf : Neutral f) (hb : s.cmd.busy = false) (hl : legal = true)
    (hq : turnAhead s.env = false) (ht : turnAhead es = false)
    (hbody : body (nextPhase (startCommand op s)) =
      .ret () (setResult (((f (nextPhase (startCommand op s))).withEnv es).withSeq q) v)) :
    command op legal result body s = .next (succeeded (setResult ((f s).withEnv es) v)) := by
  rw [command_succeeds hb hl hq hbody (by exact ht), running_eq, hf.commutes]
  have hc := hf.cmd s
  generalize f s = u at *
  simp only [completeCommand, succeeded, nextPhase, setResult, State.setX, State.withCmd, State.withSeq,
    State.withEnv, hc]

/-- A command whose routine does `f` and then raises `e`; `v` is what `x[31]` is set to (R328, R330). -/
theorem command_does_and_fails {e : Err} (hf : Neutral f) (hb : s.cmd.busy = false) (hl : legal = true)
    (hq : turnAhead s.env = false) (ht : turnAhead es = false)
    (hbody : body (nextPhase (startCommand op s)) =
      .raise e (((f (nextPhase (startCommand op s))).withEnv es).withSeq q))
    (hres : ∀ c q, result ((((f s).withCmd c).withEnv es).withSeq q) =
      setResult ((((f s).withCmd c).withEnv es).withSeq q) v) :
    command op legal result body s = .next (failedWith e (setResult ((f s).withEnv es) v)) := by
  rw [command_raises hb hl hq hbody (by exact ht), running_eq, hf.commutes]
  have hc := hf.cmd s
  generalize f s = u at *
  have next : nextPhase (((((u.withCmd { s.cmd with busy := true, done := false, fail := false, err := 0 }).withSeq
      (some ⟨op, 0 + 1⟩)).withEnv es).withSeq q)) =
    ((u.withCmd { s.cmd with busy := true, done := false, fail := false, err := 0 }).withEnv es).withSeq
      (nextPhase (s.withSeq q)).seq := rfl
  rw [failCommand, next, hres]
  simp only [failedWith, nextPhase, setResult, State.setX, State.withCmd, State.withSeq, State.withEnv, hc]

end

/-! ## Routines of several operations -/

/-- What a micro-operation leaves: the attachments, the parameters and the transport's clock. -/
theorem opDone_ctrl (m : MicroOp) (b : Byte) (s : State) : (opDone m b s).ctrl = s.ctrl := by
  cases m <;> rfl

theorem opDone_cfg (m : MicroOp) (b : Byte) (s : State) : (opDone m b s).cfg = s.cfg := by
  cases m <;> rfl

theorem opDone_clock (m : MicroOp) (b : Byte) {s : State} (h : s.clock.toNat + opDelay m < 2 ^ 64) :
    (opDone m b s).clock.toNat = s.clock.toNat + opDelay m := by
  cases m with
  | delay d =>
    simp only [opDelay] at h
    simp only [opDone, waited, State.withClock_clock, opDelay, BitVec.toNat_ofNat]
    rw [Nat.mod_eq_of_lt h]
  | wbits f v => rfl
  | wbyte r v => rfl
  | setgr c => rfl
  | setar c => rfl

/-- Nothing an operation does depends on the environment list or on the sequencer's phase. -/
theorem opDone_withEnv_withSeq (m : MicroOp) (b : Byte) (s : State) (es : List Event) (q : Option SeqPos) :
    opDone m b ((s.withEnv es).withSeq q) = ((opDone m b s).withEnv es).withSeq q := by
  cases m <;> rfl

theorem opAns_withEnv_withSeq (m : MicroOp) (b : Byte) (s : State) (es : List Event) (q : Option SeqPos) :
    opAns m b ((s.withEnv es).withSeq q) = opAns m b s := by
  cases m <;> rfl

theorem opsDone_withEnv_withSeq (cs : List (MicroOp × Byte)) (es : List Event) (q : Option SeqPos) :
    ∀ s : State, opsDone cs ((s.withEnv es).withSeq q) = ((opsDone cs s).withEnv es).withSeq q := by
  induction cs with
  | nil => exact fun _ => rfl
  | cons c cs ih => intro s; simp only [opsDone, opDone_withEnv_withSeq, ih]

theorem opsAns_withEnv_withSeq (cs : List (MicroOp × Byte)) (es : List Event) (q : Option SeqPos) :
    ∀ s : State, opsAns cs ((s.withEnv es).withSeq q) = opsAns cs s := by
  induction cs with
  | nil => exact fun _ => rfl
  | cons c cs ih => intro s; simp only [opsAns, opDone_withEnv_withSeq, opAns_withEnv_withSeq, ih]

theorem opsDone_ctrl (cs : List (MicroOp × Byte)) : ∀ s, (opsDone cs s).ctrl = s.ctrl := by
  induction cs with
  | nil => exact fun _ => rfl
  | cons c cs ih => intro s; rw [opsDone, ih, opDone_ctrl]

theorem opsDone_cfg (cs : List (MicroOp × Byte)) : ∀ s, (opsDone cs s).cfg = s.cfg := by
  induction cs with
  | nil => exact fun _ => rfl
  | cons c cs ih => intro s; rw [opsDone, ih, opDone_cfg]

theorem opsDone_clock (cs : List (MicroOp × Byte)) :
    ∀ s : State, s.clock.toNat + opsDelay cs < 2 ^ 64 →
      (opsDone cs s).clock.toNat = s.clock.toNat + opsDelay cs := by
  induction cs with
  | nil => exact fun _ _ => rfl
  | cons c cs ih =>
    intro s h
    simp only [opsDelay] at h
    have h1 := opDone_clock c.1 c.2 (s := s) (by omega)
    rw [opsDone, ih _ (by omega), h1, opsDelay]
    omega

/-- The micro-operations of a stage (spec/43_accel_gyro.md R192). -/
theorem microOps_full (cs : List (MicroOp × Byte)) :
    ∀ {s : State} {es : List Event}, s.ctrl.agTAttach = true → s.ctrl.btAttach = true →
      s.env = opsAns cs s ++ es → s.clock.toNat + opsDelay cs < 2 ^ 64 →
      ∃ q, microOps (cs.map Prod.fst) s = .ret () (((opsDone cs s).withEnv es).withSeq q) := by
  induction cs with
  | nil =>
    intro s es _ _ he _
    have he : s.env = es := he
    exact ⟨s.seq, by subst he; rfl⟩
  | cons c cs ih =>
    intro s es hd hb he hc
    simp only [opsDelay] at hc
    simp only [opsAns, List.append_assoc] at he
    obtain ⟨q, hq⟩ := microOp_full hd hb he (by omega)
    obtain ⟨q', hq'⟩ := @ih (((opDone c.1 c.2 s).withEnv (opsAns cs (opDone c.1 c.2 s) ++ es)).withSeq q) es
      (by simpa [opDone_ctrl] using hd) (by simpa [opDone_ctrl] using hb)
      (by rw [opsAns_withEnv_withSeq]; rfl)
      (by simp only [State.withSeq_clock, State.withEnv_clock]; rw [opDone_clock _ _ (by omega)]; omega)
    refine ⟨q', ?_⟩
    rw [List.map_cons, microOps, hq]
    simp only [Res.andThen]
    rw [hq', opsDone_withEnv_withSeq]
    rfl

/-- A stage (R191, R194). -/
theorem agStage_full (cs : List (MicroOp × Byte)) {reached : AgState} {s : State} {es : List Event}
    (hd : s.ctrl.agTAttach = true) (hb : s.ctrl.btAttach = true) (he : s.env = opsAns cs s ++ es)
    (hc : s.clock.toNat + opsDelay cs < 2 ^ 64) :
    ∃ q, agStage (cs.map Prod.fst) reached s =
      .ret () (((setAgState reached (opsDone cs s)).withEnv es).withSeq q) := by
  obtain ⟨q, hq⟩ := microOps_full cs hd hb he hc
  exact ⟨q, by rw [agStage, hq]; rfl⟩


theorem Res.andThen_assoc {α β γ : Type} (r : Res α) (f : α → State → Res β) (g : β → State → Res γ) :
    (r.andThen f).andThen g = r.andThen fun a t => (f a t).andThen g := by
  cases r <;> rfl

/-- A stage after what leads to it. -/
theorem agStage_next {l : List (MicroOp × Byte)} {v : AgState} {sel : InitTable → List MicroOp} {s : State}
    {es : List Event} {q : Option SeqPos} {r : Res Unit}
    (hr : r = .ret () ((s.withEnv (opsAns l s ++ es)).withSeq q))
    (hl : sel s.cfg.agInit = l.map Prod.fst) (hd : s.ctrl.agTAttach = true) (hb : s.ctrl.btAttach = true)
    (hc : s.clock.toNat + opsDelay l < 2 ^ 64) :
    ∃ q', (r.andThen fun _ t => agStage (sel t.cfg.agInit) v t) =
      .ret () (((setAgState v (opsDone l s)).withEnv es).withSeq q') := by
  obtain ⟨q', hq⟩ := agStage_full l (reached := v) (s := (s.withEnv (opsAns l s ++ es)).withSeq q) (es := es)
    hd hb (by rw [opsAns_withEnv_withSeq]; rfl) hc
  refine ⟨q', ?_⟩
  rw [hr, Res.andThen]
  simp only [State.withSeq_cfg, State.withEnv_cfg]
  rw [hl, hq, opsDone_withEnv_withSeq]
  rfl

/-- The whole initialization (R194), each stage's micro-operations given with what their reads gave. -/
theorem agInitialize_full {l1 l2 l3 l4 l5 : List (MicroOp × Byte)} {s : State} {es : List Event}
    (h1 : s.cfg.agInit.reset = l1.map Prod.fst) (h2 : s.cfg.agInit.clock = l2.map Prod.fst)
    (h3 : s.cfg.agInit.filters = l3.map Prod.fst) (h4 : s.cfg.agInit.bypass = l4.map Prod.fst)
    (h5 : s.cfg.agInit.range = l5.map Prod.fst)
    (hd : s.ctrl.agTAttach = true) (hb : s.ctrl.btAttach = true)
    (he : s.env = stagesAns [(l1, .reset), (l2, .clockConfigured), (l3, .filtersConfigured),
      (l4, .bypassConfigured), (l5, .rangeConfigured)] (setAgState .uninitialized s) ++ es)
    (hc : s.clock.toNat + (opsDelay l1 + opsDelay l2 + opsDelay l3 + opsDelay l4 + opsDelay l5) < 2 ^ 64) :
    ∃ q, agInitialize s = .ret () (((setAgState .ready (stagesDone [(l1, .reset), (l2, .clockConfigured),
      (l3, .filtersConfigured), (l4, .bypassConfigured), (l5, .rangeConfigured)]
        (setAgState .uninitialized s))).withEnv es).withSeq q) := by
  simp only [stagesAns, List.append_assoc, List.nil_append] at he
  simp only [stagesDone]
  have e0 : (.ret () (setAgState .uninitialized s) : Res Unit) = .ret () (((setAgState .uninitialized s).withEnv
      s.env).withSeq s.seq) := rfl
  rw [he] at e0
  have start : agInitialize s = ((((((.ret () (setAgState .uninitialized s) : Res Unit).andThen
      fun _ t => agStage t.cfg.agInit.reset .reset t).andThen
      fun _ t => agStage t.cfg.agInit.clock .clockConfigured t).andThen
      fun _ t => agStage t.cfg.agInit.filters .filtersConfigured t).andThen
      fun _ t => agStage t.cfg.agInit.bypass .bypassConfigured t).andThen
      fun _ t => agStage t.cfg.agInit.range .rangeConfigured t).andThen
      fun _ t => .ret () (setAgState .ready t) := by
    rw [agInitialize, rdCheck_ok (dev := .ag) hd]
    simp only [Res.andThen_assoc]
    rfl
  rw [start]
  generalize hs0 : setAgState .uninitialized s = s0 at e0 ⊢
  have c0 : s0.ctrl = s.ctrl := by rw [← hs0]; rfl
  have f0 : s0.cfg = s.cfg := by rw [← hs0]; rfl
  have n0 : s0.clock.toNat = s.clock.toNat := by rw [← hs0]; rfl
  have ctl : ∀ (l : List (MicroOp × Byte)) v (u : State), (setAgState v (opsDone l u)).ctrl = u.ctrl :=
    fun l v u => opsDone_ctrl l u
  have cfg : ∀ (l : List (MicroOp × Byte)) v (u : State), (setAgState v (opsDone l u)).cfg = u.cfg :=
    fun l v u => opsDone_cfg l u
  have clk : ∀ (l : List (MicroOp × Byte)) v (u : State), u.clock.toNat + opsDelay l < 2 ^ 64 →
      (setAgState v (opsDone l u)).clock.toNat = u.clock.toNat + opsDelay l :=
    fun l v u h => opsDone_clock l u h
  rw [← c0] at hd hb
  rw [← f0] at h1 h2 h3 h4 h5
  obtain ⟨q1, e1⟩ := agStage_next (v := .reset) (sel := InitTable.reset) e0 h1 hd hb (by omega)
  have n1 := clk l1 .reset s0 (by omega)
  obtain ⟨q2, e2⟩ := agStage_next (v := .clockConfigured) (sel := InitTable.clock) e1
    (by rw [cfg]; exact h2) (by rw [ctl]; exact hd) (by rw [ctl]; exact hb) (by omega)
  have n2 := clk l2 .clockConfigured _ (show _ < 2 ^ 64 by rw [n1]; omega)
  obtain ⟨q3, e3⟩ := agStage_next (v := .filtersConfigured) (sel := InitTable.filters) e2
    (by rw [cfg, cfg]; exact h3) (by rw [ctl, ctl]; exact hd) (by rw [ctl, ctl]; exact hb) (by omega)
  have n3 := clk l3 .filtersConfigured _ (show _ < 2 ^ 64 by rw [n2]; omega)
  obtain ⟨q4, e4⟩ := agStage_next (v := .bypassConfigured) (sel := InitTable.bypass) e3
    (by rw [cfg, cfg, cfg]; exact h4) (by rw [ctl, ctl, ctl]; exact hd) (by rw [ctl, ctl, ctl]; exact hb)
    (by omega)
  have n4 := clk l4 .bypassConfigured _ (show _ < 2 ^ 64 by rw [n3]; omega)
  obtain ⟨q5, e5⟩ := agStage_next (v := .rangeConfigured) (sel := InitTable.range) e4
    (by rw [cfg, cfg, cfg, cfg]; exact h5) (by rw [ctl, ctl, ctl, ctl]; exact hd)
    (by rw [ctl, ctl, ctl, ctl]; exact hb) (by omega)
  exact ⟨q5, by rw [e5]; rfl⟩

theorem modeDone_withEnv_withSeq (m : MagMode) (b : Byte) (s : State) (es : List Event) (q : Option SeqPos) :
    modeDone m b ((s.withEnv es).withSeq q) = ((modeDone m b s).withEnv es).withSeq q := by
  have h : ∀ u : State, waited Config.mgSettleUs ((u.withEnv es).withSeq q)
      = ((waited Config.mgSettleUs u).withEnv es).withSeq q := fun _ => rfl
  have hb : ∀ (u : State) a reg first len v,
      (bitsDone a reg first len v b ((u.withEnv es).withSeq q)) =
        ((bitsDone a reg first len v b u).withEnv es).withSeq q := fun _ _ _ _ _ _ => rfl
  simp only [modeDone, State.withSeq_cfg, State.withEnv_cfg, hb]
  generalize bitsDone _ _ _ _ _ _ s = u
  split
  · exact h (u.withMg { u.mg with mode := m })
  · rfl

theorem modeDone_sel (m : MagMode) (b : Byte) (s : State) : (modeDone m b s).bt.sel = some s.cfg.mgAddr := by
  cases m <;> rfl

theorem modeDone_ctrl (m : MagMode) (b : Byte) (s : State) : (modeDone m b s).ctrl = s.ctrl := by
  cases m <;> rfl

theorem modeDone_cfg (m : MagMode) (b : Byte) (s : State) : (modeDone m b s).cfg = s.cfg := by
  cases m <;> rfl

/-- A mode change of a selected magnetometer after what leads to it; `f` is done before it. -/
theorem mgSetMode_next {m : MagMode} {b : Byte} {s : State} {es : List Event} {q : Option SeqPos}
    {r : Res Unit} {f : State → State} (hr : r = .ret () ((s.withEnv (modeAns m b ++ es)).withSeq q))
    (hf : ∀ (u : State) es q, f ((u.withEnv es).withSeq q) = ((f u).withEnv es).withSeq q)
    (hs : (f s).bt.sel = some (f s).cfg.mgAddr) (hd : (f s).ctrl.mgTAttach = true)
    (hb : (f s).ctrl.btAttach = true) (hc : (f s).clock.toNat + Config.mgSettleUs < 2 ^ 64) :
    ∃ q', (r.andThen fun _ t => mgSetMode m (f t)) =
      .ret () (((modeDone m b (f s)).withEnv es).withSeq q') := by
  obtain ⟨q', hq⟩ := mgSetMode_full (m := m) (b := b) (s := ((f s).withEnv (modeAns m b ++ es)).withSeq q)
    (es := es) hd hb (by rw [selectAns_selected (by exact hs)]; rfl) (fun _ => hc)
  refine ⟨q', ?_⟩
  rw [hr, Res.andThen, hf, hq, modeDone_withEnv_withSeq]
  rfl

/-- The whole initialization of the magnetometer (spec/44_mag.md R224). -/
theorem mgInitialize_full {b0 b1 b2 : Byte} {asa : List Byte} {s : State} {es : List Event}
    (hd : s.ctrl.mgTAttach = true) (hb : s.ctrl.btAttach = true) (hn : asa.length = 3)
    (he : s.env = selectAns s s.cfg.mgAddr ++ (modeAns .powerDown b0 ++ (modeAns .fuseRom b1 ++
      (readAns asa ++ (modeAns .powerDown b2 ++ es)))))
    (hc : s.clock.toNat + 2 * Config.mgSettleUs < 2 ^ 64) :
    ∃ q, mgInitialize s = .ret () (((mgInitDone b0 b1 b2 asa s).withEnv es).withSeq q) := by
  have clk : ∀ (b : Byte) (u : State), u.clock.toNat + Config.mgSettleUs < 2 ^ 64 →
      (modeDone .powerDown b u).clock.toNat = u.clock.toNat + Config.mgSettleUs := by
    intro b u h
    simp only [modeDone, if_true, waited, State.withClock_clock, BitVec.toNat_ofNat]
    exact Nat.mod_eq_of_lt h
  have start : mgInitialize s = ((((((mgSetMode .powerDown (s.withMg { s.mg with initDone := false, stage := 0 })).andThen
      fun _ t => mgSetMode .fuseRom (setMgStage 1 t)).andThen fun _ t =>
      (devRead .mg t.cfg.mgAsa 3 (setMgStage 2 t)).andThen fun bs t => .ret () (setMgStage 3 (setMgAdj bs t))).andThen
      fun _ t => mgSetMode .powerDown t).andThen fun _ t => .ret () (setMgStage 4 t)).mapErr
        (fun e u => ⟨.initSequenceFailed u.mg.stage e.kind.inner, .mg⟩)).andThen
      fun _ u => .ret () (u.withMg { u.mg with initDone := true }) := by
    rw [mgInitialize, rdCheck_ok (dev := .mg) hd]
    simp only [mgStages, Res.andThen_assoc]
    rfl
  rw [start, mgInitDone]
  generalize hs0 : s.withMg { s.mg with initDone := false, stage := 0 } = s0
  have c0 : s0.ctrl = s.ctrl := by rw [← hs0]; rfl
  have f0 : s0.cfg = s.cfg := by rw [← hs0]; rfl
  have t0 : s0.bt = s.bt := by rw [← hs0]; rfl
  have k0 : s0.clock.toNat = s.clock.toNat := by rw [← hs0]; rfl
  have n0 : s0.env = s.env := by rw [← hs0]; rfl
  simp only [Config.mgSettleUs] at hc clk
  rw [← c0] at hd hb
  obtain ⟨q1, e1⟩ := mgSetMode_full (m := .powerDown) (b := b0) (s := s0) hd hb
    (by rw [n0, he]; simp only [selectAns, f0, t0]; rfl) (fun _ => by simp only [Config.mgSettleUs]; omega)
  have k1 := clk b0 s0 (by omega)
  have c1 := modeDone_ctrl .powerDown b0 s0
  have f1 := modeDone_cfg .powerDown b0 s0
  have l1 := modeDone_sel .powerDown b0 s0
  obtain ⟨q2, e2⟩ := mgSetMode_next (f := setMgStage 1) e1 (fun _ _ _ => rfl)
    (by show (modeDone .powerDown b0 s0).bt.sel = some (modeDone .powerDown b0 s0).cfg.mgAddr; rw [l1, f1])
    (by show (modeDone .powerDown b0 s0).ctrl.mgTAttach = true; rw [c1]; exact hd)
    (by show (modeDone .powerDown b0 s0).ctrl.btAttach = true; rw [c1]; exact hb)
    (by show (modeDone .powerDown b0 s0).clock.toNat + 100 < 2 ^ 64; omega)
  have c2 : (modeDone .fuseRom b1 (setMgStage 1 (modeDone .powerDown b0 s0))).ctrl = s0.ctrl :=
    (modeDone_ctrl _ _ _).trans c1
  have l2 : (modeDone .fuseRom b1 (setMgStage 1 (modeDone .powerDown b0 s0))).bt.sel
      = some (modeDone .fuseRom b1 (setMgStage 1 (modeDone .powerDown b0 s0))).cfg.mgAddr := by
    rw [modeDone_sel, modeDone_cfg]
  have k2 : (modeDone .fuseRom b1 (setMgStage 1 (modeDone .powerDown b0 s0))).clock.toNat
      = s0.clock.toNat + 100 := k1
  generalize modeDone .fuseRom b1 (setMgStage 1 (modeDone .powerDown b0 s0)) = m2 at *
  obtain ⟨q3, e3⟩ := devRead_full (dev := .mg) (reg := m2.cfg.mgAsa) (bs := asa) (n := 3)
    (s := setMgStage 2 ((m2.withEnv (readAns asa ++ (modeAns .powerDown b2 ++ es))).withSeq q2))
    (es := modeAns .powerDown b2 ++ es)
    (by show m2.ctrl.btAttach = true; rw [c2]; exact hb) hn
    (by rw [selectAns_selected (by exact l2)]; rfl)
  have e3' : ((((mgSetMode .powerDown s0).andThen fun _ t => mgSetMode .fuseRom (setMgStage 1 t)).andThen fun _ t =>
      (devRead .mg t.cfg.mgAsa 3 (setMgStage 2 t)).andThen fun bs t => .ret () (setMgStage 3 (setMgAdj bs t))) : Res Unit)
      = .ret () (((setMgStage 3 (setMgAdj asa (readDone m2.cfg.mgAddr m2.cfg.mgAsa asa (setMgStage 2 m2)))).withEnv
        (modeAns .powerDown b2 ++ es)).withSeq q3) := by
    rw [e2, Res.andThen]
    simp only [State.withSeq_cfg, State.withEnv_cfg]
    rw [e3]
    rfl
  obtain ⟨q4, e4⟩ := mgSetMode_next (f := fun u => u) e3' (fun _ _ _ => rfl) rfl
    (by show m2.ctrl.mgTAttach = true; rw [c2]; exact hd)
    (by show m2.ctrl.btAttach = true; rw [c2]; exact hb)
    (by show m2.clock.toNat + 100 < 2 ^ 64; omega)
  refine ⟨q4, ?_⟩
  rw [e4]
  rfl

end Sys2Proof.Machine
end

