-- ==== Sys2Proof/Laws/Run.lean ====
section
/-! SUPPORT. What the shared operations of Machine/Env.lean can do, said once: a predicate that the small
moves keep (`Stable`) is kept by every internal step, wait and bus primitive, whatever the environment. -/

namespace Sys2Proof.Machine

open Sys2Proof

/-- Wherever a routine leaves the core, in return, in a raise, `P` holds; if the command is abandoned for
a next state (`rst`), `J` holds of it. -/
def Res.Keeps {α : Type} (P J : State → Prop) : Res α → Prop
  | .ret _ s => P s
  | .raise _ s => P s
  | .stop (.next t) => J t
  | .stop (.fault _) => True
  | .stop (.refused _) => True

/-- If an outcome is a next state, `J` holds of it. -/
def Ends (J : State → Prop) : Host.Outcome State Fault Refusal → Prop
  | .next t => J t
  | .fault _ => True
  | .refused _ => True

theorem Ends.next {J : State → Prop} {o : Host.Outcome State Fault Refusal} {t : State}
    (h : Ends J o) (e : o = .next t) : J t := by
  subst e; exact h

section
variable {α β : Type} {P J : State → Prop}

/-- In sequence, when the first routine keeps more. -/
theorem Res.Keeps.andThen_of {Q : State → Prop} {r : Res α} {f : α → State → Res β} (h : r.Keeps Q J)
    (hQ : ∀ t, Q t → P t) (hf : ∀ a t, Q t → (f a t).Keeps P J) : (r.andThen f).Keeps P J := by
  cases r with
  | ret a s => exact hf a s h
  | raise e s => exact hQ s h
  | stop o => cases o <;> exact h

theorem Res.Keeps.andThen {r : Res α} {f : α → State → Res β} (h : r.Keeps P J)
    (hf : ∀ a t, P t → (f a t).Keeps P J) : (r.andThen f).Keeps P J :=
  h.andThen_of (fun _ ht => ht) hf

theorem Res.Keeps.handle {r : Res α} {f : α → State → Res β} {g : Err → State → Res β}
    (h : r.Keeps P J) (hf : ∀ a t, P t → (f a t).Keeps P J) (hg : ∀ e t, P t → (g e t).Keeps P J) :
    (r.handle f g).Keeps P J := by
  cases r with
  | ret a s => exact hf a s h
  | raise e s => exact hg e s h
  | stop o => cases o <;> exact h

theorem Res.Keeps.mapErr {r : Res α} {f : Err → State → Err} (h : r.Keeps P J) :
    (r.mapErr f).Keeps P J := by
  cases r with
  | ret a s => exact h
  | raise e s => exact h
  | stop o => cases o <;> exact h

theorem Res.Keeps.weaken {P' J' : State → Prop} {r : Res α} (h : r.Keeps P J) (hP : ∀ s, P s → P' s)
    (hJ : ∀ s, J s → J' s) : r.Keeps P' J' := by
  cases r with
  | ret a s => exact hP s h
  | raise e s => exact hP s h
  | stop o =>
    cases o with
    | next t => exact hJ t h
    | fault _ => trivial
    | refused _ => trivial

end

/-- `P` is kept by what happens around the core's own work: the environment list is used up, the core
sends something out, the sequencer moves on, time passes, the host makes an access; and `rst` leads from
it to `J`. -/
structure Stable (P J : State → Prop) : Prop where
  used : ∀ (s : State) e es, P (s.withEnv (e :: es)) → P (s.withEnv es)
  port : ∀ (s : State) e, P s → P (sendOut s e)
  phase : ∀ (s : State), P s → P (nextPhase s)
  time : ∀ (s : State) c, s.clock ≤ c → P s → P (s.withClock c)
  host : ∀ (s : State) a es t, P (s.withEnv (.outside (.host a) :: es)) → hostAccess (s.withEnv es) a = .ok t → P t
  rst : ∀ (s : State) es, P (s.withEnv (.outside .rst :: es)) → J (inReset (s.withEnv es))

theorem withEnv_self (s : State) : s.withEnv s.env = s := rfl

theorem withEnv_withEnv (s : State) (a b : List Event) : (s.withEnv a).withEnv b = s.withEnv b := rfl

/-- What a host access leaves of the environment list. -/
theorem hostAccess_env {s t : State} {a : HostAccess} (h : hostAccess s a = .ok t) : t.env = s.env := by
  cases a with
  | read addr =>
    simp only [hostAccess, hostRead, readEffect, readOpen] at h
    repeat' split at h
    all_goals simp_all only [Except.ok.injEq, reduceCtorEq]
    all_goals subst h; rfl
  | write addr v =>
    simp only [hostAccess] at h
    split at h
    · obtain rfl := Except.ok.inj h
      generalize hostReg addr = r
      simp only [hostWrite, writeStatus, writeCtrl]
      repeat' split
      all_goals try rfl
      cases r <;> simp only [writeIdle, writeTxdata] <;> repeat' split
      all_goals rfl
    · cases h
  | partWord addr => cases h

/-- An outside move leaves the environment list alone. -/
theorem outsideMove_env {o : Outside} {s t : State} {a : Unit} (h : outsideMove o s = .ret a t) :
    t.env = s.env := by
  cases o with
  | elapse d =>
    simp only [outsideMove, elapse] at h
    split at h
    · cases h; rfl
    · cases h
  | host a =>
    simp only [outsideMove] at h
    split at h
    · cases h; exact hostAccess_env ‹_›
    · cases h
  | rst => cases h
  | release => cases h; rfl

/-- A clock to which time was added is not earlier. -/
theorem clock_le_add {c : Stamp} {d : Nat} (h : c.toNat + d < 2 ^ 64) :
    c ≤ BitVec.ofNat 64 (c.toNat + d) := by
  rw [BitVec.le_def, BitVec.toNat_ofNat, Nat.mod_eq_of_lt h]
  omega

/-- A clock moved up to a deadline is not earlier. -/
theorem clock_le_max {c : Stamp} {d : Nat} (h : d < 2 ^ 64) :
    c ≤ BitVec.ofNat 64 (max c.toNat d) := by
  rw [BitVec.le_def, BitVec.toNat_ofNat, Nat.mod_eq_of_lt (by omega)]
  omega

namespace Stable
variable {P J : State → Prop} (st : Stable P J)
include st

/-- What an outside move can do. -/
theorem outsideMove (o : Outside) (s : State) (es : List Event)
    (h : P (s.withEnv (.outside o :: es))) : (outsideMove o (s.withEnv es)).Keeps P J := by
  cases o with
  | elapse d =>
    simp only [Machine.outsideMove, elapse]
    split
    · exact st.time _ _ (clock_le_add ‹_›) (st.used _ _ _ h)
    · trivial
  | host a =>
    simp only [Machine.outsideMove]
    split
    · exact st.host _ _ _ _ h ‹_›
    · trivial
  | rst => exact st.rst _ _ h
  | release => exact st.used _ _ _ h

/-- What the outside moves before an internal step can do. -/
theorem letOutside (deadline : Nat) (es : List Event) :
    ∀ s, P (s.withEnv es) → (letOutside deadline es s).Keeps P J := by
  induction es with
  | nil => exact fun s h => h
  | cons e es ih =>
    intro s h
    cases e with
    | outside o =>
      simp only [Machine.letOutside]
      split
      · have hm := st.outsideMove o s es h
        cases hr : Machine.outsideMove o (s.withEnv es) with
        | ret a t =>
          rw [hr] at hm
          refine ih t ?_
          have : t.withEnv es = t := by
            have := outsideMove_env hr
            rw [State.withEnv_env] at this
            rw [← this]; rfl
          rwa [this]
        | raise e t => rw [hr] at hm; exact hm
        | stop o => rw [hr] at hm; exact hm
      · exact h
    | turn => exact st.used _ _ _ h
    | answer a => exact h

/-- What waiting for an answer can do. -/
theorem awaitAnswer {β : Type} (accept : Answer → Option β) (es : List Event) :
    ∀ s, P (s.withEnv es) → (awaitAnswer accept es s).Keeps P J := by
  induction es with
  | nil => exact fun s h => trivial
  | cons e es ih =>
    intro s h
    cases e with
    | outside o =>
      simp only [Machine.awaitAnswer]
      have hm := st.outsideMove o s es h
      cases hr : Machine.outsideMove o (s.withEnv es) with
      | ret a t =>
        rw [hr] at hm
        refine ih t ?_
        have : t.withEnv es = t := by
          have := outsideMove_env hr
          rw [State.withEnv_env] at this
          rw [← this]; rfl
        rwa [this]
      | raise e t => rw [hr] at hm; exact hm
      | stop o => rw [hr] at hm; cases o <;> exact hm
    | turn => exact ih s (st.used _ _ _ h)
    | answer a =>
      simp only [Machine.awaitAnswer]
      split
      · exact st.used _ _ _ h
      · exact ih s (st.used _ _ _ h)

theorem corePoint {s : State} (h : P s) : (corePoint s).Keeps P J :=
  st.letOutside 0 s.env (nextPhase s) (st.phase s h)

theorem readTime {s : State} (h : P s) : (readTime s).Keeps P J :=
  (st.corePoint h).andThen fun _ _ h => h

theorem waitTo {t : Nat} {s : State} (h : P s) : (waitTo t s).Keeps P J := by
  refine (st.letOutside t s.env (nextPhase s) (st.phase s h)).andThen fun _ u hu => ?_
  simp only [wakeAt]
  split
  · exact st.time _ _ (clock_le_max ‹_›) hu
  · trivial

theorem waitFor {d : Nat} {s : State} (h : P s) : (waitFor d s).Keeps P J :=
  (st.corePoint h).andThen fun _ _ ht => st.waitTo (st.port _ _ ht)

theorem waitUntil {t : Stamp} {s : State} (h : P s) : (waitUntil t s).Keeps P J :=
  (st.corePoint h).andThen fun _ _ hu => st.waitTo (st.port _ _ hu)

theorem busPrimitive {β : Type} {sent : PortEvent} {accept : Answer → Option β} {s : State} (h : P s) :
    (busPrimitive sent accept s).Keeps P J :=
  (st.corePoint h).andThen fun _ t ht => st.awaitAnswer accept _ (nextPhase (sendOut t sent))
    (st.phase _ (st.port _ _ ht))

/-- What completing a command can do. -/
theorem completing {K : State → Prop} {result : State → State} {r : Res Unit} (hr : r.Keeps P J)
    (hJ : ∀ s, J s → K s) (hdone : ∀ s, P s → K (completeCommand s))
    (hfail : ∀ e s, P s → K (failCommand result e s)) : Ends K (completing result r) := by
  have hc : ∀ s, P s → ∀ f : State → State, (∀ t, P t → K (f t)) → Ends K (closing (Machine.corePoint s) f) := by
    intro s hs f hf
    have := st.corePoint hs
    cases hcp : Machine.corePoint s with
    | ret a t => rw [hcp] at this; exact hf t this
    | raise e t => rw [hcp] at this; exact hf t this
    | stop o =>
      rw [hcp] at this
      cases o with
      | next t => exact hJ t this
      | fault _ => trivial
      | refused _ => trivial
  cases r with
  | ret a s => exact hc s hr _ hdone
  | raise e s => exact hc s hr _ (hfail e)
  | stop o =>
    cases o with
    | next t => exact hJ t hr
    | fault _ => trivial
    | refused _ => trivial

/-- What a command can do: only `cmd_ovr` while busy; the `Illegal` completion; or start, routine and
completion. -/
theorem command {K : State → Prop} {op : BitVec 6} {legal : Bool} {result : State → State}
    {body : State → Res Unit} {s : State}
    (hbusy : s.cmd.busy = true → K (s.withCmd { s.cmd with cmdOvr := true }))
    (hillegal : s.cmd.busy = false → legal = false → K (illegalCommand s))
    (hstart : s.cmd.busy = false → legal = true → P (startCommand op s))
    (hbody : legal = true → ∀ t, P t → (body t).Keeps P J)
    (hJ : ∀ s, J s → K s) (hdone : ∀ s, P s → K (completeCommand s))
    (hfail : ∀ e s, P s → K (failCommand result e s)) : Ends K (command op legal result body s) := by
  simp only [Machine.command, turnedAway]
  split
  · exact hbusy ‹_›
  · rename_i hb
    have hb : s.cmd.busy = false := by simpa using hb
    split
    · rename_i hl
      exact st.completing ((st.corePoint (hstart hb hl)).andThen fun _ t ht => hbody hl t ht)
        hJ hdone hfail
    · rename_i hl
      exact hillegal hb (by simpa using hl)

end Stable

end Sys2Proof.Machine
end

