-- ==== Sys2Proof/Laws/Bus.lean ====
section
/-! SUPPORT. What a host access can do while a command runs, and what the bus operations and the device
operations can do, said once: a predicate that their small moves keep (`BusStable`) is kept by them. -/

namespace Sys2Proof.Machine

open Sys2Proof

/-- While a command runs a read has no side effect. -/
theorem readEffect_busy {s : State} (hb : s.cmd.busy = true) (r : HostReg) : readEffect s r = s := by
  simp [readEffect, hb]

/-- All a host read can do while a command runs. -/
theorem hostRead_busy {s : State} (hb : s.cmd.busy = true) (addr : BitVec 9) (r : HostReg) :
    ∃ port free, hostRead s addr r = (s.withPort port).withFree free := by
  simp only [hostRead, readEffect_busy hb]
  generalize readValue s r = v
  cases v with
  | none => exact ⟨_, _, rfl⟩
  | some v => exact ⟨.hostData addr v :: s.port, s.free, rfl⟩

/-- All a host access can do while `rst` is asserted. -/
theorem heldAccess_cases {s t : State} {a : HostAccess} (h : heldAccess s a = .ok t) :
    ∃ port free, t = (s.withPort port).withFree free := by
  cases a with
  | read addr =>
    simp only [heldAccess] at h
    split at h
    · cases h; exact ⟨_, _, rfl⟩
    · cases h
  | write addr v =>
    simp only [heldAccess] at h
    split at h
    · cases h; exact ⟨s.port, s.free, rfl⟩
    · cases h
  | partWord addr => cases h

/-- All a host write can do while a command runs (spec/10_state.md R56): the three CTRL bits, the sticky
bits, `rec_valid`. -/
theorem hostWrite_busy {s : State} (hb : s.cmd.busy = true) (v : Word) (r : HostReg) :
    ∃ cancel ieRec ieDone cmdOvr fxSat valid ovr,
      hostWrite s v r = ((s.withCtrl { s.ctrl with cancel := cancel, ieRec := ieRec, ieDone := ieDone }).withCmd
        { s.cmd with cmdOvr := cmdOvr, fxSat := fxSat }).withRcd
        { s.rcd with valid := valid, ovr := ovr } := by
  simp only [hostWrite, writeStatus, writeCtrl]
  rw [if_pos hb, if_pos hb, if_pos hb]
  repeat' split
  · exact ⟨s.ctrl.cancel, s.ctrl.ieRec, s.ctrl.ieDone, _, _, s.rcd.valid, _, rfl⟩
  · exact ⟨(ctrlOfWord v).cancel, (ctrlOfWord v).ieRec, (ctrlOfWord v).ieDone, s.cmd.cmdOvr, s.cmd.fxSat,
      s.rcd.valid, s.rcd.ovr, rfl⟩
  · exact ⟨s.ctrl.cancel, s.ctrl.ieRec, s.ctrl.ieDone, s.cmd.cmdOvr, s.cmd.fxSat, false, s.rcd.ovr, rfl⟩
  · exact ⟨s.ctrl.cancel, s.ctrl.ieRec, s.ctrl.ieDone, true, s.cmd.fxSat, s.rcd.valid, s.rcd.ovr, rfl⟩
  · exact ⟨s.ctrl.cancel, s.ctrl.ieRec, s.ctrl.ieDone, s.cmd.cmdOvr, s.cmd.fxSat, s.rcd.valid, s.rcd.ovr, rfl⟩

/-- All a host access can do while a command runs. -/
theorem hostAccess_running {s t : State} {a : HostAccess} (hb : s.cmd.busy = true)
    (h : hostAccess s a = .ok t) :
    (∃ port free, t = (s.withPort port).withFree free) ∨
    ∃ cancel ieRec ieDone cmdOvr fxSat valid ovr,
      t = ((s.withCtrl { s.ctrl with cancel := cancel, ieRec := ieRec, ieDone := ieDone }).withCmd
        { s.cmd with cmdOvr := cmdOvr, fxSat := fxSat }).withRcd
        { s.rcd with valid := valid, ovr := ovr } := by
  cases a with
  | read addr =>
    simp only [hostAccess] at h
    split at h
    · obtain ⟨p, f, e⟩ := hostRead_busy hb addr (hostReg addr)
      exact .inl ⟨p, f, by rw [← e]; exact (Except.ok.inj h).symm⟩
    · cases h
  | write addr v =>
    simp only [hostAccess] at h
    split at h
    · obtain ⟨c, i, d, o, f, v, r, e⟩ := hostWrite_busy hb v (hostReg addr)
      exact .inr ⟨c, i, d, o, f, v, r, by rw [← e]; exact (Except.ok.inj h).symm⟩
    · cases h
  | partWord addr => cases h

/-- `P` is kept by the moves of a selection and a write, and holds only while a command runs. -/
structure SelectStable (P J : State → Prop) : Prop extends Stable P J where
  busy : ∀ s : State, P s → s.cmd.busy = true
  select : ∀ (s : State) a, P s → s.ctrl.btAttach = true → P (s.withBt { s.bt with sel := some a })
  unselect : ∀ s : State, P s → P (s.withBt { s.bt with sel := none })

/-- `P` is kept by the moves of the bus operations. -/
structure BusStable (P J : State → Prop) : Prop extends SelectStable P J where
  attempt : ∀ (s : State) k, k ≤ 5 → P s → P (s.withBt { s.bt with attempt := k })
  received : ∀ (s : State) bs, bs.length ≤ 511 → P s → P (rxStore s bs)
  unreceived : ∀ s : State, P s → P (rxFailed s)

/-- While a command runs the bus stays attached. -/
theorem SelectStable.attached {P J : State → Prop} (st : SelectStable P J) :
    Stable (fun s => P s ∧ s.ctrl.btAttach = true) J where
  used := fun s e es h => ⟨st.used s e es h.1, h.2⟩
  port := fun s e h => ⟨st.port s e h.1, h.2⟩
  phase := fun s h => ⟨st.phase s h.1, h.2⟩
  time := fun s c hc h => ⟨st.time s c hc h.1, h.2⟩
  host := by
    intro s a es t h ha
    refine ⟨st.host s a es t h.1 ha, ?_⟩
    obtain ⟨_, _, rfl⟩ | ⟨_, _, _, _, _, _, _, rfl⟩ := hostAccess_running (s := s.withEnv es) (st.busy (s.withEnv (.outside (.host a) :: es)) h.1) ha <;> exact h.2
  rst := fun s es h => st.rst s es h.1

theorem rdCheck_keeps {P J : State → Prop} {dev : Dev} {s : State} (h : P s) :
    (rdCheck dev s).Keeps P J := by
  simp only [rdCheck]; split <;> exact h

section
variable {P J : State → Prop} (st : SelectStable P J)
include st

/-- What a selection can do. -/
theorem btSelect_keeps {a : BitVec 7} {s : State} (h : P s) (ha : s.ctrl.btAttach = true) :
    (btSelect a s).Keeps P J := by
  simp only [btSelect]
  split
  · exact h
  · have hp := st.attached.busPrimitive (sent := .select a) (accept := selectAnswer) (s := s) ⟨h, ha⟩
    simp only [busSelect]
    cases hr : busPrimitive (.select a) selectAnswer s with
    | ret ok t =>
      rw [hr] at hp
      simp only [Res.andThen]
      split
      · exact st.select t a hp.1 hp.2
      · exact st.unselect t hp.1
    | raise e t => rw [hr] at hp; exact hp.1
    | stop o => rw [hr] at hp; cases o <;> exact hp

/-- What `BT_WRITE` can do. -/
theorem memWrite_keeps {a : BitVec 7} {reg : Byte} {bs : List Byte} {s : State} (h : P s) :
    (memWrite a reg bs s).Keeps P J := by
  simp only [memWrite]
  split
  · exact h
  · rename_i ha
    split
    · exact h
    · refine (btSelect_keeps st h (by simpa using ha)).andThen fun _ t ht => ?_
      refine (st.busPrimitive ht).andThen fun r u hu => ?_
      split
      · exact hu
      · split <;> exact hu

theorem devWrite_keeps {dev : Dev} {reg : Byte} {bs : List Byte} {s : State} (h : P s) :
    (devWrite dev reg bs s).Keeps P J := (memWrite_keeps st h).mapErr

end

section
variable {P J : State → Prop} (st : BusStable P J)
include st

theorem afterShort_keeps {left : Nat} {s : State} {again : State → Res (List Byte)} (h : P s)
    (hagain : ∀ t, P t → (again t).Keeps P J) : (afterShort left s again).Keeps P J := by
  simp only [afterShort]
  split
  · exact st.unreceived s h
  · exact (st.waitFor h).andThen fun _ t ht => hagain t ht

/-- What the read attempts can do. -/
theorem readAttempts_keeps {reg : Byte} {n : Nat} (hn : n ≤ 511) (left : Nat) :
    ∀ s, P s → (readAttempts reg n left s).Keeps P J := by
  induction left with
  | zero => exact fun s h => st.unreceived s h
  | succ left ih =>
    intro s h
    simp only [readAttempts]
    refine (st.busPrimitive (st.attempt s _ (by simp [Config.rdAttempts]) h)).andThen fun w t ht => ?_
    split
    · exact st.unreceived t ht
    · split
      · refine (st.busPrimitive ht).andThen fun r u hu => ?_
        split
        · exact st.unreceived u hu
        · split
          · exact st.received u _ (by omega) hu
          · exact afterShort_keeps st hu ih
      · exact afterShort_keeps st ht ih

/-- What `BT_READ` can do. -/
theorem memRead_keeps {a : BitVec 7} {reg : Byte} {n : Nat} (hn : n ≤ 511) {s : State} (h : P s) :
    (memRead a reg n s).Keeps P J := by
  simp only [memRead]
  split
  · exact h
  · rename_i ha
    refine (btSelect_keeps st.toSelectStable h (by simpa using ha)).andThen fun _ t ht => ?_
    exact readAttempts_keeps st hn _ _ (st.attempt t 0 (by omega) ht)

theorem devRead_keeps {dev : Dev} {reg : Byte} {n : Nat} (hn : n ≤ 511) {s : State} (h : P s) :
    (devRead dev reg n s).Keeps P J := (memRead_keeps st hn h).mapErr

/-- What a bit-field read can do. -/
theorem rdBits_keeps {dev : Dev} {reg : Byte} {first len : Nat} {s : State} (h : P s) :
    (rdBits dev reg first len s).Keeps P J :=
  (rdCheck_keeps h).andThen fun _ _ ht => (devRead_keeps st (by omega) ht).andThen fun _ _ hu => hu

/-- What a bit-field write can do. -/
theorem wrBits_keeps (hrmw : ∀ (s : State) b, P s → P (s.withRmw b)) {dev : Dev} {reg : Byte}
    {first len : Nat} {v : Byte} {s : State} (h : P s) : (wrBits dev reg first len v s).Keeps P J :=
  (rdCheck_keeps h).andThen fun _ _ ht => (devRead_keeps st (by omega) ht).andThen fun _ _ hu =>
    devWrite_keeps st.toSelectStable (hrmw _ _ hu)

theorem agRead6_keeps {reg : Byte} {s : State} (h : P s) : (agRead6 reg s).Keeps P J :=
  (rdCheck_keeps h).andThen fun _ _ ht => (devRead_keeps st (by omega) ht).andThen fun _ _ hu => hu

/-- What a status burst can do. -/
theorem mgBurst_keeps (hovf : ∀ (s : State) v, P s → P (s.withMg { s.mg with ovf := v })) {s : State}
    (h : P s) : (mgBurst s).Keeps P J := by
  refine (rdCheck_keeps h).andThen fun _ t ht => ?_
  refine (devRead_keeps st (by simp [Config.mgBurstLen]) ht).andThen fun bs u hu => ?_
  split
  · exact hu
  · split
    · exact hovf u true hu
    · exact hovf u false hu

end

/-- The further moves of the accelerometer and gyroscope driver. -/
structure AgStable (P J : State → Prop) : Prop extends BusStable P J where
  rmw : ∀ (s : State) b, P s → P (s.withRmw b)
  arange : ∀ (s : State) c, P s → P (s.withAg { s.ag with arange := c, ares := aresTable c })
  grange : ∀ (s : State) c, P s → P (s.withAg { s.ag with grange := c, gres := gresTable c })
  agState : ∀ (s : State) v, P s → P (setAgState v s)

/-- The further moves of the magnetometer driver. -/
structure MgStable (P J : State → Prop) : Prop extends BusStable P J where
  rmw : ∀ (s : State) b, P s → P (s.withRmw b)
  mode : ∀ (s : State) m, P s → P (s.withMg { s.mg with mode := m })
  resbit : ∀ (s : State) c, P s → P (s.withMg { s.mg with resbit := c, res := mresTable c })
  mgStage : ∀ (s : State) n, n.toNat ≤ 4 → P s → P (setMgStage n s)
  mgAdj : ∀ (s : State) bs, P s → P (setMgAdj bs s)
  mgFresh : ∀ s : State, P s → P (s.withMg { s.mg with initDone := false, stage := 0 })
  mgDone : ∀ s : State, P s → P (s.withMg { s.mg with initDone := true })

section
variable {P J : State → Prop} (st : AgStable P J)
include st

theorem agSetRangeA_keeps {code : BitVec 2} {s : State} (h : P s) : (agSetRangeA code s).Keeps P J :=
  (wrBits_keeps st.toBusStable st.rmw h).andThen fun _ t ht => st.arange t code ht

theorem agSetRangeG_keeps {code : BitVec 2} {s : State} (h : P s) : (agSetRangeG code s).Keeps P J :=
  (wrBits_keeps st.toBusStable st.rmw h).andThen fun _ t ht => st.grange t code ht

/-- What a micro-operation can do. -/
theorem microOp_keeps {m : MicroOp} {s : State} (h : P s) : (microOp m s).Keeps P J := by
  cases m with
  | wbits f v => exact wrBits_keeps st.toBusStable st.rmw h
  | wbyte reg v => exact devWrite_keeps st.toSelectStable h
  | setgr code => exact agSetRangeG_keeps st h
  | setar code => exact agSetRangeA_keeps st h
  | delay d => exact st.waitFor h

theorem microOps_keeps (ms : List MicroOp) : ∀ s, P s → (microOps ms s).Keeps P J := by
  induction ms with
  | nil => exact fun s h => h
  | cons m ms ih => exact fun s h => (microOp_keeps st h).andThen fun _ t ht => ih t ht

theorem agStage_keeps {ops : List MicroOp} {reached : AgState} {s : State} (h : P s) :
    (agStage ops reached s).Keeps P J :=
  ((microOps_keeps st ops s h).mapErr).andThen fun _ t ht => st.agState t reached ht

/-- What AG_INIT can do. -/
theorem agInitialize_keeps {s : State} (h : P s) : (agInitialize s).Keeps P J :=
  (rdCheck_keeps h).andThen fun _ t ht =>
    (agStage_keeps st (st.agState t _ ht)).andThen fun _ _ h =>
    (agStage_keeps st h).andThen fun _ _ h => (agStage_keeps st h).andThen fun _ _ h =>
    (agStage_keeps st h).andThen fun _ _ h => (agStage_keeps st h).andThen fun _ u h =>
    st.agState u .ready h

end

section
variable {P J : State → Prop} (st : MgStable P J)
include st

/-- What MG_SETMODE can do. -/
theorem mgSetMode_keeps {m : MagMode} {s : State} (h : P s) : (mgSetMode m s).Keeps P J := by
  refine (wrBits_keeps st.toBusStable st.rmw h).andThen fun _ t ht => ?_
  have := st.mode t m ht
  simp only
  split
  · exact st.waitFor this
  · exact this

theorem mgStages_keeps {s : State} (h : P s) : (mgStages s).Keeps P J :=
  (mgSetMode_keeps st h).andThen fun _ t h =>
    (mgSetMode_keeps st (st.mgStage t 1 (by decide) h)).andThen fun _ t h =>
    (devRead_keeps st.toBusStable (by omega) (st.mgStage t 2 (by decide) h)).andThen fun bs t h =>
    (mgSetMode_keeps st (st.mgStage _ 3 (by decide) (st.mgAdj t bs h))).andThen fun _ t h =>
    st.mgStage t 4 (by decide) h

/-- What MG_INIT can do. -/
theorem mgInitialize_keeps {s : State} (h : P s) : (mgInitialize s).Keeps P J :=
  (rdCheck_keeps h).andThen fun _ t ht =>
    ((mgStages_keeps st (st.mgFresh t ht)).mapErr).andThen fun _ u hu => st.mgDone u hu

theorem mgSetRes_keeps {code : BitVec 1} {s : State} (h : P s) : (mgSetRes code s).Keeps P J :=
  (wrBits_keeps st.toBusStable st.rmw h).andThen fun _ t ht => st.resbit t code ht

theorem mgSetModeNum_keeps {mode : BitVec 3} {s : State} (h : P s) : (mgSetModeNum mode s).Keeps P J := by
  simp only [mgSetModeNum]
  split
  · exact mgSetMode_keeps st h
  · exact h

end

/-- The further moves of the poll of group `g`. -/
structure GroupStable (g : Group) (P J : State → Prop) : Prop extends BusStable P J where
  ovf : g = .mag → ∀ (s : State) v, P s → P (s.withMg { s.mg with ovf := v })
  rawOk : ∀ (s : State) v, P s → P (setRawOk g v s)
  raw : ∀ (s : State) r, P s → P (putRaw g s r)

section
variable {P J : State → Prop}

theorem groupRead_keeps {g : Group} (st : GroupStable g P J) {s : State} (h : P s) :
    (groupRead g s).Keeps P J := by
  cases g with
  | acc => exact agRead6_keeps st.toBusStable h
  | gyr => exact agRead6_keeps st.toBusStable h
  | mag => exact mgBurst_keeps st.toBusStable (st.ovf rfl) h

/-- What the poll of a group can do. -/
theorem pollGroup_keeps {g : Group} (st : GroupStable g P J) {s : State} (h : P s) :
    (pollGroup g s).Keeps P J := by
  simp only [pollGroup]
  split
  · exact (groupRead_keeps st h).handle (fun r t ht => st.rawOk _ true (st.raw t r ht))
      (fun e t ht => st.rawOk t false ht)
  · exact st.rawOk s false h

/-- What the capture time stamp of a poll does. -/
theorem stampRaw_keeps (st : Stable P J)
    (stamp : ∀ s : State, P s → P (s.withSa { s.sa with ts := s.clock })) {s : State} (h : P s) :
    (stampRaw s).Keeps P J := by
  have := st.corePoint h
  simp only [stampRaw, readTime]
  cases hr : corePoint s with
  | ret a t => rw [hr] at this; exact st.corePoint (stamp t this)
  | raise e t => rw [hr] at this; exact this
  | stop o => rw [hr] at this; cases o <;> exact this

/-- What SA.POLLA, SA.POLLG and SA.POLLM can do. -/
theorem pollOne_keeps {g : Group} (st : GroupStable g P J)
    (stamp : ∀ s : State, P s → P (s.withSa { s.sa with ts := s.clock }))
    (hres : ∀ (s : State) v, P s → P (setResult s v)) {s : State} (h : P s) : (pollOne g s).Keeps P J :=
  (stampRaw_keeps st.toStable stamp h).andThen fun _ t ht =>
    (pollGroup_keeps st ht).andThen fun r u hu => by cases r <;> exact hres u _ hu

theorem pollAll_keeps (st : Stable P J) (gs : List Group) (hg : ∀ g ∈ gs, GroupStable g P J) :
    ∀ first s, P s → (pollAll gs first s).Keeps P J := by
  induction gs with
  | nil => exact fun _ s h => h
  | cons g gs ih =>
    exact fun first s h => (st.corePoint h).andThen fun _ t ht =>
      (pollGroup_keeps (hg g (.head _)) ht).andThen fun r u hu =>
        ih (fun g' h' => hg g' (.tail _ h')) _ u hu

/-- What SA.POLL can do. -/
theorem pollFull_keeps (st : Stable P J) (hg : ∀ g, GroupStable g P J)
    (stamp : ∀ s : State, P s → P (s.withSa { s.sa with ts := s.clock }))
    (hres : ∀ (s : State) v, P s → P (setResult s v)) {s : State} (h : P s) :
    (pollFull s).Keeps P J :=
  (stampRaw_keeps st stamp h).andThen fun _ t ht =>
    (pollAll_keeps st _ (fun g _ => hg g) none t ht).andThen fun first u hu => by
      cases first <;> exact hres u _ hu

end

end Sys2Proof.Machine
end

