-- ==== Sys2Proof/Laws/HostIdle.lean ====
section
/-! SUPPORT. What a host access can do while no command runs, said once. -/

namespace Sys2Proof.Machine

open Sys2Proof

/-- All a host read can do while no command runs: the word goes out, and a read of RXDATA moves its
pointer on below `rx_len` (spec/10_state.md R51). -/
theorem hostRead_idle (s : State) (addr : BitVec 9) (r : HostReg) :
    ∃ port free ptr, (ptr = s.buf.rxRptr ∨ ptr = s.buf.rxRptr + 1 ∧ s.buf.rxRptr < s.buf.rxLen) ∧
      hostRead s addr r = ((s.withBuf { s.buf with rxRptr := ptr }).withPort port).withFree free := by
  simp only [hostRead]
  generalize readValue s r = v
  cases v with
  | none => exact ⟨_, _, s.buf.rxRptr, .inl rfl, rfl⟩
  | some v =>
    simp only [readEffect]
    split
    · rename_i h
      exact ⟨.hostData addr v :: s.port, s.free, _, .inr ⟨rfl, h.2.2⟩, rfl⟩
    · exact ⟨.hostData addr v :: s.port, s.free, _, .inl rfl, rfl⟩

/-- All a host write can do while no command runs, by the register written. -/
theorem hostWrite_idle {s : State} (hb : s.cmd.busy = false) (v : Word) (r : HostReg) :
    (∃ cmdOvr fxSat valid ovr, hostWrite s v r =
      (s.withCmd { s.cmd with cmdOvr := cmdOvr, fxSat := fxSat }).withRcd { s.rcd with valid := valid, ovr := ovr }) ∨
    (∃ bt, (bt.attempt = s.bt.attempt ∧ (bt.sel = s.bt.sel ∧ (ctrlOfWord v).btAttach = true ∨ bt.sel = none)) ∧
      hostWrite s v r = (s.withCtrl (ctrlOfWord v)).withBt bt) ∨
    hostWrite s v r = s.withSs { s.ss with period := v } ∨
    (s.buf.txLen < Config.wrMax ∧ hostWrite s v r = s.withBuf { s.buf with
      tx := Memory.write s.buf.tx s.buf.txLen (v.truncate 8), txLen := s.buf.txLen + 1 }) ∨
    hostWrite s v r = s.withBuf { s.buf with txLen := 0 } ∨
    hostWrite s v r = s.withBuf { s.buf with rxRptr := 0 } ∨
    (∃ i, hostWritableX i = true ∧ hostWrite s v r = s.setX i v) ∨
    (∃ c, hostWrite s v r = s.withCal c) ∨
    hostWrite s v r = s := by
  have same : ∀ {p q : Prop}, p → q ∨ p := fun h => .inr h
  have hb' : ¬s.cmd.busy = true := by simp [hb]
  obtain ⟨w, e⟩ : ∃ w, hostWrite s v r = w := ⟨_, rfl⟩
  rw [e]
  unfold hostWrite at e
  split at e
  · subst e; exact .inl ⟨_, _, s.rcd.valid, _, rfl⟩
  split at e
  · subst e
    refine .inr (.inl ?_)
    rw [writeCtrl, if_neg hb']
    split
    · exact ⟨s.bt, ⟨rfl, .inl ⟨rfl, ‹_›⟩⟩, rfl⟩
    · exact ⟨{ s.bt with sel := none }, ⟨rfl, .inr rfl⟩, rfl⟩
  split at e
  · subst e; exact .inl ⟨s.cmd.cmdOvr, s.cmd.fxSat, false, s.rcd.ovr, rfl⟩
  split at e
  · subst e; exact .inl ⟨s.cmd.cmdOvr, s.cmd.fxSat, s.rcd.valid, s.rcd.ovr, rfl⟩
  cases r <;> simp only [writeIdle, writeTxdata] at e
  case period => subst e; exact .inr (.inr (.inl rfl))
  case txdata =>
    split at e
    · subst e; exact .inr (.inr (.inr (.inl ⟨‹_›, rfl⟩)))
    · subst e
      iterate 8 apply same
      rfl
  case txctl => subst e; exact .inr (.inr (.inr (.inr (.inl rfl))))
  case rxctl => subst e; exact .inr (.inr (.inr (.inr (.inr (.inl rfl)))))
  case x =>
    split at e
    · subst e; exact .inr (.inr (.inr (.inr (.inr (.inr (.inl ⟨_, ‹_›, rfl⟩))))))
    · subst e
      iterate 8 apply same
      rfl
  case caloff => subst e; exact .inr (.inr (.inr (.inr (.inr (.inr (.inr (.inl ⟨_, rfl⟩)))))))
  case calmat => subst e; exact .inr (.inr (.inr (.inr (.inr (.inr (.inr (.inl ⟨_, rfl⟩)))))))
  all_goals
    subst e
    iterate 8 apply same
    rfl

/-- A host access is a read or a write of an aligned register. -/
theorem hostAccess_cases {s t : State} {a : HostAccess} (h : hostAccess s a = .ok t) :
    (∃ addr, wordAligned addr = true ∧ a = .read addr ∧ t = hostRead s addr (hostReg addr)) ∨
    (∃ addr v, wordAligned addr = true ∧ a = .write addr v ∧ t = hostWrite s v (hostReg addr)) := by
  cases a with
  | read addr =>
    simp only [hostAccess] at h
    split at h
    · exact .inl ⟨addr, ‹_›, rfl, (Except.ok.inj h).symm⟩
    · cases h
  | write addr v =>
    simp only [hostAccess] at h
    split at h
    · exact .inr ⟨addr, v, ‹_›, rfl, (Except.ok.inj h).symm⟩
    · cases h
  | partWord addr => cases h

set_option maxRecDepth 20000 in
/-- An aligned address is that of STATUS, CTRL, REC_CTL or CMD only if it is the address R40, R55 give. -/
theorem hostReg_special {addr : BitVec 9} (ha : wordAligned addr = true) :
    (hostReg addr = .status → addr = 0x004) ∧ (hostReg addr = .ctrl → addr = 0x010) ∧
    (hostReg addr = .recCtl → addr = 0x1A8) ∧ (hostReg addr = .cmd → addr = 0) := by
  revert addr
  decide

end Sys2Proof.Machine
end

