-- ==== Sys2Proof/Laws/Memory.lean ====
section
/-! SUPPORT. The byte buffers: a read after a write, and the canonical form, which every memory operation
keeps. -/

namespace Sys2Proof.Machine

open Sys2Proof

/-- The canonical form as a proposition: addresses rise, no listed byte is 0. -/
theorem Memory.wf_iff (m : Memory) :
    Memory.wf m = true ↔ m.Pairwise (fun c d => c.1 < d.1) ∧ ∀ c ∈ m, c.2 ≠ 0 := by
  simp [Memory.wf]

theorem Memory.wf_nil : Memory.wf [] = true := rfl

/-- The canonical form of a longer memory. -/
theorem Memory.wf_cons (a : Nat) (b : Byte) (m : Memory) :
    Memory.wf ((a, b) :: m) = true ↔ (∀ c ∈ m, a < c.1) ∧ b ≠ 0 ∧ Memory.wf m = true := by
  rw [wf_iff, wf_iff, List.pairwise_cons]
  simp only [List.mem_cons, forall_eq_or_imp]
  tauto

/-- An address not listed reads as 0. -/
theorem Memory.read_unlisted {m : Memory} {k : Nat} (h : ∀ c ∈ m, c.1 ≠ k) : Memory.read m k = 0 := by
  induction m with
  | nil => rfl
  | cons c m ih =>
    obtain ⟨a, b⟩ := c
    have ha : a ≠ k := h _ (.head _)
    simp only [Memory.read, if_neg ha]
    exact ih fun d hd => h d (.tail _ hd)

/-- What a write lists: the written cell or one listed before. -/
theorem Memory.mem_write {m : Memory} {k : Nat} {v : Byte} {c : Host.Cell}
    (h : c ∈ Memory.write m k v) : c ∈ m ∨ (c = (k, v) ∧ v ≠ 0) := by
  induction m with
  | nil => simp only [Memory.write] at h; split at h <;> simp_all
  | cons d m ih =>
    obtain ⟨a, b⟩ := d
    simp only [Memory.write] at h
    repeat' split at h
    all_goals simp_all only [List.mem_cons]
    all_goals tauto

/-- A write keeps the canonical form. -/
theorem Memory.wf_write {m : Memory} (k : Nat) (v : Byte) (h : Memory.wf m = true) :
    Memory.wf (Memory.write m k v) = true := by
  induction m with
  | nil => simp only [Memory.write]; split <;> simp_all [wf_cons, wf_nil]
  | cons d m ih =>
    obtain ⟨a, b⟩ := d
    obtain ⟨h1, h2, h3⟩ := (wf_cons a b m).1 h
    simp only [Memory.write]
    split
    · split
      · exact h
      · refine (wf_cons _ _ _).2 ⟨?_, ‹_›, h⟩
        intro c hc
        rcases List.mem_cons.1 hc with rfl | hc
        · assumption
        · exact lt_trans ‹_› (h1 c hc)
    · split
      · subst k
        split
        · exact h3
        · exact (wf_cons _ _ _).2 ⟨h1, ‹_›, h3⟩
      · refine (wf_cons _ _ _).2 ⟨?_, h2, ih h3⟩
        intro c hc
        rcases mem_write hc with hc | ⟨rfl, -⟩
        · exact h1 c hc
        · omega

/-- A read after a write: the value at the written address, and every other address as before. -/
theorem Memory.read_write {m : Memory} (h : Memory.wf m = true) (k j : Nat) (v : Byte) :
    Memory.read (Memory.write m k v) j = if k = j then v else Memory.read m j := by
  induction m with
  | nil =>
    simp only [Memory.write]
    split <;> rename_i hv
    · split <;> simp_all [Memory.read]
    · simp [Memory.read]
  | cons d m ih =>
    obtain ⟨a, b⟩ := d
    obtain ⟨h1, h2, h3⟩ := (wf_cons a b m).1 h
    have low : ∀ i, i ≤ a → Memory.read m i = 0 := fun i hi =>
      read_unlisted fun c hc => by have := h1 c hc; omega
    simp only [Memory.write]
    split
    · rename_i hka
      split
      · split
        · subst j
          have : a ≠ k := by omega
          simp_all [Memory.read, low k (by omega)]
        · rfl
      · simp [Memory.read]
    · split
      · subst k
        split
        · split
          · subst j; simp_all
          · simp_all [Memory.read]
        · by_cases hj : a = j <;> simp [Memory.read, hj]
      · rename_i hne
        by_cases hj : a = j
        · subst j; simp [Memory.read, Ne.symm, show ¬k = a by omega]
        · simp [Memory.read, hj, ih h3]

/-- A memory written at consecutive addresses keeps the canonical form. -/
theorem Memory.wf_writeFrom {m : Memory} (k : Nat) (bs : List Byte) (h : Memory.wf m = true) :
    Memory.wf (Memory.writeFrom m k bs) = true := by
  induction bs generalizing m k with
  | nil => exact h
  | cons b bs ih => exact ih (k + 1) (wf_write k b h)

/-- Reading after consecutive writes: the bytes written, and every other address as before. -/
theorem Memory.read_writeFrom {m : Memory} (h : Memory.wf m = true) (k j : Nat) (bs : List Byte) :
    Memory.read (Memory.writeFrom m k bs) j =
      if k ≤ j ∧ j < k + bs.length then bs.getD (j - k) 0 else Memory.read m j := by
  induction bs generalizing m k with
  | nil => rw [if_neg (by simp only [List.length_nil]; omega)]; rfl
  | cons b bs ih =>
    simp only [Memory.writeFrom, ih (wf_write k b h), read_write h, List.length_cons]
    by_cases h1 : k = j
    · subst j
      simp
    · by_cases h2 : k + 1 ≤ j ∧ j < k + 1 + bs.length
      · have : j - k = (j - (k + 1)) + 1 := by omega
        simp [h2, this, show k ≤ j ∧ j < k + (bs.length + 1) by omega]
      · rw [if_neg h2, if_neg h1, if_neg (by omega)]

/-- What consecutive writes list. -/
theorem Memory.mem_writeFrom {m : Memory} {k : Nat} {bs : List Byte} {c : Host.Cell}
    (h : c ∈ Memory.writeFrom m k bs) : c ∈ m ∨ (k ≤ c.1 ∧ c.1 < k + bs.length) := by
  induction bs generalizing m k with
  | nil => exact .inl h
  | cons b bs ih =>
    rcases ih h with h | h
    · rcases mem_write h with h | ⟨rfl, -⟩
      · exact .inl h
      · exact .inr (by simp)
    · exact .inr (by simp only [List.length_cons]; omega)

/-- The free bytes of a read that raised are in canonical form, below address 511. -/
theorem wf_freeBuffer (k : Nat) : Memory.wf (freeBuffer k) = true := by
  rw [Memory.wf_iff, freeBuffer]
  constructor
  · refine List.Pairwise.filter _ (List.pairwise_map.2 ?_)
    exact List.pairwise_lt_range
  · intro c hc
    simpa using (List.mem_filter.1 hc).2

theorem freeBuffer_lt (k : Nat) (c : Host.Cell) (h : c ∈ freeBuffer k) : c.1 < 511 := by
  rw [freeBuffer] at h
  obtain ⟨i, hi, rfl⟩ := List.mem_map.1 (List.mem_filter.1 h).1
  simpa using hi

@[simp] theorem Memory.length_take (m : Memory) (n : Nat) : (Memory.take m n).length = n := by
  simp [Memory.take]

/-- A byte of the first `n`. -/
theorem Memory.getD_take (m : Memory) {n k : Nat} (h : k < n) :
    (Memory.take m n).getD k 0 = Memory.read m k := by
  simp [Memory.take, List.getD, h]

end Sys2Proof.Machine
end

