-- ==== Sys2Proof/Laws/Tick.lean ====
section
/-! SUPPORT. What a group poll, a tick and a turn of the loop of SS.RUN do when the environment list holds
their answers and nothing else intervenes. -/

namespace Sys2Proof.Machine

open Sys2Proof

/-! ## The labels of a state: what no computation of the core reads -/

/-- `s` with another environment list, sequencer position and place inside a tick. -/
def relabel (es : List Event) (q : Option SeqPos) (p : SsPhase) (s : State) : State :=
  setSsPhase p ((s.withEnv es).withSeq q)

section
variable (es : List Event) (q : Option SeqPos) (p : SsPhase) (s : State)

theorem withEnv_relabel : (s.withEnv es).withSeq q = relabel es q s.ss.phase s := (rfl)
theorem withEnv_of_relabel (es' : List Event) : (relabel es q p s).withEnv es' = relabel es' q p s := (rfl)
theorem withSeq_of_relabel (q' : Option SeqPos) : (relabel es q p s).withSeq q' = relabel es q' p s := (rfl)
theorem setSsPhase_of_relabel (p' : SsPhase) : setSsPhase p' (relabel es q p s) = relabel es q p' s := (rfl)
theorem relabel_of_relabel (es' : List Event) (q' : Option SeqPos) (p' : SsPhase) :
    relabel es q p (relabel es' q' p' s) = relabel es q p s := (rfl)
theorem relabel_self : relabel s.env s.seq s.ss.phase s = s := (rfl)
theorem nextPhase_of_relabel : ∃ q', nextPhase (relabel es q p s) = relabel es q' p s :=
  ⟨(nextPhase (relabel es q p s)).seq, rfl⟩

theorem relabel_cal : (relabel es q p s).cal = s.cal := (rfl)
theorem relabel_env : (relabel es q p s).env = es := (rfl)
theorem relabel_clock : (relabel es q p s).clock = s.clock := (rfl)
theorem relabel_sa : (relabel es q p s).sa = s.sa := (rfl)
theorem relabel_ag : (relabel es q p s).ag = s.ag := (rfl)
theorem relabel_mg : (relabel es q p s).mg = s.mg := (rfl)
theorem relabel_ctrl : (relabel es q p s).ctrl = s.ctrl := (rfl)
theorem relabel_cfg : (relabel es q p s).cfg = s.cfg := (rfl)
theorem relabel_bt : (relabel es q p s).bt = s.bt := (rfl)
theorem relabel_getX (i : Fin 32) : (relabel es q p s).getX i = s.getX i := (rfl)
theorem relabel_lastTs : (relabel es q p s).ss.lastTs = s.ss.lastTs := (rfl)

theorem setX_relabel (i : Fin 32) (v : Word) :
    (relabel es q p s).setX i v = relabel es q p (s.setX i v) := (rfl)
theorem orSat_relabel (b : Bool) : orSat (relabel es q p s) b = relabel es q p (orSat s b) := (rfl)
theorem setRawOk_relabel (g : Group) (b : Bool) :
    setRawOk g b (relabel es q p s) = relabel es q p (setRawOk g b s) := by cases g <;> rfl
theorem withEstTs_relabel (t : Stamp) :
    (relabel es q p s).withEstTs t = relabel es q p (s.withEstTs t) := (rfl)
theorem withSa_relabel (a : Aggregator) :
    (relabel es q p s).withSa a = relabel es q p (s.withSa a) := (rfl)
theorem withMg_relabel (a : MgDriver) :
    (relabel es q p s).withMg a = relabel es q p (s.withMg a) := (rfl)
theorem lastTs_relabel (t : Stamp) :
    (relabel es q p s).withSs { (relabel es q p s).ss with lastTs := t }
      = relabel es q p (s.withSs { s.ss with lastTs := t }) := (rfl)
theorem readDone_relabel (a : BitVec 7) (reg : Byte) (bs : List Byte) :
    readDone a reg bs (relabel es q p s) = relabel es q p (readDone a reg bs s) := (rfl)
theorem groupReady_relabel (g : Group) : groupReady (relabel es q p s) g = groupReady s g := by
  cases g <;> rfl
theorem groupAddr_relabel (g : Group) : groupAddr g (relabel es q p s) = groupAddr g s := by cases g <;> rfl
theorem groupReg_relabel (g : Group) : groupReg g (relabel es q p s) = groupReg g s := by cases g <;> rfl
theorem readEndFits_relabel (a : BitVec 7) (n : Nat) (r : ReadEnd) :
    r.fits a n (relabel es q p s) = r.fits a n s := by cases r <;> rfl
theorem readEndAns_relabel (a : BitVec 7) (r : ReadEnd) : r.ans a (relabel es q p s) = r.ans a s := by
  cases r <;> rfl
theorem pollAns_relabel (g : Group) (o : Polled) : pollAns g (relabel es q p s) o = pollAns g s o := by
  cases o <;> simp only [pollAns, groupAddr_relabel, readEndAns_relabel]
theorem pollErr_relabel (g : Group) (o : Polled) : o.err g (relabel es q p s) = o.err g s := by
  cases o <;> cases g <;> rfl

theorem setX3_relabel (i j k : Fin 32) (a b c : Word) :
    (relabel es q p s).setX3 i j k a b c = relabel es q p (s.setX3 i j k a b c) := by
  simp only [State.setX3, setX_relabel]

theorem putFx3_relabel (i j k : Fin 32) (a b c : Fx) :
    putFx3 (relabel es q p s) i j k a b c = relabel es q p (putFx3 s i j k a b c) := by
  simp only [putFx3, setX3_relabel, orSat_relabel]

theorem putRaw_relabel (g : Group) (r : Raw3) :
    putRaw g (relabel es q p s) r = relabel es q p (putRaw g s r) := by
  cases g <;> simp only [putRaw, putRawA, putRawG, putRawM, setX3_relabel]

theorem rxFailed_relabel : rxFailed (relabel es q p s) = relabel es q p (rxFailed s) := by
  simp only [rxFailed, show (relabel es q p s).free = s.free from rfl]
  generalize freeBuffer _ = m
  rfl

theorem readTried_relabel (xs : List Short) (sent : List PortEvent) (a : BitVec 7) (reg : Byte) (n : Nat) :
    readTried xs sent a reg n (relabel es q p s) = relabel es q p (readTried xs sent a reg n s) := (rfl)
theorem rxStore_relabel (bs : List Byte) : rxStore (relabel es q p s) bs = relabel es q p (rxStore s bs) := (rfl)

theorem readEndDone_relabel (a : BitVec 7) (reg : Byte) (n : Nat) (r : ReadEnd) :
    r.done a reg n (relabel es q p s) = relabel es q p (r.done a reg n s) := by
  cases r <;> simp only [ReadEnd.done, readGivenUp, readDoneAfter, readTried_relabel, rxFailed_relabel,
    rxStore_relabel]
  all_goals rfl

theorem burstDone_relabel (g : Group) (bs : List Byte) :
    burstDone g bs (relabel es q p s) = relabel es q p (burstDone g bs s) := by
  cases g <;> simp only [burstDone, relabel_cfg, putRawA, putRawG, putRawM, relabel_mg, withMg_relabel,
    setX3_relabel, setRawOk_relabel]
  split
  · rfl
  · split <;> rfl

theorem pollDone_relabel (g : Group) (o : Polled) :
    pollDone g (relabel es q p s) o = relabel es q p (pollDone g s o) := by
  cases o <;> simp only [pollDone, setRawOk_relabel, groupAddr_relabel, groupReg_relabel, readEndDone_relabel,
    burstDone_relabel]
  split <;> rfl

theorem scaledA_relabel : scaledA (relabel es q p s) = scaledA s := by
  simp only [scaledA, rawOf, relabel_getX, relabel_ag]
theorem scaledG_relabel : scaledG (relabel es q p s) = scaledG s := by
  simp only [scaledG, rawOf, relabel_getX, relabel_ag]
theorem scaledM_relabel : scaledM (relabel es q p s) = scaledM s := by
  simp only [scaledM, rawOf, relabel_getX, relabel_mg]

theorem calibrateA_relabel : calibrateA (relabel es q p s) = relabel es q p (calibrateA s) := by
  simp only [calibrateA, putFx, putFx3_relabel, scaledA_relabel, relabel_cal]
theorem calibrateG_relabel : calibrateG (relabel es q p s) = relabel es q p (calibrateG s) := by
  simp only [calibrateG, putFx, putFx3_relabel, scaledG_relabel, relabel_cal]
theorem calibrateM_relabel : calibrateM (relabel es q p s) = relabel es q p (calibrateM s) := by
  simp only [calibrateM, putFx, putFx3_relabel, scaledM_relabel, relabel_cal]

theorem caApply_relabel (a g m : Bool) : caApply a g m (relabel es q p s) = relabel es q p (caApply a g m s) := by
  cases a <;> cases g <;> cases m <;>
    simp only [caApply, if_true, if_false, Bool.false_eq_true, calibrateA_relabel, calibrateG_relabel,
      calibrateM_relabel]

theorem setDt_relabel : setDt (relabel es q p s) = relabel es q p (setDt s) := by
  simp only [setDt, relabel_sa, relabel_lastTs, setX_relabel, orSat_relabel]

theorem newPitch_relabel : newPitch (relabel es q p s) = newPitch s := by
  simp only [newPitch, fxOf, relabel_getX]
theorem newRoll_relabel : newRoll (relabel es q p s) = newRoll s := by
  simp only [newRoll, fxOf, relabel_getX]
theorem newHeading_relabel (a b : Word) : newHeading (relabel es q p s) a b = newHeading s a b := by
  simp only [newHeading, tiltX, tiltY, fxOf, relabel_getX]

theorem oeAccept_relabel : oeAccept (relabel es q p s) = relabel es q p (oeAccept s) := by
  simp only [oeAccept, putFx3_relabel, newPitch_relabel, newRoll_relabel, newHeading_relabel, relabel_sa,
    withEstTs_relabel]

theorem oeStep_taken {s : State} (h : dtAccepted s = true) : oeStep s = (true, oeAccept s) := by
  rw [oeStep, if_pos h]
theorem oeStep_rejected {s : State} (h : dtAccepted s = false) : oeStep s = (false, s) := by
  rw [oeStep, if_neg (by rw [h]; exact Bool.false_ne_true)]

theorem oeStep_relabel : oeStep (relabel es q p s) = ((oeStep s).1, relabel es q p (oeStep s).2) := by
  have hd : dtAccepted (relabel es q p s) = dtAccepted s := rfl
  cases h : dtAccepted s with
  | true => rw [oeStep_taken h, oeStep_taken (hd.trans h), oeAccept_relabel]
  | false => rw [oeStep_rejected h, oeStep_rejected (hd.trans h)]

theorem tickFuse_relabel : tickFuse (relabel es q p s) = ((tickFuse s).1, relabel es q p (tickFuse s).2) := by
  simp only [tickFuse, tickFuses, relabel_sa, relabel_ctrl, setDt_relabel, oeStep_relabel]
  split
  · split
    · simp only [lastTs_relabel]
    · rfl
  · rfl

end

/-! ## Errors -/

/-- No error word is 0: `ERR.CLASS` is 1 to 4 (spec/60_exceptions.md R321). -/
theorem errword_ne_zero (e : Err) : errword e ≠ 0 := by
  obtain ⟨k, d⟩ := e
  intro h
  have h' := congrArg BitVec.toNat h
  rw [show (0 : Word).toNat = 0 from rfl] at h'
  simp only [errword, BitVec.toNat_ofNat] at h'
  have hio : ∀ j : IoKind, j.num ≤ 5 := fun j => by cases j <;> decide
  have hi : k.ioNum ≤ 5 := by
    simp only [ErrKind.ioNum]
    split
    · omega
    · exact hio _
  have hd : d.num ≤ 1 := by cases d <;> decide
  have hs : k.stageNum ≤ 7 := by
    cases k with
    | initSequenceFailed s j => have := s.isLt; simp only [ErrKind.stageNum]; omega
    | _ => simp [ErrKind.stageNum]
  have hc : 1 ≤ k.classNum ∧ k.classNum ≤ 4 := by cases k <;> simp [ErrKind.classNum]
  have hv : k.drvNum ≤ 3 := by cases k <;> simp [ErrKind.drvNum]
  have ht : k.dataNum ≤ 2 := by cases k <;> simp [ErrKind.dataNum]
  omega

/-! ## Polls -/

/-- What a group poll answers the routine that asked for it (spec/45_aggregator.md R253). -/
def pollResult (g : Group) (s : State) (o : Polled) : PollResult :=
  match o.err g s with
  | some e => .failed e
  | none => if o = .unread then .refused else .ok

/-- The read a group poll makes, however it ends. -/
theorem groupRead_ends {g : Group} {r : ReadEnd} {s : State} {es : List Event} (hd : groupDriver g s = true)
    (hf : r.fits (groupAddr g s) (groupLen g) s = true) (he : s.env = r.ans (groupAddr g s) s ++ es)
    (hc : s.clock.toNat + r.delay < 2 ^ 64) :
    ∃ q, (groupRead g s).handle (fun r t => Res.ret PollResult.ok (setRawOk g true (putRaw g t r)))
        (fun e t => .ret (.failed e) (setRawOk g false t)) =
      .ret (pollResult g s (.read r)) (relabel es q s.ss.phase (pollDone g s (.read r))) := by
  have phase : ∀ a reg n, (r.done a reg n s).ss.phase = s.ss.phase := by
    intro a reg n
    cases r <;> simp [ReadEnd.done, readGivenUp, readDoneAfter, readTried, selectLost]
  cases g with
  | acc =>
    obtain ⟨q, hq⟩ := devRead_ends (dev := .ag) (reg := s.cfg.agAccelOut) (n := 6) hf he hc
    refine ⟨q, ?_⟩
    rw [groupRead, agRead6, rdCheck_ok (dev := .ag) hd, Res.ret_andThen, hq]
    have hp := phase (busAddr s.cfg .ag) s.cfg.agAccelOut 6
    simp only [pollResult, Polled.err, pollDone, withEnv_relabel, hp]
    cases hr : r.err with
    | some k => exact congrArg (Res.ret _) (setRawOk_relabel es q s.ss.phase _ .acc false)
    | none =>
      simp only [Res.ret_andThen, Res.handle, putRaw_relabel, setRawOk_relabel, burstErr]
      rfl
  | gyr =>
    obtain ⟨q, hq⟩ := devRead_ends (dev := .ag) (reg := s.cfg.agGyroOut) (n := 6) hf he hc
    refine ⟨q, ?_⟩
    rw [groupRead, agRead6, rdCheck_ok (dev := .ag) hd, Res.ret_andThen, hq]
    have hp := phase (busAddr s.cfg .ag) s.cfg.agGyroOut 6
    simp only [pollResult, Polled.err, pollDone, withEnv_relabel, hp]
    cases hr : r.err with
    | some k => exact congrArg (Res.ret _) (setRawOk_relabel es q s.ss.phase _ .gyr false)
    | none =>
      simp only [Res.ret_andThen, Res.handle, putRaw_relabel, setRawOk_relabel, burstErr]
      rfl
  | mag =>
    obtain ⟨q, hq⟩ := devRead_ends (dev := .mg) (reg := s.cfg.mgBurstReg) (n := Config.mgBurstLen) hf he hc
    refine ⟨q, ?_⟩
    rw [groupRead, mgBurst, rdCheck_ok (dev := .mg) hd, Res.ret_andThen, hq]
    have hp := phase (busAddr s.cfg .mg) s.cfg.mgBurstReg Config.mgBurstLen
    have hcfg : ∀ a reg n, (r.done a reg n s).cfg = s.cfg := by
      intro a reg n
      cases r <;> simp [ReadEnd.done, readGivenUp, readDoneAfter, readTried, selectLost]
    simp only [pollResult, Polled.err, pollDone, withEnv_relabel, hp]
    cases hr : r.err with
    | some k => exact congrArg (Res.ret _) (setRawOk_relabel es q s.ss.phase _ .mag false)
    | none =>
      have hcfg' := hcfg (groupAddr .mag s) (groupReg .mag s) (groupLen .mag)
      simp only [Res.ret_andThen, relabel_cfg, burstErr, burstDone,
        show busAddr s.cfg .mg = groupAddr .mag s from rfl, show s.cfg.mgBurstReg = groupReg .mag s from rfl,
        show Config.mgBurstLen = groupLen .mag from rfl, Option.isSome_none, Bool.false_eq_true, if_false]
      generalize r.done (groupAddr .mag s) (groupReg .mag s) (groupLen .mag) s = u at *
      simp only [hcfg']
      split
      · simp only [Res.handle, setRawOk_relabel]
      · split
        · simp only [Res.handle, withMg_relabel, relabel_mg, setRawOk_relabel]
        · simp only [Res.handle, withMg_relabel, relabel_mg, putRaw, putRawM, setX3_relabel, setRawOk_relabel,
            reduceCtorEq, if_false]

/-- A group poll, whatever comes of it (R253). -/
theorem pollGroup_ends {g : Group} {o : Polled} {s : State} {es : List Event} (hf : pollFits g s o = true)
    (he : s.env = pollAns g s o ++ es) (hc : s.clock.toNat + o.delay < 2 ^ 64) :
    ∃ q, pollGroup g s = .ret (pollResult g s o) (relabel es q s.ss.phase (pollDone g s o)) := by
  cases o with
  | unread =>
    simp only [pollFits, Bool.not_eq_true'] at hf
    have he : s.env = es := he
    subst he
    refine ⟨s.seq, ?_⟩
    rw [pollGroup, if_neg (by simp [hf])]
    cases g <;> rfl
  | disconnected =>
    simp only [pollFits, Bool.and_eq_true, Bool.not_eq_true'] at hf
    have he : s.env = es := he
    subst he
    refine ⟨s.seq, ?_⟩
    rw [pollGroup, if_pos hf.1]
    cases g with
    | acc => rw [groupRead, agRead6, rdCheck_fails (dev := .ag) hf.2]; rfl
    | gyr => rw [groupRead, agRead6, rdCheck_fails (dev := .ag) hf.2]; rfl
    | mag => rw [groupRead, mgBurst, rdCheck_fails (dev := .mg) hf.2]; rfl
  | read r =>
    simp only [pollFits, Bool.and_eq_true] at hf
    rw [pollGroup, if_pos hf.1.1]
    exact groupRead_ends hf.1.2 hf.2 he hc

/-! ### What a group poll leaves alone -/

/-- What a read leaves alone, and the time it takes. -/
theorem readEndDone_fields (a : BitVec 7) (reg : Byte) (n : Nat) (s : State) (r : ReadEnd) :
    (r.done a reg n s).ctrl = s.ctrl ∧ (r.done a reg n s).cfg = s.cfg ∧ (r.done a reg n s).ss = s.ss ∧
    (r.done a reg n s).ag = s.ag ∧ (r.done a reg n s).mg = s.mg ∧ (r.done a reg n s).cmd = s.cmd ∧
    (s.clock.toNat + r.delay < 2 ^ 64 → (r.done a reg n s).clock.toNat = s.clock.toNat + r.delay) := by
  cases r <;> simp [ReadEnd.done, readGivenUp, readDoneAfter, readTried, selectLost, ReadEnd.delay]

theorem burstDone_notReady {bs : List Byte} {s : State} (h : (byteAt bs 0).getLsbD s.cfg.mgDrdyBit = false) :
    burstDone .mag bs s = setRawOk .mag false s := if_pos h

theorem burstDone_overflow {bs : List Byte} {s : State} (h : ¬(byteAt bs 0).getLsbD s.cfg.mgDrdyBit = false)
    (h' : (byteAt bs 7).getLsbD s.cfg.mgHoflBit = true) :
    burstDone .mag bs s = setRawOk .mag false (s.withMg { s.mg with ovf := true }) :=
  (if_neg h).trans (if_pos h')

theorem burstDone_decoded {bs : List Byte} {s : State} (h : ¬(byteAt bs 0).getLsbD s.cfg.mgDrdyBit = false)
    (h' : ¬(byteAt bs 7).getLsbD s.cfg.mgHoflBit = true) :
    burstDone .mag bs s = setRawOk .mag true
      (putRawM (s.withMg { s.mg with ovf := false }) (decodeBurst s.cfg.magLowByteFirst bs)) :=
  (if_neg h).trans (if_neg h')

/-- What decoding or refusing a burst leaves alone. -/
theorem burstDone_fields (g : Group) (bs : List Byte) (s : State) :
    (burstDone g bs s).ctrl = s.ctrl ∧ (burstDone g bs s).cfg = s.cfg ∧ (burstDone g bs s).ss = s.ss ∧
    (burstDone g bs s).ag = s.ag ∧ (burstDone g bs s).cmd = s.cmd ∧ (burstDone g bs s).clock = s.clock ∧
    (burstDone g bs s).mg = { s.mg with ovf := (burstDone g bs s).mg.ovf } := by
  cases g <;> simp only [burstDone]
  · exact ⟨rfl, rfl, rfl, rfl, rfl, rfl, rfl⟩
  · exact ⟨rfl, rfl, rfl, rfl, rfl, rfl, rfl⟩
  · split
    · exact ⟨rfl, rfl, rfl, rfl, rfl, rfl, rfl⟩
    · split <;> exact ⟨rfl, rfl, rfl, rfl, rfl, rfl, rfl⟩

theorem setRawOk_fields (g : Group) (b : Bool) (s : State) :
    (setRawOk g b s).ctrl = s.ctrl ∧ (setRawOk g b s).cfg = s.cfg ∧ (setRawOk g b s).ss = s.ss ∧
    (setRawOk g b s).ag = s.ag ∧ (setRawOk g b s).mg = s.mg ∧ (setRawOk g b s).cmd = s.cmd ∧
    (setRawOk g b s).clock = s.clock := by
  cases g <;> exact ⟨rfl, rfl, rfl, rfl, rfl, rfl, rfl⟩

/-- What a group poll leaves alone, and the time it takes. -/
theorem pollDone_fields (g : Group) (s : State) (o : Polled) :
    (pollDone g s o).ctrl = s.ctrl ∧ (pollDone g s o).cfg = s.cfg ∧ (pollDone g s o).ss = s.ss ∧
    (pollDone g s o).ag = s.ag ∧ (pollDone g s o).cmd = s.cmd ∧
    (pollDone g s o).mg = { s.mg with ovf := (pollDone g s o).mg.ovf } ∧
    (s.clock.toNat + o.delay < 2 ^ 64 → (pollDone g s o).clock.toNat = s.clock.toNat + o.delay) := by
  cases o with
  | unread =>
    obtain ⟨h1, h2, h3, h4, h5, h6, h7⟩ := setRawOk_fields g false s
    exact ⟨h1, h2, h3, h4, h6, by rw [pollDone, h5], fun _ => congrArg BitVec.toNat h7⟩
  | disconnected =>
    obtain ⟨h1, h2, h3, h4, h5, h6, h7⟩ := setRawOk_fields g false s
    exact ⟨h1, h2, h3, h4, h6, by rw [pollDone, h5], fun _ => congrArg BitVec.toNat h7⟩
  | read r =>
    obtain ⟨r1, r2, r3, r4, r5, r6, r7⟩ := readEndDone_fields (groupAddr g s) (groupReg g s) (groupLen g) s r
    simp only [pollDone, Polled.delay]
    generalize r.done (groupAddr g s) (groupReg g s) (groupLen g) s = u at *
    split
    · obtain ⟨h1, h2, h3, h4, h5, h6, h7⟩ := setRawOk_fields g false u
      exact ⟨h1.trans r1, h2.trans r2, h3.trans r3, h4.trans r4, h6.trans r6, by rw [h5, r5],
        fun h => (congrArg BitVec.toNat h7).trans (r7 h)⟩
    · obtain ⟨h1, h2, h3, h4, h5, h6, h7⟩ := burstDone_fields g r.bytes u
      exact ⟨h1.trans r1, h2.trans r2, h3.trans r3, h4.trans r4, h5.trans r6, by rw [h7, r5],
        fun h => (congrArg BitVec.toNat h6).trans (r7 h)⟩

/-- Whether a group is ready depends on the attachments and the drivers, not on the overflow flag. -/
theorem groupReady_congr {s t : State} (h : t.ctrl = s.ctrl) (ha : t.ag = s.ag)
    (hm : t.mg = { s.mg with ovf := t.mg.ovf }) (g : Group) : groupReady t g = groupReady s g := by
  cases g with
  | acc => simp only [groupReady, h, ha]
  | gyr => simp only [groupReady, h, ha]
  | mag =>
    have h1 : t.mg.initDone = s.mg.initDone := by rw [hm]
    have h2 : t.mg.mode = s.mg.mode := by rw [hm]
    simp only [groupReady, h, h1, h2]

theorem groupAttached_congr (g : Group) {s t : State} (h : t.ctrl = s.ctrl) :
    groupAttached t g = groupAttached s g := by
  cases g <;> simp only [groupAttached, h]

theorem groupDriver_congr (g : Group) {s t : State} (h : t.ctrl = s.ctrl) :
    groupDriver g t = groupDriver g s := by
  cases g <;> simp only [groupDriver, h]

theorem pollFits_relabel (es : List Event) (q : Option SeqPos) (p : SsPhase) (g : Group) (s : State)
    (o : Polled) : pollFits g (relabel es q p s) o = pollFits g s o := by
  cases o <;> simp only [pollFits, groupAttached_congr g (relabel_ctrl es q p s),
    groupDriver_congr g (relabel_ctrl es q p s), readEndFits_relabel, groupAddr_relabel]

theorem tickFits_relabel (es : List Event) (q : Option SeqPos) (p : SsPhase) (g : Group) (s : State)
    (o : Polled) : tickFits g (relabel es q p s) o = tickFits g s o := by
  cases o <;> simp only [tickFits, groupReady_relabel, readEndFits_relabel, groupAddr_relabel]

theorem ticksFit_relabel (es : List Event) (q : Option SeqPos) (p : SsPhase) (cs : List (Group × Polled)) :
    ∀ s, ticksFit cs (relabel es q p s) = ticksFit cs s := by
  induction cs with
  | nil => exact fun _ => rfl
  | cons c cs ih => intro s; simp only [ticksFit, tickFits_relabel, pollDone_relabel, ih]

/-- A ready group is attached and its driver has a transport (R252). -/
theorem attached_of_ready {g : Group} {s : State} (h : groupReady s g = true) :
    groupAttached s g = true ∧ groupDriver g s = true := by
  cases g <;> simp only [groupReady, Bool.and_eq_true] at h <;> simp only [groupAttached, groupDriver, h, and_self]

/-! ### Polls in order -/

theorem turnAhead_pollAns {g : Group} {s : State} {o : Polled} {es : List Event} (he : turnAhead es = false) :
    turnAhead (pollAns g s o ++ es) = false := by
  have sh : ∀ (xs : List Short) (l : List Event), turnAhead l = false → turnAhead (shortsAns xs ++ l) = false := by
    intro xs l h
    cases xs with
    | nil => exact h
    | cons x xs => cases x <;> rfl
  cases o with
  | unread => exact he
  | disconnected => exact he
  | read r =>
    cases r with
    | noBus => exact he
    | selectFailed => rfl
    | primeTimedOut xs =>
      simp only [pollAns, ReadEnd.ans, List.append_assoc]
      exact turnAhead_selectAns s _ (sh _ _ rfl)
    | readTimedOut xs =>
      simp only [pollAns, ReadEnd.ans, List.append_assoc]
      exact turnAhead_selectAns s _ (sh _ _ rfl)
    | givenUp xs x =>
      simp only [pollAns, ReadEnd.ans, List.append_assoc]
      exact turnAhead_selectAns s _ (sh _ _ (by cases x <;> rfl))
    | full xs bs =>
      simp only [pollAns, ReadEnd.ans, List.append_assoc]
      exact turnAhead_selectAns s _ (sh _ _ rfl)

theorem turnAhead_pollsAns {es : List Event} (he : turnAhead es = false) (cs : List (Group × Polled)) :
    ∀ s, turnAhead (pollsAns cs s ++ es) = false := by
  induction cs with
  | nil => exact fun _ => he
  | cons c cs ih =>
    intro s
    simp only [pollsAns, List.append_assoc]
    exact turnAhead_pollAns (ih _)

theorem pollsDone_relabel (es : List Event) (q : Option SeqPos) (p : SsPhase) (cs : List (Group × Polled)) :
    ∀ s, pollsDone cs (relabel es q p s) = relabel es q p (pollsDone cs s) := by
  induction cs with
  | nil => exact fun _ => rfl
  | cons c cs ih => intro s; simp only [pollsDone, pollDone_relabel, ih]

theorem pollsAns_relabel (es : List Event) (q : Option SeqPos) (p : SsPhase) (cs : List (Group × Polled)) :
    ∀ s, pollsAns cs (relabel es q p s) = pollsAns cs s := by
  induction cs with
  | nil => exact fun _ => rfl
  | cons c cs ih => intro s; simp only [pollsAns, pollAns_relabel, pollDone_relabel, ih]

theorem pollsErr_relabel (es : List Event) (q : Option SeqPos) (p : SsPhase) (cs : List (Group × Polled)) :
    ∀ s, pollsErr cs (relabel es q p s) = pollsErr cs s := by
  induction cs with
  | nil => exact fun _ => rfl
  | cons c cs ih => intro s; simp only [pollsErr, pollErr_relabel, pollDone_relabel, ih]

/-- An internal step of a labelled state, nothing outside coming before it. -/
theorem corePoint_relabel {es : List Event} {q : Option SeqPos} {p : SsPhase} {s : State}
    (h : turnAhead es = false) : ∃ q', corePoint (relabel es q p s) = .ret () (relabel es q' p s) := by
  obtain ⟨q', hq⟩ := nextPhase_of_relabel es q p s
  exact ⟨q', by rw [corePoint_quiet (by rw [relabel_env]; exact h), hq]⟩

theorem readTime_relabel {es : List Event} {q : Option SeqPos} {p : SsPhase} {s : State}
    (h : turnAhead es = false) : ∃ q', readTime (relabel es q p s) = .ret s.clock (relabel es q' p s) := by
  obtain ⟨q', hq⟩ := corePoint_relabel (q := q) (p := p) (s := s) h
  exact ⟨q', by rw [readTime, hq]; rfl⟩

/-- A group poll of a labelled state. -/
theorem pollGroup_relabel {g : Group} {o : Polled} {s : State} {es : List Event} {q : Option SeqPos}
    {p : SsPhase} (hf : pollFits g s o = true) (hc : s.clock.toNat + o.delay < 2 ^ 64) :
    ∃ q', pollGroup g (relabel (pollAns g s o ++ es) q p s) =
      .ret (pollResult g s o) (relabel es q' p (pollDone g s o)) := by
  obtain ⟨q', h⟩ := pollGroup_ends (g := g) (o := o) (s := relabel (pollAns g s o ++ es) q p s) (es := es)
    (by rw [pollFits_relabel]; exact hf) (by rw [relabel_env, pollAns_relabel]) (by rw [relabel_clock]; exact hc)
  refine ⟨q', ?_⟩
  rw [h, pollDone_relabel, relabel_of_relabel]
  simp only [pollResult, pollErr_relabel]
  rfl

/-- A poll that did not fail was no disconnected one. -/
theorem pollResult_none {g : Group} {s : State} {o : Polled} (h : o.err g s = none) :
    ∃ r, pollResult g s o = r ∧ (r = .ok ∨ r = .refused) := by
  refine ⟨_, rfl, ?_⟩
  rw [pollResult, h]
  by_cases ho : o = .unread <;> simp [ho]

theorem pollResult_some {g : Group} {s : State} {o : Polled} {e : Err} (h : o.err g s = some e) :
    pollResult g s o = .failed e := by
  rw [pollResult, h]

/-- The first error of polls does not change once there is one. -/
theorem orElse_firstErr (first : Option Err) (g : Group) (s : State) (o : Polled) :
    firstError first (pollResult g s o) = first.or (o.err g s) := by
  cases first with
  | some e => rfl
  | none =>
    cases h : o.err g s with
    | some e => rw [pollResult_some h]; rfl
    | none => obtain ⟨r, hr, rfl | rfl⟩ := pollResult_none h <;> rw [hr] <;> rfl

theorem pollsErr_cons (g : Group) (o : Polled) (cs : List (Group × Polled)) (s : State) :
    pollsErr ((g, o) :: cs) s = (o.err g s).or (pollsErr cs (pollDone g s o)) := by
  rw [pollsErr]
  cases o.err g s <;> rfl

/-- The polls of a tick (spec/48_scheduler.md R303). -/
theorem tickPolls_full {es : List Event} (he : turnAhead es = false) (cs : List (Group × Polled)) :
    ∀ {s : State} {q : Option SeqPos} {p : SsPhase} {first : Option Err}, ticksFit cs s = true →
      s.clock.toNat + pollsDelay cs < 2 ^ 64 →
      ∃ q', tickPolls (cs.map Prod.fst) (firstErrWord first) (relabel (pollsAns cs s ++ es) q p s) =
        .ret (firstErrWord (first.or (pollsErr cs s))) (relabel es q' p (pollsDone cs s)) := by
  induction cs with
  | nil => exact fun {s q p first} _ _ => ⟨q, by rw [pollsErr, Option.or_none]; rfl⟩
  | cons c cs ih =>
    obtain ⟨g, o⟩ := c
    intro s q p first hf hc
    simp only [ticksFit, Bool.and_eq_true] at hf
    simp only [pollsDelay] at hc
    have hck := (pollDone_fields g s o).2.2.2.2.2.2 (by omega)
    obtain ⟨q1, h1⟩ := corePoint_relabel (es := pollsAns ((g, o) :: cs) s ++ es) (q := q) (p := p) (s := s)
      (turnAhead_pollsAns he _ _)
    rw [List.map_cons, tickPolls, h1]
    simp only [Res.ret_andThen, groupReady_relabel, pollsAns, List.append_assoc, pollsDone, pollsErr_cons]
    cases o with
    | unread =>
      simp only [tickFits, Bool.not_eq_true'] at hf
      rw [hf.1, if_neg Bool.false_ne_true, setRawOk_relabel]
      exact ih hf.2 (by omega)
    | disconnected => exact absurd hf.1 Bool.false_ne_true
    | read r =>
      simp only [tickFits, Bool.and_eq_true] at hf
      obtain ⟨⟨hr, hv⟩, hf2⟩ := hf
      obtain ⟨ha, hd⟩ := attached_of_ready hr
      rw [if_pos hr]
      obtain ⟨q2, h2⟩ := pollGroup_relabel (g := g) (o := .read r) (s := s) (q := q1) (p := p)
        (es := pollsAns cs (pollDone g s (.read r)) ++ es)
        (by simp only [pollFits, ha, hd, hv, Bool.and_self]) (by omega)
      rw [h2]
      simp only [Res.ret_andThen]
      cases h : (Polled.read r).err g s with
      | none =>
        obtain ⟨x, hx, rfl | rfl⟩ := pollResult_none h <;> rw [hx] <;> exact ih hf2 (by omega)
      | some e =>
        rw [pollResult_some h]
        cases first with
        | none => exact ih (first := some e) hf2 (by omega)
        | some e' =>
          simp only [show firstErrWord (some e') = errword e' from rfl, if_neg (errword_ne_zero e')]
          exact ih (first := some e') hf2 (by omega)

/-- The polls of SA.POLL (spec/45_aggregator.md R257). -/
theorem pollAll_full {es : List Event} (he : turnAhead es = false) (cs : List (Group × Polled)) :
    ∀ {s : State} {q : Option SeqPos} {p : SsPhase} {first : Option Err}, pollsFit cs s = true →
      s.clock.toNat + pollsDelay cs < 2 ^ 64 →
      ∃ q', pollAll (cs.map Prod.fst) first (relabel (pollsAns cs s ++ es) q p s) =
        .ret (first.or (pollsErr cs s)) (relabel es q' p (pollsDone cs s)) := by
  induction cs with
  | nil => exact fun {s q p first} _ _ => ⟨q, by rw [pollsErr, Option.or_none]; rfl⟩
  | cons c cs ih =>
    obtain ⟨g, o⟩ := c
    intro s q p first hf hc
    simp only [pollsFit, Bool.and_eq_true] at hf
    simp only [pollsDelay] at hc
    have hck := (pollDone_fields g s o).2.2.2.2.2.2 (by omega)
    obtain ⟨q1, h1⟩ := corePoint_relabel (es := pollsAns ((g, o) :: cs) s ++ es) (q := q) (p := p) (s := s)
      (turnAhead_pollsAns he _ _)
    rw [List.map_cons, pollAll, h1]
    simp only [Res.ret_andThen, pollsAns, List.append_assoc, pollsDone, pollsErr_cons]
    obtain ⟨q2, h2⟩ := pollGroup_relabel (g := g) (o := o) (s := s) (q := q1) (p := p)
      (es := pollsAns cs (pollDone g s o) ++ es) hf.1 (by omega)
    rw [h2]
    simp only [Res.ret_andThen, orElse_firstErr, ← Option.or_assoc]
    exact ih hf.2 (by omega)

/-! ## A tick -/

theorem tEnd_relabel (es : List Event) (q : Option SeqPos) (p : SsPhase) (s : State) (t : Stamp) :
    (relabel es q p s).withSs { (relabel es q p s).ss with tEnd := t }
      = relabel es q p (s.withSs { s.ss with tEnd := t }) := (rfl)
theorem tStart_relabel (es : List Event) (q : Option SeqPos) (p : SsPhase) (s : State) (t : Stamp) :
    (relabel es q p s).withSs { (relabel es q p s).ss with tStart := t }
      = relabel es q p (s.withSs { s.ss with tStart := t }) := (rfl)
theorem ticks_relabel (es : List Event) (q : Option SeqPos) (p : SsPhase) (s : State) :
    (relabel es q p s).withSs { (relabel es q p s).ss with ticks := (relabel es q p s).ss.ticks + 1 }
      = relabel es q p (s.withSs { s.ss with ticks := s.ss.ticks + 1 }) := (rfl)
theorem lasttick_relabel (es : List Event) (q : Option SeqPos) (p : SsPhase) (s : State) (w : Word) :
    (relabel es q p s).withSs { (relabel es q p s).ss with lasttick := w }
      = relabel es q p (s.withSs { s.ss with lasttick := w }) := (rfl)
theorem emitRecord_relabel (es : List Event) (q : Option SeqPos) (p : SsPhase) (s : State) :
    emitRecord (relabel es q p s) = relabel es q p (emitRecord s) := (rfl)

/-- The record and the count at the end of a tick, as the model makes them and as `tickEnded` says. -/
theorem tickEnded_eq (es : List Event) (q : Option SeqPos) (w : Word) (s : State) (f : Fused × State)
    (hf : tickFuse (caApply s.sa.okA s.sa.okG s.sa.okM s) = f) :
    (let v := emitRecord (f.2.withSs { f.2.ss with tEnd := f.2.clock })
     let u := v.withSs { v.ss with ticks := v.ss.ticks + 1 }
     relabel es q .emit (u.withSs { u.ss with lasttick := lasttickWord u.sa f.1.fused f.1.rej w }))
      = relabel es q .emit (tickEnded w s) := by
  subst hf
  rfl

/-- A tick, each group with what came of it (R303). -/
theorem tick_full {a g m : Polled} {s : State} {es : List Event}
    (hf : ticksFit (outcomes a g m) (tickStarted s) = true) (ht : turnAhead es = false)
    (hc : s.clock.toNat + pollsDelay (outcomes a g m) < 2 ^ 64)
    (he : s.env = pollsAns (outcomes a g m) (tickStarted s) ++ es) :
    ∃ q, tick s = .ret () (relabel es q .emit
      (tickEnded (firstErrWord (pollsErr (outcomes a g m) (tickStarted s)))
        (pollsDone (outcomes a g m) (tickStarted s)))) := by
  have hst : tickStarted s = relabel s.env s.seq .poll
    ((s.withSs { s.ss with tStart := s.clock }).withSa { s.sa with ts := s.clock }) := rfl
  obtain ⟨q0, h0⟩ := readTime_relabel (es := s.env) (q := s.seq) (p := .startStamp) (s := s)
    (by rw [he]; exact turnAhead_pollsAns ht _ _)
  rw [tick, show setSsPhase .startStamp s = relabel s.env s.seq .startStamp s from rfl, h0]
  simp only [Res.ret_andThen, tStart_relabel, relabel_sa]
  simp only [withSa_relabel, setSsPhase_of_relabel]
  obtain ⟨q1, h1⟩ := tickPolls_full ht (outcomes a g m) (s := tickStarted s) (q := q0) (p := .poll)
    (first := none) hf hc
  rw [← he, hst, relabel_of_relabel, ← hst, Option.none_or, show firstErrWord none = 0 from rfl] at h1
  rw [show [Group.acc, .gyr, .mag] = (outcomes a g m).map Prod.fst from rfl, h1]
  generalize pollsDone (outcomes a g m) (tickStarted s) = u
  generalize firstErrWord (pollsErr (outcomes a g m) (tickStarted s)) = w
  simp only [Res.ret_andThen, setSsPhase_of_relabel]
  obtain ⟨q2, h2⟩ := corePoint_relabel (es := es) (q := q1) (p := .fuse) (s := u) ht
  rw [h2]
  simp only [Res.ret_andThen, relabel_sa, caApply_relabel]
  obtain ⟨q3, h3⟩ := corePoint_relabel (es := es) (q := q2) (p := .fuse)
    (s := caApply u.sa.okA u.sa.okG u.sa.okM u) ht
  rw [h3]
  simp only [Res.ret_andThen, tickFuse_relabel, setSsPhase_of_relabel]
  obtain ⟨q4, h4⟩ := readTime_relabel (es := es) (q := q3) (p := .emit)
    (s := (tickFuse (caApply u.sa.okA u.sa.okG u.sa.okM u)).2) ht
  rw [h4]
  simp only [Res.ret_andThen, tEnd_relabel]
  have key := fun q => tickEnded_eq es q w u _ rfl
  generalize tickFuse (caApply u.sa.okA u.sa.okG u.sa.okM u) = f at *
  obtain ⟨qe, he⟩ := corePoint_relabel (es := es) (q := q4) (p := .emit)
    (s := f.2.withSs { f.2.ss with tEnd := f.2.clock }) ht
  rw [he]
  simp only [Res.ret_andThen, emitRecord_relabel]
  obtain ⟨q5, h5⟩ := corePoint_relabel (es := es) (q := qe) (p := .emit)
    (s := emitRecord (f.2.withSs { f.2.ss with tEnd := f.2.clock })) ht
  rw [h5]
  simp only [Res.ret_andThen, tickEnd, ticks_relabel]
  generalize hv : emitRecord (f.2.withSs { f.2.ss with tEnd := f.2.clock }) = v at *
  obtain ⟨q6, h6⟩ := corePoint_relabel (es := es) (q := q5) (p := .emit)
    (s := v.withSs { v.ss with ticks := v.ss.ticks + 1 }) ht
  rw [h6]
  simp only [Res.ret_andThen, lasttick_relabel, relabel_sa]
  refine ⟨q6, ?_⟩
  rw [← key]

/-! ## A turn of the loop of SS.RUN -/

theorem countTick_relabel (es : List Event) (q : Option SeqPos) (p : SsPhase) (s : State) :
    countTick (relabel es q p s) = relabel es q p (countTick s) := (rfl)
theorem countDone_relabel (es : List Event) (q : Option SeqPos) (p : SsPhase) (s : State) :
    countDone (relabel es q p s) = countDone s := (rfl)
theorem tickStarted_relabel (es : List Event) (q : Option SeqPos) (p : SsPhase) (s : State) :
    tickStarted (relabel es q p s) = relabel es q .poll (tickStarted s) := (rfl)

theorem tickEnded_relabel (w : Word) (es : List Event) (q : Option SeqPos) (p : SsPhase) (s : State) :
    tickEnded w (relabel es q p s) = relabel es q .emit (tickEnded w s) := by
  have ends : ∀ f : Fused × State,
      (let v := emitRecord ((relabel es q p f.2).withSs { (relabel es q p f.2).ss with
          tEnd := (relabel es q p f.2).clock, phase := .emit })
       v.withSs { v.ss with
        ticks := v.ss.ticks + 1, lasttick := lasttickWord v.sa f.1.fused f.1.rej w }) =
      relabel es q .emit (let v := emitRecord (f.2.withSs { f.2.ss with tEnd := f.2.clock, phase := .emit })
        v.withSs { v.ss with
          ticks := v.ss.ticks + 1, lasttick := lasttickWord v.sa f.1.fused f.1.rej w }) := fun _ => rfl
  simp only [tickEnded, relabel_sa, caApply_relabel, tickFuse_relabel]
  exact ends (tickFuse (caApply s.sa.okA s.sa.okG s.sa.okM s))

/-- The tick of a turn of the loop that is not cancelled (R302, R303). -/
theorem loopTurn_ticks {a g m : Polled} {s : State} {es : List Event}
    (hc : s.ctrl.cancel = false) (hf : ticksFit (outcomes a g m) (tickStarted s) = true)
    (hk : s.clock.toNat + pollsDelay (outcomes a g m) < 2 ^ 64)
    (ht : turnAhead es = false) (he : s.env = pollsAns (outcomes a g m) (tickStarted s) ++ es) :
    ∃ q, loopTurn s =
      (let v := relabel es q .emit (tickCounted (outcomes a g m) s)
       if countDone v then .ret true (loopEnd v)
       else (nextEpoch v).andThen fun _ w => (waitEpoch w).andThen fun _ y => .ret false y) := by
  have h1 := corePoint_quiet (s := s) (by rw [he]; exact turnAhead_pollsAns ht _ _)
  have h2 : nextPhase s = relabel s.env (nextPhase s).seq s.ss.phase s := rfl
  generalize (nextPhase s).seq = q1 at h2
  obtain ⟨q, hq⟩ := tick_full (a := a) (g := g) (m := m) (es := es) (s := nextPhase s)
    (by rw [h2, tickStarted_relabel, ticksFit_relabel]; exact hf) ht hk
    (by rw [h2, tickStarted_relabel, pollsAns_relabel, relabel_env, he])
  obtain ⟨q', hp⟩ := corePoint_relabel (es := es) (q := q) (p := .emit) (s := tickEnded
    (firstErrWord (pollsErr (outcomes a g m) (tickStarted s))) (pollsDone (outcomes a g m) (tickStarted s))) ht
  refine ⟨q', ?_⟩
  rw [loopTurn, h1]
  simp only [Res.ret_andThen]
  rw [if_neg (by rw [show (nextPhase s).ctrl = s.ctrl from rfl, hc]; exact Bool.false_ne_true), hq, h2,
    tickStarted_relabel, pollsDone_relabel, pollsErr_relabel, tickEnded_relabel, relabel_of_relabel]
  simp only [Res.ret_andThen]
  rw [hp]
  simp only [Res.ret_andThen, countTick_relabel]
  rfl

/-- A turn of the loop that uses up the count (R302). -/
theorem loopTurn_last {a g m : Polled} {s : State} {es : List Event}
    (hc : s.ctrl.cancel = false) (hf : ticksFit (outcomes a g m) (tickStarted s) = true)
    (hk : s.clock.toNat + pollsDelay (outcomes a g m) < 2 ^ 64)
    (ht : turnAhead es = false) (he : s.env = pollsAns (outcomes a g m) (tickStarted s) ++ es)
    (hd : countDone (tickCounted (outcomes a g m) s) = true) :
    afterTurn (loopTurn s) = .next ((runEnded (tickCounted (outcomes a g m) s)).withEnv es) := by
  obtain ⟨q, hq⟩ := loopTurn_ticks hc hf hk ht he
  have fin : ∀ (u : State) p, completeCommand (nextPhase (loopEnd (relabel es q p u))) = (runEnded u).withEnv es :=
    fun _ _ => rfl
  rw [hq]
  simp only [countDone_relabel, hd, if_true, afterTurn]
  rw [corePoint_quiet (s := loopEnd _) (by exact ht)]
  exact congrArg Host.Outcome.next (fin _ _)

/-- The deadline, and the wait for it, at the end of what the environment does (R302, R307). -/
theorem deadline_end {s : State} (he : s.env = []) (hw : s.ss.epoch.toNat + s.ss.period.toNat < 2 ^ 64) :
    ∃ q, ((nextEpoch s).andThen fun _ w => (waitEpoch w).andThen fun _ y => Res.ret false y) =
      .ret false ((deadlineReached s).withSeq q) := by
  rw [nextEpoch, if_pos hw]
  simp only [Res.ret_andThen, waitEpoch, deadlineReached, deadlineWaited]
  generalize hT : s.withSs { s.ss with
    epoch := BitVec.ofNat 64 (s.ss.epoch.toNat + s.ss.period.toNat), phase := .wait } = T
  have hTe : T.env = [] := by rw [← hT]; exact he
  rw [readTime_quiet (by rw [hTe]; rfl)]
  simp only [Res.ret_andThen, show (nextPhase T).ss = T.ss from rfl, BitVec.lt_def]
  split
  · rename_i h
    rw [waitUntil, corePoint_quiet (s := nextPhase T) (by rw [show (nextPhase T).env = T.env from rfl, hTe]; rfl)]
    simp only [Res.ret_andThen]
    rw [waitTo_end (s := sendOut (nextPhase (nextPhase T)) (.waitUntil T.ss.epoch)) (by exact hTe) T.ss.epoch.isLt]
    rw [show (sendOut (nextPhase (nextPhase T)) (.waitUntil T.ss.epoch)).clock = T.clock from rfl,
      Nat.max_eq_right (Nat.le_of_lt h), BitVec.ofNat_toNat, BitVec.setWidth_eq]
    exact ⟨(nextPhase (nextPhase (nextPhase T))).seq, rfl⟩
  · exact ⟨(nextPhase T).seq, rfl⟩

theorem deadlineWaited_relabel (es : List Event) (q : Option SeqPos) (p : SsPhase) (s : State) :
    deadlineWaited (relabel es q p s) = relabel es q p (deadlineWaited s) := by
  rw [deadlineWaited, deadlineWaited, apply_ite (relabel es q p)]
  rfl

theorem deadlineReached_relabel (es : List Event) (q : Option SeqPos) (p : SsPhase) (s : State) :
    deadlineReached (relabel es q p s) = relabel es q .wait (deadlineReached s) := by
  simp only [deadlineReached]
  exact deadlineWaited_relabel es q .wait (s.withSs { s.ss with
    epoch := BitVec.ofNat 64 (s.ss.epoch.toNat + s.ss.period.toNat), phase := .wait })

theorem deadlineReached_phase (s : State) : (deadlineReached s).ss.phase = .wait := by
  rw [deadlineReached, deadlineWaited]
  split <;> rfl

/-- A turn of the loop after which the loop goes on, nothing more coming from outside (R302). -/
theorem loopTurn_more {a g m : Polled} {s : State}
    (hc : s.ctrl.cancel = false) (hf : ticksFit (outcomes a g m) (tickStarted s) = true)
    (hk : s.clock.toNat + pollsDelay (outcomes a g m) < 2 ^ 64)
    (he : s.env = pollsAns (outcomes a g m) (tickStarted s))
    (hd : countDone (tickCounted (outcomes a g m) s) = false)
    (hw : (tickCounted (outcomes a g m) s).ss.epoch.toNat
      + (tickCounted (outcomes a g m) s).ss.period.toNat < 2 ^ 64) :
    afterTurn (loopTurn s) =
      .next (atLoopTop ((deadlineReached (tickCounted (outcomes a g m) s)).withEnv [])) := by
  obtain ⟨q, hq⟩ := loopTurn_ticks (es := []) hc hf hk rfl (by rw [he, List.append_nil])
  rw [hq]
  simp only [countDone_relabel, hd, Bool.false_eq_true, if_false]
  obtain ⟨q', hq'⟩ := deadline_end (s := relabel [] q .emit (tickCounted (outcomes a g m) s)) rfl hw
  rw [hq']
  have top : ∀ (u : State) (q q' : Option SeqPos), u.ss.phase = .wait →
      atLoopTop ((relabel [] q .wait u).withSeq q') = atLoopTop (u.withEnv []) := by
    intro u q q' hu
    rw [← hu]
    rfl
  rw [afterTurn, deadlineReached_relabel, top _ _ _ (deadlineReached_phase _)]

/-- The start of SS.RUN (R302). -/
theorem ssRun_begins {count : BitVec 16} {s : State} (hb : s.cmd.busy = false) (hp : s.ss.period ≠ 0)
    (ht : turnAhead s.env = false) :
    ∃ q, exec (.ssRun count) s = afterTurn (loopTurn (relabel s.env q s.ss.phase (runBegun count s))) := by
  simp only [exec, execSsRun, turnedAway, hb, Bool.false_eq_true, if_false, ne_eq, hp, not_false_eq_true,
    decide_true, if_true]
  rw [corePoint_quiet (s := startCommand 0x30 s) (by exact ht)]
  simp only [Res.ret_andThen, ssStart]
  rw [readTime_quiet (by exact ht)]
  simp only [Res.ret_andThen]
  exact ⟨(nextPhase (nextPhase (startCommand 0x30 s))).seq, rfl⟩

end Sys2Proof.Machine
end

