-- ==== Sys2Proof/Laws/Neutral.lean ====
section
/-! SUPPORT. What the drivers' routines, the polls and the calibration leave alone: the command flags and
the sequencer's position (`Neutral`), so that `command_does` applies to the commands they make up; and that
the answers they need depend on the selection and the parameters alone. -/

namespace Sys2Proof.Machine

open Sys2Proof

theorem neutral_id : Neutral fun s => s := ⟨fun _ _ _ => rfl, fun _ => rfl⟩

theorem neutral_setAgState (v : AgState) : Neutral (setAgState v) := ⟨fun _ _ _ => rfl, fun _ => rfl⟩

theorem neutral_setMgStage (n : BitVec 3) : Neutral (setMgStage n) := ⟨fun _ _ _ => rfl, fun _ => rfl⟩

theorem neutral_setRawOk (g : Group) (b : Bool) : Neutral (setRawOk g b) := by
  cases g <;> exact ⟨fun _ _ _ => rfl, fun _ => rfl⟩

/-- The capture time stamp of a poll. -/
theorem neutral_stamp : Neutral fun s => s.withSa { s.sa with ts := s.clock } :=
  ⟨fun _ _ _ => rfl, fun _ => rfl⟩

theorem neutral_opDone (m : MicroOp) (b : Byte) : Neutral (opDone m b) := by
  cases m <;> exact ⟨fun _ _ _ => rfl, fun _ => rfl⟩

theorem neutral_opsDone (cs : List (MicroOp × Byte)) : Neutral (opsDone cs) := by
  induction cs with
  | nil => exact neutral_id
  | cons c cs ih => exact ih.after (neutral_opDone _ _)

theorem neutral_stagesDone (cs : List (List (MicroOp × Byte) × AgState)) : Neutral (stagesDone cs) := by
  induction cs with
  | nil => exact neutral_id
  | cons c cs ih => exact (ih.after (neutral_setAgState _)).after (neutral_opsDone _)

theorem neutral_modeDone (m : MagMode) (b : Byte) : Neutral (modeDone m b) where
  commutes := by
    intro c q s
    have hw : ∀ u : State, waited Config.mgSettleUs ((u.withCmd c).withSeq q)
      = ((waited Config.mgSettleUs u).withCmd c).withSeq q := fun _ => rfl
    simp only [modeDone, State.withSeq_cfg, State.withCmd_cfg, (neutral_bitsDone _ _ _ _ _ _).commutes]
    generalize bitsDone _ _ _ _ _ _ s = u
    split
    · exact hw (u.withMg { u.mg with mode := m })
    · rfl
  cmd := fun s => by cases m <;> rfl

theorem neutral_mgInitDone (b0 b1 b2 : Byte) (asa : List Byte) : Neutral (mgInitDone b0 b1 b2 asa) := by
  have adj : Neutral (setMgAdj asa) := ⟨fun _ _ _ => rfl, fun _ => rfl⟩
  have fuse : Neutral fun u => readDone u.cfg.mgAddr u.cfg.mgAsa asa u := ⟨fun _ _ _ => rfl, fun _ => rfl⟩
  have fresh : Neutral fun u => u.withMg { u.mg with initDone := false, stage := 0 } :=
    ⟨fun _ _ _ => rfl, fun _ => rfl⟩
  have ready : Neutral fun u => u.withMg { u.mg with initDone := true } := ⟨fun _ _ _ => rfl, fun _ => rfl⟩
  exact ready.after <| (neutral_setMgStage 4).after <| (neutral_modeDone .powerDown b2).after <|
    (neutral_setMgStage 3).after <| adj.after <| fuse.after <| (neutral_setMgStage 2).after <|
    (neutral_modeDone .fuseRom b1).after <| (neutral_setMgStage 1).after <|
    (neutral_modeDone .powerDown b0).after fresh

theorem neutral_rxFailed : Neutral rxFailed where
  commutes := by
    intro c q s
    simp only [rxFailed, State.withSeq_free, State.withCmd_free]
    generalize freeBuffer _ = m
    rfl
  cmd := fun s => by simp

theorem neutral_readTried (xs : List Short) (sent : List PortEvent) (a : BitVec 7) (reg : Byte) (n : Nat) :
    Neutral (readTried xs sent a reg n) := ⟨fun _ _ _ => rfl, fun _ => rfl⟩

/-- A read, however it ends. -/
theorem neutral_readEndDone (a : BitVec 7) (reg : Byte) (n : Nat) (r : ReadEnd) :
    Neutral fun s => r.done a reg n s := by
  cases r with
  | noBus => exact neutral_id
  | selectFailed => exact ⟨fun _ _ _ => rfl, fun _ => rfl⟩
  | primeTimedOut xs => exact neutral_rxFailed.after (neutral_readTried xs _ a reg n)
  | readTimedOut xs => exact neutral_rxFailed.after (neutral_readTried xs _ a reg n)
  | givenUp xs x => exact neutral_rxFailed.after (neutral_readTried xs _ a reg n)
  | full xs bs => exact ⟨fun _ _ _ => rfl, fun _ => rfl⟩

theorem neutral_burstDone (g : Group) (bs : List Byte) : Neutral (burstDone g bs) := by
  cases g with
  | acc => exact (neutral_setRawOk .acc true).after (neutral_setX3 0 1 2 _ _ _)
  | gyr => exact (neutral_setRawOk .gyr true).after (neutral_setX3 3 4 5 _ _ _)
  | mag =>
    have ovf : ∀ v, Neutral fun s => s.withMg { s.mg with ovf := v } := fun v => ⟨fun _ _ _ => rfl, fun _ => rfl⟩
    have raw : ∀ r, Neutral fun s => putRawM s r := fun r => neutral_setX3 6 7 8 _ _ _
    refine ⟨fun c q s => ?_, fun s => (burstDone_fields .mag bs s).2.2.2.2.1⟩
    by_cases h1 : (byteAt bs 0).getLsbD s.cfg.mgDrdyBit = false
    · rw [burstDone_notReady (s := (s.withCmd c).withSeq q) h1, burstDone_notReady h1]
      exact (neutral_setRawOk .mag false).commutes c q s
    · by_cases h2 : (byteAt bs 7).getLsbD s.cfg.mgHoflBit = true
      · rw [burstDone_overflow (s := (s.withCmd c).withSeq q) h1 h2, burstDone_overflow h1 h2]
        exact ((neutral_setRawOk .mag false).after (ovf true)).commutes c q s
      · rw [burstDone_decoded (s := (s.withCmd c).withSeq q) h1 h2, burstDone_decoded h1 h2]
        exact (((neutral_setRawOk .mag true).after (raw _)).after (ovf false)).commutes c q s

theorem neutral_pollDone (g : Group) (o : Polled) : Neutral fun s => pollDone g s o where
  commutes := by
    intro c q s
    cases o with
    | unread => exact (neutral_setRawOk g false).commutes c q s
    | disconnected => exact (neutral_setRawOk g false).commutes c q s
    | read r =>
      have ha : groupAddr g ((s.withCmd c).withSeq q) = groupAddr g s := by cases g <;> rfl
      have hr : groupReg g ((s.withCmd c).withSeq q) = groupReg g s := by cases g <;> rfl
      have hd := (neutral_readEndDone (groupAddr g s) (groupReg g s) (groupLen g) r).commutes c q s
      simp only [pollDone, ha, hr, hd]
      generalize r.done (groupAddr g s) (groupReg g s) (groupLen g) s = u
      split
      · exact (neutral_setRawOk g false).commutes c q u
      · exact (neutral_burstDone g r.bytes).commutes c q u
  cmd := fun s => (pollDone_fields g s o).2.2.2.2.1

theorem neutral_pollsDone (cs : List (Group × Polled)) : Neutral (pollsDone cs) := by
  induction cs with
  | nil => exact neutral_id
  | cons c cs ih => exact ih.after (neutral_pollDone c.1 c.2)

/-! ## What the answers depend on -/

theorem selectAns_congr {s t : State} (h : s.bt = t.bt) (a : BitVec 7) : selectAns s a = selectAns t a := by
  unfold selectAns; rw [h]

theorem groupAddr_congr {s t : State} (h : s.cfg = t.cfg) (g : Group) : groupAddr g s = groupAddr g t := by
  cases g <;> simp only [groupAddr, h]

theorem readEndAns_congr {s t : State} (h : s.bt = t.bt) (a : BitVec 7) (r : ReadEnd) :
    r.ans a s = r.ans a t := by
  cases r <;> simp only [ReadEnd.ans, selectAns_congr h]

theorem readEndFits_congr {s t : State} (hb : s.bt = t.bt) (hc : s.ctrl = t.ctrl) (a : BitVec 7) (n : Nat)
    (r : ReadEnd) : r.fits a n s = r.fits a n t := by
  cases r <;> simp only [ReadEnd.fits, hb, hc]

theorem pollAns_congr {s t : State} (hc : s.cfg = t.cfg) (hb : s.bt = t.bt) (g : Group) (o : Polled) :
    pollAns g s o = pollAns g t o := by
  cases o <;> simp only [pollAns, groupAddr_congr hc, readEndAns_congr hb]

theorem burstDone_bt (g : Group) (bs : List Byte) (s : State) : (burstDone g bs s).bt = s.bt := by
  cases g with
  | acc => rfl
  | gyr => rfl
  | mag => simp only [burstDone]; split; · rfl
           split <;> rfl

/-- The transport after a group poll depends on the transport before it alone. -/
theorem pollDone_bt_congr {s t : State} (hc : s.cfg = t.cfg) (hb : s.bt = t.bt) (g : Group) (o : Polled) :
    (pollDone g s o).bt = (pollDone g t o).bt := by
  have raw : ∀ (b : Bool) (u : State), (setRawOk g b u).bt = u.bt := fun b u => by cases g <;> rfl
  cases o with
  | unread => rw [pollDone, pollDone, raw, raw, hb]
  | disconnected => rw [pollDone, pollDone, raw, raw, hb]
  | read r =>
    have hr : ∀ a reg reg' n, (r.done a reg n s).bt = (r.done a reg' n t).bt := by
      intro a reg reg' n
      cases r <;> simp [ReadEnd.done, readGivenUp, readDoneAfter, readTried, selectLost, hb]
    simp only [pollDone, groupAddr_congr hc]
    split
    · rw [raw, raw]; exact hr _ _ _ _
    · rw [burstDone_bt, burstDone_bt]; exact hr _ _ _ _

theorem pollsAns_congr (cs : List (Group × Polled)) :
    ∀ {s t : State}, s.cfg = t.cfg → s.bt = t.bt → pollsAns cs s = pollsAns cs t := by
  induction cs with
  | nil => exact fun _ _ => rfl
  | cons c cs ih =>
    intro s t hc hb
    rw [pollsAns, pollsAns, pollAns_congr hc hb, ih
      (by rw [(pollDone_fields _ _ _).2.1, (pollDone_fields _ _ _).2.1, hc]) (pollDone_bt_congr hc hb _ _)]

theorem pollErr_congr {s t : State} (hc : s.cfg = t.cfg) (g : Group) (o : Polled) : o.err g s = o.err g t := by
  cases o <;> cases g <;> simp only [Polled.err, burstErr, hc]

theorem pollsErr_congr (cs : List (Group × Polled)) :
    ∀ {s t : State}, s.cfg = t.cfg → pollsErr cs s = pollsErr cs t := by
  induction cs with
  | nil => exact fun _ => rfl
  | cons c cs ih =>
    intro s t hc
    rw [pollsErr_cons, pollsErr_cons, pollErr_congr hc,
      ih (s := pollDone c.1 s c.2) (t := pollDone c.1 t c.2)
        (by rw [(pollDone_fields _ _ _).2.1, (pollDone_fields _ _ _).2.1, hc])]

/-- Whether polls can come out so depends on the transport, the attachments and the parameters. -/
theorem pollsFit_congr (cs : List (Group × Polled)) : ∀ {s t : State}, s.cfg = t.cfg → s.bt = t.bt →
    s.ctrl = t.ctrl → pollsFit cs s = pollsFit cs t := by
  induction cs with
  | nil => exact fun _ _ _ => rfl
  | cons c cs ih =>
    intro s t hc hb hk
    have h1 : pollFits c.1 s c.2 = pollFits c.1 t c.2 := by
      cases c.2 <;> simp only [pollFits, groupAttached_congr _ hk, groupDriver_congr _ hk, groupAddr_congr hc,
        readEndFits_congr hb hk]
    rw [pollsFit, pollsFit, h1, ih (by rw [(pollDone_fields _ _ _).2.1, (pollDone_fields _ _ _).2.1, hc])
      (pollDone_bt_congr hc hb _ _) (by rw [(pollDone_fields _ _ _).1, (pollDone_fields _ _ _).1, hk])]

theorem bitsDone_bt (a : BitVec 7) (reg : Byte) (first len : Nat) (v b : Byte) (s : State) :
    (bitsDone a reg first len v b s).bt = ⟨some a, 1⟩ := rfl

theorem opAns_congr {s t : State} (hc : s.cfg = t.cfg) (hb : s.bt = t.bt) (m : MicroOp) (b : Byte) :
    opAns m b s = opAns m b t := by
  cases m <;> simp only [opAns, hc, selectAns_congr hb]

theorem opDone_bt_congr {s t : State} (hc : s.cfg = t.cfg) (hb : s.bt = t.bt) (m : MicroOp) (b : Byte) :
    (opDone m b s).bt = (opDone m b t).bt := by
  cases m with
  | wbits f v => simp only [opDone, bitsDone_bt, hc]
  | wbyte reg v => simp only [opDone, writeDone, State.withPort_bt, State.withBt_bt, hc, hb]
  | setgr code => simp only [opDone, rangeGDone, State.withAg_bt, bitsDone_bt, hc]
  | setar code => simp only [opDone, rangeADone, State.withAg_bt, bitsDone_bt, hc]
  | delay d => exact hb

theorem opsAns_congr (cs : List (MicroOp × Byte)) : ∀ {s t : State}, s.cfg = t.cfg → s.bt = t.bt →
    opsAns cs s = opsAns cs t ∧ (opsDone cs s).bt = (opsDone cs t).bt := by
  induction cs with
  | nil => exact fun _ hb => ⟨rfl, hb⟩
  | cons c cs ih =>
    intro s t hc hb
    obtain ⟨h1, h2⟩ := ih (s := opDone c.1 c.2 s) (t := opDone c.1 c.2 t)
      (by rw [opDone_cfg, opDone_cfg, hc]) (opDone_bt_congr hc hb _ _)
    exact ⟨by rw [opsAns, opsAns, opAns_congr hc hb, h1], h2⟩

theorem stagesAns_congr (cs : List (List (MicroOp × Byte) × AgState)) : ∀ {s t : State}, s.cfg = t.cfg →
    s.bt = t.bt → stagesAns cs s = stagesAns cs t := by
  induction cs with
  | nil => exact fun _ _ => rfl
  | cons c cs ih =>
    intro s t hc hb
    obtain ⟨h1, h2⟩ := opsAns_congr c.1 hc hb
    rw [stagesAns, stagesAns, h1, ih (s := setAgState c.2 (opsDone c.1 s)) (t := setAgState c.2 (opsDone c.1 t))
      (by show (opsDone c.1 s).cfg = (opsDone c.1 t).cfg; rw [opsDone_cfg, opsDone_cfg, hc]) h2]

end Sys2Proof.Machine
end

