-- ==== Sys2Proof/Laws/PerInstr.lean ====
section
/-! SUPPORT. A statement about every command as syntax, one lemma for each constructor: bits 31:26 of its
word are the opcode that spec/30_encoding.md R110 gives it. -/

namespace Sys2Proof.Laws

open Sys2Proof

/-- Bits 31:26 of the word of a command are its opcode. -/
def OpcodeField.Statement (i : Instr) : Prop := opcOf (encode i) = i.opc

/-- The opcode is the part of a word above its operands. -/
theorem opcOf_append (o : BitVec 6) (l : BitVec 26) : opcOf (o ++ l) = o := by
  apply BitVec.eq_of_getLsbD_eq
  intro k hk
  simp only [opcOf, BitVec.getLsbD_extractLsb', BitVec.getLsbD_append]
  rw [if_neg (by omega), Nat.add_sub_cancel_left]
  simp [hk]

theorem OpcodeField.btWrite (a : BitVec 7) (reg : Byte) (len : BitVec 11) : OpcodeField.Statement (.btWrite a reg len) :=
  opcOf_append _ _

theorem OpcodeField.btRead (a : BitVec 7) (reg : Byte) (len : BitVec 11) : OpcodeField.Statement (.btRead a reg len) :=
  opcOf_append _ _

theorem OpcodeField.btWrbyte (a : BitVec 7) (reg : Byte) (val : Byte) : OpcodeField.Statement (.btWrbyte a reg val) :=
  opcOf_append _ _

theorem OpcodeField.btRdbyte (a : BitVec 7) (reg : Byte) : OpcodeField.Statement (.btRdbyte a reg) :=
  opcOf_append _ _

theorem OpcodeField.rdRbit (dev : Dev) (reg : Byte) (first : BitVec 3) : OpcodeField.Statement (.rdRbit dev reg first) :=
  opcOf_append _ _

theorem OpcodeField.rdWbit (dev : Dev) (reg : Byte) (first : BitVec 3) (val : BitVec 1) : OpcodeField.Statement (.rdWbit dev reg first val) :=
  opcOf_append _ _

theorem OpcodeField.rdRbits (dev : Dev) (reg : Byte) (first : BitVec 3) (flen : BitVec 4) : OpcodeField.Statement (.rdRbits dev reg first flen) :=
  opcOf_append _ _

theorem OpcodeField.rdWbits (dev : Dev) (reg : Byte) (first : BitVec 3) (flen : BitVec 4) (val : Byte) : OpcodeField.Statement (.rdWbits dev reg first flen val) :=
  opcOf_append _ _

theorem OpcodeField.agInit : OpcodeField.Statement (.agInit) :=
  opcOf_append _ _

theorem OpcodeField.agSetar (code : BitVec 2) : OpcodeField.Statement (.agSetar code) :=
  opcOf_append _ _

theorem OpcodeField.agSetgr (code : BitVec 2) : OpcodeField.Statement (.agSetgr code) :=
  opcOf_append _ _

theorem OpcodeField.agRdaraw : OpcodeField.Statement (.agRdaraw) :=
  opcOf_append _ _

theorem OpcodeField.agRdgraw : OpcodeField.Statement (.agRdgraw) :=
  opcOf_append _ _

theorem OpcodeField.agRda : OpcodeField.Statement (.agRda) :=
  opcOf_append _ _

theorem OpcodeField.agRdg : OpcodeField.Statement (.agRdg) :=
  opcOf_append _ _

theorem OpcodeField.mgInit : OpcodeField.Statement (.mgInit) :=
  opcOf_append _ _

theorem OpcodeField.mgSetmode (mode : BitVec 3) : OpcodeField.Statement (.mgSetmode mode) :=
  opcOf_append _ _

theorem OpcodeField.mgSetres (code : BitVec 1) : OpcodeField.Statement (.mgSetres code) :=
  opcOf_append _ _

theorem OpcodeField.mgRdraw : OpcodeField.Statement (.mgRdraw) :=
  opcOf_append _ _

theorem OpcodeField.mgRd : OpcodeField.Statement (.mgRd) :=
  opcOf_append _ _

theorem OpcodeField.mgGetovf : OpcodeField.Statement (.mgGetovf) :=
  opcOf_append _ _

theorem OpcodeField.saPolla : OpcodeField.Statement (.saPolla) :=
  opcOf_append _ _

theorem OpcodeField.saPollg : OpcodeField.Statement (.saPollg) :=
  opcOf_append _ _

theorem OpcodeField.saPollm : OpcodeField.Statement (.saPollm) :=
  opcOf_append _ _

theorem OpcodeField.saPoll : OpcodeField.Statement (.saPoll) :=
  opcOf_append _ _

theorem OpcodeField.saRdya : OpcodeField.Statement (.saRdya) :=
  opcOf_append _ _

theorem OpcodeField.saRdyg : OpcodeField.Statement (.saRdyg) :=
  opcOf_append _ _

theorem OpcodeField.saRdym : OpcodeField.Statement (.saRdym) :=
  opcOf_append _ _

theorem OpcodeField.caApply (mask : BitVec 3) : OpcodeField.Statement (.caApply mask) :=
  opcOf_append _ _

theorem OpcodeField.oeStep : OpcodeField.Statement (.oeStep) :=
  opcOf_append _ _

theorem OpcodeField.ssRun (count : BitVec 16) : OpcodeField.Statement (.ssRun count) :=
  opcOf_append _ _

end Sys2Proof.Laws
end

