-- ==== Sys2Proof/Laws/Step.lean ====
section
/-! SUPPORT. What a command and a step can do, said once: a condition `P` inside commands and `K` between
steps, that the moves a command may make (`writes`) keep (`ExecStable`), is kept by the command; one that
every move of the core keeps (`CoreStable`) is kept by every step. -/

namespace Sys2Proof.Machine

open Sys2Proof

/-- The moves of the loop of SS.RUN keep `P`. -/
structure LoopStable (P : State → Prop) : Prop where
  lastTs : ∀ s : State, P s → P (s.withSs { s.ss with lastTs := s.sa.ts })
  ssPhase : ∀ (s : State) v, P s → P (setSsPhase v s)
  tickStart : ∀ s : State, P s →
    P ((s.withSs { s.ss with tStart := s.clock }).withSa { s.sa with ts := s.clock })
  tickStop : ∀ s : State, P s → P (s.withSs { s.ss with tEnd := s.clock })
  /-- `t` is the state in which `t_end` was read -/
  emit : ∀ s t : State, P s → P t → s.ss.tStart = t.ss.tStart → s.ss.tEnd = t.clock → P (emitRecord s)
  ticks : ∀ s : State, P s → P (s.withSs { s.ss with ticks := s.ss.ticks + 1 })
  lasttick : ∀ (s : State) v, P s → P (s.withSs { s.ss with lasttick := v })
  countTick : ∀ s : State, P s → P (countTick s)
  epoch : ∀ (s : State) e, P s → P (s.withSs { s.ss with epoch := e, phase := .wait })
  runStart : ∀ s : State, P s → P (s.withSs { s.ss with running := true })
  runInit : ∀ (s : State) n, P s →
    P (s.withSs { s.ss with epoch := s.clock, lastTs := s.clock, left := n, count := n, ran := 0 })
  runEnd : ∀ s : State, P s → P (s.withSs { s.ss with phase := .idle, running := false })

/-- The moves that a command writing `w` may make keep `P` inside it and `K` at its ends. -/
structure ExecStable (w : Writes) (P K : State → Prop) : Prop extends Stable P K where
  busy : ∀ s : State, P s → s.cmd.busy = true
  select : w.bus = true → ∀ (s : State) a, P s → s.ctrl.btAttach = true → P (s.withBt { s.bt with sel := some a })
  unselect : w.bus = true → ∀ s : State, P s → P (s.withBt { s.bt with sel := none })
  attempt : w.rx = true → ∀ (s : State) k, k ≤ 5 → P s → P (s.withBt { s.bt with attempt := k })
  received : w.rx = true → ∀ (s : State) bs, bs.length ≤ 511 → P s → P (rxStore s bs)
  unreceived : w.rx = true → ∀ s : State, P s → P (rxFailed s)
  rmw : w.rmw = true → ∀ (s : State) b, P s → P (s.withRmw b)
  arange : w.ag = true → ∀ (s : State) c, P s → P (s.withAg { s.ag with arange := c, ares := aresTable c })
  grange : w.ag = true → ∀ (s : State) c, P s → P (s.withAg { s.ag with grange := c, gres := gresTable c })
  agState : w.ag = true → ∀ (s : State) v, P s → P (setAgState v s)
  mode : w.mg = true → ∀ (s : State) m, P s → P (s.withMg { s.mg with mode := m })
  resbit : w.mg = true → ∀ (s : State) c, P s → P (s.withMg { s.mg with resbit := c, res := mresTable c })
  mgStage : w.mg = true → ∀ (s : State) n, n.toNat ≤ 4 → P s → P (setMgStage n s)
  mgAdj : w.mg = true → ∀ (s : State) bs, P s → P (setMgAdj bs s)
  mgFresh : w.mg = true → ∀ s : State, P s → P (s.withMg { s.mg with initDone := false, stage := 0 })
  mgDone : w.mg = true → ∀ s : State, P s → P (s.withMg { s.mg with initDone := true })
  ovf : w.ovf = true → ∀ (s : State) v, P s → P (s.withMg { s.mg with ovf := v })
  rawOk : w.sa = true → ∀ (s : State) g v, P s → P (setRawOk g v s)
  stamp : w.sa = true → ∀ s : State, P s → P (s.withSa { s.sa with ts := s.clock })
  setX : ∀ (s : State) i v, i = 31 ∨ i ∈ w.x → P s → P (s.setX i v)
  orSat : w.fx = true → ∀ (s : State) b, P s → P (orSat s b)
  estTs : w.est = true → ∀ s : State, P s → P (s.withEstTs s.sa.ts)
  loop : w.loop = true → LoopStable P
  done : ∀ s : State, P s → K (completeCommand s)
  failed : ∀ e (s : State), P s → K (failCommand id e s)
  top : w.loop = true → ∀ s : State, P s → K (atLoopTop s)

section
variable {w : Writes} {P K : State → Prop} (st : ExecStable w P K)
include st

theorem ExecStable.toSelect (h : w.bus = true) : SelectStable P K :=
  { st.toStable with busy := st.busy, select := st.select h, unselect := st.unselect h }

theorem ExecStable.toBus (h : w.bus = true) (h' : w.rx = true) : BusStable P K :=
  { st.toSelect h with attempt := st.attempt h', received := st.received h', unreceived := st.unreceived h' }

theorem ExecStable.toAg (h : w.bus = true) (h' : w.rx = true) (hr : w.rmw = true) (ha : w.ag = true) :
    AgStable P K :=
  { st.toBus h h' with
    rmw := st.rmw hr, arange := st.arange ha, grange := st.grange ha, agState := st.agState ha }

theorem ExecStable.toMg (h : w.bus = true) (h' : w.rx = true) (hr : w.rmw = true) (hm : w.mg = true) :
    MgStable P K :=
  { st.toBus h h' with
    rmw := st.rmw hr, mode := st.mode hm, resbit := st.resbit hm, mgStage := st.mgStage hm
    mgAdj := st.mgAdj hm, mgFresh := st.mgFresh hm, mgDone := st.mgDone hm }

theorem ExecStable.setX3 {i j k : Fin 32} {a b c : Word} {s : State} (hi : i ∈ w.x) (hj : j ∈ w.x)
    (hk : k ∈ w.x) (h : P s) : P (s.setX3 i j k a b c) :=
  st.setX _ _ _ (.inr hk) (st.setX _ _ _ (.inr hj) (st.setX _ _ _ (.inr hi) h))

theorem ExecStable.toGroup (g : Group) (h : w.bus = true) (h' : w.rx = true) (hs : w.sa = true)
    (hg : g = .mag → w.ovf = true)
    (hx : ∀ i ∈ groupRegs g, i ∈ w.x) : GroupStable g P K :=
  { st.toBus h h' with
    ovf := fun e => st.ovf (hg e)
    rawOk := fun s v hs' => st.rawOk hs s g v hs'
    raw := by
      intro s r hp
      cases g <;> exact st.setX3 (hx _ (by decide)) (hx _ (by decide)) (hx _ (by decide)) hp }

theorem ExecStable.putFx3 {s : State} {i j k : Fin 32} {a b c : Fx} (hf : w.fx = true) (hi : i ∈ w.x)
    (hj : j ∈ w.x) (hk : k ∈ w.x) (h : P s) : P (putFx3 s i j k a b c) :=
  st.orSat hf _ _ (st.setX3 hi hj hk h)

/-- What calibration can do. -/
theorem ExecStable.caApply {a g m : Bool} {s : State} (hf : w.fx = true)
    (hx : ∀ i : Fin 32, 9 ≤ i.val → i.val < 27 → i ∈ w.x) (h : P s) : P (caApply a g m s) := by
  have hA : ∀ u : State, P u → P (calibrateA u) := fun u hu =>
    st.putFx3 hf (hx _ (by decide) (by decide)) (hx _ (by decide) (by decide)) (hx _ (by decide) (by decide))
      (st.putFx3 hf (hx _ (by decide) (by decide)) (hx _ (by decide) (by decide)) (hx _ (by decide) (by decide)) hu)
  have hG : ∀ u : State, P u → P (calibrateG u) := fun u hu =>
    st.putFx3 hf (hx _ (by decide) (by decide)) (hx _ (by decide) (by decide)) (hx _ (by decide) (by decide))
      (st.putFx3 hf (hx _ (by decide) (by decide)) (hx _ (by decide) (by decide)) (hx _ (by decide) (by decide)) hu)
  have hM : ∀ u : State, P u → P (calibrateM u) := fun u hu =>
    st.putFx3 hf (hx _ (by decide) (by decide)) (hx _ (by decide) (by decide)) (hx _ (by decide) (by decide))
      (st.putFx3 hf (hx _ (by decide) (by decide)) (hx _ (by decide) (by decide)) (hx _ (by decide) (by decide)) hu)
  have h1 : P (if a then calibrateA s else s) := by split; exacts [hA s h, h]
  have h2 : P (if g then calibrateG (if a then calibrateA s else s) else if a then calibrateA s else s) := by
    split; exacts [hG _ h1, h1]
  simp only [Machine.caApply]
  split; exacts [hM _ h2, h2]

/-- What a filter step can do. -/
theorem ExecStable.oeStep {s : State} (hf : w.fx = true) (he : w.est = true)
    (hx : ∀ i : Fin 32, 27 ≤ i.val → i.val < 30 → i ∈ w.x) (h : P s) : P (oeStep s).2 := by
  simp only [Machine.oeStep]
  split
  · exact st.estTs he (Machine.putFx3 s _ _ _ _ _ _) (st.putFx3 hf (hx _ (by decide) (by decide))
      (hx _ (by decide) (by decide)) (hx _ (by decide) (by decide)) h)
  · exact h

/-- What happens around the core's own work leaves the scheduler alone. -/
theorem ExecStable.scheduled (c : Sched) : Stable (fun s => P s ∧ s.ss = c) K where
  used := fun s e es h => ⟨st.used s e es h.1, h.2⟩
  port := fun s e h => ⟨st.port s e h.1, h.2⟩
  phase := fun s h => ⟨st.phase s h.1, h.2⟩
  time := fun s c hc h => ⟨st.time s c hc h.1, h.2⟩
  host := by
    intro s a es t h ha
    refine ⟨st.host s a es t h.1 ha, ?_⟩
    obtain ⟨_, _, rfl⟩ | ⟨_, _, _, _, _, _, _, rfl⟩ :=
      hostAccess_running (s := s.withEnv es) (st.busy (s.withEnv (.outside (.host a) :: es)) h.1) ha <;> exact h.2
  rst := fun s es h => st.rst s es h.1

/-- Reading the timebase, with what is done with the reading. -/
theorem ExecStable.readTime_andThen {α : Type} {s : State} {f : Stamp → State → Res α} (h : P s)
    (hf : ∀ t, P t → (f t.clock t).Keeps P K) : ((readTime s).andThen f).Keeps P K := by
  have := st.corePoint h
  simp only [readTime]
  cases hr : corePoint s with
  | ret a t => rw [hr] at this; exact hf t this
  | raise e t => rw [hr] at this; exact this
  | stop o => rw [hr] at this; cases o <;> exact this

end

/-- What SS.RUN may write. -/
def loopWrites : Writes := writes (.ssRun 0)

section
variable {P K : State → Prop} (st : ExecStable loopWrites P K)
include st

omit st in
theorem loopWrites_x {i : Fin 32} (h : i.val < 31) : i ∈ loopWrites.x :=
  List.mem_map.2 ⟨⟨i.val, h⟩, List.mem_finRange _, rfl⟩

theorem tickFuse_stable {s : State} (h : P s) : P (tickFuse s).2 := by
  simp only [tickFuse]
  split
  · have hd : P (setDt s) := st.orSat rfl _ _ (st.setX _ _ _ (.inr (loopWrites_x (by decide))) h)
    have := st.oeStep rfl rfl (fun i _ h => loopWrites_x (by omega)) hd
    split
    · exact (st.loop rfl).lastTs _ this
    · exact this
  · exact h

theorem loop_group (g : Group) : GroupStable g P K :=
  st.toGroup g rfl rfl rfl (fun _ => rfl) (by cases g <;> decide)

theorem tickPolls_keeps (gs : List Group) : ∀ w s, P s → (tickPolls gs w s).Keeps P K := by
  induction gs with
  | nil => exact fun _ s h => h
  | cons g gs ih =>
    intro w s h
    refine (st.corePoint h).andThen fun _ t ht => ?_
    split
    · exact (pollGroup_keeps (loop_group st g) ht).andThen fun r u hu => ih _ u hu
    · exact ih w _ (st.rawOk rfl t g false ht)

/-- What a tick can do. -/
theorem tick_keeps {s : State} (h : P s) : (tick s).Keeps P K := by
  have lp := st.loop rfl
  refine st.readTime_andThen (lp.ssPhase s _ h) fun t ht => ?_
  refine (tickPolls_keeps st _ _ _ (lp.ssPhase _ _ (lp.tickStart t ht))).andThen fun w t ht => ?_
  refine (st.corePoint (lp.ssPhase t _ ht)).andThen fun _ t ht => ?_
  refine (st.corePoint (st.caApply rfl (fun i _ h => loopWrites_x (by omega)) ht)).andThen fun _ t ht => ?_
  refine st.readTime_andThen (lp.ssPhase _ _ (tickFuse_stable st ht)) fun u hu => ?_
  refine ((st.scheduled { u.ss with tEnd := u.clock }).corePoint ⟨lp.tickStop u hu, rfl⟩).andThen_of
    (fun _ h => h.1) fun _ v hv => ?_
  refine (st.corePoint (lp.emit v u hv.1 hu (by rw [hv.2]) (by rw [hv.2]))).andThen fun _ u hu => ?_
  exact (st.corePoint (lp.ticks u hu)).andThen fun _ u hu => lp.lasttick u _ hu

theorem loopEnd_stable {s : State} (h : P s) : P (loopEnd s) :=
  st.setX _ _ _ (.inl rfl) ((st.loop rfl).runEnd s h)

/-- What a turn of the loop of SS.RUN can do. -/
theorem loopTurn_keeps {s : State} (h : P s) : (loopTurn s).Keeps P K := by
  refine (st.corePoint h).andThen fun _ t ht => ?_
  split
  · exact loopEnd_stable st ht
  · refine (tick_keeps st ht).andThen fun _ u hu => ?_
    refine (st.corePoint hu).andThen fun _ u hu => ?_
    have hv := (st.loop rfl).countTick u hu
    simp only
    split
    · exact loopEnd_stable st hv
    · refine Res.Keeps.andThen ?_ fun _ w hw => Res.Keeps.andThen ?_ fun _ y hy => hy
      · simp only [nextEpoch]
        split
        · exact (st.loop rfl).epoch _ _ hv
        · trivial
      · refine (st.readTime hw).andThen fun now t ht => ?_
        split
        · exact st.waitUntil ht
        · exact ht

theorem afterTurn_ends {r : Res Bool} (h : r.Keeps P K) : Ends K (afterTurn r) := by
  have hc : ∀ s, P s → ∀ f : State → State, (∀ t, P t → K (f t)) → Ends K (closing (corePoint s) f) := by
    intro s hs f hf
    have := st.corePoint hs
    cases hcp : corePoint s with
    | ret a t => rw [hcp] at this; exact hf t this
    | raise e t => rw [hcp] at this; exact hf t this
    | stop o => rw [hcp] at this; cases o <;> exact this
  cases r with
  | ret b s =>
    cases b with
    | true => exact hc s h _ st.done
    | false => exact st.top rfl s h
  | raise e s => exact hc s h _ fun t ht => st.failed e (setResult t 0) (st.setX t 31 0 (.inl rfl) ht)
  | stop o => cases o <;> exact h

end

/-- A command whose routine keeps `P`. -/
theorem command_stable {w : Writes} {P K : State → Prop} (st : ExecStable w P K) {op : BitVec 6} {legal : Bool}
    {result : State → State} {body : State → Res Unit} {s : State}
    (ha : s.cmd.busy = true → K (s.withCmd { s.cmd with cmdOvr := true }))
    (hs : s.cmd.busy = false → ∀ op, P (startCommand op s)) (hi : s.cmd.busy = false → K (illegalCommand s)) (hres : ∀ t, P t → P (result t))
    (hbody : legal = true → ∀ t, P t → (body t).Keeps P K) : Ends K (command op legal result body s) :=
  st.command ha (fun hb _ => hi hb) (fun hb _ => hs hb op) hbody
    (fun _ h => h) st.done fun e t ht => st.failed e (result t) (hres t ht)

/-- What a command can do: only what `writes` says, and turn away a command of a busy core. -/
theorem exec_ends (i : Instr) {P K : State → Prop} (st : ExecStable (writes i) P K) {s : State}
    (ha : s.cmd.busy = true → K (s.withCmd { s.cmd with cmdOvr := true }))
    (hs : s.cmd.busy = false → ∀ op, P (startCommand op s)) (hi : s.cmd.busy = false → K (illegalCommand s)) :
    Ends K (exec i s) := by
  have res : ∀ (s : State) v, P s → P (setResult s v) := fun s v hs => st.setX s 31 v (.inl rfl) hs
  have hz : ∀ t, P t → P (resultZero t) := fun t ht => res t 0 ht
  cases i with
  | btWrite a reg len =>
    exact command_stable st ha hs hi hz fun _ t ht => (memWrite_keeps (st.toSelect rfl) ht).andThen fun _ u hu => res u _ hu
  | btRead a reg len =>
    refine command_stable st ha hs hi hz fun hl t ht =>
      (memRead_keeps (st.toBus rfl rfl) ?_ ht).andThen fun _ u hu => res u _ hu
    simp only [validReadLen, Bool.and_eq_true, decide_eq_true_eq] at hl
    exact hl.2
  | btWrbyte a reg val =>
    exact command_stable st ha hs hi hz fun _ t ht => (memWrite_keeps (st.toSelect rfl) ht).andThen fun _ u hu => res u _ hu
  | btRdbyte a reg =>
    exact command_stable st ha hs hi hz fun _ t ht =>
      (memRead_keeps (st.toBus rfl rfl) (by omega) ht).andThen fun _ u hu => res u _ hu
  | rdRbit dev reg first =>
    exact command_stable st ha hs hi hz fun _ t ht => (rdBits_keeps (st.toBus rfl rfl) ht).andThen fun _ u hu => res u _ hu
  | rdWbit dev reg first val =>
    exact command_stable st ha hs hi hz fun _ t ht =>
      (wrBits_keeps (st.toBus rfl rfl) (st.rmw rfl) ht).andThen fun _ u hu => res u _ hu
  | rdRbits dev reg first flen =>
    exact command_stable st ha hs hi hz fun _ t ht => (rdBits_keeps (st.toBus rfl rfl) ht).andThen fun _ u hu => res u _ hu
  | rdWbits dev reg first flen val =>
    exact command_stable st ha hs hi hz fun _ t ht =>
      (wrBits_keeps (st.toBus rfl rfl) (st.rmw rfl) ht).andThen fun _ u hu => res u _ hu
  | agInit =>
    exact command_stable st ha hs hi (fun t ht => res t _ ht) fun _ t ht =>
      (agInitialize_keeps (st.toAg rfl rfl rfl rfl) ht).andThen fun _ u hu => res u _ hu
  | agSetar code =>
    exact command_stable st ha hs hi hz fun _ t ht =>
      (agSetRangeA_keeps (st.toAg rfl rfl rfl rfl) ht).andThen fun _ u hu => res u _ hu
  | agSetgr code =>
    exact command_stable st ha hs hi hz fun _ t ht =>
      (agSetRangeG_keeps (st.toAg rfl rfl rfl rfl) ht).andThen fun _ u hu => res u _ hu
  | agRdaraw =>
    exact command_stable st ha hs hi hz fun _ t ht => (agRead6_keeps (st.toBus rfl rfl) ht).andThen fun r u hu =>
      res _ _ (st.setX3 (by decide) (by decide) (by decide) hu)
  | agRdgraw =>
    exact command_stable st ha hs hi hz fun _ t ht => (agRead6_keeps (st.toBus rfl rfl) ht).andThen fun r u hu =>
      res _ _ (st.setX3 (by decide) (by decide) (by decide) hu)
  | agRda =>
    exact command_stable st ha hs hi hz fun _ t ht => (agRead6_keeps (st.toBus rfl rfl) ht).andThen fun r u hu =>
      res _ _ (st.putFx3 rfl (by decide) (by decide) (by decide)
        (st.setX3 (by decide) (by decide) (by decide) hu))
  | agRdg =>
    exact command_stable st ha hs hi hz fun _ t ht => (agRead6_keeps (st.toBus rfl rfl) ht).andThen fun r u hu =>
      res _ _ (st.putFx3 rfl (by decide) (by decide) (by decide)
        (st.setX3 (by decide) (by decide) (by decide) hu))
  | mgInit =>
    exact command_stable st ha hs hi (fun t ht => res t _ ht) fun _ t ht =>
      (mgInitialize_keeps (st.toMg rfl rfl rfl rfl) ht).andThen fun _ u hu => res u _ hu
  | mgSetmode mode =>
    exact command_stable st ha hs hi hz fun _ t ht => (rdCheck_keeps ht).andThen fun _ t ht =>
      (mgSetModeNum_keeps (st.toMg rfl rfl rfl rfl) ht).andThen fun _ u hu => res u _ hu
  | mgSetres code =>
    exact command_stable st ha hs hi hz fun _ t ht => (rdCheck_keeps ht).andThen fun _ t ht =>
      (mgSetRes_keeps (st.toMg rfl rfl rfl rfl) ht).andThen fun _ u hu => res u _ hu
  | mgRdraw =>
    exact command_stable st ha hs hi hz fun _ t ht =>
      (mgBurst_keeps (st.toBus rfl rfl) (st.ovf rfl) ht).andThen fun r u hu =>
        res _ _ (st.setX3 (by decide) (by decide) (by decide) hu)
  | mgRd =>
    exact command_stable st ha hs hi hz fun _ t ht =>
      (mgBurst_keeps (st.toBus rfl rfl) (st.ovf rfl) ht).andThen fun r u hu =>
        res _ _ (st.putFx3 rfl (by decide) (by decide) (by decide)
          (st.setX3 (by decide) (by decide) (by decide) hu))
  | mgGetovf => exact command_stable st ha hs hi hz fun _ t ht => res t _ ht
  | saPolla =>
    exact command_stable st ha hs hi hz fun _ t ht => pollOne_keeps
      (st.toGroup .acc rfl rfl rfl (fun e => nomatch e) (by decide)) (st.stamp rfl) res ht
  | saPollg =>
    exact command_stable st ha hs hi hz fun _ t ht => pollOne_keeps
      (st.toGroup .gyr rfl rfl rfl (fun e => nomatch e) (by decide)) (st.stamp rfl) res ht
  | saPollm =>
    exact command_stable st ha hs hi hz fun _ t ht => pollOne_keeps
      (st.toGroup .mag rfl rfl rfl (fun _ => rfl) (by decide)) (st.stamp rfl) res ht
  | saPoll =>
    exact command_stable st ha hs hi (fun t ht => ht) fun _ t ht => pollFull_keeps st.toStable
      (fun g => st.toGroup g rfl rfl rfl (fun _ => rfl) (by cases g <;> decide)) (st.stamp rfl) res ht
  | saRdya => exact command_stable st ha hs hi hz fun _ t ht => res t _ ht
  | saRdyg => exact command_stable st ha hs hi hz fun _ t ht => res t _ ht
  | saRdym => exact command_stable st ha hs hi hz fun _ t ht => res t _ ht
  | caApply mask =>
    exact command_stable st ha hs hi hz fun _ t ht => res _ _ (st.caApply rfl
      (show ∀ i : Fin 32, 9 ≤ i.val → i.val < 27 → i ∈ (writes (.caApply 0)).x by decide) ht)
  | oeStep => exact command_stable st ha hs hi hz fun _ t ht => res _ _ (st.oeStep rfl rfl (by decide) ht)
  | ssRun count =>
    have st' : ExecStable loopWrites P K := st
    simp only [exec, execSsRun, turnedAway]
    split
    · exact ha ‹_›
    · rename_i hb
      have hb : s.cmd.busy = false := by simpa using hb
      split
      · refine afterTurn_ends st' ?_
        refine (st.corePoint (hs hb _)).andThen fun _ t ht => ?_
        refine Res.Keeps.andThen ?_ fun _ u hu => loopTurn_keeps st' hu
        exact st.readTime_andThen ((st.loop rfl).runStart t ht) fun u hu => (st.loop rfl).runInit u count hu
      · exact hi hb

/-- Every move of the core keeps `P` inside commands and `K` between steps. -/
structure CoreStable (P K : State → Prop) : Prop extends ExecStable Writes.all P K where
  resume : ∀ s : State, K s → s.held = false → s.cmd.busy = true → P s
  stay : ∀ s : State, P s → K s
  start : ∀ (s : State) op, K s → s.held = false → s.cmd.busy = false → P (startCommand op s)
  illegal : ∀ s : State, K s → s.held = false → s.cmd.busy = false → K (illegalCommand s)
  idleUsed : ∀ (s : State) e es, K (s.withEnv (e :: es)) → K (s.withEnv es)
  idleTime : ∀ (s : State) c, s.clock ≤ c → K s → K (s.withClock c)
  idleHost : ∀ (s : State) a t, K s → s.held = false → s.cmd.busy = false → hostAccess s a = .ok t → K t
  idleRst : ∀ (s : State) es, K (s.withEnv (.outside .rst :: es)) → s.held = false →
    K (inReset (s.withEnv es))
  heldHost : ∀ (s : State) port free, K s → s.held = true → K ((s.withPort port).withFree free)
  release : ∀ (s : State) es, K (s.withEnv (.outside .release :: es)) → s.held = true →
    K (afterReset (s.withEnv es))

/-- What all commands keep, each command keeps. -/
theorem ExecStable.of_all {w : Writes} {P K : State → Prop} (st : ExecStable Writes.all P K) :
    ExecStable w P K :=
  { st with
    select := fun _ => st.select rfl
    unselect := fun _ => st.unselect rfl
    attempt := fun _ => st.attempt rfl
    received := fun _ => st.received rfl
    unreceived := fun _ => st.unreceived rfl
    rmw := fun _ => st.rmw rfl
    arange := fun _ => st.arange rfl
    grange := fun _ => st.grange rfl
    agState := fun _ => st.agState rfl
    mode := fun _ => st.mode rfl
    resbit := fun _ => st.resbit rfl
    mgStage := fun _ => st.mgStage rfl
    mgAdj := fun _ => st.mgAdj rfl
    mgFresh := fun _ => st.mgFresh rfl
    mgDone := fun _ => st.mgDone rfl
    ovf := fun _ => st.ovf rfl
    rawOk := fun _ => st.rawOk rfl
    stamp := fun _ => st.stamp rfl
    setX := fun s i v _ => st.setX s i v (.inr (List.mem_finRange i))
    orSat := fun _ => st.orSat rfl
    estTs := fun _ => st.estTs rfl
    loop := fun _ => st.loop rfl
    top := fun _ => st.top rfl }

section
variable {P K : State → Prop} (st : CoreStable P K)
include st

/-- What a step can do. -/
theorem step_ends {s : State} (h : K s) : Ends K (step s) := by
  have out : ∀ o es, s.held = false → s.cmd.busy = true → s.env = .outside o :: es →
      Ends K (closing (outsideMove o (s.withEnv es)) id) := by
    intro o es hn hb he
    have hp : P (s.withEnv (.outside o :: es)) := by rw [← he]; exact st.resume s h hn hb
    have := st.outsideMove o s es hp
    cases hr : outsideMove o (s.withEnv es) with
    | ret a t => rw [hr] at this; exact st.stay t this
    | raise e t => rw [hr] at this; exact st.stay t this
    | stop o => rw [hr] at this; cases o <;> exact this
  have used : ∀ e es, s.env = e :: es → K (s.withEnv es) := by
    intro e es he
    exact st.idleUsed s e es (by rw [← he]; exact h)
  have timed : ∀ (t : State) d, K t → Ends K (closing (elapse d t) id) := by
    intro t d hk
    simp only [elapse]
    split
    · exact st.idleTime _ _ (clock_le_add ‹_›) hk
    · trivial
  simp only [step, nextStep]
  split
  · rename_i hn
    simp only [heldStep]
    split
    · exact h
    · rename_i o es he
      have hk := used _ _ he
      cases o with
      | elapse d => exact timed _ d hk
      | host a =>
        simp only [heldMove]
        split
        · obtain ⟨p, f, rfl⟩ := heldAccess_cases ‹_›
          exact st.heldHost _ p f hk hn
        · trivial
      | rst => exact hk
      | release => exact st.release s es (by rw [← he]; exact h) hn
    · exact used _ _ ‹_›
    · exact used _ _ ‹_›
  rename_i hn
  have hn : s.held = false := by simpa using hn
  split
  · rename_i hb
    split
    · exact afterTurn_ends st.toExecStable.of_all (loopTurn_keeps st.toExecStable.of_all (st.resume s h hn hb))
    · simp only [hungStep]
      split
      · trivial
      · exact out _ _ hn hb ‹_›
      · exact used _ _ ‹_›
      · exact used _ _ ‹_›
  · rename_i hb
    have hb : s.cmd.busy = false := by simpa using hb
    simp only [idleStep]
    split
    · exact h
    · rename_i o es he
      have hk := used _ _ he
      cases o with
      | elapse d => exact timed _ d hk
      | host a =>
        simp only [idleMove]
        split
        · simp only [fetchCommand]
          split
          · exact exec_ends _ st.toExecStable.of_all (fun e => absurd (hb.symm.trans e) (by decide))
              (fun hb op => st.start _ op hk hn hb) (st.illegal _ hk hn)
          · simp only [turnedAway, State.withEnv_cmd, hb]
            exact st.illegal _ hk hn hb
        · split
          · exact st.idleHost _ _ _ hk hn hb ‹_›
          · trivial
      | rst => exact st.idleRst s es (by rw [← he]; exact h) hn
      | release => exact hk
    · exact used _ _ ‹_›
    · exact used _ _ ‹_›

/-- A condition that every move of the core keeps holds after every step that gives a next state. -/
theorem step_keeps {s t : State} (h : K s) (hs : step s = .next t) : K t := (step_ends st h).next hs

end

end Sys2Proof.Machine
end

