-- ==== Sys2Proof/Laws/Quiet.lean ====
section
/-! SUPPORT. What a command came to, whatever the bus answers, when no host access and no `rst` comes
during it: its routine returned or raised, and what the routine keeps held throughout. -/

namespace Sys2Proof.Machine

open Sys2Proof

/-! ## What never raises -/

theorem outsideMove_not_raise {o : Outside} {s t : State} {e : Err} : outsideMove o s ≠ .raise e t := by
  intro h
  cases o with
  | elapse d => simp only [outsideMove, elapse] at h; split at h <;> cases h
  | host a => simp only [outsideMove] at h; split at h <;> cases h
  | rst => cases h
  | release => cases h

theorem letOutside_not_raise {d : Nat} {e : Err} {t : State} (es : List Event) :
    ∀ s, letOutside d es s ≠ .raise e t := by
  induction es with
  | nil => exact fun s h => nomatch h
  | cons x es ih =>
    intro s
    cases x with
    | outside o =>
      simp only [letOutside]
      split
      · cases ho : outsideMove o (s.withEnv es) with
        | ret a u => exact ih u
        | raise e u => exact absurd ho outsideMove_not_raise
        | stop o => exact fun h => nomatch h
      · exact fun h => nomatch h
    | turn => exact fun h => nomatch h
    | answer a => exact fun h => nomatch h

theorem corePoint_not_raise {s t : State} {e : Err} : corePoint s ≠ .raise e t := letOutside_not_raise _ _

theorem waitTo_not_raise {d : Nat} {s t : State} {e : Err} : waitTo d s ≠ .raise e t := by
  rw [waitTo]
  cases h : letOutside d s.env (nextPhase s) with
  | ret a u => simp only [Res.andThen, wakeAt]; split <;> exact fun h => nomatch h
  | raise e u => exact absurd h (letOutside_not_raise _ _)
  | stop o => exact fun h => nomatch h

/-! ## Inside a quiet command -/

/-- Inside a command, no host access and no `rst` to come, and `Q`. -/
def Quiet (Q : State → Prop) (s : State) : Prop :=
  s.cmd.busy = true ∧ hostQuiet s.env = true ∧ Q s

/-- `Q` does not look at the environment, what was sent out, the sequencer's position; time may pass. -/
structure Unaware (Q : State → Prop) : Prop where
  env : ∀ (s : State) es, Q s ↔ Q (s.withEnv es)
  port : ∀ (s : State) p, Q s → Q (s.withPort p)
  seq : ∀ (s : State) q, Q s → Q (s.withSeq q)
  clock : ∀ (s : State) (c : Stamp), s.clock ≤ c → Q s → Q (s.withClock c)

theorem hostQuiet_tail {e : Event} {es : List Event} (h : hostQuiet (e :: es) = true) : hostQuiet es = true := by
  simp only [hostQuiet, List.all_cons, Bool.and_eq_true] at h; exact h.2

theorem Unaware.stable {Q : State → Prop} (i : Unaware Q) : Stable (Quiet Q) fun _ => False where
  used := fun s e es h => ⟨h.1, hostQuiet_tail h.2.1, (i.env s es).1 ((i.env s _).2 h.2.2)⟩
  port := fun s e h => ⟨h.1, h.2.1, i.port _ _ h.2.2⟩
  phase := fun s h => ⟨h.1, h.2.1, i.seq _ _ h.2.2⟩
  time := fun s c hc h => ⟨h.1, h.2.1, i.clock _ _ hc h.2.2⟩
  host := fun s a es t h => absurd h.2.1 (by simp [hostQuiet, quietEvent])
  rst := fun s es h => absurd h.2.1 (by simp [hostQuiet, quietEvent])

/-- `Q` does not look at the transport and the receive buffer either, nor at the temporary. -/
structure BusUnaware (Q : State → Prop) : Prop extends Unaware Q where
  bt : ∀ (s : State) v, Q s → Q (s.withBt v)
  buf : ∀ (s : State) v, Q s → Q (s.withBuf v)
  free : ∀ (s : State) v, Q s → Q (s.withFree v)
  rmw : ∀ (s : State) v, Q s → Q (s.withRmw v)

theorem BusUnaware.stableBus {Q : State → Prop} (i : BusUnaware Q) : BusStable (Quiet Q) fun _ => False where
  toStable := i.toUnaware.stable
  busy := fun s h => h.1
  select := fun s a h _ => ⟨h.1, h.2.1, i.bt s _ h.2.2⟩
  unselect := fun s h => ⟨h.1, h.2.1, i.bt s _ h.2.2⟩
  attempt := fun s k _ h => ⟨h.1, h.2.1, i.bt s _ h.2.2⟩
  received := fun s bs _ h => ⟨h.1, h.2.1, i.buf s _ h.2.2⟩
  unreceived := fun s h => by
    refine ⟨by simpa using h.1, by simpa using h.2.1, ?_⟩
    unfold rxFailed
    generalize freeBuffer _ = m
    exact i.free (s.withBuf _) _ (i.buf s _ h.2.2)

theorem BusUnaware.keepsRmw {Q : State → Prop} (i : BusUnaware Q) (s : State) (b : Byte) (h : Quiet Q s) :
    Quiet Q (s.withRmw b) := ⟨h.1, h.2.1, i.rmw s b h.2.2⟩

/-- What a command of an idle core came to: its routine, run in a state `u` in which `P` holds, returned
or raised, `P` still holding; then came its completion (R328 to R330). -/
theorem command_cases {P : State → Prop} (st : Stable P fun _ => False) {op : BitVec 6} {legal : Bool}
    {result : State → State} {body : State → Res Unit} {s t : State} (hb : s.cmd.busy = false)
    (hl : legal = true) (hs : P (startCommand op s)) (hbody : ∀ u, P u → (body u).Keeps P fun _ => False)
    (h : command op legal result body s = .next t) :
    ∃ u, P u ∧
      ((∃ v w, body u = .ret () v ∧ P v ∧ corePoint v = .ret () w ∧ P w ∧ t = completeCommand w) ∨
      ∃ e v w, body u = .raise e v ∧ P v ∧ corePoint v = .ret () w ∧ P w ∧ t = failCommand result e w) := by
  rw [command, turnedAway, if_neg (by simp [hb]), if_pos hl] at h
  have h1 := st.corePoint hs
  cases hc : corePoint (startCommand op s) with
  | raise e u => exact absurd hc corePoint_not_raise
  | stop o => rw [hc] at h h1; simp only [Res.andThen, completing] at h; subst h; exact h1.elim
  | ret a u =>
    rw [hc] at h h1
    simp only [Res.andThen] at h
    have h2 := hbody u h1
    refine ⟨u, h1, ?_⟩
    cases hr : body u with
    | stop o => rw [hr] at h h2; simp only [completing] at h; subst h; exact h2.elim
    | ret a v =>
      rw [hr] at h h2
      simp only [completing] at h
      have h3 := st.corePoint (s := v) h2
      cases hv : corePoint v with
      | raise e u => exact absurd hv corePoint_not_raise
      | stop o => rw [hv] at h h3; simp only [closing] at h; subst h; exact h3.elim
      | ret a w =>
        rw [hv] at h h3
        simp only [closing, Host.Outcome.next.injEq] at h
        exact .inl ⟨v, w, rfl, h2, hv, h3, h.symm⟩
    | raise e v =>
      rw [hr] at h h2
      simp only [completing] at h
      have h3 := st.corePoint (s := v) h2
      cases hv : corePoint v with
      | raise e u => exact absurd hv corePoint_not_raise
      | stop o => rw [hv] at h h3; simp only [closing] at h; subst h; exact h3.elim
      | ret a w =>
        rw [hv] at h h3
        simp only [closing, Host.Outcome.next.injEq] at h
        exact .inr ⟨e, v, w, rfl, h2, hv, h3, h.symm⟩

end Sys2Proof.Machine
end

