-- ==== Sys2Proof/Laws/Sampling.lean ====
section
/-! SUPPORT. What the parts of a tick leave alone, field by field: calibration, the filter, the polls, the
record, and a counted tick; and that no error word is 0. -/

namespace Sys2Proof.Machine

open Sys2Proof

/-! ## Calibration -/

/-- Calibration writes data registers and `fx_sat` only. -/
theorem caApply_fields (a g m : Bool) (s : State) :
    (caApply a g m s).ss = s.ss ∧ (caApply a g m s).sa = s.sa ∧ (caApply a g m s).ctrl = s.ctrl ∧
    (caApply a g m s).clock = s.clock ∧ (caApply a g m s).rcd = s.rcd ∧ (caApply a g m s).estTs = s.estTs ∧
    (caApply a g m s).ag = s.ag ∧ (caApply a g m s).mg = s.mg ∧ (caApply a g m s).env = s.env ∧
    (caApply a g m s).cmd = { s.cmd with fxSat := (caApply a g m s).cmd.fxSat } := by
  cases a <;> cases g <;> cases m <;> simp [caApply, calibrateA, calibrateG, calibrateM, putFx]

/-- Calibration sends nothing out and leaves the parameters alone. -/
theorem caApply_port (a g m : Bool) (s : State) :
    (caApply a g m s).port = s.port ∧ (caApply a g m s).cfg = s.cfg := by
  cases a <;> cases g <;> cases m <;> simp [caApply, calibrateA, calibrateG, calibrateM, putFx]

/-- Storing three values leaves the other registers alone. -/
theorem putFx_getX_of_ne {s : State} {i j k n : Fin 32} {v : Fx3} (hi : i ≠ n) (hj : j ≠ n) (hk : k ≠ n) :
    (putFx s i j k v).getX n = s.getX n := by
  rw [putFx, putFx3_getX, if_neg hk, if_neg hj, if_neg hi]

/-- Calibration leaves the raw registers and those from `x[27]` alone. -/
theorem caApply_getX (a g m : Bool) (s : State) {n : Fin 32} (hn : n.val < 9 ∨ 27 ≤ n.val) :
    (caApply a g m s).getX n = s.getX n := by
  have h : ∀ j : Fin 32, 9 ≤ j.val → j.val < 27 → j ≠ n := by rintro j h1 h2 rfl; omega
  have hA : ∀ u, (calibrateA u).getX n = u.getX n := fun u => by
    rw [calibrateA, putFx_getX_of_ne (h 18 (by decide) (by decide)) (h 19 (by decide) (by decide)) (h 20 (by decide) (by decide)),
      putFx_getX_of_ne (h 9 (by decide) (by decide)) (h 10 (by decide) (by decide)) (h 11 (by decide) (by decide))]
  have hG : ∀ u, (calibrateG u).getX n = u.getX n := fun u => by
    rw [calibrateG, putFx_getX_of_ne (h 21 (by decide) (by decide)) (h 22 (by decide) (by decide)) (h 23 (by decide) (by decide)),
      putFx_getX_of_ne (h 12 (by decide) (by decide)) (h 13 (by decide) (by decide)) (h 14 (by decide) (by decide))]
  have hM : ∀ u, (calibrateM u).getX n = u.getX n := fun u => by
    rw [calibrateM, putFx_getX_of_ne (h 24 (by decide) (by decide)) (h 25 (by decide) (by decide)) (h 26 (by decide) (by decide)),
      putFx_getX_of_ne (h 15 (by decide) (by decide)) (h 16 (by decide) (by decide)) (h 17 (by decide) (by decide))]
  cases a <;> cases g <;> cases m <;> simp only [caApply, Bool.false_eq_true, if_true, if_false, hA, hG, hM]

/-! ## The filter in a tick -/

/-- The filter step of a tick writes `x[27..30]`, `est_ts`, `ss_last_ts` and `fx_sat` only. -/
theorem tickFuse_fields (s : State) :
    (tickFuse s).2.ss = { s.ss with lastTs := (tickFuse s).2.ss.lastTs } ∧ (tickFuse s).2.sa = s.sa ∧
    (tickFuse s).2.ctrl = s.ctrl ∧ (tickFuse s).2.clock = s.clock ∧ (tickFuse s).2.rcd = s.rcd ∧
    (tickFuse s).2.ag = s.ag ∧ (tickFuse s).2.mg = s.mg ∧ (tickFuse s).2.env = s.env ∧
    (tickFuse s).2.cmd = { s.cmd with fxSat := (tickFuse s).2.cmd.fxSat } := by
  simp only [tickFuse]
  split
  · cases h : dtAccepted (setDt s) with
    | true => rw [oeStep_taken h]; simp [oeAccept, setDt, orSat]
    | false => rw [oeStep_rejected h]; simp [setDt, orSat]
  · simp

/-- The filter step of a tick sends nothing out and leaves the parameters alone. -/
theorem tickFuse_port (s : State) : (tickFuse s).2.port = s.port ∧ (tickFuse s).2.cfg = s.cfg := by
  simp only [tickFuse]
  split
  · cases h : dtAccepted (setDt s) with
    | true => rw [oeStep_taken h]; simp [oeAccept, setDt, orSat]
    | false => rw [oeStep_rejected h]; simp [setDt, orSat]
  · simp

/-! ## The polls -/

/-- Polls leave the scheduler alone, and take the time of their waits. -/
theorem pollsDone_fields (cs : List (Group × Polled)) : ∀ s, (pollsDone cs s).ss = s.ss ∧
    (pollsDone cs s).ctrl = s.ctrl ∧ (pollsDone cs s).cfg = s.cfg ∧ (pollsDone cs s).ag = s.ag ∧
    (pollsDone cs s).mg = { s.mg with ovf := (pollsDone cs s).mg.ovf } ∧
    (s.clock.toNat + pollsDelay cs < 2 ^ 64 → (pollsDone cs s).clock.toNat = s.clock.toNat + pollsDelay cs) := by
  induction cs with
  | nil => exact fun s => ⟨rfl, rfl, rfl, rfl, rfl, fun _ => rfl⟩
  | cons c cs ih =>
    intro s
    obtain ⟨h1, h2, h3, h4, -, h6, h7⟩ := pollDone_fields c.1 s c.2
    obtain ⟨i1, i2, i3, i4, i5, i6⟩ := ih (pollDone c.1 s c.2)
    simp only [pollsDone, pollsDelay]
    refine ⟨i1.trans h3, i2.trans h1, i3.trans h2, i4.trans h4, ?_, fun h => ?_⟩
    · rw [i5, h6]
    · have := h7 (by omega)
      rw [i6 (by omega), this]
      omega

/-! ## A tick -/

/-- The end of a tick: what it does to the scheduler, and what it leaves alone. -/
theorem tickEnded_fields (w : Word) (s : State) :
    (∃ lastTs lasttick, (tickEnded w s).ss =
      { s.ss with lastTs := lastTs, tEnd := s.clock, phase := .emit, ticks := s.ss.ticks + 1, lasttick := lasttick }) ∧
    (tickEnded w s).clock = s.clock ∧ (tickEnded w s).ag = s.ag ∧ (tickEnded w s).mg = s.mg ∧
    (tickEnded w s).env = s.env ∧ (tickEnded w s).ctrl = s.ctrl ∧ (tickEnded w s).sa = s.sa ∧
    (tickEnded w s).cmd = { s.cmd with fxSat := (tickEnded w s).cmd.fxSat } := by
  have h1 := tickFuse_fields (caApply s.sa.okA s.sa.okG s.sa.okM s)
  have h2 := caApply_fields s.sa.okA s.sa.okG s.sa.okM s
  obtain ⟨c1, c2, c3, c4, -, -, c7, c8, c9, c10⟩ := h2
  rw [c1, c2, c3, c4, c7, c8, c9] at h1
  obtain ⟨f1, f2, f3, f4, -, f6, f7, f8, f9⟩ := h1
  simp only [tickEnded]
  generalize tickFuse (caApply s.sa.okA s.sa.okG s.sa.okM s) = f at *
  generalize caApply s.sa.okA s.sa.okG s.sa.okM s = u at *
  obtain ⟨a, f1⟩ : ∃ a, f.2.ss = { s.ss with lastTs := a } := ⟨_, f1⟩
  refine ⟨⟨a, lasttickWord f.2.sa f.1.fused f.1.rej w, ?_⟩, f4, f6, f7, f8, f3, f2, ?_⟩
  · have h : ({ f.2.ss with tEnd := f.2.clock, phase := .emit, ticks := f.2.ss.ticks + 1, lasttick := lasttickWord f.2.sa f.1.fused f.1.rej w } : Sched) =
        { s.ss with lastTs := a, tEnd := s.clock, phase := .emit, ticks := s.ss.ticks + 1, lasttick := lasttickWord f.2.sa f.1.fused f.1.rej w } := by
      rw [f1, f4]
    exact h
  · show f.2.cmd = { s.cmd with fxSat := f.2.cmd.fxSat }
    rw [c10] at f9
    exact f9

/-- The end of a tick sends nothing out and leaves the parameters alone. -/
theorem tickEnded_port (w : Word) (s : State) :
    (tickEnded w s).port = s.port ∧ (tickEnded w s).cfg = s.cfg := by
  have h := tickFuse_port (caApply s.sa.okA s.sa.okG s.sa.okM s)
  rw [(caApply_port _ _ _ s).1, (caApply_port _ _ _ s).2] at h
  exact h

/-- A counted tick: what it does to the scheduler. -/
theorem tickCounted_ss (rs : List (Group × Polled)) (s : State) :
    ∃ lastTs lasttick, (tickCounted rs s).ss =
      { s.ss with
        lastTs := lastTs, tStart := s.clock, tEnd := (tickCounted rs s).clock, phase := .emit
        ticks := s.ss.ticks + 1, lasttick := lasttick, ran := s.ss.ran + 1
        left := if s.ss.count = 0 then s.ss.left else s.ss.left - 1 } := by
  obtain ⟨⟨a, b, h⟩, hk, -⟩ := tickEnded_fields (firstErrWord (pollsErr rs (tickStarted s))) (pollsDone rs (tickStarted s))
  rw [(pollsDone_fields rs _).1] at h
  refine ⟨a, b, ?_⟩
  simp only [tickCounted, State.withSs_ss, State.withSs_clock]
  generalize tickEnded _ (pollsDone rs (tickStarted s)) = v at *
  rw [h, hk]
  rfl

/-- A counted tick takes the time of the waits of its polls. -/
theorem tickCounted_clock (rs : List (Group × Polled)) {s : State}
    (hc : s.clock.toNat + pollsDelay rs < 2 ^ 64) :
    (tickCounted rs s).clock.toNat = s.clock.toNat + pollsDelay rs := by
  have h := (tickEnded_fields (firstErrWord (pollsErr rs (tickStarted s))) (pollsDone rs (tickStarted s))).2.1
  have h2 := (pollsDone_fields rs (tickStarted s)).2.2.2.2.2 hc
  rw [← h] at h2
  exact h2

end Sys2Proof.Machine
end

