-- ==== Sys2Proof/Tests/Slice0.lean ====
section
/-! SUPPORT. Tests: the checks of WellFormed refuse what they should, every constructor's word decodes, one
or two steps of every command, and for every statement of Certificates/Slice0/Obligations.lean that has
hypotheses a concrete case that meets them all. Expected values are those of spec/95_test_vectors.md (the
vector is named) or worked out by hand from the rule named. -/

namespace Sys2Proof.Tests

open Sys2Proof Sys2Proof.Machine

/-! ## Helpers -/

/-- An outcome is a next state with the property. -/
def reached (o : Host.Outcome State Fault Refusal) (p : State → Bool) : Bool :=
  match o with
  | .next t => p t
  | .fault _ => false
  | .refused _ => false

theorem reached_next {o : Host.Outcome State Fault Refusal} {p : State → Bool} (h : reached o p = true) :
    ∃ t, o = .next t ∧ p t = true := by
  cases o with
  | next t => exact ⟨t, rfl, h⟩
  | fault _ => cases h
  | refused _ => cases h

/-- The state after reset with a `CTRL` word and what the outside will do. -/
def ctrl (w : Word) (es : List Event) : State := (State.reset.withCtrl (ctrlOfWord w)).withEnv es

/-- `ctrl` with the address 0x68 selected. -/
def ag (w : Word) (es : List Event) : State := (ctrl w es).withBt ⟨some 0x68, 0⟩

/-- `ctrl` with the address 0x0C selected. -/
def mg (w : Word) (es : List Event) : State := (ctrl w es).withBt ⟨some 0x0C, 0⟩

/-- A core that runs a command. -/
def busy (s : State) : State := startCommand 0x30 s

/-- A read of a time-out. -/
def timedOut : List Event := [.answer .timedOut]

/-- The registers `x[i]`, `x[i+1]`, `x[i+2]` as integers. -/
def ints (s : State) (i : Fin 32) : List Int :=
  [(s.getX i).toInt, (s.getX (i + 1)).toInt, (s.getX (i + 2)).toInt]

/-! ## The checks of WellFormed (spec/30_encoding.md R112) -/

theorem smoke_read_length_zero : (Instr.btRead 0x68 0x3B 0).wellFormed = false := by decide
theorem smoke_read_length_512 : (Instr.btRead 0x68 0x3B 512).wellFormed = false := by decide
theorem smoke_read_length_511 : (Instr.btRead 0x68 0x3B 511).wellFormed = true := by decide
theorem smoke_field_empty : (Instr.rdRbits .ag 0x1C 4 0).wellFormed = false := by decide
theorem smoke_field_nine : (Instr.rdRbits .ag 0x20 7 9).wellFormed = false := by decide
theorem smoke_field_below_zero : (Instr.rdWbits .ag 0x1C 2 4 0).wellFormed = false := by decide
theorem smoke_field_whole : (Instr.rdWbits .ag 0x20 7 8 0xA5).wellFormed = true := by decide
theorem smoke_field_bit_zero : (Instr.rdRbits .ag 0x20 0 1).wellFormed = true := by decide
theorem smoke_mode_seven : (Instr.mgSetmode 7).wellFormed = false := by decide
theorem smoke_mode_six : (Instr.mgSetmode 6).wellFormed = true := by decide

/-! ## Words (spec/95_test_vectors.md V-ENC) -/

theorem decode_btWrite : decode 0x07435801 = .ok (.btWrite 0x68 0x6B 1) := by decide
theorem decode_btRead : decode 0x08608003 = .ok (.btRead 0x0C 0x10 3) := by decide
theorem decode_btWrbyte : decode 0x0C605016 = .ok (.btWrbyte 0x0C 0x0A 0x16) := by decide
theorem decode_btRdbyte : decode 0x1343A800 = .ok (.btRdbyte 0x68 0x75) := by decide
theorem decode_rdRbit : decode 0x206E4000 = .ok (.rdRbit .ag 0x37 1) := by decide
theorem decode_rdWbit : decode 0x26150001 = .ok (.rdWbit .mg 0x0A 4 1) := by decide
theorem decode_rdRbits : decode 0x28390800 = .ok (.rdRbits .ag 0x1C 4 2) := by decide
theorem decode_rdWbits : decode 0x2E14D006 = .ok (.rdWbits .mg 0x0A 3 4 6) := by decide
theorem decode_agInit : decode 0x40000000 = .ok (.agInit) := by decide
theorem decode_agSetar : decode 0x44000002 = .ok (.agSetar 2) := by decide
theorem decode_agSetgr : decode 0x48000003 = .ok (.agSetgr 3) := by decide
theorem decode_agRdaraw : decode 0x4C000000 = .ok (.agRdaraw) := by decide
theorem decode_agRdgraw : decode 0x50000000 = .ok (.agRdgraw) := by decide
theorem decode_agRda : decode 0x54000000 = .ok (.agRda) := by decide
theorem decode_agRdg : decode 0x58000000 = .ok (.agRdg) := by decide
theorem decode_mgInit : decode 0x60000000 = .ok (.mgInit) := by decide
theorem decode_mgSetmode : decode 0x64000003 = .ok (.mgSetmode 3) := by decide
theorem decode_mgSetres : decode 0x68000001 = .ok (.mgSetres 1) := by decide
theorem decode_mgRdraw : decode 0x6C000000 = .ok (.mgRdraw) := by decide
theorem decode_mgRd : decode 0x70000000 = .ok (.mgRd) := by decide
theorem decode_mgGetovf : decode 0x74000000 = .ok (.mgGetovf) := by decide
theorem decode_saPolla : decode 0x80000000 = .ok (.saPolla) := by decide
theorem decode_saPollg : decode 0x84000000 = .ok (.saPollg) := by decide
theorem decode_saPollm : decode 0x88000000 = .ok (.saPollm) := by decide
theorem decode_saPoll : decode 0x8C000000 = .ok (.saPoll) := by decide
theorem decode_saRdya : decode 0x90000000 = .ok (.saRdya) := by decide
theorem decode_saRdyg : decode 0x94000000 = .ok (.saRdyg) := by decide
theorem decode_saRdym : decode 0x98000000 = .ok (.saRdym) := by decide
theorem decode_caApply : decode 0xA0000007 = .ok (.caApply 7) := by decide
theorem decode_oeStep : decode 0xA4000000 = .ok (.oeStep) := by decide
theorem decode_ssRun : decode 0xC000FFFF = .ok (.ssRun 0xFFFF) := by decide
theorem decode_wide_field : decode 0x2841E000 = .ok (.rdRbits .ag 0x20 7 8) := by decide
theorem decode_table_word : decodeTableWord 32 0x2C41E0A5 = some (.rdWbits .ag 0x20 7 8 0xA5) := by decide

/-- Reserved opcodes of V-ENC. -/
theorem decode_reserved :
    ([0x00000000, 0x14000000, 0x1C000000, 0x30000000, 0x3C000000, 0x5C000000, 0x78000000, 0x7C000000,
      0x9C000000, 0xA8000000, 0xBC000000, 0xC4000000, 0xFC000000, 0xFFFFFFFF] : List Word).map decode =
    List.replicate 14 (.error .reservedOpcode) := by decide

/-- Bits that must be zero, of V-ENC. -/
theorem decode_nonzero :
    ([0x0C605116, 0x1343A801, 0x206E4400, 0x246E4002, 0x28390900, 0x40000001, 0x44000004, 0x48000010,
      0x64000008, 0x68000002, 0xA0000008, 0xA4000001, 0xC0010000] : List Word).map decode =
    List.replicate 13 (.error .nonzeroField) := by decide

/-- Operands that R112 forbids, of V-ENC. -/
theorem decode_forbidden :
    ([0x0B41D800, 0x0B41DA00, 0x28390000, 0x2841E400, 0x2C389000, 0x64000007] : List Word).map decode =
    List.replicate 6 (.error .forbiddenOperand) := by decide

/-! ## One step of each command (spec/95_test_vectors.md) -/

/-- V-BT1. -/
theorem test_btWrite : reached (exec (.btWrite 0x68 0x6B 1) ((ctrl 1 (.answer .selectOk :: writeAns 1)).withBuf ⟨[(0, 0x80)], 1, [], 0, 0⟩)) (fun t => decide (t.bt.sel = some 0x68 ∧ t.getX 31 = 1 ∧ statusWord t = 2 ∧ t.buf.txLen = 1 ∧
    t.port = [.write [0x6B, 0x80], .select 0x68])) = true := by decide

set_option maxRecDepth 20000 in
/-- V-BT5. -/
theorem test_btWrite_too_large : reached (exec (.btWrite 0x68 0 512) (ag 1 [])) (fun t => decide (t.cmd.err = 0x41 ∧ t.getX 31 = 0 ∧ t.cmd.fail = true ∧ t.port = [])) = true := by decide

/-- V-BT10. -/
theorem test_btRead : reached (exec (.btRead 0x68 0x3B 6) (ag 1 (readAns [0x12, 0x34, 0xFF, 0xFE, 0x80, 0]))) (fun t => decide (Memory.take t.buf.rx 7 = [0x12, 0x34, 0xFF, 0xFE, 0x80, 0, 0] ∧ t.buf.rxLen = 6 ∧
    t.getX 31 = 6 ∧ t.bt.attempt = 1)) = true := by decide

/-- V-BT11. -/
theorem test_btRead_retry : reached (exec (.btRead 0x68 0x3B 6) (ag 1 (shortsAns [.read [1, 2, 3]] ++ readAns [1, 2, 3, 4, 5, 6]))) (fun t => decide (t.bt.attempt = 2 ∧ t.clock = 10000 ∧ t.cmd.fail = false ∧
    t.port = [.read 6, .write [0x3B], .wait 10000, .read 6, .write [0x3B]])) = true := by decide

/-- V-BT9. -/
theorem test_btWrbyte : reached (exec (.btWrbyte 0x0C 0x0A 0x16) (ctrl 1 (.answer .selectOk :: timedOut))) (fun t => decide (t.cmd.err = 0x51 ∧ t.bt.sel = some 0x0C)) = true := by decide

/-- V-BT8. -/
theorem test_btWrbyte_no_device : reached (exec (.btWrbyte 0x10 0 0) (ag 1 [.answer .selectFail])) (fun t => decide (t.cmd.err = 0x21 ∧ t.bt.sel = none)) = true := by decide

/-- V-BT15. -/
theorem test_btRdbyte : reached (exec (.btRdbyte 0x68 0x75) (ag 1 (readAns [0xFF]))) (fun t => decide (t.getX 31 = 0xFF ∧ t.buf.rxLen = 1)) = true := by decide

/-- V-RD1. -/
theorem test_rdRbit : reached (exec (.rdRbit .ag 0x37 1) (ag 7 (readAns [0x02]))) (fun t => decide (t.getX 31 = 1 ∧ t.port = [.read 1, .write [0x37]])) = true := by decide

/-- V-RD3. -/
theorem test_rdWbit : reached (exec (.rdWbit .ag 0x37 1 1) (ag 7 (bitsAns 0x10))) (fun t => decide (t.getX 31 = 0 ∧ t.port.head? = some (.write [0x37, 0x12]))) = true := by decide

/-- V-RD5. -/
theorem test_rdRbits : reached (exec (.rdRbits .ag 0x1C 4 2) (ag 7 (readAns [0x10]))) (fun t => decide (t.getX 31 = 2)) = true := by decide

/-- V-RD7. -/
theorem test_rdWbits : reached (exec (.rdWbits .ag 0x1C 4 2 2) (ag 7 (bitsAns 0xEF))) (fun t => decide (t.port.head? = some (.write [0x1C, 0xF7]))) = true := by decide

/-- V-RD8. -/
theorem test_rdWbits_cut : reached (exec (.rdWbits .ag 0x1C 4 2 0xFF) (ag 7 (bitsAns 0))) (fun t => decide (t.port.head? = some (.write [0x1C, 0x18]))) = true := by decide

/-- V-AG1 with the bytes of program P3. -/
theorem test_agInit : reached (exec (.agInit) (ctrl 3 ([.answer .selectOk] ++ bitsAns 0x40 ++ waitAns ++ bitsAns 0xC0 ++ bitsAns 0 ++ writeAns 1 ++
      bitsAns 0x20 ++ bitsAns 0 ++ bitsAns 0x18 ++ bitsAns 0x18))) (fun t => decide (agstatWord t.ag = 6 ∧ t.ag.ares = 4 ∧ t.ag.gres = 500 ∧ t.getX 31 = 6 ∧
    t.port.length = 23 ∧ t.port.head? = some (.write [0x1C, 0]))) = true := by decide

/-- V-AG4. -/
theorem test_agInit_fails : reached (exec (.agInit) (ctrl 3 ([.answer .selectOk] ++ bitsAns 0x40 ++ waitAns ++ bitsAns 0xC0 ++ bitsAns 0 ++ writeAns 1 ++
      bitsAns 0x20 ++ bitsAns 0 ++ bitsAns 0x18 ++ readAns [0x18] ++ timedOut))) (fun t => decide (t.ag.state = .bypassConfigured ∧ t.cmd.err = 0x4152 ∧ t.getX 31 = 4)) = true := by decide

/-- V-AG7. -/
theorem test_agSetar : reached (exec (.agSetar 2) (ag 3 (bitsAns 0))) (fun t => decide (t.ag.arange = 2 ∧ t.ag.ares = 16 ∧ t.getX 31 = 2 ∧ t.port.head? = some (.write [0x1C, 0x10]))) = true := by decide

/-- V-AG9. -/
theorem test_agSetar_short : reached (exec (.agSetar 1) (ag 3 (readAns [0] ++ writeAns 0))) (fun t => decide (t.cmd.err = 0x31 ∧ t.ag.arange = 0 ∧ t.ag.ares = 4)) = true := by decide

/-- V-AG10. -/
theorem test_agSetgr : reached (exec (.agSetgr 3) (ag 3 (bitsAns 0))) (fun t => decide (t.ag.grange = 3 ∧ t.ag.gres = 4000 ∧ t.port.head? = some (.write [0x1B, 0x18]))) = true := by decide

/-- V-AG11. -/
theorem test_agRdaraw : reached (exec (.agRdaraw) (ag 3 (readAns [0x12, 0x34, 0xFF, 0xFE, 0x80, 0]))) (fun t => decide (ints t 0 = [4660, -2, -32768] ∧ t.getX 31 = 1 ∧ ints t 9 = [0, 0, 0])) = true := by decide

/-- V-AG13. -/
theorem test_agRdgraw : reached (exec (.agRdgraw) (ag 3 (readAns [0, 0x83, 0, 0, 0xFF, 0x7D]))) (fun t => decide (ints t 3 = [131, 0, -131])) = true := by decide

/-- V-AG15. -/
theorem test_agRda : reached (exec (.agRda) ((ag 3 (readAns [8, 0, 0xF8, 0, 0x7F, 0xFF])).withAg ⟨.ready, 3, 32, 0, 500⟩)) (fun t => decide (ints t 0 = [2048, -2048, 32767] ∧ ints t 9 = [65536, -65536, 1048544])) = true := by decide

/-- V-AG17. -/
theorem test_agRdg : reached (exec (.agRdg) ((ag 3 (readAns [0x7F, 0xFF, 0x80, 0, 0, 0])).withAg ⟨.ready, 0, 4, 3, 4000⟩)) (fun t => decide (ints t 12 = [131068000, -131072000, 0])) = true := by decide

/-- V-MG1. -/
theorem test_mgInit : reached (exec (.mgInit) (ctrl 5 ([.answer .selectOk] ++ modeAns .powerDown 0 ++ modeAns .fuseRom 0 ++
      readAns [0xB0, 0xB1, 0xA5] ++ modeAns .powerDown 0x0F))) (fun t => decide (t.mg.adj = ⟨77824, 78080, 75008⟩ ∧ mgstatWord t.mg = 0x440 ∧ t.getX 31 = 4 ∧ t.clock = 200)) = true := by decide

/-- V-MG4. -/
theorem test_mgInit_no_device : reached (exec (.mgInit) (ctrl 5 [.answer .selectFail])) (fun t => decide (t.mg.stage = 0 ∧ t.cmd.err = 0x00100122 ∧ t.bt.sel = none)) = true := by decide

/-- V-MG6. -/
theorem test_mgSetmode : reached (exec (.mgSetmode 3) (mg 5 (bitsAns 0x10))) (fun t => decide (t.mg.mode = .cont100Hz ∧ t.clock = 0 ∧ t.getX 31 = 3 ∧ t.port.head? = some (.write [0x0A, 0x16]))) = true := by decide

/-- V-MG7. -/
theorem test_mgSetmode_down : reached (exec (.mgSetmode 0) ((mg 5 (bitsAns 0x16)).withMg { State.reset.mg with mode := .cont100Hz })) (fun t => decide (t.mg.mode = .powerDown ∧ t.clock = 100 ∧ t.port.take 2 = [.wait 100, .write [0x0A, 0x10]])) = true := by decide

/-- V-MG12. -/
theorem test_mgSetres : reached (exec (.mgSetres 1) (mg 5 (bitsAns 6))) (fun t => decide (t.mg.res = 9830 ∧ t.mg.resbit = 1 ∧ t.getX 31 = 1 ∧ t.port.head? = some (.write [0x0A, 0x16]))) = true := by decide

/-- V-MG15. -/
theorem test_mgRdraw : reached (exec (.mgRdraw) (mg 5 (readAns [1, 0, 0x64, 0xFF, 0x9C, 1, 0, 0x10]))) (fun t => decide (ints t 6 = [100, -100, 256] ∧ t.mg.ovf = false ∧ t.getX 31 = 1)) = true := by decide

/-- V-MG16. -/
theorem test_mgRdraw_not_ready : reached (exec (.mgRdraw) (mg 5 (readAns [0, 0, 0x64, 0xFF, 0x9C, 1, 0, 0x18]))) (fun t => decide (t.cmd.err = 0x00110003 ∧ ints t 6 = [0, 0, 0])) = true := by decide

/-- V-MG21. -/
theorem test_mgRd : reached (exec (.mgRd) ((mg 5 (readAns [1, 0, 0x64, 0xFF, 0x9C, 1, 0, 0x10])).withMg
      { State.reset.mg with adj := ⟨77824, 77824, 77824⟩ })) (fun t => decide (ints t 15 = [4669487, -4669488, 11953888])) = true := by decide

/-- Program P3, the first MG.RD. -/
theorem test_mgRd_overflow : reached (exec (.mgRd) (mg 5 (readAns [1, 0, 0x64, 0xFF, 0x9C, 1, 0, 0x18]))) (fun t => decide (statusWord t = 0x106 ∧ t.cmd.err = 0x00120003 ∧ ints t 15 = [0, 0, 0])) = true := by decide

/-- V-MG25. -/
theorem test_mgGetovf : reached (exec (.mgGetovf) (ctrl 0 [])) (fun t => decide (t.getX 31 = 0 ∧ t.cmd.fail = false ∧ t.port = [])) = true := by decide

/-- R236 after an overflow. -/
theorem test_mgGetovf_set : reached (exec (.mgGetovf) ((ctrl 0 []).withMg { State.reset.mg with ovf := true })) (fun t => decide (t.getX 31 = 1)) = true := by decide

/-- V-SA3. -/
theorem test_saPolla : reached (exec (.saPolla) (ag 0xB (readAns [0, 0, 0, 0, 0x40, 0]))) (fun t => decide (ints t 0 = [0, 0, 16384] ∧ t.sa.okA = true ∧ t.getX 31 = 1 ∧ ints t 9 = [0, 0, 0])) = true := by decide

/-- V-SA4. -/
theorem test_saPolla_refused : reached (exec (.saPolla) (ag 3 [])) (fun t => decide (t.getX 31 = 0 ∧ t.cmd.fail = false ∧ t.sa.okA = false ∧ t.port = [])) = true := by decide

/-- V-SA12, the second poll. -/
theorem test_saPollg : reached (exec (.saPollg) ((ag 0x3F (readAns [0, 0x83, 0, 0, 0xFF, 0x7D])).withClock 800)) (fun t => decide (t.sa.ts = 800 ∧ ints t 3 = [131, 0, -131] ∧ t.sa.okG = true)) = true := by decide

/-- V-SA6. -/
theorem test_saPollm : reached (exec (.saPollm) (mg 0x3F (readAns [1, 0, 0x64, 0xFF, 0x9C, 1, 0, 0x18]))) (fun t => decide (t.mg.ovf = true ∧ t.sa.okM = false ∧ t.cmd.err = 0x00120003 ∧ ints t 6 = [0, 0, 0])) = true := by decide

/-- V-SA7. -/
theorem test_saPoll : reached (exec (.saPoll) (ag 0x3F (readAns [0, 0, 0, 0, 0x40, 0] ++ readAns [0, 0, 0, 0, 0, 0] ++
      .answer .selectOk :: readAns [0, 0, 0, 0, 0, 0, 0, 0]))) (fun t => decide (t.getX 31 = 3 ∧ t.cmd.err = 0x00110003 ∧ statusWord t = 0x606)) = true := by decide

/-- V-SA2. -/
theorem test_saPoll_nothing : reached (exec (.saPoll) ((ctrl 0 []).withClock 500)) (fun t => decide (t.getX 31 = 0 ∧ t.cmd.fail = false ∧ t.sa = ⟨false, false, false, 500⟩ ∧ t.port = [])) = true := by decide

/-- V-SA9. -/
theorem test_saRdya : reached (exec (.saRdya) (((ctrl 0x3F []).withAg ⟨.ready, 0, 4, 0, 500⟩).withMg { State.reset.mg with mode := .cont100Hz, initDone := true })) (fun t => decide (t.getX 31 = 1)) = true := by decide

/-- V-SA1. -/
theorem test_saRdyg : reached (exec (.saRdyg) (ctrl 0 [])) (fun t => decide (t.getX 31 = 0)) = true := by decide

/-- V-SA9. -/
theorem test_saRdym : reached (exec (.saRdym) (((ctrl 0x3F []).withAg ⟨.ready, 0, 4, 0, 500⟩).withMg { State.reset.mg with mode := .cont100Hz, initDone := true })) (fun t => decide (t.getX 31 = 1)) = true := by decide

/-- V-SA10. -/
theorem test_saRdym_down : reached (exec (.saRdym) (((ctrl 0x3F []).withAg ⟨.ready, 0, 4, 0, 500⟩).withMg { State.reset.mg with mode := .powerDown, initDone := true })) (fun t => decide (t.getX 31 = 0)) = true := by decide

/-- V-CA1. -/
theorem test_caApply : reached (exec (.caApply 1) (((ctrl 0 []).setX3 0 1 2 0 0 16384).withCal { State.reset.cal with aoff := ⟨0, 0, -655⟩ })) (fun t => decide (ints t 9 = [0, 0, 65536] ∧ ints t 18 = [0, 0, 64881] ∧ t.getX 31 = 1)) = true := by decide

/-- V-CA3. -/
theorem test_caApply_mag : reached (exec (.caApply 4) (((ctrl 0 []).setX3 6 7 8 100 (-100) 256).withCal { State.reset.cal with
      moff := ⟨65536, -131072, 0⟩, mmat := ⟨⟨65536, 32768, 0⟩, ⟨0, 65536, 0⟩, ⟨-6554, 0, 131072⟩⟩ })) (fun t => decide (ints t 24 = [1966100, -4063272, 19733065])) = true := by decide

/-- V-OE5. -/
theorem test_oeStep : reached (exec (.oeStep) (((((ctrl 0 []).setX3 24 25 26 65536 131072 65536).setX 20 65536).setX 28 5898240).setX 30 655)) (fun t => decide (ints t 27 = [0, 5898240, 2949120] ∧ t.getX 31 = 1)) = true := by decide

/-- V-OE12. -/
theorem test_oeStep_floor : reached (exec (.oeStep) (((((ctrl 0 []).setX 20 65536).setX 21 (-655360)).setX 22 (-1)).setX 30 655)) (fun t => decide (t.getX 28 = -6419 ∧ t.getX 27 = -1)) = true := by decide

/-- V-SS3 and V-SS10. -/
theorem test_ssRun : reached (exec (.ssRun 1) ((ctrl 0 []).withClock 700)) (fun t => decide (t.ss.epoch = 700 ∧ t.getX 31 = 1 ∧ t.ss.ticks = 1 ∧ t.ss.lasttick = 0 ∧ t.rcd.valid = true ∧
    t.cmd.busy = false ∧ t.port = [])) = true := by decide

/-- V-SS6. -/
theorem test_ssRun_cancelled : reached (exec (.ssRun 5) ((ctrl 0x40 []).withClock 700)) (fun t => decide (t.getX 31 = 0 ∧ t.ss.ticks = 0 ∧ t.ss.epoch = 700 ∧ t.ss.lastTs = 700 ∧ t.rcd.valid = false ∧
    t.cmd.done = true)) = true := by decide

/-- Program P4, tick 2: the magnetometer is not ready (V-SS13, V-SS14). -/
theorem test_continueRun :
    reached (step (busy ((mg 0x3F (.answer .selectOk :: readAns [0, 0, 0, 0, 0x40, 0] ++
      readAns [0, 0, 0, 0, 0, 0] ++ .answer .selectOk :: readAns [0, 0, 0, 0, 0x64, 0, 0, 0x10])).withSs
        { State.reset.ss with running := true, left := 1, count := 4, epoch := 11000, lastTs := 1000 } |>.withAg
        ⟨.ready, 0, 4, 0, 500⟩ |>.withMg { State.reset.mg with mode := .cont100Hz, initDone := true } |>.withClock 11000)))
      (fun t => decide (t.ss.lasttick = 0x11000303 ∧ t.ss.lastTs = 1000 ∧ t.cmd.done = true)) = true := by decide

/-- V-HOST8: three reads of RXDATA, here the third. -/
theorem test_host_rxdata :
    hostAccess ((ctrl 0 []).withBuf ⟨[], 0, [(2, 7)], 6, 2⟩) (.read 0x068) =
      .ok (sendOut ((ctrl 0 []).withBuf ⟨[], 0, [(2, 7)], 6, 3⟩) (.hostData 0x068 7)) := by decide

/-- V-HOST10. -/
theorem test_host_ctrl_busy :
    (hostAccess (busy (ctrl 0x3F [])) (.write 0x010 0x7FF)).toOption.map (fun t => ctrlWord t.ctrl) =
      some 0x67F := by decide

/-- `rst` between the read of a bit-field write and its write: the command is abandoned, the write is not sent
(spec/70_reset_and_hazards.md R360, spec/00_scope.md R6). -/
theorem test_rst_between_primitives :
    reached (exec (.rdWbits .ag 0x1C 4 2 2) (ag 7 (readAns [0xEF] ++ [.outside .rst, .turn]))) (fun t =>
      decide (t.held = true ∧ t.cmd = ⟨false, false, false, false, false, 0⟩ ∧ t.bt.sel = none ∧
        t.port = [.read 1, .write [0x1C]])) = true := by decide

/-- Between the reading of a poll's time stamp and the poll of a group that is not attached the host still sees
`raw_ok` (spec/00_scope.md R6, spec/20_memory.md R78). -/
theorem test_host_between_stamp_and_poll :
    reached (exec .saPolla ((ctrl 0 [.turn, .turn, .outside (.elapse 5), .outside (.host (.read 0x004)), .turn]).withSa
        ⟨true, false, false, 0⟩)) (fun t =>
      decide (t.sa = ⟨false, false, false, 0⟩ ∧ t.clock = 5 ∧ t.port = [.hostData 0x004 0x201])) = true := by decide

/-- Between the reading of `t_end` and `EMIT()` time passes and the host takes the last record: the new one has
the time read, and no overrun is recorded (R6, spec/48_scheduler.md R303, R306). -/
theorem test_host_between_end_and_record :
    reached (step (((busy (ctrl 0 (List.replicate 8 .turn ++ [.outside (.elapse 5),
        .outside (.host (.write 0x1A8 0)), .turn]))).withSs
        { State.reset.ss with running := true, left := 1, count := 1 }).withRcd
        { State.reset.rcd with valid := true })) (fun t =>
      decide (t.ss.running = false ∧ t.clock = 5 ∧ t.rcd.tEnd = 0 ∧ t.rcd.valid = true ∧ t.rcd.ovr = false)) = true := by
  decide

/-- While `rst` is asserted a write of CMD is lost, after its release one starts a command (R360). -/
theorem test_rst_held :
    reached (step (inReset (ctrl 0x400 [.outside (.host (.write 0 0x94000000))]))) (fun t =>
      decide (t = inReset (ctrl 0x400 []) ∧ irq t = false)) = true ∧
    reached (step (afterReset (ctrl 0x400 [.outside (.host (.write 0 0x94000000))]))) (fun t =>
      decide (t.cmd.done = true ∧ t.held = false)) = true := by decide

/-- No RegSpec is the field of 4 bits from bit 2, of no bit, or from bit 8 (spec/30_encoding.md R92, R100). -/
theorem test_regspec_invalid (r : RegSpec) :
    ¬(r.first = 2 ∧ r.len = 4) ∧ r.len ≠ 0 ∧ r.first ≠ 8 := by
  have := r.valid
  omega

/-- V-HOST16 and V-RST3, V-RST4. -/
theorem test_reset_words :
    [regValue State.reset .busaddr, regValue State.reset .period, regValue State.reset .aggres,
      regValue State.reset .mgres, regValue State.reset .status] =
    [some 0x0C68, some 10000, some 500, some 39322, some 0] := by decide

/-- V-FX6, V-FX9, V-FX24, V-FX36, V-FX41, V-FX47. -/
theorem test_fx :
    [fxMul (.of (-3)) (.of 21845), fxMul (.of 0x80000000) (.of (-65536)), fxSub (.of 0x80000000) (.of 1),
      fxScale 0x8000 39322, fxFromUs 9999, fxFromUs 32768000000] =
    [⟨0xFFFFFFFF, false⟩, ⟨0x7FFFFFFF, true⟩, ⟨0x80000000, true⟩, ⟨0xB3330000, false⟩, ⟨655, false⟩,
      ⟨0x7FFFFFFF, true⟩] := by decide

/-! ## Witnesses: a case that meets the hypotheses of each statement -/

theorem witness_DecodeEncode :
    (Instr.btRead 0x7F 0xFF 511).wellFormed = true ∧ (Instr.rdWbits .mg 0xFF 7 8 0xFF).wellFormed = true ∧
    (Instr.mgSetmode 6).wellFormed = true := by decide

theorem witness_EncodeDecode :
    decode 0x0B41D9FF = .ok (.btRead 0x68 0x3B 511) ∧ decode 0x28400400 = .ok (.rdRbits .ag 0x20 0 1) := by decide

theorem witness_DecodeRefuses :
    (0x40000001#32).toNat / 2 ^ 26 = 0x10 ∧ (0x40000001#32).toNat % 2 ^ 26 ≠ 0 ∧
    (0xA7FFFFFF#32).toNat / 2 ^ 26 = 0x29 ∧ (0xA7FFFFFF#32).toNat % 2 ^ 26 ≠ 0 := by decide

theorem witness_StepRunsDecoded :
    (ctrl 0 [.outside (.host (.write 0 0x40000000))]).held = false ∧
    (ctrl 0 [.outside (.host (.write 0 0x40000000))]).cmd.busy = false ∧
    decode 0x40000000 = .ok .agInit ∧ decodeTableWord 32 0xC0000001 = some (.ssRun 1) := by decide

theorem witness_IllegalCompletes :
    (ctrl 0 [.outside (.host (.write 0 0))]).held = false ∧
    (ctrl 0 [.outside (.host (.write 0 0))]).cmd.busy = false ∧ decode 0 = .error .reservedOpcode ∧
    (Instr.btRead 0x68 0 0).wellFormed = false ∧ (Instr.btRead 0x68 0 512).wellFormed = false ∧
    ((ctrl 0 []).withSs { State.reset.ss with period := 0 }).ss.period = 0 := by decide

theorem witness_BusyTurnsAway :
    (busy State.reset).cmd.busy = true := by decide

/-- The two ends of the field lengths; V-RD5 and V-RD7. -/
theorem witness_FieldExtractInsert :
    (7 ≤ 7 ∧ 1 ≤ 8 ∧ 8 ≤ 7 + 1) ∧ (0 ≤ 7 ∧ 1 ≤ 1 ∧ 1 ≤ 0 + 1) ∧ fieldPut 4 2 0xEF 2 = 0xF7 ∧ fieldGet 4 2 0x10 = 2 := by decide

/-- The four ends. -/
theorem witness_SaturationClamps :
    (sat32 (2 ^ 31 - 1)).toInt = 2 ^ 31 - 1 ∧ (sat32 (2 ^ 31)).toInt = 2 ^ 31 - 1 ∧
    (sat32 (-2 ^ 31)).toInt = -2 ^ 31 ∧ (sat32 (-2 ^ 31 - 1)).toInt = -2 ^ 31 := by decide

/-- An associative sum at the end of the range; the resolutions' ends (V-FX36); V-FX38, V-FX39. -/
theorem witness_FixedPointOperations :
    (fxAdd (fxAdd (.of 0x7FFFFFFF) (.of (-1))) (.of 1)).val = 0x7FFFFFFF ∧ (fxFromUs 32767999999).sat = false ∧
    0 ≤ (0#32).toInt ∧ (39322#32).toInt ≤ 39322 ∧ (fxScale 0x8000 39322).sat = false ∧ (fxFromUs 0).val = 0 ∧
    (fxFromUs 1).val = 0 ∧ (fxFromUs 16).val = 1 := by decide

/-- Operands of each clause, at 0 and on both sides of it. -/
theorem witness_TrigProperties :
    0 < (1#32).toInt ∧ (0xFFFFFFFF#32).toInt < 0 ∧ (0#32).toInt = 90 * 0 * 65536 ∧
    (5898240#32).toInt = 90 * 1 * 65536 ∧ (11796480#32).toInt = 90 * 2 * 65536 ∧
    (-5898240#32).toInt = 90 * -1 * 65536 ∧ (1#32 = 1#32 ∧ 0 < (1#32).toInt) := by decide

theorem witness_BtWritesSend :
    let s := ctrl 1 (.answer .selectOk :: writeAns 511)
    s.cmd.busy = false ∧ s.ctrl.btAttach = true ∧ turnAhead [] = false ∧ (511#11).toNat ≤ 511 ∧
    s.env = selectAns s 0x68 ++ (writeAns (511#11).toNat ++ []) ∧
    (ag 1 (writeAns 1)).env = selectAns (ag 1 (writeAns 1)) 0x68 ++ (writeAns 1 ++ []) := by decide

/-- Four short attempts, of both kinds. -/
theorem witness_BtReadsReceive :
    let xs : List Short := [.prime, .read [], .read [], .prime]
    let s := ag 1 (shortsAns xs ++ readAns [0x71])
    s.cmd.busy = false ∧ s.ctrl.btAttach = true ∧ turnAhead [] = false ∧ xs.length ≤ 4 ∧
    (∀ x ∈ xs, x.fits [0x71#8].length = true) ∧ [0x71#8].length = (1#11).toNat ∧
    s.env = selectAns s 0x68 ++ (shortsAns xs ++ (readAns [0x71] ++ [])) ∧
    s.clock.toNat + 10000 * xs.length < 2 ^ 64 := by decide

set_option maxRecDepth 20000 in
/-- The longest read. -/
theorem witness_BtReadFillsBuffer :
    let bs : List Byte := List.replicate 511 0xFF
    let s := ctrl 1 (.answer .selectOk :: readAns bs)
    s.cmd.busy = false ∧ s.ctrl.btAttach = true ∧ turnAhead [] = false ∧ Memory.wf s.buf.rx = true ∧
    bs.length = (511#11).toNat ∧ 1 ≤ (511#11).toNat ∧ (511#11).toNat ≤ 511 ∧
    s.env = selectAns s 0x68 ++ (readAns bs ++ []) := by decide

theorem witness_BtReadGivesUp :
    let xs : List Short := [.prime, .prime, .read [1], .prime]
    let s := ag 1 (shortsAns xs ++ Short.ans (.read [1, 2, 3]))
    s.cmd.busy = false ∧ s.ctrl.btAttach = true ∧ turnAhead [] = false ∧ xs.length = 4 ∧
    (∀ y ∈ Short.read [1, 2, 3] :: xs, y.fits (6#11).toNat = true) ∧
    s.env = selectAns s 0x68 ++ (shortsAns xs ++ (Short.ans (.read [1, 2, 3]) ++ [])) ∧
    s.clock.toNat + 40000 < 2 ^ 64 := by decide

theorem witness_BtRefusesFirst :
    (ctrl 0 []).cmd.busy = false ∧ turnAhead (ctrl 0 []).env = false ∧ (ctrl 0 []).ctrl.btAttach = false ∧
    (ctrl 1 []).ctrl.btAttach = true ∧ 511 < (512#11).toNat ∧ 1 ≤ (1#11).toNat ∧ (511#11).toNat ≤ 511 := by decide

/-- Four short attempts, of both kinds. -/
def shorts : List Short := [.prime, .read [], .prime, .read []]

/-- The ways a read can fail after its selection. -/
def failures : List ReadEnd :=
  [.primeTimedOut [], .primeTimedOut shorts, .readTimedOut [], .readTimedOut shorts, .givenUp shorts .prime,
    .givenUp shorts (.read [])]

theorem witness_BtTransferFails :
    (let s := ctrl 1 [.answer .selectFail]
    s.cmd.busy = false ∧ s.ctrl.btAttach = true ∧ turnAhead [] = false ∧ s.bt.sel ≠ some 0x68 ∧
      s.env = .answer .selectFail :: [] ∧ ReadEnd.selectFailed.fits 0x68 1 s = true ∧
      s.env = ReadEnd.selectFailed.ans 0x68 s ++ []) ∧
    (ag 1 timedOut).env = selectAns (ag 1 timedOut) 0x68 ++ .answer .timedOut :: [] ∧
    (ag 1 [.answer (.wrote 1)]).env = selectAns (ag 1 [.answer (.wrote 1)]) 0x68 ++ .answer (.wrote 1) :: [] ∧
    1 < 2 ∧ 511 < 1 + (511#11).toNat ∧
    ∀ r ∈ failures,
      let s := ag 1 (r.ans 0x68 (ag 1 []))
      r.err.isSome = true ∧ s.env = r.ans 0x68 s ++ [] ∧ s.clock.toNat + r.delay < 2 ^ 64 ∧
      r.fits 0x68 1 s = true ∧ r.fits 0x68 511 s = true := by decide

theorem witness_RdReadsField :
    let s := ctrl 7 (.answer .selectOk :: readAns [0x10])
    s.cmd.busy = false ∧ attached s .mg = true ∧ s.ctrl.btAttach = true ∧ turnAhead [] = false ∧
    s.env = selectAns s (busAddr s.cfg .mg) ++ (readAns [0x10] ++ []) ∧
    validField 7 8 = true ∧ validField 0 1 = true := by decide

theorem witness_RdWritesField :
    let s := ag 7 (bitsAns 0xEF)
    s.cmd.busy = false ∧ attached s .ag = true ∧ s.ctrl.btAttach = true ∧ turnAhead [] = false ∧
    s.env = selectAns s (busAddr s.cfg .ag) ++ (bitsAns 0xEF ++ []) ∧ validField 7 8 = true ∧ validField 0 1 = true := by decide

theorem witness_RdWriteNeedsRead :
    (∀ r ∈ failures,
      let s := mg 7 (r.ans 0x0C (mg 7 []))
      s.cmd.busy = false ∧ attached s .mg = true ∧ turnAhead [] = false ∧ r.err.isSome = true ∧
        r.fits (busAddr s.cfg .mg) 1 s = true ∧ s.env = r.ans (busAddr s.cfg .mg) s ++ [] ∧
        s.clock.toNat + r.delay < 2 ^ 64) ∧
    (let s := ctrl 7 [.answer .selectFail]
    attached s .ag = true ∧ ReadEnd.selectFailed.fits (busAddr s.cfg .ag) 1 s = true ∧
        s.env = ReadEnd.selectFailed.ans (busAddr s.cfg .ag) s ++ []) ∧
    (attached (ctrl 6 []) .ag = true ∧ ReadEnd.noBus.fits 0x68 1 (ctrl 6 []) = true) ∧ validField 4 2 = true := by decide

theorem witness_DriverDisconnected :
    driverOf .agInit = some .ag ∧ driverOf (.mgSetmode 0) = some .mg ∧ (Instr.mgSetmode 0).wellFormed = true ∧
    (ctrl 1 []).cmd.busy = false ∧ attached (ctrl 1 []) .ag = false ∧ attached (ctrl 1 []) .mg = false ∧
    turnAhead (ctrl 1 []).env = false := by decide

theorem witness_SettersSet :
    let s := ag 7 (bitsAns 0)
    let u := mg 7 (modeAns .powerDown 0x16)
    (s.cmd.busy = false ∧ s.ctrl.btAttach = true ∧ s.ctrl.agTAttach = true ∧ turnAhead [] = false ∧
      s.env = selectAns s s.cfg.agAddr ++ (bitsAns 0 ++ [])) ∧
    ((mg 7 (bitsAns 6)).ctrl.mgTAttach = true ∧
      (mg 7 (bitsAns 6)).env = selectAns (mg 7 (bitsAns 6)) (mg 7 (bitsAns 6)).cfg.mgAddr ++ (bitsAns 6 ++ [])) ∧
    (magModeOf 0 = some .powerDown ∧ u.env = selectAns u u.cfg.mgAddr ++ (modeAns .powerDown 0x16 ++ []) ∧
      u.clock.toNat + 100 < 2 ^ 64) ∧ magModeOf 6 = some .fuseRom := by decide

theorem witness_SettersKeepOnFailure :
    (ag 3 (readAns [0] ++ writeAns 0)).cmd.busy = false ∧ hostQuiet (ag 3 (readAns [0] ++ writeAns 0)).env = true ∧
    (∃ t, exec (.agSetar 1) (ag 3 (readAns [0] ++ writeAns 0)) = .next t ∧ t.cmd.fail = true) ∧
    (∃ t, exec (.agSetgr 3) (ag 3 (bitsAns 0)) = .next t ∧ t.cmd.fail = false) ∧
    (∃ t, exec (.mgSetres 1) (mg 5 (bitsAns 6)) = .next t ∧ t.cmd.fail = false) ∧
    (magModeOf 6 = some .fuseRom ∧ ∃ t, exec (.mgSetmode 6) (mg 5 timedOut) = .next t ∧ t.cmd.fail = true) :=
  ⟨by decide, by decide,
    (reached_next (p := fun t => t.cmd.fail) (by decide)).imp fun _ h => h,
    (reached_next (p := fun t => !t.cmd.fail) (by decide)).imp fun _ h => ⟨h.1, by simpa using h.2⟩,
    (reached_next (p := fun t => !t.cmd.fail) (by decide)).imp fun _ h => ⟨h.1, by simpa using h.2⟩,
    by decide, (reached_next (p := fun t => t.cmd.fail) (by decide)).imp fun _ h => h⟩

/-- Every micro-operation of the default table of stages, each read giving 0. -/
def zeros (l : List MicroOp) : List (MicroOp × Byte) := l.map fun m => (m, 0)

/-- The stages of the default table. -/
def defaultStages : List (List (MicroOp × Byte) × AgState) :=
  [(zeros Config.defaults.agInit.reset, .reset), (zeros Config.defaults.agInit.clock, .clockConfigured),
    (zeros Config.defaults.agInit.filters, .filtersConfigured),
    (zeros Config.defaults.agInit.bypass, .bypassConfigured), (zeros Config.defaults.agInit.range, .rangeConfigured)]

theorem witness_AgInitCompletes :
    let s := ctrl 3 (.turn :: stagesAns defaultStages (setAgState .uninitialized (ctrl 3 [])))
    s.cmd.busy = false ∧ s.ctrl.agTAttach = true ∧ s.ctrl.btAttach = true ∧ turnAhead [] = false ∧
    s.cfg.agInit = ⟨(zeros Config.defaults.agInit.reset).map Prod.fst, (zeros Config.defaults.agInit.clock).map Prod.fst,
      (zeros Config.defaults.agInit.filters).map Prod.fst, (zeros Config.defaults.agInit.bypass).map Prod.fst,
      (zeros Config.defaults.agInit.range).map Prod.fst⟩ ∧
    s.clock.toNat + stagesDelay defaultStages < 2 ^ 64 ∧
    s.env = .turn :: (stagesAns defaultStages (setAgState .uninitialized s) ++ []) := by decide

theorem witness_AgInitOutcome :
    ((ctrl 3 [.answer .selectFail]).cmd.busy = false ∧ (ctrl 3 [.answer .selectFail]).ctrl.agTAttach = true ∧
    hostQuiet (ctrl 3 [.answer .selectFail]).env = true) ∧
    ∃ t, exec (.agInit) (ctrl 3 [.answer .selectFail]) = .next t ∧ (t.cmd.fail) = true :=
  ⟨by decide, reached_next (p := fun t => t.cmd.fail) (by decide)⟩

theorem witness_AgReads :
    let s := ctrl 3 (.answer .selectOk :: readAns [0x7F, 0xFF, 0x80, 0, 0xFF, 0xFF])
    s.cmd.busy = false ∧ s.ctrl.agTAttach = true ∧ s.ctrl.btAttach = true ∧ turnAhead [] = false ∧
    s.env = selectAns s s.cfg.agAddr ++ (readAns [0x7F, 0xFF, 0x80, 0, 0xFF, 0xFF] ++ []) ∧
    s.ag.ares = aresTable s.ag.arange ∧ s.ag.gres = gresTable s.ag.grange ∧ s.mg.res = mresTable s.mg.resbit := by decide

theorem witness_MgInitCompletes :
    let s := ctrl 5 (.answer .selectOk :: (modeAns .powerDown 0 ++ (modeAns .fuseRom 0 ++
      (readAns [0xB0, 0xB1, 0xA5] ++ modeAns .powerDown 0x0F))))
    s.cmd.busy = false ∧ s.ctrl.mgTAttach = true ∧ s.ctrl.btAttach = true ∧ turnAhead [] = false ∧
    s.clock.toNat + 200 < 2 ^ 64 ∧
    s.env = selectAns s s.cfg.mgAddr ++ (modeAns .powerDown 0 ++ (modeAns .fuseRom 0 ++
      (readAns [0xB0, 0xB1, 0xA5] ++ (modeAns .powerDown 0x0F ++ [])))) := by decide

theorem witness_MgInitOutcome :
    ((ctrl 5 [.answer .selectFail]).cmd.busy = false ∧ (ctrl 5 [.answer .selectFail]).ctrl.mgTAttach = true ∧
    hostQuiet (ctrl 5 [.answer .selectFail]).env = true) ∧
    ∃ t, exec (.mgInit) (ctrl 5 [.answer .selectFail]) = .next t ∧ (t.cmd.fail) = true :=
  ⟨by decide, reached_next (p := fun t => t.cmd.fail) (by decide)⟩

theorem witness_MgReads :
    ∀ low ∈ [false, true],
      let s : State := { mg 5 (readAns [0xFF, 0, 1, 0, 2, 0, 3, 0xF7]) with
        cfg := { Config.defaults with magLowByteFirst := low } }
      s.cmd.busy = false ∧ s.ctrl.mgTAttach = true ∧ s.ctrl.btAttach = true ∧ turnAhead [] = false ∧
        s.cfg.magLowByteFirst = low ∧ (0xFF#8).getLsbD s.cfg.mgDrdyBit = true ∧
        (0xF7#8).getLsbD s.cfg.mgHoflBit = false ∧
        s.env = selectAns s s.cfg.mgAddr ++ (readAns [0xFF, 0, 1, 0, 2, 0, 3, 0xF7] ++ []) ∧
        s.ag.ares = aresTable s.ag.arange ∧ s.ag.gres = gresTable s.ag.grange ∧ s.mg.res = mresTable s.mg.resbit ∧
        s.mg.adj.x.toNat ≤ 98048 ∧ s.mg.adj.y.toNat ≤ 98048 ∧ s.mg.adj.z.toNat ≤ 98048 := by decide

theorem witness_MgBurstRefused :
    let s := mg 5 (readAns [0, 0, 1, 0, 2, 0, 3, 0x18])
    s.cmd.busy = false ∧ s.ctrl.mgTAttach = true ∧ s.ctrl.btAttach = true ∧ turnAhead [] = false ∧
    s.env = selectAns s s.cfg.mgAddr ++ (readAns [0, 0, 1, 0, 2, 0, 3, 0x18] ++ []) ∧
    (byteAt [0, 0, 1, 0, 2, 0, 3, 0x18] 0).getLsbD s.cfg.mgDrdyBit = false ∧
    (byteAt [1, 0, 1, 0, 2, 0, 3, 0x18] 0).getLsbD s.cfg.mgDrdyBit = true ∧
    (byteAt [1, 0, 1, 0, 2, 0, 3, 0x18] 7).getLsbD s.cfg.mgHoflBit = true := by decide

theorem witness_MgGetovf :
    ((ctrl 0 []).cmd.busy = false ∧ turnAhead (ctrl 0 []).env = false ∧
      hostQuiet (mg 5 (readAns [1, 0, 0, 0, 0, 0, 0, 8])).env = true) ∧
    (∃ t, exec .mgRd (mg 5 (readAns [1, 0, 0, 0, 0, 0, 0, 8])) = .next t ∧ t.cmd.err = errword ⟨.overflow, .mg⟩) ∧
    (∃ t, exec .mgRd (mg 5 (readAns [1, 0, 0, 0, 0, 0, 0, 0])) = .next t ∧ t.cmd.fail = false) :=
  ⟨by decide,
    (reached_next (p := fun t => decide (t.cmd.err = errword ⟨.overflow, .mg⟩)) (by decide)).imp
      fun _ h => ⟨h.1, by simpa using h.2⟩,
    (reached_next (p := fun t => !t.cmd.fail) (by decide)).imp fun _ h => ⟨h.1, by simpa using h.2⟩⟩

theorem witness_SaReady :
    (ctrl 0x3F []).cmd.busy = false ∧ turnAhead (ctrl 0x3F []).env = false := by decide

/-- What can come of the magnetometer in a poll. -/
def magOutcomes : List Polled :=
  (failures.map Polled.read) ++ [.data [1, 0, 0, 0, 0, 0, 0, 0x10], .data [0, 0, 0, 0, 0, 0, 0, 0x10],
    .data [1, 0, 0, 0, 0, 0, 0, 8]]

theorem witness_SaPollOne :
    (∀ p ∈ magOutcomes,
      let s := mg 0x3F (pollAns .mag (mg 0x3F []) p)
      s.cmd.busy = false ∧ turnAhead [] = false ∧ pollFits .mag s p = true ∧
        s.clock.toNat + p.delay < 2 ^ 64 ∧ s.env = pollAns .mag s p ++ []) ∧
    pollFits .acc (ag 0xB []) (.data [0, 0, 0, 0, 0x40, 0]) = true ∧ pollFits .gyr (ctrl 3 []) .unread = true ∧
    pollFits .gyr (ctrl 0x11 []) .disconnected = true ∧ pollFits .acc (ctrl 0xA []) (.read .noBus) = true ∧
    pollFits .acc (ctrl 0xB []) (.read .selectFailed) = true := by decide

theorem witness_SaPollFull :
    let l := outcomes (.data [0, 0, 0, 0, 0x40, 0]) .unread (.data [0, 0, 0, 0, 0, 0, 0, 0x10])
    (let s := ctrl 0x2F (pollsAns l (ctrl 0x2F []))
    s.cmd.busy = false ∧ turnAhead [] = false ∧ pollsFit l s = true ∧
        s.clock.toNat + pollsDelay l < 2 ^ 64 ∧ s.env = pollsAns l s ++ []) ∧
    pollsFit (outcomes .disconnected .disconnected (.read (.givenUp shorts .prime))) (ctrl 0x3D []) = true ∧
    pollsFit (outcomes (.read .selectFailed) (.read .selectFailed) (.read (.readTimedOut shorts))) (ctrl 0x3F []) = true := by decide

theorem witness_SaPollOutcome :
    ((ag 0x3F (timedOut ++ timedOut ++ .answer .selectOk :: timedOut)).cmd.busy = false ∧
    hostQuiet (ag 0x3F (timedOut ++ timedOut ++ .answer .selectOk :: timedOut)).env = true) ∧
    ∃ t, exec (.saPoll) (ag 0x3F (timedOut ++ timedOut ++ .answer .selectOk :: timedOut)) = .next t ∧ (t.cmd.fail) = true :=
  ⟨by decide, reached_next (p := fun t => t.cmd.fail) (by decide)⟩

theorem witness_CaApply :
    (ctrl 0 []).cmd.busy = false ∧ turnAhead (ctrl 0 []).env = false ∧ (5#3).getLsbD 0 = true ∧ (5#3).getLsbD 1 = false := by decide

theorem witness_CaIdentityProfile :
    ((ctrl 0 []).cmd.busy = false ∧ turnAhead (ctrl 0 []).env = false ∧ (ctrl 0 []).cal = State.reset.cal) ∧
    ∃ t, exec (.caApply 7) ((ctrl 0 []).setX3 0 1 2 7 8 0xFFFF) = .next t ∧ (t.cmd.done) = true :=
  ⟨by decide, reached_next (p := fun t => t.cmd.done) (by decide)⟩

theorem witness_OeStepAccepts :
    let s := (ctrl 0 []).setX 30 1
    s.cmd.busy = false ∧ turnAhead s.env = false ∧ 0 < (s.getX 30).toInt := by decide

theorem witness_OeStepRejects :
    let s := (ctrl 0 []).setX 30 0xFFFFFFFF
    s.cmd.busy = false ∧ turnAhead s.env = false ∧ (s.getX 30).toInt ≤ 0 ∧ ((ctrl 0 []).getX 30).toInt ≤ 0 := by decide

/-- A core with all three groups ready. -/
def allReady (s : State) : State :=
  (s.withAg ⟨.ready, 0, 4, 0, 500⟩).withMg { State.reset.mg with mode := .cont100Hz, initDone := true }

/-- The polls of a tick: delivered, failed by a failed selection, and given up. -/
def mixed : List (Group × Polled) :=
  outcomes (.data [0, 0, 0, 0, 0x40, 0]) (.read (.readTimedOut shorts)) (.read .selectFailed)

theorem witness_SsRunTurn :
    (let l := outcomes .unread .unread .unread
    let s := ctrl 0 []
    s.cmd.busy = false ∧ s.ss.period ≠ 0 ∧ turnAhead [] = false ∧ s.ctrl.cancel = false ∧
      ticksFit l (tickStarted (runBegun 1 s)) = true ∧ s.clock.toNat + pollsDelay l < 2 ^ 64 ∧
      s.env = pollsAns l (tickStarted (runBegun 1 s)) ++ [] ∧
      (0#16) ≠ 1 ∧ s.clock.toNat + s.ss.period.toNat < 2 ^ 64) ∧
    (let s := allReady (ag 0x3F (pollsAns mixed (tickStarted (runBegun 5 (allReady (ag 0x3F []))))))
    s.cmd.busy = false ∧ ticksFit mixed (tickStarted (runBegun 5 s)) = true ∧
      s.clock.toNat + pollsDelay mixed < 2 ^ 64 ∧
      s.env = pollsAns mixed (tickStarted (runBegun 5 s)) ++ []) ∧
    (ctrl 0x40 []).ctrl.cancel = true := by decide

theorem witness_RunningTurn :
    (let l := outcomes .unread .unread .unread
    let s := (busy (ctrl 0 [])).withSs { State.reset.ss with running := true, left := 1, count := 4, epoch := 7 }
    s.held = false ∧ s.cmd.busy = true ∧ s.ss.running = true ∧ turnAhead [] = false ∧ s.ctrl.cancel = false ∧
      ticksFit l (tickStarted s) = true ∧ s.clock.toNat + pollsDelay l < 2 ^ 64 ∧
      s.env = pollsAns l (tickStarted s) ++ [] ∧ s.ss.count ≠ 0 ∧ s.ss.left = 1 ∧
      s.ss.epoch.toNat + s.ss.period.toNat < 2 ^ 64) ∧
    (let s := (allReady (busy (ag 0x3F (pollsAns mixed (tickStarted (allReady (ag 0x3F []))))))).withSs
        { State.reset.ss with running := true }
    s.held = false ∧ s.cmd.busy = true ∧ s.ss.running = true ∧ turnAhead [] = false ∧ s.ctrl.cancel = false ∧
      ticksFit mixed (tickStarted s) = true ∧ s.clock.toNat + pollsDelay mixed < 2 ^ 64 ∧
      s.env = pollsAns mixed (tickStarted s) ++ [] ∧ s.ss.count = 0) ∧ (busy (ctrl 0x40 [])).ctrl.cancel = true := by decide

theorem witness_SsRunCounted :
    let s := (ctrl 0 []).withClock 1000
    s.held = false ∧ s.cmd.busy = false ∧ s.ctrl.cancel = false ∧ (0xFFFF#16) ≠ 0 ∧ (1#16) ≠ 0 ∧ s.ss.period ≠ 0 ∧ s.env = [] ∧
    groupReady s .acc = false ∧ groupReady s .gyr = false ∧ groupReady s .mag = false ∧
    s.clock.toNat + (0xFFFF#16).toNat * s.ss.period.toNat < 2 ^ 64 := by decide

theorem witness_TickFusesByPolicy :
    let s := (ctrl 0x100 []).withSa ⟨true, true, true, 20⟩
    (s.sa.okA && s.sa.okG && s.sa.okM) = true ∧ s.ctrl.policyStale = true ∧
    0 < (fxFromUs ((s.sa.ts.toNat : Int) - s.ss.lastTs.toNat)).val.toInt ∧ (fxFromUs 0).val.toInt ≤ 0 ∧
    ((ctrl 0 []).sa.okA && (ctrl 0 []).sa.okG && (ctrl 0 []).sa.okM) = false ∧ (ctrl 0 []).ctrl.policyStale = false := by decide

theorem witness_TickEmitsRecord :
    (ctrl 0 []).sa.okA = false ∧ (ctrl 0 []).ctrl.policyStale = false ∧ (tickEnded 0 (ctrl 0 [])).rcd.valid = true ∧
    (ctrl 0x100 []).ctrl.policyStale = true ∧ (fxFromUs 0).val.toInt ≤ 0 ∧ 0 < (fxFromUs 16).val.toInt := by decide

theorem witness_OnlyEstimatorWritesAngles :
    (Instr.caApply 7 ≠ .oeStep ∧ rstFree [.outside (.host (.write 0x010 0))] = true ∧
    (hostAccess (ctrl 0 []) (.write 0x0EC 5)).toOption = some (ctrl 0 [])) ∧
    ∃ t, exec (.caApply 7) (ctrl 0 [.outside (.host (.write 0x010 0))]) = .next t ∧ (t.cmd.done) = true :=
  ⟨by decide, reached_next (p := fun t => t.cmd.done) (by decide)⟩

theorem witness_ProfileAndParametersFixed :
    (rstFree (ctrl 0 []).env = true ∧ (busy (ctrl 0 [])).cmd.busy = true) ∧
    (∃ t, exec (.caApply 7) (ctrl 0 []) = .next t ∧ t.cmd.done = true) ∧
    (∃ t, step ((busy (ctrl 0x40 [])).withSs { State.reset.ss with running := true }) = .next t ∧ t.cmd.done = true) ∧
    (∃ t, step (ctrl 0 [.outside .rst]) = .next t ∧ (!t.cmd.done) = true) :=
  ⟨by decide, reached_next (p := fun t => t.cmd.done) (by decide), reached_next (p := fun t => t.cmd.done) (by decide),
    reached_next (p := fun t => !t.cmd.done) (by decide)⟩

/-- A state that meets every invariant and a step of it that writes caches, buffers and stamps. -/
def lively : State := ctrl 0x3F (.outside (.host (.write 0 0x8C000000)) :: .answer .selectOk ::
  (readAns [0, 0, 0, 0, 0x40, 0] ++ readAns [0, 0, 0, 0, 0, 0] ++
    .answer .selectOk :: readAns [1, 0, 0, 0, 0, 0, 0, 0x10]))

theorem lively_steps : ∃ t, step lively = .next t ∧ (decide (t.getX 31 = 7)) = true :=
  reached_next (p := fun t => decide (t.getX 31 = 7)) (by decide)

theorem witness_CachesAgreeKept : CachesAgree lively ∧ ∃ t, step lively = .next t :=
  ⟨⟨rfl, rfl, rfl⟩, lively_steps.imp fun _ h => h.1⟩

theorem witness_BuffersKept : BuffersOk lively ∧ ∃ t, step lively = .next t :=
  ⟨⟨rfl, rfl, by decide, by decide, by decide, by decide, by decide⟩, lively_steps.imp fun _ h => h.1⟩

theorem witness_TransportKept : TransportOk lively ∧ StageOk lively ∧ ∃ t, step lively = .next t :=
  ⟨⟨by decide, by decide⟩, by unfold StageOk; decide, lively_steps.imp fun _ h => h.1⟩

theorem witness_StatusKept :
    (StatusOk lively ∧ ∃ t, step lively = .next t) ∧ HeldOk (inReset lively) ∧
    ∃ t, step (inReset lively) = .next t ∧ t.held = true :=
  ⟨⟨by unfold StatusOk; decide, lively_steps.imp fun _ h => h.1⟩, fun _ => rfl,
    reached_next (p := fun t => t.held) (by decide)⟩

theorem witness_StampsKept : StampsOk lively ∧ rstFree lively.env = true ∧ ∃ t, step lively = .next t :=
  ⟨by unfold StampsOk; decide, by decide, lively_steps.imp fun _ h => h.1⟩

theorem witness_ResetState :
    (∀ s ∈ [ctrl 0 [.outside .rst], busy (ctrl 0 [.outside .rst]),
      (busy (ctrl 0 [.outside .rst, .turn])).withSs { State.reset.ss with running := true }],
      s.held = false ∧ s.env = .outside .rst :: s.env.tail ∧
        (s.cmd.busy = false ∨ s.ss.running = false ∨ turnAhead s.env.tail = true)) ∧
    ((ctrl 0 [.outside .rst, .turn]).cmd.busy = false ∧ (Instr.ssRun 1).wellFormed = true ∧
      (ctrl 0 [.outside .rst, .turn]).ss.period ≠ 0 ∧ turnAhead [.turn] = true) ∧
    ((ag 1 [.outside .rst]).ctrl.btAttach = true ∧ turnAhead [] = false ∧
      (ag 1 [.answer (.wrote 0), .turn, .outside .rst]).bt.sel = some 0x68) ∧
    (let s := (busy (ctrl 0 [.outside .rst])).withSs { State.reset.ss with running := true }
    s.held = false ∧ s.cmd.busy = true ∧ s.ss.running = true ∧ s.ctrl.cancel = false ∧
        groupReady s .acc = false ∧ groupReady s .gyr = false ∧ groupReady s .mag = false ∧ s.ss.count = 0 ∧
        s.ss.epoch.toNat + s.ss.period.toNat < 2 ^ 64 ∧ s.clock.toNat < s.ss.epoch.toNat + s.ss.period.toNat) ∧
    ((inReset (ctrl 0 [.outside (.elapse 7)])).held = true ∧ (0#64).toNat + 7 < 2 ^ 64 ∧
      (0x1FC#9).toNat % 4 = 0 ∧ (inReset (ctrl 0 [.outside .release])).env = .outside .release :: []) := by decide

theorem witness_FrameRegisters :
    ((ag 7 (bitsAns 0xEF)).cmd.busy = false ∧ hostQuiet (ag 7 (bitsAns 0xEF)).env = true) ∧
    ∃ t, exec (.rdWbits .ag 0x1C 4 2 2) (ag 7 (bitsAns 0xEF)) = .next t ∧ (t.cmd.done) = true :=
  ⟨by decide, reached_next (p := fun t => t.cmd.done) (by decide)⟩

theorem witness_FrameUnits :
    ((ag 7 (bitsAns 0xEF)).cmd.busy = false ∧ hostQuiet (ag 7 (bitsAns 0xEF)).env = true) ∧
    ∃ t, exec (.rdWbits .ag 0x1C 4 2 2) (ag 7 (bitsAns 0xEF)) = .next t ∧ (t.cmd.done) = true :=
  ⟨by decide, reached_next (p := fun t => t.cmd.done) (by decide)⟩

theorem witness_FrameBuffers :
    ((ag 7 (bitsAns 0xEF)).cmd.busy = false ∧ hostQuiet (ag 7 (bitsAns 0xEF)).env = true) ∧
    ∃ t, exec (.mgGetovf) (ag 7 (bitsAns 0xEF)) = .next t ∧ (t.cmd.done) = true :=
  ⟨by decide, reached_next (p := fun t => t.cmd.done) (by decide)⟩

theorem witness_HostWhileBusy :
    let s := busy (ctrl 0x3F [])
    s.cmd.busy = true ∧ (0x074#9).toNat % 4 = 0 ∧ (0x07C#9).toNat % 4 = 0 ∧ (0x1FC#9).toNat % 4 = 0 ∧
    (hostAccess s (.read 0x080)).toOption.isSome = true ∧
    ∀ addr ∈ [(0x010 : BitVec 9), 0x004, 0x1A8, 0, 0x084], (hostAccess s (.write addr 5)).toOption.isSome = true := by decide

theorem witness_HostWhileIdle :
    let s := ctrl 0 []
    let full := s.withBuf ⟨[], 511, [(2, 7)], 511, 2⟩
    s.cmd.busy = false ∧ Memory.wf s.buf.tx = true ∧ s.buf.txLen < 511 ∧ 511 ≤ full.buf.txLen ∧
    full.buf.rxLen ≤ 511 ∧ full.buf.rxRptr ≤ 511 ∧ full.buf.rxRptr < full.buf.rxLen ∧
    s.buf.rxLen ≤ s.buf.rxRptr ∧ (0x148#9).toNat % 4 = 0 ∧ (0x1AC#9).toNat % 4 = 0 ∧
    ∀ addr ∈ [(0x080 : BitVec 9), 0x0FC, 0x004, 0x010, 0x014, 0x100, 0x120, 0x124, 0x144, 0x060, 0x064, 0x06C, 0x1A8, 0x1FC],
      (hostAccess s (.write addr 0xFF)).toOption.isSome = true := by decide

theorem witness_IrqLevel :
    (hostAccess (ctrl 0x600 []) (.write 0x1A8 0)).toOption.isSome = true ∧
    (hostAccess (ctrl 0x600 []) (.write 0x010 0x200)).toOption.isSome = true ∧ (0x200#32).getLsbD 10 = false ∧
    (ctrl 0x600 []).held = false ∧ (inReset (ctrl 0x600 [])).held = true := by decide

end Sys2Proof.Tests
end

section
/-! PROOF of O46. The calibration profile and the implementation parameters (spec/10_state.md R20, R28): no
move of a running command writes either, whatever the environment does, but for what `rst` does to the
profile; and no host access writes the parameters. -/

namespace Sys2Proof.Machine

open Sys2Proof

/-! ## What a host access leaves alone -/

/-- While a command runs no host access writes the profile (spec/10_state.md R54, R56) or the parameters, and
none ends the command. -/
theorem hostAccess_fixed_of_busy {s t : State} {a : HostAccess} (hb : s.cmd.busy = true)
    (h : hostAccess s a = .ok t) : t.cal = s.cal ∧ t.cfg = s.cfg ∧ t.cmd.busy = true := by
  obtain ⟨_, _, rfl⟩ | ⟨_, _, _, _, _, _, _, rfl⟩ := hostAccess_running hb h <;> exact ⟨rfl, rfl, hb⟩

theorem hostWrite_cfg_of_idle {s : State} (hb : s.cmd.busy = false) (v : Word) (r : HostReg) :
    (hostWrite s v r).cfg = s.cfg := by
  obtain ⟨_, _, _, _, e⟩ | ⟨_, _, e⟩ | e | ⟨_, e⟩ | e | e | ⟨_, _, e⟩ | ⟨_, e⟩ | e := hostWrite_idle hb v r <;>
    rw [e] <;> rfl

theorem hostAccess_cfg_of_idle {s t : State} {a : HostAccess} (hb : s.cmd.busy = false)
    (h : hostAccess s a = .ok t) : t.cfg = s.cfg := by
  obtain ⟨addr, _, _, rfl⟩ | ⟨addr, v, _, _, rfl⟩ := hostAccess_cases h
  · obtain ⟨_, _, _, _, e⟩ := hostRead_idle s addr (hostReg addr)
    rw [e]; rfl
  · exact hostWrite_cfg_of_idle hb v _

/-! ## Inside a command -/

/-- Inside a command, `A` of what is to come from outside, and `Q` of the profile and the parameters. -/
def Holding (A : List Event → Prop) (Q : Profile → Params → Prop) (s : State) : Prop :=
  s.cmd.busy = true ∧ A s.env ∧ Q s.cal s.cfg

/-- No move of a command, and none of the host meanwhile, writes the profile or the parameters. What is
left to show of `Q` is that `rst` keeps it, if `A` lets `rst` come at all. -/
theorem holding_stable {A : List Event → Prop} {Q : Profile → Params → Prop}
    (htail : ∀ e es, A (e :: es) → A es)
    (hrst : ∀ (s : State) es, A (.outside .rst :: es) → Q s.cal s.cfg → Q (inReset s).cal (inReset s).cfg) :
    ExecStable Writes.all (Holding A Q) fun s => Q s.cal s.cfg where
  used := fun _ e es ⟨hb, ha, hq⟩ => ⟨hb, htail e es ha, hq⟩
  port := fun _ _ h => h
  phase := fun _ h => h
  time := fun _ _ _ h => h
  host := by
    intro s a es t ⟨hb, ha, hq⟩ h
    obtain ⟨hcal, hcfg, hbusy⟩ := hostAccess_fixed_of_busy (s := s.withEnv es) hb h
    refine ⟨hbusy, ?_, ?_⟩
    · rw [hostAccess_env h]; exact htail _ es ha
    · rw [hcal, hcfg]; exact hq
  rst := fun s es ⟨_, ha, hq⟩ => hrst (s.withEnv es) es ha hq
  busy := fun _ h => h.1
  select := fun _ _ _ h _ => h
  unselect := fun _ _ h => h
  attempt := fun _ _ _ _ h => h
  received := fun _ _ _ _ h => h
  unreceived := fun _ s h => by simpa only [Holding, rxFailed_cmd, rxFailed_env, rxFailed_cal, rxFailed_cfg] using h
  rmw := fun _ _ _ h => h
  arange := fun _ _ _ h => h
  grange := fun _ _ _ h => h
  agState := fun _ _ _ h => h
  mode := fun _ _ _ h => h
  resbit := fun _ _ _ h => h
  mgStage := fun _ _ _ _ h => h
  mgAdj := fun _ _ _ h => h
  mgFresh := fun _ _ h => h
  mgDone := fun _ _ h => h
  ovf := fun _ _ _ h => h
  rawOk := fun _ _ g _ h => by cases g <;> exact h
  stamp := fun _ _ h => h
  setX := fun _ _ _ _ h => h
  orSat := fun _ _ _ h => h
  estTs := fun _ _ h => h
  loop := fun _ =>
    { lastTs := fun _ h => h
      ssPhase := fun _ _ h => h
      tickStart := fun _ h => h
      tickStop := fun _ h => h
      emit := fun _ _ h _ _ _ => h
      ticks := fun _ h => h
      lasttick := fun _ _ h => h
      countTick := fun _ h => h
      epoch := fun _ _ h => h
      runStart := fun _ h => h
      runInit := fun _ _ h => h
      runEnd := fun _ h => h }
  done := fun _ h => h.2.2
  failed := fun _ _ h => h.2.2
  top := fun _ _ h => h.2.2

/-- While `rst` does not come, the profile stays as it is inside a command. -/
theorem holding_cal_stable (c : Profile) :
    ExecStable Writes.all (Holding (fun es => rstFree es = true) fun cal _ => cal = c) fun s => s.cal = c :=
  holding_stable (fun _ _ h => (Bool.and_eq_true _ _ ▸ h).2) fun _ _ h => absurd h (by simp [rstFree, notRst])

/-! ## A step of a core inside a command -/

/-- A step that only lets the routine `r` run ends where `r` leaves the core. -/
theorem Res.Keeps.closing_id {P K : State → Prop} {r : Res Unit} (h : r.Keeps P K) (hP : ∀ s, P s → K s) :
    Ends K (closing r id) := by
  cases r with
  | ret _ s => exact hP s h
  | raise _ s => exact hP s h
  | stop o => cases o <;> exact h

/-- What a step of a busy core that is not in reset can do: a turn of the loop of SS.RUN, or a move of the
outside while a bus primitive waits. -/
theorem step_ends_of_busy {P K : State → Prop} (st : ExecStable Writes.all P K) (hP : ∀ s, P s → K s)
    {s : State} (hn : s.held = false) (hb : s.cmd.busy = true) (h : P s) : Ends K (step s) := by
  have used : ∀ e es, s.env = e :: es → P (s.withEnv es) := fun e es he =>
    st.used s e es (by rw [← he]; exact h)
  simp only [step, nextStep, hn, hb, Bool.false_eq_true, if_true, if_false]
  split
  · exact afterTurn_ends st.of_all (loopTurn_keeps st.of_all h)
  · simp only [hungStep]
    split
    · trivial
    · rename_i o es he
      exact (st.outsideMove o s es (by rw [← he]; exact h)).closing_id hP
    · exact hP _ (used _ _ ‹_›)
    · exact hP _ (used _ _ ‹_›)

/-- While `rst` stays asserted a step does not touch the core (spec/70_reset_and_hazards.md R360). -/
theorem heldStep_cal {s : State} (hr : rstFree s.env = true) : Ends (fun t => t.cal = s.cal) (heldStep s) := by
  simp only [heldStep]
  split
  · rfl
  · rename_i o es he
    rw [he] at hr
    cases o with
    | elapse d =>
      simp only [heldMove, elapse]
      split
      · rfl
      · trivial
    | host a =>
      simp only [heldMove]
      split
      · obtain ⟨_, _, rfl⟩ := heldAccess_cases ‹_›
        rfl
      · trivial
    | rst => exact absurd hr (by simp [rstFree, notRst])
    | release => exact absurd hr (by simp [rstFree, notRst])
  · rfl
  · rfl

/-! ## The three parts of O46 -/

/-- No command writes the profile. -/
theorem exec_cal (i : Instr) {s t : State} (hr : rstFree s.env = true) (h : exec i s = .next t) :
    t.cal = s.cal :=
  (exec_ends i (holding_cal_stable s.cal).of_all (fun _ => rfl) (fun _ _ => ⟨rfl, hr, rfl⟩) fun _ => rfl).next h

/-- No step of a busy core writes the profile. -/
theorem step_cal_of_busy {s t : State} (hb : s.cmd.busy = true) (hr : rstFree s.env = true)
    (h : step s = .next t) : t.cal = s.cal := by
  cases hn : s.held with
  | true =>
    rw [step, nextStep, if_pos hn] at h
    exact (heldStep_cal hr).next h
  | false => exact (step_ends_of_busy (holding_cal_stable s.cal) (fun _ h => h.2.2) hn hb ⟨hb, hr, rfl⟩).next h

/-- Every move of the core, and of the outside, keeps the parameters. -/
theorem cfg_stable (p : Params) :
    CoreStable (Holding (fun _ => True) fun _ cfg => cfg = p) fun s => s.cfg = p where
  toExecStable := holding_stable (fun _ _ _ => trivial) fun _ _ _ h => h
  resume := fun _ h _ hb => ⟨hb, trivial, h⟩
  stay := fun _ h => h.2.2
  start := fun _ _ h _ _ => ⟨rfl, trivial, h⟩
  illegal := fun _ h _ _ => h
  idleUsed := fun _ _ _ h => h
  idleTime := fun _ _ _ h => h
  idleHost := fun _ _ _ h _ hb ha => (hostAccess_cfg_of_idle hb ha).trans h
  idleRst := fun _ _ h _ => h
  heldHost := fun _ _ _ h _ => h
  release := fun _ _ h _ => h

/-- Settles O46: a command's own moves and the host's accesses meanwhile leave the profile alone
(`holding_stable`), and every move there is leaves the parameters alone (`cfg_stable`). -/
theorem profileAndParametersFixed : Obligations.ProfileAndParametersFixed :=
  ⟨fun i _ _ => exec_cal i, fun _ _ => step_cal_of_busy, fun s _ => step_keeps (cfg_stable s.cfg) rfl⟩

end Sys2Proof.Machine
end

section
/-! PROOF, shared by O45, O47 to O51 and O54 to O56. What has to be shown of a condition on the state so that
every command, or every step, keeps it: only what the moves do that touch what the condition looks at. A move
that it does not look at keeps it by definition, which is the default of each field of `Kept` and `CoreKept`. -/

namespace Sys2Proof.Machine

open Sys2Proof

/-! ## The environments of a claim -/

/-- A claim may allow host accesses during a command, and assertions and releases of `rst`, or not. -/
def admits (hostOk rstOk : Bool) : Event → Bool
  | .outside (.elapse _) => true
  | .outside (.host _) => hostOk
  | .outside .rst => rstOk
  | .outside .release => rstOk
  | .turn => true
  | .answer _ => true

theorem hostQuiet_eq_admits (es : List Event) : hostQuiet es = es.all (admits false false) := by
  have h : quietEvent = admits false false := by funext e; cases e with
    | outside o => cases o <;> rfl
    | turn => rfl
    | answer a => rfl
  rw [hostQuiet, h]

theorem rstFree_eq_admits (es : List Event) : rstFree es = es.all (admits true false) := by
  have h : notRst = admits true false := by funext e; cases e with
    | outside o => cases o <;> rfl
    | turn => rfl
    | answer a => rfl
  rw [rstFree, h]

theorem all_admits_true (es : List Event) : es.all (admits true true) = true :=
  List.all_eq_true.2 fun e _ => by cases e with
    | outside o => cases o <;> rfl
    | turn => rfl
    | answer a => rfl

theorem admitted_head {hostOk rstOk : Bool} {e : Event} {es : List Event}
    (h : (e :: es).all (admits hostOk rstOk) = true) : admits hostOk rstOk e = true :=
  (Bool.and_eq_true _ _ ▸ h).1

theorem admitted_tail {hostOk rstOk : Bool} {e : Event} {es : List Event}
    (h : (e :: es).all (admits hostOk rstOk) = true) : es.all (admits hostOk rstOk) = true :=
  (Bool.and_eq_true _ _ ▸ h).2

/-! ## The host's accesses to an idle core -/

/-- All a host access can do while no command runs (spec/10_state.md R40 to R57), but for a write of CMD that
starts one. -/
inductive IdleAccess (s : State) : State → Prop
  | read (port : List PortEvent) (free ptr : Nat)
      (hptr : ptr = s.buf.rxRptr ∨ ptr = s.buf.rxRptr + 1 ∧ s.buf.rxRptr < s.buf.rxLen) :
      IdleAccess s (((s.withBuf { s.buf with rxRptr := ptr }).withPort port).withFree free)
  | sticky (cmdOvr fxSat valid ovr : Bool) : IdleAccess s ((s.withCmd { s.cmd with
      cmdOvr := cmdOvr, fxSat := fxSat }).withRcd { s.rcd with valid := valid, ovr := ovr })
  | ctrl (c : Ctrl) (bt : Transport) (hattempt : bt.attempt = s.bt.attempt)
      (hsel : bt.sel = s.bt.sel ∧ c.btAttach = true ∨ bt.sel = none) : IdleAccess s ((s.withCtrl c).withBt bt)
  | period (v : Word) : IdleAccess s (s.withSs { s.ss with period := v })
  | push (b : Byte) (hlen : s.buf.txLen < Config.wrMax) : IdleAccess s (s.withBuf { s.buf with
      tx := Memory.write s.buf.tx s.buf.txLen b, txLen := s.buf.txLen + 1 })
  | txClear : IdleAccess s (s.withBuf { s.buf with txLen := 0 })
  | rxRewind : IdleAccess s (s.withBuf { s.buf with rxRptr := 0 })
  | setX (i : Fin 32) (v : Word) (hi : hostWritableX i = true) : IdleAccess s (s.setX i v)
  | cal (c : Profile) : IdleAccess s (s.withCal c)
  | ignored : IdleAccess s s

theorem idleAccess_of_hostAccess {s t : State} {a : HostAccess} (hb : s.cmd.busy = false)
    (h : hostAccess s a = .ok t) : IdleAccess s t := by
  obtain ⟨addr, -, -, rfl⟩ | ⟨addr, v, -, -, rfl⟩ := hostAccess_cases h
  · obtain ⟨port, free, ptr, hptr, e⟩ := hostRead_idle s addr (hostReg addr)
    exact e ▸ .read port free ptr hptr
  · obtain ⟨o, f, u, r, e⟩ | ⟨bt, ⟨hattempt, hsel⟩, e⟩ | e | ⟨hlen, e⟩ | e | e | ⟨i, hi, e⟩ | ⟨c, e⟩ | e :=
      hostWrite_idle hb v (hostReg addr) <;> rw [e]
    · exact .sticky o f u r
    · exact .ctrl _ bt hattempt hsel
    · exact .period v
    · exact .push _ hlen
    · exact .txClear
    · exact .rxRewind
    · exact .setX i v hi
    · exact .cal c
    · exact .ignored

/-! ## What the moves have to keep -/

/-- The moves of the loop of SS.RUN keep `Q`. -/
structure LoopKept (Q : State → Prop) : Prop where
  lastTs : ∀ s : State, Q s → Q (s.withSs { s.ss with lastTs := s.sa.ts }) := by intros; assumption
  ssPhase : ∀ (s : State) v, Q s → Q (setSsPhase v s) := by intros; assumption
  tickStart : ∀ s : State, Q s →
    Q ((s.withSs { s.ss with tStart := s.clock }).withSa { s.sa with ts := s.clock }) := by intros; assumption
  tickStop : ∀ s : State, Q s → Q (s.withSs { s.ss with tEnd := s.clock }) := by intros; assumption
  /-- `t` is the state in which `t_end` was read -/
  emit : ∀ s t : State, Q s → Q t → s.ss.tStart = t.ss.tStart → s.ss.tEnd = t.clock → Q (emitRecord s) := by
    intros; assumption
  ticks : ∀ s : State, Q s → Q (s.withSs { s.ss with ticks := s.ss.ticks + 1 }) := by intros; assumption
  lasttick : ∀ (s : State) v, Q s → Q (s.withSs { s.ss with lasttick := v }) := by intros; assumption
  countTick : ∀ s : State, Q s → Q (countTick s) := by intros; assumption
  epoch : ∀ (s : State) e, Q s → Q (s.withSs { s.ss with epoch := e, phase := .wait }) := by intros; assumption
  runStart : ∀ s : State, Q s → Q (s.withSs { s.ss with running := true }) := by intros; assumption
  runInit : ∀ (s : State) n, Q s → Q (s.withSs { s.ss with
    epoch := s.clock, lastTs := s.clock, left := n, count := n, ran := 0 }) := by intros; assumption
  runEnd : ∀ s : State, Q s → Q (s.withSs { s.ss with phase := .idle, running := false }) := by
    intros; assumption

/-- The moves of a command that writes `w` keep `Q`, and at its end `K` holds; the host makes accesses
meanwhile, or `rst` comes, if the claim admits it. -/
structure Kept (w : Writes) (hostOk rstOk : Bool) (Q K : State → Prop) : Prop where
  env : ∀ (s : State) es es', Q (s.withEnv es) → Q (s.withEnv es') := by intros; assumption
  port : ∀ (s : State) p, Q s → Q (s.withPort p) := by intros; assumption
  free : ∀ (s : State) n, Q s → Q (s.withFree n) := by intros; assumption
  phase : ∀ s : State, Q s → Q (nextPhase s) := by intros; assumption
  time : ∀ (s : State) c, s.clock ≤ c → Q s → Q (s.withClock c) := by intros; assumption
  /-- a host write while a command runs (spec/10_state.md R56) -/
  control : hostOk = true → ∀ (s : State) cancel ieRec ieDone cmdOvr fxSat valid ovr, Q s →
    Q (((s.withCtrl { s.ctrl with cancel := cancel, ieRec := ieRec, ieDone := ieDone }).withCmd
      { s.cmd with cmdOvr := cmdOvr, fxSat := fxSat }).withRcd { s.rcd with valid := valid, ovr := ovr }) := by
    intros; first | assumption | contradiction
  rst : rstOk = true → ∀ s : State, Q s → K (inReset s) := by intros; first | assumption | contradiction
  select : w.bus = true → ∀ (s : State) a, Q s → s.ctrl.btAttach = true →
    Q (s.withBt { s.bt with sel := some a }) := by intros; assumption
  unselect : w.bus = true → ∀ s : State, Q s → Q (s.withBt { s.bt with sel := none }) := by intros; assumption
  attempt : w.rx = true → ∀ (s : State) k, k ≤ 5 → Q s → Q (s.withBt { s.bt with attempt := k }) := by
    intros; assumption
  received : w.rx = true → ∀ (s : State) bs, bs.length ≤ 511 → Q s → Q (rxStore s bs) := by intros; assumption
  /-- after a read that raised the receive buffer holds any 511 bytes -/
  unreceived : w.rx = true → ∀ (s : State) rx, Memory.wf rx = true → (∀ c ∈ rx, c.1 < 511) → Q s →
    Q (s.withBuf { s.buf with rx := rx, rxLen := 0 }) := by intros; assumption
  rmw : w.rmw = true → ∀ (s : State) b, Q s → Q (s.withRmw b) := by intros; assumption
  arange : w.ag = true → ∀ (s : State) c, Q s →
    Q (s.withAg { s.ag with arange := c, ares := aresTable c }) := by intros; assumption
  grange : w.ag = true → ∀ (s : State) c, Q s →
    Q (s.withAg { s.ag with grange := c, gres := gresTable c }) := by intros; assumption
  agState : w.ag = true → ∀ (s : State) v, Q s → Q (setAgState v s) := by intros; assumption
  mode : w.mg = true → ∀ (s : State) m, Q s → Q (s.withMg { s.mg with mode := m }) := by intros; assumption
  resbit : w.mg = true → ∀ (s : State) c, Q s →
    Q (s.withMg { s.mg with resbit := c, res := mresTable c }) := by intros; assumption
  mgStage : w.mg = true → ∀ (s : State) n, n.toNat ≤ 4 → Q s → Q (setMgStage n s) := by intros; assumption
  mgAdj : w.mg = true → ∀ (s : State) bs, Q s → Q (setMgAdj bs s) := by intros; assumption
  mgFresh : w.mg = true → ∀ s : State, Q s → Q (s.withMg { s.mg with initDone := false, stage := 0 }) := by
    intros; assumption
  mgDone : w.mg = true → ∀ s : State, Q s → Q (s.withMg { s.mg with initDone := true }) := by
    intros; assumption
  ovf : w.ovf = true → ∀ (s : State) v, Q s → Q (s.withMg { s.mg with ovf := v }) := by intros; assumption
  rawOk : w.sa = true → ∀ (s : State) a g m, Q s →
    Q (s.withSa { s.sa with okA := a, okG := g, okM := m }) := by intros; assumption
  stamp : w.sa = true → ∀ s : State, Q s → Q (s.withSa { s.sa with ts := s.clock }) := by intros; assumption
  setX : ∀ (s : State) i v, i = 31 ∨ i ∈ w.x → Q s → Q (s.setX i v) := by intros; assumption
  orSat : w.fx = true → ∀ (s : State) b, Q s → Q (orSat s b) := by intros; assumption
  estTs : w.est = true → ∀ s : State, Q s → Q (s.withEstTs s.sa.ts) := by intros; assumption
  loop : w.loop = true → LoopKept Q := by intro; exact {}
  done : ∀ s : State, Q s → K (completeCommand s) := by intros; assumption
  failed : ∀ e (s : State), Q s → K (failCommand id e s) := by intros; assumption
  top : w.loop = true → ∀ s : State, s.cmd.busy = true → Q s → K (atLoopTop s) := by intros; assumption

/-- Inside a command of an admitted environment, and `Q`. -/
def Inside (hostOk rstOk : Bool) (Q : State → Prop) (s : State) : Prop :=
  s.cmd.busy = true ∧ s.env.all (admits hostOk rstOk) = true ∧ Q s

/-- What is to come from outside is admitted, and `K`. -/
def Admitted (hostOk rstOk : Bool) (K : State → Prop) (s : State) : Prop :=
  s.env.all (admits hostOk rstOk) = true ∧ K s

section
variable {w : Writes} {hostOk rstOk : Bool} {Q K : State → Prop}

theorem LoopKept.inside (l : LoopKept Q) : LoopStable (Inside hostOk rstOk Q) where
  lastTs := fun s h => ⟨h.1, h.2.1, l.lastTs s h.2.2⟩
  ssPhase := fun s v h => ⟨h.1, h.2.1, l.ssPhase s v h.2.2⟩
  tickStart := fun s h => ⟨h.1, h.2.1, l.tickStart s h.2.2⟩
  tickStop := fun s h => ⟨h.1, h.2.1, l.tickStop s h.2.2⟩
  emit := fun s t h ht hs he => ⟨h.1, h.2.1, l.emit s t h.2.2 ht.2.2 hs he⟩
  ticks := fun s h => ⟨h.1, h.2.1, l.ticks s h.2.2⟩
  lasttick := fun s v h => ⟨h.1, h.2.1, l.lasttick s v h.2.2⟩
  countTick := fun s h => ⟨h.1, h.2.1, l.countTick s h.2.2⟩
  epoch := fun s e h => ⟨h.1, h.2.1, l.epoch s e h.2.2⟩
  runStart := fun s h => ⟨h.1, h.2.1, l.runStart s h.2.2⟩
  runInit := fun s n h => ⟨h.1, h.2.1, l.runInit s n h.2.2⟩
  runEnd := fun s h => ⟨h.1, h.2.1, l.runEnd s h.2.2⟩

/-- A host access during a command. -/
theorem Kept.hostAccess (k : Kept w hostOk rstOk Q K) {s t : State} {a : HostAccess} (hh : hostOk = true)
    (hb : s.cmd.busy = true) (hq : Q s) (h : hostAccess s a = .ok t) : t.cmd.busy = true ∧ Q t := by
  obtain ⟨port, free, rfl⟩ | ⟨c, i, d, o, f, v, r, rfl⟩ := hostAccess_running hb h
  · exact ⟨hb, k.free _ free (k.port s port hq)⟩
  · exact ⟨hb, k.control hh s c i d o f v r hq⟩

theorem Kept.execStable (k : Kept w hostOk rstOk Q K) : ExecStable w (Inside hostOk rstOk Q) (Admitted hostOk rstOk K) where
  used := fun s e es ⟨hb, ha, hq⟩ => ⟨hb, admitted_tail ha, k.env s _ es hq⟩
  port := fun s e h => ⟨h.1, h.2.1, k.port s _ h.2.2⟩
  phase := fun s h => ⟨h.1, h.2.1, k.phase s h.2.2⟩
  time := fun s c hc h => ⟨h.1, h.2.1, k.time s c hc h.2.2⟩
  host := by
    intro s a es t ⟨hb, ha, hq⟩ h
    obtain ⟨hbt, hqt⟩ := k.hostAccess (s := s.withEnv es) (admitted_head ha) hb (k.env s _ es hq) h
    exact ⟨hbt, by rw [hostAccess_env h]; exact admitted_tail ha, hqt⟩
  rst := fun s es ⟨_, ha, hq⟩ => ⟨admitted_tail ha, k.rst (admitted_head ha) _ (k.env s _ es hq)⟩
  busy := fun _ h => h.1
  select := fun hw s a h ha => ⟨h.1, h.2.1, k.select hw s a h.2.2 ha⟩
  unselect := fun hw s h => ⟨h.1, h.2.1, k.unselect hw s h.2.2⟩
  attempt := fun hw s n hn h => ⟨h.1, h.2.1, k.attempt hw s n hn h.2.2⟩
  received := fun hw s bs hn h => ⟨h.1, h.2.1, k.received hw s bs hn h.2.2⟩
  unreceived := fun hw s h => ⟨by simpa only [rxFailed_cmd] using h.1, by simpa only [rxFailed_env] using h.2.1,
    k.free _ _ (k.unreceived hw s _ (wf_freeBuffer s.free) (freeBuffer_lt s.free) h.2.2)⟩
  rmw := fun hw s b h => ⟨h.1, h.2.1, k.rmw hw s b h.2.2⟩
  arange := fun hw s c h => ⟨h.1, h.2.1, k.arange hw s c h.2.2⟩
  grange := fun hw s c h => ⟨h.1, h.2.1, k.grange hw s c h.2.2⟩
  agState := fun hw s v h => ⟨h.1, h.2.1, k.agState hw s v h.2.2⟩
  mode := fun hw s m h => ⟨h.1, h.2.1, k.mode hw s m h.2.2⟩
  resbit := fun hw s c h => ⟨h.1, h.2.1, k.resbit hw s c h.2.2⟩
  mgStage := fun hw s n hn h => ⟨h.1, h.2.1, k.mgStage hw s n hn h.2.2⟩
  mgAdj := fun hw s bs h => ⟨h.1, h.2.1, k.mgAdj hw s bs h.2.2⟩
  mgFresh := fun hw s h => ⟨h.1, h.2.1, k.mgFresh hw s h.2.2⟩
  mgDone := fun hw s h => ⟨h.1, h.2.1, k.mgDone hw s h.2.2⟩
  ovf := fun hw s v h => ⟨h.1, h.2.1, k.ovf hw s v h.2.2⟩
  rawOk := by
    intro hw s g v h
    cases g with
    | acc => exact ⟨h.1, h.2.1, k.rawOk hw s v s.sa.okG s.sa.okM h.2.2⟩
    | gyr => exact ⟨h.1, h.2.1, k.rawOk hw s s.sa.okA v s.sa.okM h.2.2⟩
    | mag => exact ⟨h.1, h.2.1, k.rawOk hw s s.sa.okA s.sa.okG v h.2.2⟩
  stamp := fun hw s h => ⟨h.1, h.2.1, k.stamp hw s h.2.2⟩
  setX := fun s i v hi h => ⟨h.1, h.2.1, k.setX s i v hi h.2.2⟩
  orSat := fun hw s b h => ⟨h.1, h.2.1, k.orSat hw s b h.2.2⟩
  estTs := fun hw s h => ⟨h.1, h.2.1, k.estTs hw s h.2.2⟩
  loop := fun hw => (k.loop hw).inside
  done := fun s h => ⟨h.2.1, k.done s h.2.2⟩
  failed := fun e s h => ⟨h.2.1, k.failed e s h.2.2⟩
  top := fun hw s h => ⟨h.2.1, k.top hw s h.1 h.2.2⟩

/-- What a command comes to if its moves keep `Q`: turned away, illegal, or run to its end. -/
theorem Kept.exec {i : Instr} (k : Kept (writes i) hostOk rstOk Q K) {s t : State}
    (he : s.env.all (admits hostOk rstOk) = true)
    (hbusy : s.cmd.busy = true → K (s.withCmd { s.cmd with cmdOvr := true }))
    (hstart : s.cmd.busy = false → ∀ op, Q (startCommand op s))
    (hillegal : s.cmd.busy = false → K (illegalCommand s)) (h : exec i s = .next t) : K t :=
  ((exec_ends i k.execStable (fun hb => ⟨he, hbusy hb⟩) (fun hb op => ⟨rfl, he, hstart hb op⟩)
    fun hb => ⟨he, hillegal hb⟩).next h).2

end

/-- Every move of the core keeps `Q` inside commands and `K` between steps. -/
structure CoreKept (hostOk rstOk : Bool) (Q K : State → Prop) : Prop extends Kept Writes.all hostOk rstOk Q K where
  resume : ∀ s : State, K s → s.held = false → s.cmd.busy = true → Q s := by intros; assumption
  stay : ∀ s : State, Q s → K s := by intros; assumption
  start : ∀ (s : State) op, K s → s.held = false → s.cmd.busy = false → Q (startCommand op s) := by
    intros; assumption
  illegal : ∀ s : State, K s → s.held = false → s.cmd.busy = false → K (illegalCommand s) := by
    intros; assumption
  idleEnv : ∀ (s : State) es es', K (s.withEnv es) → K (s.withEnv es') := by intros; assumption
  idleTime : ∀ (s : State) c, s.clock ≤ c → K s → K (s.withClock c) := by intros; assumption
  idleHost : ∀ s t : State, K s → s.held = false → s.cmd.busy = false → IdleAccess s t → K t := by
    intro _ _ h _ _ m; cases m <;> exact h
  idleRst : rstOk = true → ∀ s : State, K s → s.held = false → K (inReset s) := by
    intros; first | assumption | contradiction
  heldHost : ∀ (s : State) port free, K s → s.held = true → K ((s.withPort port).withFree free) := by
    intros; assumption
  release : rstOk = true → ∀ s : State, K s → s.held = true → K (afterReset s) := by
    intros; first | assumption | contradiction

section
variable {hostOk rstOk : Bool} {Q K : State → Prop}

theorem CoreKept.coreStable (k : CoreKept hostOk rstOk Q K) :
    CoreStable (Inside hostOk rstOk Q) (Admitted hostOk rstOk K) where
  toExecStable := k.toKept.execStable
  resume := fun s h hn hb => ⟨hb, h.1, k.resume s h.2 hn hb⟩
  stay := fun s h => ⟨h.2.1, k.stay s h.2.2⟩
  start := fun s op h hn hb => ⟨rfl, h.1, k.start s op h.2 hn hb⟩
  illegal := fun s h hn hb => ⟨h.1, k.illegal s h.2 hn hb⟩
  idleUsed := fun s e es h => ⟨admitted_tail h.1, k.idleEnv s _ es h.2⟩
  idleTime := fun s c hc h => ⟨h.1, k.idleTime s c hc h.2⟩
  idleHost := fun s a t h hn hb ha =>
    ⟨by rw [hostAccess_env ha]; exact h.1, k.idleHost s t h.2 hn hb (idleAccess_of_hostAccess hb ha)⟩
  idleRst := fun s es h hn => ⟨admitted_tail h.1, k.idleRst (admitted_head h.1) _ (k.idleEnv s _ es h.2) hn⟩
  heldHost := fun s port free h hn => ⟨h.1, k.heldHost s port free h.2 hn⟩
  release := fun s es h hn => ⟨admitted_tail h.1, k.release (admitted_head h.1) _ (k.idleEnv s _ es h.2) hn⟩

/-- A condition that every move of the core keeps, every step keeps. -/
theorem CoreKept.step (k : CoreKept hostOk rstOk Q K) {s t : State} (he : s.env.all (admits hostOk rstOk) = true)
    (h : K s) (hs : step s = .next t) : K t := (step_keeps k.coreStable ⟨he, h⟩ hs).2

end

end Sys2Proof.Machine
end

section
/-! PROOF of O47 to O52. The invariants of the state: each is kept by every move of the core, of the host and of
`rst` (`CoreKept`). Of the moves only those are proved that touch what the invariant looks at. -/

namespace Sys2Proof.Machine

open Sys2Proof

/-! ## The reset values -/

theorem inReset_cachesAgree (s : State) : CachesAgree (inReset s) := ⟨rfl, rfl, rfl⟩

theorem inReset_buffersOk (s : State) : BuffersOk (inReset s) := by
  refine ⟨rfl, rfl, fun _ hc => (nomatch hc), fun _ hc => (nomatch hc), ?_, ?_, ?_⟩ <;> exact Nat.zero_le _

theorem inReset_transportOk (s : State) : TransportOk (inReset s) := ⟨Nat.zero_le _, fun h => (h rfl).elim⟩

theorem inReset_stageOk (s : State) : StageOk (inReset s) := Nat.zero_le _

theorem inReset_statusOk (s : State) : StatusOk (inReset s) :=
  ⟨rfl, fun h => (nomatch h), fun h => (nomatch h), fun h => (nomatch h), fun h => (h rfl).elim⟩

theorem inReset_stampsOk (s : State) : StampsOk (inReset s) := by
  refine ⟨?_, ?_, ?_, ?_, ?_, ?_, ?_⟩ <;> exact Nat.zero_le _

theorem inReset_heldOk (s : State) : HeldOk (inReset s) := fun _ => rfl

/-! ## O47: resolutions and codes -/

/-- The three setters write a code with its resolution; nothing else writes either. -/
theorem cachesAgree_kept : CoreKept true true CachesAgree CachesAgree where
  arange := fun _ _ _ ⟨_, hg, hm⟩ => ⟨rfl, hg, hm⟩
  grange := fun _ _ _ ⟨ha, _, hm⟩ => ⟨ha, rfl, hm⟩
  resbit := fun _ _ _ ⟨ha, hg, _⟩ => ⟨ha, hg, rfl⟩
  rst := fun _ s _ => inReset_cachesAgree s
  idleRst := fun _ s _ _ => inReset_cachesAgree s
  release := fun _ s _ _ => inReset_cachesAgree s

/-- Settles O47: every move of the core keeps the agreement (`cachesAgree_kept`). -/
theorem cachesAgreeKept : Obligations.CachesAgreeKept :=
  fun s _ h hs => cachesAgree_kept.step (all_admits_true s.env) h hs

/-! ## O48: the byte buffers -/

/-- A full read stores at most 511 bytes from address 0, a failed one leaves 511 free bytes, and the host pushes
below address 511 and moves the read pointer below `rx_len`. -/
theorem buffersOk_kept : CoreKept true true BuffersOk BuffersOk where
  received := fun _ s bs hn ⟨htx, hrx, htl, hrl, hn1, _, _⟩ =>
    ⟨htx, Memory.wf_writeFrom 0 bs hrx, htl,
      fun c hc => (Memory.mem_writeFrom hc).elim (hrl c) (by omega), hn1, hn, Nat.zero_le _⟩
  unreceived := fun _ _ _ hwf hlt ⟨htx, _, htl, _, hn1, _, hptr⟩ =>
    ⟨htx, hwf, htl, hlt, hn1, Nat.zero_le _, hptr⟩
  rst := fun _ s _ => inReset_buffersOk s
  idleHost := by
    intro s t ⟨htx, hrx, htl, hrl, hn1, hn2, hptr⟩ _ _ m
    cases m with
    | read _ _ ptr hp => exact ⟨htx, hrx, htl, hrl, hn1, hn2, show ptr ≤ 511 by omega⟩
    | push b hlen =>
      have hlen : s.buf.txLen < 511 := hlen
      refine ⟨Memory.wf_write _ b htx, hrx, fun c hc => ?_, hrl, hlen, hn2, hptr⟩
      obtain hc | ⟨rfl, -⟩ := Memory.mem_write hc
      · exact htl c hc
      · exact hlen
    | txClear => exact ⟨htx, hrx, htl, hrl, Nat.zero_le _, hn2, hptr⟩
    | rxRewind => exact ⟨htx, hrx, htl, hrl, hn1, hn2, Nat.zero_le _⟩
    | _ => exact ⟨htx, hrx, htl, hrl, hn1, hn2, hptr⟩
  idleRst := fun _ s _ _ => inReset_buffersOk s
  release := fun _ s _ _ => inReset_buffersOk s

/-- Settles O48: every move of the core keeps the buffers so (`buffersOk_kept`). -/
theorem buffersKept : Obligations.BuffersKept :=
  fun s _ h hs => buffersOk_kept.step (all_admits_true s.env) h hs

/-! ## O49: the transport and the stage -/

/-- An address is selected only with a bus attached, an attempt is numbered at most 5, a stage at most 4; and the
write of CTRL that clears BT_ATTACH forgets the selection. -/
theorem transportOk_kept :
    CoreKept true true (fun s => TransportOk s ∧ StageOk s) fun s => TransportOk s ∧ StageOk s where
  select := fun _ _ _ ⟨⟨hk, _⟩, hst⟩ ha => ⟨⟨hk, fun _ => ha⟩, hst⟩
  unselect := fun _ _ ⟨⟨hk, _⟩, hst⟩ => ⟨⟨hk, fun h => (h rfl).elim⟩, hst⟩
  attempt := fun _ _ _ hk ⟨⟨_, hsel⟩, hst⟩ => ⟨⟨hk, hsel⟩, hst⟩
  mgStage := fun _ _ _ hn ⟨ht, _⟩ => ⟨ht, hn⟩
  mgFresh := fun _ _ ⟨ht, _⟩ => ⟨ht, Nat.zero_le _⟩
  rst := fun _ s _ => ⟨inReset_transportOk s, inReset_stageOk s⟩
  idleHost := by
    intro s t ⟨⟨hk, hsel⟩, hst⟩ _ _ m
    cases m with
    | ctrl c bt hattempt hs =>
      refine ⟨⟨show bt.attempt ≤ 5 by omega, fun hne => ?_⟩, hst⟩
      obtain ⟨-, ha⟩ | hnone := hs
      · exact ha
      · exact (hne hnone).elim
    | _ => exact ⟨⟨hk, hsel⟩, hst⟩
  idleRst := fun _ s _ _ => ⟨inReset_transportOk s, inReset_stageOk s⟩
  release := fun _ s _ _ => ⟨inReset_transportOk s, inReset_stageOk s⟩

/-- Settles O49: every move of the core keeps the two (`transportOk_kept`). -/
theorem transportKept : Obligations.TransportKept :=
  fun s _ h h' hs => transportOk_kept.step (all_admits_true s.env) ⟨h, h'⟩ hs

/-! ## O50: the command flags, and the core under `rst` -/

/-- A command starts and ends with its flags written together; an error word is never 0 (`errword_ne_zero`). -/
theorem statusOk_kept : CoreKept true true StatusOk StatusOk where
  phase := fun s ⟨hseq, hrest⟩ => ⟨by rw [nextPhase_cmd, hseq, nextPhase]; cases s.seq <;> rfl, hrest⟩
  done := fun _ ⟨_, _, _, herr⟩ => ⟨rfl, fun h => (nomatch h), fun _ => rfl, herr⟩
  failed := fun e _ _ => ⟨rfl, fun h => (nomatch h), fun _ => rfl, fun _ => errword_ne_zero e, fun _ => rfl⟩
  top := fun _ _ hb ⟨_, hrest⟩ => ⟨hb, hrest⟩
  start := fun _ _ _ _ _ =>
    ⟨rfl, fun _ => rfl, fun h => (nomatch h), fun h => (nomatch h), fun h => (h rfl).elim⟩
  illegal := fun s ⟨hseq, _⟩ _ hb => ⟨hb.symm.trans hseq, fun h => (nomatch h), fun _ => rfl,
    fun _ => errword_ne_zero _, fun _ => rfl⟩
  rst := fun _ s _ => inReset_statusOk s
  idleRst := fun _ s _ _ => inReset_statusOk s
  release := fun _ s _ _ => inReset_statusOk s

/-- A core that is not held meets the second half of O50 at once. -/
theorem heldOk_of_released {s : State} (h : s.held = false) : HeldOk s :=
  fun h' => absurd (h.symm.trans h') (by decide)

/-- No command asserts or releases `rst`; while it is asserted, nothing but time, what is sent out and what is to
come changes. -/
theorem heldOk_kept : CoreKept true true (fun s => s.held = false) HeldOk where
  rst := fun _ s _ => inReset_heldOk s
  done := fun _ h => heldOk_of_released h
  failed := fun _ _ h => heldOk_of_released h
  top := fun _ _ _ h => heldOk_of_released h
  stay := fun _ h => heldOk_of_released h
  illegal := fun _ _ h _ => heldOk_of_released h
  idleEnv := fun s es es' h hn => congrArg (·.withEnv es') (h hn)
  idleTime := fun s c _ h hn => congrArg (·.withClock c) (h hn)
  idleHost := fun _ _ _ hn _ m => heldOk_of_released (by cases m <;> exact hn)
  idleRst := fun _ s _ _ => inReset_heldOk s
  heldHost := fun s port free h hn _ => congrArg (fun u => (u.withPort port).withFree free) (h hn)
  release := fun _ _ _ _ => heldOk_of_released rfl

/-- Settles O50: every move of the core keeps the flags so (`statusOk_kept`), and the core under `rst` at its
reset values (`heldOk_kept`). -/
theorem statusKept : Obligations.StatusKept :=
  ⟨fun s _ h hs => statusOk_kept.step (all_admits_true s.env) h hs,
    fun s _ h hs => heldOk_kept.step (all_admits_true s.env) h hs⟩

/-! ## O51: the time stamps -/

/-- The stamps are in order, the timebase is at `c` or later, the last capture at `ts` or later. -/
def StampsFrom (c ts : Stamp) (s : State) : Prop := StampsOk s ∧ c ≤ s.clock ∧ ts ≤ s.sa.ts

theorem inReset_stampsFrom {c : Stamp} {s : State} (h : c ≤ s.clock) : StampsFrom c 0 (inReset s) :=
  ⟨inReset_stampsOk s, h, Nat.zero_le _⟩

/-- Every stamp is a reading of the timebase or a copy of an earlier stamp; only `rst` takes one back, so no bound
`ts` on the last capture is kept but 0 when the claim admits `rst`. -/
theorem stampsFrom_kept (c ts : Stamp) {rstOk : Bool} (hts : rstOk = true → ts = 0) :
    CoreKept true rstOk (StampsFrom c ts) (StampsFrom c ts) where
  time := fun s d hd ⟨⟨h1, h2, h3, h4, h5, h6, h7⟩, hc, ht⟩ =>
    ⟨⟨BitVec.le_trans h1 hd, BitVec.le_trans h2 hd, BitVec.le_trans h3 hd, BitVec.le_trans h4 hd, BitVec.le_trans h5 hd, h6, BitVec.le_trans h7 hd⟩, BitVec.le_trans hc hd, ht⟩
  stamp := fun _ _ ⟨⟨h1, hrest⟩, hc, ht⟩ => ⟨⟨BitVec.le_refl _, hrest⟩, hc, BitVec.le_trans ht h1⟩
  estTs := fun _ _ ⟨⟨h1, _, hrest⟩, hc, ht⟩ => ⟨⟨h1, h1, hrest⟩, hc, ht⟩
  loop := fun _ =>
    { lastTs := fun _ ⟨⟨h1, h2, _, hrest⟩, hc, ht⟩ => ⟨⟨h1, h2, h1, hrest⟩, hc, ht⟩
      tickStart := fun _ ⟨⟨h1, h2, h3, _, hrest⟩, hc, ht⟩ =>
        ⟨⟨BitVec.le_refl _, h2, h3, BitVec.le_refl _, hrest⟩, hc, BitVec.le_trans ht h1⟩
      tickStop := fun _ ⟨⟨h1, h2, h3, h4, _, hrest⟩, hc, ht⟩ => ⟨⟨h1, h2, h3, h4, BitVec.le_refl _, hrest⟩, hc, ht⟩
      emit := fun s t ⟨⟨h1, h2, h3, h4, h5, _, _⟩, hc, ht⟩ ⟨⟨_, _, _, hstart, _⟩, _⟩ hs he =>
        ⟨⟨h1, h2, h3, h4, h5, show s.ss.tStart ≤ s.ss.tEnd by rw [hs, he]; exact hstart, h5⟩, hc, ht⟩
      runInit := fun _ _ ⟨⟨h1, h2, _, hrest⟩, hc, ht⟩ => ⟨⟨h1, h2, BitVec.le_refl _, hrest⟩, hc, ht⟩ }
  rst := fun hr _ ⟨_, hc, _⟩ => hts hr ▸ inReset_stampsFrom hc
  idleTime := fun s d hd ⟨⟨h1, h2, h3, h4, h5, h6, h7⟩, hc, ht⟩ =>
    ⟨⟨BitVec.le_trans h1 hd, BitVec.le_trans h2 hd, BitVec.le_trans h3 hd, BitVec.le_trans h4 hd, BitVec.le_trans h5 hd, h6, BitVec.le_trans h7 hd⟩, BitVec.le_trans hc hd, ht⟩
  idleRst := fun hr _ ⟨_, hc, _⟩ _ => hts hr ▸ inReset_stampsFrom hc
  release := fun hr _ ⟨_, hc, _⟩ _ => hts hr ▸ inReset_stampsFrom hc

/-- Settles O51: from the stamps of `s` on (`stampsFrom_kept`), with the bound 0 on the last capture where `rst`
may come. -/
theorem stampsKept : Obligations.StampsKept := by
  refine ⟨fun s t h hs => ?_, fun s t h hr hs => ?_⟩
  · obtain ⟨hok, hc, -⟩ := (stampsFrom_kept s.clock 0 fun _ => rfl).step (all_admits_true s.env)
      ⟨h, BitVec.le_refl _, Nat.zero_le _⟩ hs
    exact ⟨hok, hc⟩
  · rw [rstFree_eq_admits] at hr
    obtain ⟨-, -, ht⟩ := (stampsFrom_kept s.clock s.sa.ts (rstOk := false) fun h => nomatch h).step hr
      ⟨h, BitVec.le_refl _, BitVec.le_refl _⟩ hs
    exact ht

/-! ## O52: the base case -/

/-- Settles O52: each invariant holds of the core at its reset values, whatever `rst` keeps (the lemmas `inReset_`
above); `State.reset` and the state at the release differ from that only in `held`. -/
theorem invariantsAtReset : Obligations.InvariantsAtReset := by
  have hreset : ∀ s : State, CachesAgree (inReset s) ∧ BuffersOk (inReset s) ∧ TransportOk (inReset s) ∧
      StageOk (inReset s) ∧ StatusOk (inReset s) ∧ StampsOk (inReset s) ∧ HeldOk (inReset s) := fun s =>
    ⟨inReset_cachesAgree s, inReset_buffersOk s, inReset_transportOk s, inReset_stageOk s, inReset_statusOk s,
      inReset_stampsOk s, inReset_heldOk s⟩
  have hafter : ∀ s : State, CachesAgree (afterReset s) ∧ BuffersOk (afterReset s) ∧ TransportOk (afterReset s) ∧
      StageOk (afterReset s) ∧ StatusOk (afterReset s) ∧ StampsOk (afterReset s) ∧ HeldOk (afterReset s) :=
    fun s =>
      ⟨inReset_cachesAgree s, inReset_buffersOk s, inReset_transportOk s, inReset_stageOk s, inReset_statusOk s,
        inReset_stampsOk s, heldOk_of_released rfl⟩
  obtain ⟨h1, h2, h3, h4, h5, h6, h7⟩ := hafter State.reset
  refine ⟨h1, h2, h3, h4, h5, h6, h7, fun s t ht => ?_⟩
  obtain rfl | rfl : t = inReset s ∨ t = afterReset s := by simpa using ht
  · exact hreset s
  · exact hafter s

end Sys2Proof.Machine
end

section
/-! PROOF of O5, O7 and O45. How a command comes to run or is turned away; and who writes the angles. -/

namespace Sys2Proof.Machine

open Sys2Proof

/-! ## O5: how a command comes to run -/

/-- An idle core that is not in reset runs the command whose word the host writes next (spec/10_state.md R41). -/
theorem step_of_command_word {s : State} {w : Word} {i : Instr} {es : List Event} (hn : s.held = false)
    (hb : s.cmd.busy = false) (he : s.env = .outside (.host (.write 0 w)) :: es) (hd : decode w = .ok i) :
    step s = exec i (s.withEnv es) := by
  have hc : commandWord (.write 0 w) = some w := rfl
  simp only [step, nextStep, hn, hb, Bool.false_eq_true, if_false, idleStep, he, idleMove, hc, fetchCommand, hd]

theorem decode_of_decodeTableWord {nbits w : Nat} {i : Instr} (h : decodeTableWord nbits w = some i) :
    decode (BitVec.ofNat 32 (w % 2 ^ nbits)) = .ok i := by
  rw [decodeTableWord] at h
  cases hd : decode (BitVec.ofNat 32 (w % 2 ^ nbits)) with
  | ok j => rw [hd] at h; rw [Option.some.inj h]
  | error r => rw [hd] at h; cases h

/-- On an idle core that is not in reset, being about to fetch is only a matter of what comes from outside. -/
theorem aboutToFetch_eq {s : State} (hn : s.held = false) (hb : s.cmd.busy = false) (w : Word) :
    aboutToFetch s w = s.withEnv (.outside (.host (.write 0 w)) :: s.env) := by
  have hcmd : s.withCmd { s.cmd with busy := false } = s := by rw [← hb]; rfl
  have hheld : s.withHeld false = s := by rw [← hn]; rfl
  rw [aboutToFetch, hcmd, hheld]

/-- Settles O5: both ways of starting a command are the host's write of its word (`step_of_command_word`). -/
theorem stepRunsDecoded : Obligations.StepRunsDecoded := by
  refine ⟨fun s w i es hn hb he hd => step_of_command_word hn hb he hd, fun s nbits w i hn hb h => ?_⟩
  rw [State.withFetchWord, aboutToFetch_eq hn hb]
  exact step_of_command_word (s := s.withEnv _) hn hb rfl (decode_of_decodeTableWord h)

/-! ## O7: a command given to a busy core -/

theorem turnedAway_busy {legal : Bool} {s : State} {run : Host.Outcome State Fault Refusal}
    (hb : s.cmd.busy = true) :
    turnedAway legal s run = .next (s.withCmd { s.cmd with cmdOvr := true }) := if_pos hb

/-- Settles O7: every command asks first whether the core is busy (`turnedAway_busy`), and CMD is the register at
address 0. -/
theorem busyTurnsAway : Obligations.BusyTurnsAway := by
  refine fun s hb => ⟨fun w => ?_, fun i => ?_⟩
  · have hreg : hostReg 0 = .cmd := rfl
    have halign : wordAligned 0 = true := rfl
    simp only [hostAccess, halign, if_true, hreg, hostWrite, hb, reduceCtorEq, if_false]
  · cases i <;> exact turnedAway_busy hb

/-! ## O45: the angles -/

/-- The angles and `est_ts` of `s` stand in `t`. -/
def SameAngles (s t : State) : Prop :=
  t.getX 27 = s.getX 27 ∧ t.getX 28 = s.getX 28 ∧ t.getX 29 = s.getX 29 ∧ t.estTs = s.estTs

/-- A write of a register that is no angle. -/
theorem SameAngles.setX {s t : State} {i : Fin 32} {v : Word} (hi : i.val < 27 ∨ 29 < i.val)
    (h : SameAngles s t) : SameAngles s (t.setX i v) := by
  obtain ⟨h27, h28, h29, hts⟩ := h
  have other : ∀ k : Fin 32, 27 ≤ k.val → k.val ≤ 29 → (t.setX i v).getX k = t.getX k := fun k h1 h2 => by
    rw [State.setX_getX, if_neg (by rintro rfl; omega)]
  exact ⟨(other 27 (by decide) (by decide)).trans h27, (other 28 (by decide) (by decide)).trans h28,
    (other 29 (by decide) (by decide)).trans h29, hts⟩

/-- Only OE.STEP and SS.RUN list an angle or `est_ts` among what they write. -/
theorem writes_no_angle {i : Instr} (h1 : i ≠ .oeStep) (h2 : ∀ n, i ≠ .ssRun n) :
    (writes i).est = false ∧ ∀ k ∈ (writes i).x, k.val < 27 := by
  cases i with
  | oeStep => exact (h1 rfl).elim
  | ssRun n => exact (h2 n rfl).elim
  | _ => simp [writes]

/-- A command that lists no angle among what it writes keeps the angles, whatever the host does meanwhile. -/
theorem sameAngles_kept {s : State} {i : Instr} (hest : (writes i).est = false)
    (hx : ∀ k ∈ (writes i).x, k.val < 27) :
    Kept (writes i) true false (SameAngles s) (SameAngles s) where
  setX := fun _ k _ hk h => h.setX (by
    obtain rfl | hk := hk
    · exact .inr (by decide)
    · exact .inl (hx k hk))
  estTs := fun hw => absurd (hest.symm.trans hw) (by decide)

/-- No host access reaches an angle, `est_ts`, or the result register (spec/10_state.md R22). -/
theorem hostAccess_sameAngles {s t : State} {a : HostAccess} (h : hostAccess s a = .ok t) :
    SameAngles s t ∧ t.getX 31 = s.getX 31 := by
  have same : SameAngles s s := ⟨rfl, rfl, rfl, rfl⟩
  cases hb : s.cmd.busy with
  | true => obtain ⟨_, _, rfl⟩ | ⟨_, _, _, _, _, _, _, rfl⟩ := hostAccess_running hb h <;> exact ⟨same, rfl⟩
  | false =>
    cases idleAccess_of_hostAccess hb h with
    | setX i v hi =>
      have hi : i.val ≤ 26 ∨ i.val = 30 := by simpa [hostWritableX] using hi
      exact ⟨same.setX (by omega), by rw [State.setX_getX, if_neg (by rintro rfl; revert hi; decide)]⟩
    | _ => exact ⟨same, rfl⟩

/-- Settles O45: by what the commands list (`sameAngles_kept`) and what a host access reaches
(`hostAccess_sameAngles`). -/
theorem onlyEstimatorWritesAngles : Obligations.OnlyEstimatorWritesAngles := by
  refine ⟨fun i s t h1 h2 hr h => ?_, fun s t a h => ?_⟩
  · obtain ⟨hest, hx⟩ := writes_no_angle h1 h2
    have same : SameAngles s s := ⟨rfl, rfl, rfl, rfl⟩
    exact (sameAngles_kept hest hx).exec (rstFree_eq_admits s.env ▸ hr) (fun _ => same) (fun _ _ => same)
      (fun _ => same) h
  · obtain ⟨⟨h27, h28, h29, hts⟩, h31⟩ := hostAccess_sameAngles h
    exact ⟨h27, h28, h29, hts, h31⟩

end Sys2Proof.Machine
end

section
/-! PROOF of O54 to O56. The frame of the commands: in an environment without host accesses and `rst`, what a
command does not list in `writes` it leaves alone (`Kept`). -/

namespace Sys2Proof.Machine

open Sys2Proof

/-- What a command of an idle core comes to in a quiet environment, if its moves keep `Q` and end in `K`. -/
theorem Kept.quietExec {i : Instr} {Q K : State → Prop} (k : Kept (writes i) false false Q K) {s t : State}
    (hb : s.cmd.busy = false) (hq : hostQuiet s.env = true) (hstart : ∀ op, Q (startCommand op s))
    (hillegal : K (illegalCommand s)) (h : Machine.exec i s = .next t) : K t :=
  k.exec (hostQuiet_eq_admits s.env ▸ hq) (fun e => absurd (hb.symm.trans e) Bool.false_ne_true)
    (fun _ => hstart) (fun _ => hillegal) h

/-- A command that does not write a unit makes none of the unit's moves. -/
theorem not_written {b : Bool} {p : Prop} (hf : b = false) (hw : b = true) : p :=
  absurd (hf.symm.trans hw) Bool.false_ne_true

section
variable {i : Instr} {s : State}

/-! ## O54: the data registers -/

theorem sameXBut_kept :
    Kept (writes i) false false (sameXBut (31 :: (writes i).x) s) (sameXBut (31 :: (writes i).x) s) where
  setX := fun u j v hj h k hk => by
    have hne : j ≠ k := by rintro rfl; exact hk (List.mem_cons.2 hj)
    rw [State.setX_getX, if_neg hne]
    exact h k hk

/-! ## O55: the special registers and the flags -/

/-- What no command writes. -/
theorem fixed_kept : Kept (writes i) false false
    (fun u => u.ctrl = s.ctrl ∧ u.cal = s.cal ∧ u.cfg = s.cfg ∧ u.cmd.cmdOvr = s.cmd.cmdOvr)
    (fun u => u.ctrl = s.ctrl ∧ u.cal = s.cal ∧ u.cfg = s.cfg ∧ u.cmd.cmdOvr = s.cmd.cmdOvr) where

theorem ag_kept (hf : (writes i).ag = false) :
    Kept (writes i) false false (fun u => u.ag = s.ag) (fun u => u.ag = s.ag) where
  arange := not_written hf
  grange := not_written hf
  agState := not_written hf

/-- The state of the MagDriver, but for `mg_ovf`. -/
theorem mg_kept (hf : (writes i).mg = false) : Kept (writes i) false false
    (fun u => { u.mg with ovf := s.mg.ovf } = s.mg) (fun u => { u.mg with ovf := s.mg.ovf } = s.mg) where
  mode := not_written hf
  resbit := not_written hf
  mgStage := not_written hf
  mgAdj := not_written hf
  mgFresh := not_written hf
  mgDone := not_written hf

theorem ovf_kept (hf : (writes i).ovf = false) :
    Kept (writes i) false false (fun u => u.mg.ovf = s.mg.ovf) (fun u => u.mg.ovf = s.mg.ovf) where
  ovf := not_written hf

/-- The loop of SS.RUN polls. -/
theorem writes_sa_of_loop (hw : (writes i).loop = true) : (writes i).sa = true := by
  cases i with
  | ssRun n => rfl
  | _ => cases hw

theorem sa_kept (hf : (writes i).sa = false) :
    Kept (writes i) false false (fun u => u.sa = s.sa) (fun u => u.sa = s.sa) where
  rawOk := not_written hf
  stamp := not_written hf
  loop := fun hw => not_written hf (writes_sa_of_loop hw)

theorem estTs_kept (hf : (writes i).est = false) :
    Kept (writes i) false false (fun u => u.estTs = s.estTs) (fun u => u.estTs = s.estTs) where
  estTs := not_written hf

theorem rmw_kept (hf : (writes i).rmw = false) :
    Kept (writes i) false false (fun u => u.rmw = s.rmw) (fun u => u.rmw = s.rmw) where
  rmw := not_written hf

theorem fxSat_kept (hf : (writes i).fx = false) :
    Kept (writes i) false false (fun u => u.cmd.fxSat = s.cmd.fxSat) (fun u => u.cmd.fxSat = s.cmd.fxSat) where
  orSat := not_written hf

theorem fxSat_sticky :
    Kept (writes i) false false (fun u => u.cmd.fxSat = true) (fun u => u.cmd.fxSat = true) where
  orSat := fun _ u b h => by rw [orSat_cmd, h, Bool.true_or]

/-- A command that is not SS.RUN leaves the scheduler and the record alone and ends with its completion; no error
word stands before that. -/
theorem loop_kept (hf : (writes i).loop = false) : Kept (writes i) false false
    (fun u => u.ss = s.ss ∧ u.rcd = s.rcd ∧ u.cmd.err = 0)
    (fun u => u.ss = s.ss ∧ u.rcd = s.rcd ∧ u.cmd.busy = false ∧ u.cmd.done = true ∧
      (u.cmd.fail = false → u.cmd.err = 0)) where
  loop := not_written hf
  done := fun _ ⟨hss, hrcd, herr⟩ => ⟨hss, hrcd, rfl, rfl, fun _ => herr⟩
  failed := fun _ _ ⟨hss, hrcd, _⟩ => ⟨hss, hrcd, rfl, rfl, fun h => nomatch h⟩
  top := not_written hf

/-! ## O56: the buffers -/

theorem sameTx_kept : Kept (writes i) false false (sameTx s) (sameTx s) where

theorem sameRx_kept (hf : (writes i).rx = false) : Kept (writes i) false false
    (fun u => sameRx s u ∧ u.bt.attempt = s.bt.attempt) (fun u => sameRx s u ∧ u.bt.attempt = s.bt.attempt) where
  attempt := not_written hf
  received := not_written hf
  unreceived := not_written hf

end

/-! ## O56: what is sent out

A point of the core sends nothing out, and the commands that do not drive the bus consist of their two points and
one computation. (`Kept` is of no use here: every wait of a command sends out.) -/

/-- Nothing was sent out and no address selected from `s` to `t`, and what is to come is quiet. -/
def Silent (s t : State) : Prop := hostQuiet t.env = true ∧ t.bt = s.bt ∧ t.port = s.port

theorem letOutside_silent (d : Nat) (es : List Event) :
    ∀ s, hostQuiet es = true → (letOutside d es s).Keeps (Silent s) fun _ => False := by
  induction es with
  | nil => exact fun s h => ⟨h, rfl, rfl⟩
  | cons e es ih =>
    intro s h
    have htail := hostQuiet_tail h
    cases e with
    | outside o =>
      rw [letOutside]
      split
      · cases o with
        | elapse k =>
          rw [outsideMove, elapse]
          split
          · exact ih ((s.withEnv es).withClock _) htail
          · trivial
        | host a => exact absurd h (by simp [hostQuiet, quietEvent])
        | rst => exact absurd h (by simp [hostQuiet, quietEvent])
        | release => exact absurd h (by simp [hostQuiet, quietEvent])
      · exact ⟨h, rfl, rfl⟩
    | turn => exact ⟨htail, rfl, rfl⟩
    | answer a => exact ⟨h, rfl, rfl⟩

theorem corePoint_silent {s : State} (h : hostQuiet s.env = true) :
    (corePoint s).Keeps (Silent s) fun _ => False :=
  letOutside_silent 0 s.env (nextPhase s) h

/-- The computation of a command that does not drive the bus. -/
def Computes (f : State → State) : Prop := ∀ u, (f u).env = u.env ∧ (f u).bt = u.bt ∧ (f u).port = u.port

theorem computes_result (v : State → Word) : Computes fun u => setResult u (v u) := fun _ => ⟨rfl, rfl, rfl⟩

theorem caApply_bt (a g m : Bool) (u : State) : (caApply a g m u).bt = u.bt := by
  cases a <;> cases g <;> cases m <;> simp [caApply, calibrateA, calibrateG, calibrateM, putFx]

theorem computes_caApply (a g m : Bool) (v : Word) : Computes fun u => setResult (caApply a g m u) v := fun u => by
  obtain ⟨-, -, -, -, -, -, -, -, henv, -⟩ := caApply_fields a g m u
  exact ⟨henv, caApply_bt a g m u, (caApply_port a g m u).1⟩

theorem computes_oeStep : Computes fun u => setResult (oeStep u).2 (BitVec.ofNat 32 (bit (oeStep u).1)) :=
  fun u => show (oeStep u).2.env = u.env ∧ (oeStep u).2.bt = u.bt ∧ (oeStep u).2.port = u.port by
    rw [oeStep]
    split <;> exact ⟨rfl, rfl, rfl⟩

/-- A command that only computes sends nothing out. -/
theorem command_silent {op : BitVec 6} {f : State → State} (hf : Computes f) {s t : State}
    (hb : s.cmd.busy = false) (hq : hostQuiet s.env = true)
    (h : command op true resultZero (fun u => .ret () (f u)) s = .next t) : t.bt = s.bt ∧ t.port = s.port := by
  rw [command, turnedAway, if_neg (by rw [hb]; exact Bool.false_ne_true), if_pos rfl] at h
  have h1 := corePoint_silent (s := startCommand op s) hq
  cases hc : corePoint (startCommand op s) with
  | raise e u => exact absurd hc corePoint_not_raise
  | stop o => rw [hc] at h h1; subst h; exact h1.elim
  | ret a u =>
    rw [hc] at h h1
    obtain ⟨hq1, hbt1, hp1⟩ := h1
    obtain ⟨henv, hbt, hport⟩ := hf u
    have h2 := corePoint_silent (s := f u) (henv ▸ hq1)
    simp only [Res.ret_andThen, completing] at h
    cases hc2 : corePoint (f u) with
    | raise e v => exact absurd hc2 corePoint_not_raise
    | stop o => rw [hc2] at h h2; subst h; exact h2.elim
    | ret a v =>
      rw [hc2] at h h2
      obtain ⟨-, hbt2, hp2⟩ := h2
      cases h
      exact ⟨hbt2.trans (hbt.trans hbt1), hp2.trans (hport.trans hp1)⟩

/-- A command that does not drive the bus only computes. -/
theorem exec_silent {i : Instr} (hw : (writes i).bus = false) {s t : State} (hb : s.cmd.busy = false)
    (hq : hostQuiet s.env = true) (h : exec i s = .next t) : t.bt = s.bt ∧ t.port = s.port := by
  cases i with
  | mgGetovf => exact command_silent (computes_result _) hb hq h
  | saRdya => exact command_silent (computes_result _) hb hq h
  | saRdyg => exact command_silent (computes_result _) hb hq h
  | saRdym => exact command_silent (computes_result _) hb hq h
  | caApply mask => exact command_silent (computes_caApply _ _ _ _) hb hq h
  | oeStep => exact command_silent computes_oeStep hb hq h
  | _ => cases hw

/-! ## The statements -/

/-- Settles O54: a command writes the registers it lists and the result (`sameXBut_kept`). -/
theorem frameRegisters : Obligations.FrameRegisters :=
  fun _ _ _ hb hq h => sameXBut_kept.quietExec hb hq (fun _ _ _ => rfl) (fun _ _ => rfl) h

/-- Settles O55, unit by unit (the lemmas `_kept` above). -/
theorem frameUnits : Obligations.FrameUnits := by
  intro i s t hb hq h
  have hmg : (writes i).mg = false → t.mg = { s.mg with ovf := t.mg.ovf } := fun hf => by
    have hm := (mg_kept (s := s) hf).quietExec hb hq (fun _ => rfl) rfl h
    rw [← hm]
  have hovf : (writes i).ovf = false → t.mg.ovf = s.mg.ovf := fun hf =>
    (ovf_kept hf).quietExec hb hq (fun _ => rfl) rfl h
  refine ⟨fun hf => (ag_kept hf).quietExec hb hq (fun _ => rfl) rfl h, fun hf hf' => ?_, hmg, hovf,
    fun hf => (sa_kept hf).quietExec hb hq (fun _ => rfl) rfl h,
    fun hf => (estTs_kept hf).quietExec hb hq (fun _ => rfl) rfl h,
    fun hf => (loop_kept hf).quietExec hb hq (fun _ => ⟨rfl, rfl, rfl⟩)
      ⟨rfl, rfl, rfl, rfl, fun h => nomatch h⟩ h,
    fun hf => (rmw_kept hf).quietExec hb hq (fun _ => rfl) rfl h,
    fun hf => (fxSat_kept hf).quietExec hb hq (fun _ => rfl) rfl h,
    fun hs => fxSat_sticky.quietExec hb hq (fun _ => hs) hs h,
    fixed_kept.quietExec hb hq (fun _ => ⟨rfl, rfl, rfl, rfl⟩) ⟨rfl, rfl, rfl, rfl⟩ h⟩
  rw [hmg hf, hovf hf']

/-- Settles O56: the transmit buffer is no command's to write (`sameTx_kept`), the receive buffer only that of a
command that reads the bus (`sameRx_kept`), and a command that does not drive the bus is silent
(`exec_silent`). -/
theorem frameBuffers : Obligations.FrameBuffers :=
  fun _ _ _ hb hq h =>
    ⟨sameTx_kept.quietExec hb hq (fun _ => ⟨fun _ => rfl, rfl⟩) ⟨fun _ => rfl, rfl⟩ h,
      fun hf => (sameRx_kept hf).quietExec hb hq (fun _ => ⟨⟨fun _ => rfl, rfl, rfl⟩, rfl⟩)
        ⟨⟨fun _ => rfl, rfl, rfl⟩, rfl⟩ h,
      fun hf => exec_silent hf hb hq h⟩

end Sys2Proof.Machine
end

section
/-! PROOF of O53. `rst` (spec/70_reset_and_hazards.md R360, R362): wherever its assertion finds the core, what ran
is abandoned, and the core stands at its reset values. -/

namespace Sys2Proof.Machine

open Sys2Proof

/-- From `s` on `sent` was sent out, nothing else happened that `rst` keeps, and then `rst` came; `es` is left. -/
def Abandoned (s : State) (es : List Event) (sent : List PortEvent)
    (o : Host.Outcome State Fault Refusal) : Prop :=
  ∃ u : State, o = .next (inReset u) ∧ u.clock = s.clock ∧ u.cfg = s.cfg ∧ u.env = es ∧ u.port = sent ++ s.port

/-! ## At a step of the core -/

/-- A step of the core before which `rst` comes. -/
theorem corePoint_abandoned {s : State} {es : List Event} (he : s.env = .outside .rst :: es)
    (ht : turnAhead es = true) : ∃ o, corePoint s = .stop o ∧ Abandoned s es [] o :=
  ⟨_, corePoint_rst he ht, _, rfl, rfl, rfl, rfl, rfl⟩

/-- Between two steps of the machine: idle, in a primitive that is not answered, or at the loop top of SS.RUN. -/
theorem step_abandoned {s : State} {es : List Event} (hn : s.held = false) (he : s.env = .outside .rst :: es)
    (h : s.cmd.busy = false ∨ s.ss.running = false ∨ turnAhead es = true) : Abandoned s es [] (step s) := by
  rw [step, nextStep, if_neg (by rw [hn]; exact Bool.false_ne_true)]
  split
  · split
    · rename_i hb hr
      have ht : turnAhead es = true := by simpa [hb, hr] using h
      obtain ⟨o, hc, ho⟩ := corePoint_abandoned he ht
      rw [continueRun, loopTurn, hc]
      exact ho
    · rw [hungStep, he]
      exact ⟨s.withEnv es, rfl, rfl, rfl, rfl, rfl⟩
  · rw [idleStep, he]
    exact ⟨s.withEnv es, rfl, rfl, rfl, rfl, rfl⟩

/-- Before the first step of a command. -/
theorem command_abandoned {op : BitVec 6} {legal : Bool} {result : State → State} {body : State → Res Unit}
    {s : State} {es : List Event} (hb : s.cmd.busy = false) (hl : legal = true)
    (he : s.env = .outside .rst :: es) (ht : turnAhead es = true) :
    Abandoned s es [] (command op legal result body s) := by
  obtain ⟨o, hc, ho⟩ := corePoint_abandoned (s := startCommand op s) he ht
  rw [command, turnedAway, if_neg (by rw [hb]; exact Bool.false_ne_true), if_pos hl, hc]
  exact ho

theorem exec_abandoned {i : Instr} {s : State} {es : List Event} (hb : s.cmd.busy = false)
    (hw : i.wellFormed = true) (hp : ∀ n, i = .ssRun n → s.ss.period ≠ 0) (he : s.env = .outside .rst :: es)
    (ht : turnAhead es = true) : Abandoned s es [] (exec i s) := by
  cases i with
  | ssRun n =>
    obtain ⟨o, hc, ho⟩ := corePoint_abandoned (s := startCommand 0x30 s) he ht
    rw [exec, execSsRun, turnedAway, if_neg (by rw [hb]; exact Bool.false_ne_true),
      if_pos (decide_eq_true (hp n rfl)), hc]
    exact ho
  | _ => exact command_abandoned hb hw he ht

/-! ## Inside a command -/

/-- A command whose routine ends under it ends so. -/
theorem command_stops {op : BitVec 6} {result : State → State} {body : State → Res Unit} {s : State}
    {o : Host.Outcome State Fault Refusal} (hb : s.cmd.busy = false) (hq : turnAhead s.env = false)
    (hbody : body (nextPhase (startCommand op s)) = .stop o) : command op true result body s = o := by
  rw [command, turnedAway, if_neg (by rw [hb]; exact Bool.false_ne_true), if_pos rfl,
    corePoint_quiet (s := startCommand op s) hq, Res.ret_andThen, hbody]
  rfl

/-- In a bus primitive. -/
theorem busPrimitive_abandoned {β : Type} {sent : PortEvent} {accept : Answer → Option β} {s : State}
    {es : List Event} (he : s.env = .outside .rst :: es) (ht : turnAhead es = false) :
    ∃ o, busPrimitive sent accept s = .stop o ∧ Abandoned s es [sent] o :=
  ⟨_, busPrimitive_rst he ht, _, rfl, rfl, rfl, rfl, rfl⟩

/-- In the first primitive of a write: the selection, or the write itself. -/
theorem memWrite_abandoned {a : BitVec 7} {reg : Byte} {bs : List Byte} {s : State} {es : List Event}
    (ha : s.ctrl.btAttach = true) (hn : bs.length ≤ 511) (he : s.env = .outside .rst :: es)
    (ht : turnAhead es = false) :
    ∃ o, memWrite a reg bs s = .stop o ∧
      Abandoned s es [if s.bt.sel = some a then .write (reg :: bs) else .select a] o := by
  rw [memWrite, if_neg (by rw [ha]; decide), if_neg (show ¬Config.wrMax < bs.length from Nat.not_lt.2 hn), btSelect]
  by_cases hs : s.bt.sel = some a
  · obtain ⟨o, hc, ho⟩ := busPrimitive_abandoned (sent := .write (reg :: bs))
      (accept := writeAnswer (reg :: bs).length) he ht
    rw [if_pos hs, if_pos hs, Res.ret_andThen, busWrite, hc]
    exact ⟨o, rfl, ho⟩
  · obtain ⟨o, hc, ho⟩ := busPrimitive_abandoned (sent := .select a) (accept := selectAnswer) he ht
    rw [if_neg hs, if_neg hs, busSelect, hc]
    exact ⟨o, rfl, ho⟩

/-- In a wait, at whose start the core had its turn. -/
theorem waitFor_abandoned {s : State} {d : Nat} {es : List Event} (hd : 0 < d)
    (he : s.env = .turn :: .outside .rst :: es) : ∃ o, waitFor d s = .stop o ∧ Abandoned s es [.wait d] o := by
  rw [waitFor, corePoint_turn he, Res.ret_andThen, State.withEnv_clock, nextPhase_clock,
    waitTo_rst (s := sendOut ((nextPhase s).withEnv (.outside .rst :: es)) (.wait d)) (es := es)
      (t := s.clock.toNat + d) rfl (Nat.lt_add_of_pos_right hd)]
  exact ⟨_, rfl, _, rfl, by simp⟩

/-- In the wait after a first read attempt whose register write took no byte. -/
theorem memRead_abandoned {a : BitVec 7} {reg : Byte} {n : Nat} {s : State} {es : List Event}
    (ha : s.ctrl.btAttach = true) (hs : s.bt.sel = some a)
    (he : s.env = .answer (.wrote 0) :: .turn :: .outside .rst :: es) :
    ∃ o, memRead a reg n s = .stop o ∧ Abandoned s es [.wait Config.rdRetryUs, .write [reg]] o := by
  let t := (s.withBt { s.bt with attempt := 0 }).withBt { s.bt with attempt := Config.rdAttempts - 4 }
  let u := (nextPhase (sendOut (nextPhase t) (.write [reg]))).withEnv (.turn :: .outside .rst :: es)
  have hwrite : busWrite [reg] t = .ret (some 0) u := busPrimitive_answer (s := t) he rfl
  obtain ⟨o, hwait, ho⟩ := waitFor_abandoned (s := u) (d := Config.rdRetryUs) (by decide) rfl
  have hattempts : readAttempts reg n Config.rdAttempts (s.withBt { s.bt with attempt := 0 }) = .stop o := by
    rw [Config.rdAttempts, readAttempts]
    show (busWrite [reg] t).andThen _ = _
    rw [hwrite, Res.ret_andThen]
    show afterShort 4 u _ = _
    rw [afterShort, if_neg (by decide), hwait]
    rfl
  refine ⟨o, ?_, ho⟩
  rw [memRead, if_neg (by rw [ha]; decide), btSelect, if_pos hs, Res.ret_andThen, hattempts]

/-! ## In the wait of SS.RUN for its deadline -/

/-- In a tick in which no group is ready no group is read. -/
theorem ticksFit_unread {s : State} (hg : ∀ g, groupReady s g = false) :
    ticksFit (outcomes .unread .unread .unread) (tickStarted s) = true := by
  have hready : ∀ g u, u.ctrl = s.ctrl → u.ag = s.ag → u.mg = s.mg → tickFits g u .unread = true := by
    intro g u hc ha hm
    rw [tickFits, groupReady_congr hc ha (by rw [hm]), hg]; rfl
  simp only [outcomes, ticksFit, Bool.and_true, Bool.and_eq_true]
  exact ⟨hready .acc _ rfl rfl rfl, hready .gyr _ rfl rfl rfl, hready .mag _ rfl rfl rfl⟩

/-- The wait for a deadline that is still to come. -/
theorem waitEpoch_abandoned {s : State} {es : List Event} (hc : s.clock.toNat < s.ss.epoch.toNat)
    (he : s.env = .outside .rst :: es) (ht : turnAhead es = false) :
    ∃ o, waitEpoch s = .stop o ∧ Abandoned s es [.waitUntil s.ss.epoch] o := by
  have hquiet : ∀ u : State, u.env = s.env → turnAhead u.env = false := fun u hu => by rw [hu, he]; exact ht
  rw [waitEpoch, readTime_quiet (hquiet s rfl), Res.ret_andThen, nextPhase_ss, if_pos hc, waitUntil,
    corePoint_quiet (hquiet (nextPhase s) rfl), Res.ret_andThen,
    waitTo_rst (s := sendOut (nextPhase (nextPhase s)) (.waitUntil s.ss.epoch)) (es := es) he hc]
  exact ⟨_, rfl, _, rfl, by simp⟩

/-- A counted tick without polls takes no time, sends nothing out and leaves the deadline alone. -/
theorem tickCounted_unread (s : State) :
    (tickCounted (outcomes .unread .unread .unread) s).clock = s.clock ∧
    (tickCounted (outcomes .unread .unread .unread) s).cfg = s.cfg ∧
    (tickCounted (outcomes .unread .unread .unread) s).port = s.port ∧
    (tickCounted (outcomes .unread .unread .unread) s).ss.epoch = s.ss.epoch ∧
    (tickCounted (outcomes .unread .unread .unread) s).ss.period = s.ss.period := by
  let rs := outcomes .unread .unread .unread
  let u := pollsDone rs (tickStarted s)
  have hpolls : u.clock = s.clock ∧ u.cfg = s.cfg ∧ u.port = s.port := by
    simp [u, rs, outcomes, pollsDone, pollDone, setRawOk, tickStarted]
  obtain ⟨-, hclock, -⟩ := tickEnded_fields (firstErrWord (pollsErr rs (tickStarted s))) u
  obtain ⟨hport, hcfg⟩ := tickEnded_port (firstErrWord (pollsErr rs (tickStarted s))) u
  obtain ⟨lastTs, lasttick, hss⟩ := tickCounted_ss rs s
  rw [hss]
  simp only [tickCounted, State.withSs_clock, State.withSs_cfg, State.withSs_port, and_true]
  rw [hclock, hcfg, hport]
  exact hpolls

/-- The count of a tick that is not the last does not end the loop. -/
theorem countDone_tickCounted (rs : List (Group × Polled)) {s : State} (h : s.ss.count = 0 ∨ s.ss.left ≠ 1) :
    countDone (tickCounted rs s) = false := by
  obtain ⟨lastTs, lasttick, hss⟩ := tickCounted_ss rs s
  rw [countDone, hss]
  show (decide (s.ss.count ≠ 0) && decide ((if s.ss.count = 0 then s.ss.left else s.ss.left - 1) = 0)) = false
  by_cases h0 : s.ss.count = 0
  · rw [decide_eq_false (not_not.2 h0), Bool.false_and]
  · have hleft : s.ss.left - 1 ≠ 0 := by
      have := h.resolve_left h0
      bv_omega
    rw [if_neg h0, decide_eq_false hleft, Bool.and_false]

/-- The deadline is moved on by the period and waited for. -/
theorem deadline_abandoned {s : State} {es : List Event} (hw : s.ss.epoch.toNat + s.ss.period.toNat < 2 ^ 64)
    (hk : s.clock.toNat < s.ss.epoch.toNat + s.ss.period.toNat) (ht : turnAhead es = false)
    (he : s.env = .outside .rst :: es) :
    ∃ o, ((nextEpoch s).andThen fun _ w => (waitEpoch w).andThen fun _ y => Res.ret false y) = .stop o ∧
      Abandoned s es [.waitUntil (BitVec.ofNat 64 (s.ss.epoch.toNat + s.ss.period.toNat))] o := by
  let w := s.withSs { s.ss with
    epoch := BitVec.ofNat 64 (s.ss.epoch.toNat + s.ss.period.toNat), phase := .wait }
  have hepoch : w.ss.epoch.toNat = s.ss.epoch.toNat + s.ss.period.toNat := by
    rw [State.withSs_ss, BitVec.toNat_ofNat, Nat.mod_eq_of_lt hw]
  obtain ⟨o, hwait, ho⟩ := waitEpoch_abandoned (s := w) (by rw [hepoch]; exact hk) he ht
  refine ⟨o, ?_, ho⟩
  rw [nextEpoch, if_pos hw, Res.ret_andThen, hwait]
  rfl

/-- A turn of the loop that is not the last, with no group ready: a tick without polls, and the wait. -/
theorem continueRun_abandoned {s : State} {es : List Event} (hc : s.ctrl.cancel = false)
    (hg : ∀ g, groupReady s g = false) (hl : s.ss.count = 0 ∨ s.ss.left ≠ 1)
    (hw : s.ss.epoch.toNat + s.ss.period.toNat < 2 ^ 64)
    (hk : s.clock.toNat < s.ss.epoch.toNat + s.ss.period.toNat) (ht : turnAhead es = false)
    (he : s.env = .outside .rst :: es) :
    Abandoned s es [.waitUntil (BitVec.ofNat 64 (s.ss.epoch.toNat + s.ss.period.toNat))] (continueRun s) := by
  obtain ⟨q, hturn⟩ := loopTurn_ticks (a := .unread) (g := .unread) (m := .unread) (es := .outside .rst :: es) hc
    (ticksFit_unread hg) (by rw [show pollsDelay _ = 0 from rfl]; exact s.clock.isLt) ht he
  have hmore := countDone_tickCounted (outcomes .unread .unread .unread) hl
  obtain ⟨hclock, hcfg, hport, hepoch, hperiod⟩ := tickCounted_unread s
  generalize tickCounted (outcomes .unread .unread .unread) s = c at hturn hmore hclock hcfg hport hepoch hperiod
  obtain ⟨o, hwait, u, ho, huclock, hucfg, huenv, huport⟩ :=
    deadline_abandoned (s := relabel (.outside .rst :: es) q .emit c) (es := es)
      (show c.ss.epoch.toNat + c.ss.period.toNat < 2 ^ 64 by rw [hepoch, hperiod]; exact hw)
      (show c.clock.toNat < c.ss.epoch.toNat + c.ss.period.toNat by rw [hclock, hepoch, hperiod]; exact hk) ht rfl
  have huport : u.port = [.waitUntil (BitVec.ofNat 64 (c.ss.epoch.toNat + c.ss.period.toNat))] ++ c.port := huport
  simp only [countDone_relabel, hmore, Bool.false_eq_true, if_false] at hturn
  rw [continueRun, hturn, hwait]
  rw [hepoch, hperiod, hport] at huport
  exact ⟨u, ho, huclock.trans hclock, hucfg.trans hcfg, huenv, huport⟩

/-! ## While `rst` is asserted -/

/-- While `rst` is asserted the next thing outside is all that happens. -/
theorem step_held {s : State} {o : Outside} {es : List Event} (hn : s.held = true)
    (he : s.env = .outside o :: es) : step s = heldMove o (s.withEnv es) := by
  rw [step, nextStep, if_pos hn, heldStep, he]

/-- A turn or a stray answer is used up. -/
theorem step_held_stray {s : State} {e : Event} {es : List Event} (hn : s.held = true) (he : s.env = e :: es)
    (h : e = .turn ∨ e = .answer .timedOut) : step s = .next (s.withEnv es) := by
  rw [step, nextStep, if_pos hn, heldStep, he]
  obtain rfl | rfl := h <;> rfl

theorem step_held_elapse {s : State} {d : Nat} {es : List Event} (hn : s.held = true)
    (he : s.env = .outside (.elapse d) :: es) (hd : s.clock.toNat + d < 2 ^ 64) :
    step s = .next ((s.withEnv es).withClock (BitVec.ofNat 64 (s.clock.toNat + d))) := by
  rw [step_held hn he, heldMove, elapse, State.withEnv_clock, if_pos hd]
  rfl

/-- A host write is lost, of CMD too. -/
theorem step_held_write {s : State} {addr : BitVec 9} {v : Word} {es : List Event} (hn : s.held = true)
    (ha : addr.toNat % 4 = 0) (he : s.env = .outside (.host (.write addr v)) :: es) :
    step s = .next (s.withEnv es) := by
  have hacc : heldAccess (s.withEnv es) (.write addr v) = .ok (s.withEnv es) := if_pos (beq_iff_eq.2 ha)
  rw [step_held hn he, heldMove, hacc]

/-- A host read gives a free word. -/
theorem step_held_read {s : State} {addr : BitVec 9} {es : List Event} (hn : s.held = true)
    (ha : addr.toNat % 4 = 0) (he : s.env = .outside (.host (.read addr)) :: es) :
    step s = .next (readOpen (s.withEnv es) addr) := by
  have hacc : heldAccess (s.withEnv es) (.read addr) = .ok (readOpen (s.withEnv es) addr) :=
    if_pos (beq_iff_eq.2 ha)
  rw [step_held hn he, heldMove, hacc]

theorem irq_held {s : State} (hn : s.held = true) : irq s = false := by
  rw [irq, hn]; rfl

/-! ## The statement -/

section
variable (u : State) (held : Bool)

theorem getX_afterReset (k : Fin 32) : ((afterReset u).withHeld held).getX k = 0 := by
  show (Vector.replicate 32 (0 : Word)).get k = 0
  rw [Vector.get_eq_getElem, Vector.getElem_replicate]

theorem ctrlWord_afterReset :
    ctrlWord ((afterReset u).withHeld held).ctrl = if u.cfg.policyReset then 256 else 0 := by
  show ctrlWord ⟨false, false, false, false, false, false, false, false, u.cfg.policyReset, false, false⟩ = _
  cases u.cfg.policyReset <;> rfl

theorem mgstat_afterReset : regValue ((afterReset u).withHeld held) .mgstat = some 0 := by
  show some (mgstatWord ⟨.powerDown, 0, false, Vec3.all 65536, 0, 39322, false⟩) = some 0
  decide

theorem irq_afterReset : irq ((afterReset u).withHeld held) = false := by
  cases held <;> rfl

end

/-- Settles O53: wherever `rst` finds the core it leads to `inReset` (the lemmas `_abandoned`), whose values are
those of R58; and while it is asserted only the outside moves (the lemmas `step_held`). -/
theorem resetState : Obligations.ResetState := by
  unfold Obligations.ResetState
  intro atReset asserted
  have hreset : ∀ (u : State) (held : Bool), atReset ((afterReset u).withHeld held) := fun u held =>
    ⟨getX_afterReset u held, rfl, ⟨fun _ => rfl, rfl⟩, ⟨fun _ => rfl, rfl, rfl⟩, fun _ => ⟨rfl, rfl⟩, rfl, rfl, rfl,
      rfl, rfl, rfl, mgstat_afterReset u held, rfl, rfl, rfl, rfl, rfl, rfl, rfl, rfl, rfl, rfl, rfl, rfl, rfl, rfl,
      rfl, rfl, rfl, rfl, rfl, rfl, rfl, ctrlWord_afterReset u held, irq_afterReset u held⟩
  have hasserted : ∀ {s es sent o}, Abandoned s es sent o → ∃ t, o = .next t ∧ asserted s es sent t :=
    fun ⟨u, ho, hclock, hcfg, henv, hport⟩ => ⟨inReset u, ho, hreset u true, rfl, hclock, hcfg, henv, hport⟩
  refine ⟨fun s es hn he h => hasserted (step_abandoned hn he h),
    fun i s es hb hw hp he ht => hasserted (exec_abandoned hb hw hp he ht), fun s a reg val es hb ha ht he => ?_,
    fun s a reg es hb ha ht hs he => ?_, fun s es hn hb hr hc hg hl hw hk ht he => ?_,
    fun s es hn => ⟨irq_held hn, fun he => ?_, fun d he hd => step_held_elapse hn he hd,
      fun addr v ha he => step_held_write hn ha he, fun addr ha he => ⟨_, step_held_read hn ha he⟩,
      fun e hmem he => ?_, fun he => ⟨_, step_held hn he, hreset s false, rfl, rfl, rfl, rfl, rfl⟩⟩⟩
  · obtain ⟨o, hstop, ho⟩ := memWrite_abandoned (s := nextPhase (startCommand 0x03 s)) (a := a) (reg := reg)
      (bs := [val]) ha (Nat.succ_le_of_lt (by decide : 0 < 511)) he ht
    refine hasserted ?_
    rw [exec, execBtWrbyte, command_stops (o := o) hb (by rw [he]; exact ht) (by rw [hstop]; rfl)]
    exact ho
  · obtain ⟨o, hstop, ho⟩ := memRead_abandoned (s := nextPhase (startCommand 0x04 s)) (a := a) (reg := reg)
      (n := 1) ha hs he
    refine hasserted ?_
    rw [exec, execBtRdbyte, command_stops (o := o) hb (by rw [he]; rfl) (by rw [hstop]; rfl)]
    exact ho
  · refine hasserted ?_
    rw [step, nextStep, if_neg (by rw [hn]; exact Bool.false_ne_true), if_pos hb, if_pos hr]
    exact continueRun_abandoned hc hg hl hw hk ht he
  · rw [step, nextStep, if_pos hn, heldStep, he]
  · obtain rfl | h : e = .outside .rst ∨ (e = .turn ∨ e = .answer .timedOut) := by simpa using hmem
    · exact step_held hn he
    · exact step_held_stray hn he h

end Sys2Proof.Machine
end

section
/-! PROOF of O57 and O58. The host's accesses address by address (spec/10_state.md R40 to R57): which register an
address is, what a read of the register sends out, and what a write of it does. -/

namespace Sys2Proof.Machine

open Sys2Proof

/-! ## Addresses -/

/-- The addresses of the map that are no register (R57). -/
def ReservedAddr (addr : BitVec 9) : Prop :=
  addr = 0x008 ∨ 0x074 ≤ addr.toNat ∧ addr.toNat ≤ 0x07C ∨ 0x148 ≤ addr.toNat ∧ addr.toNat ≤ 0x17C ∨
    0x1AC ≤ addr.toNat

/-- The registers that R56 lets the host read while a command runs, but for REC_CTL, which has no value. -/
def busyAddrs : List (BitVec 9) := [0x004, 0x00C, 0x018, 0x01C, 0x028, 0x02C, 0x180, 0x184, 0x188, 0x18C, 0x190,
  0x194, 0x198, 0x19C, 0x1A0, 0x1A4]

/-- The addresses that a host may write while no command runs (R40). -/
def WritableAddr (addr : BitVec 9) : Prop :=
  addr ∈ [(0x000 : BitVec 9), 0x004, 0x010, 0x014, 0x060, 0x064, 0x06C, 0x1A8] ∨
    0x080 ≤ addr.toNat ∧ addr.toNat ≤ 0x0FC ∨ 0x100 ≤ addr.toNat ∧ addr.toNat ≤ 0x144

/-- The registers that a write of an idle core can reach. -/
def writable : HostReg → Bool
  | .cmd | .status | .ctrl | .period | .txdata | .txctl | .rxctl | .x _ | .caloff _ _ | .calmat _ _ | .recCtl =>
    true
  | _ => false

set_option maxRecDepth 20000 in
theorem hostReg_reserved {addr : BitVec 9} (ha : addr.toNat % 4 = 0) (h : ReservedAddr addr) :
    hostReg addr = .reserved := by
  revert addr
  unfold ReservedAddr
  decide

set_option maxRecDepth 20000 in
theorem hostReg_unreadable {addr : BitVec 9} (ha : addr.toNat % 4 = 0) (h : ¬ReservedAddr addr)
    (h' : addr ∉ busyAddrs) : readableBusy (hostReg addr) = false ∨ hostReg addr = .recCtl := by
  revert addr
  unfold ReservedAddr
  decide

set_option maxRecDepth 20000 in
theorem hostReg_unwritable {addr : BitVec 9} (ha : addr.toNat % 4 = 0) (h : ¬WritableAddr addr) :
    writable (hostReg addr) = false := by
  revert addr
  unfold WritableAddr
  decide

theorem hostReg_x : ∀ i : Fin 32, wordAligned (BitVec.ofNat 9 (0x080 + 4 * i.val)) = true ∧
    hostReg (BitVec.ofNat 9 (0x080 + 4 * i.val)) = .x i := by decide

theorem hostReg_caloff : ∀ g i : Fin 3, wordAligned (BitVec.ofNat 9 (0x100 + 4 * (3 * g.val + i.val))) = true ∧
    hostReg (BitVec.ofNat 9 (0x100 + 4 * (3 * g.val + i.val))) = .caloff g i := by decide

theorem hostReg_calmat : ∀ r c : Fin 3, wordAligned (BitVec.ofNat 9 (0x124 + 4 * (3 * r.val + c.val))) = true ∧
    hostReg (BitVec.ofNat 9 (0x124 + 4 * (3 * r.val + c.val))) = .calmat r c := by decide

/-! ## Reads -/

section
variable {s : State} {addr : BitVec 9} {r : HostReg} {w : Word}

/-- A read whose value is stated, of a register other than RXDATA, only sends the value out. -/
theorem hostAccess_read_stated (ha : wordAligned addr = true) (hr : hostReg addr = r) (hne : r ≠ .rxdata)
    (hv : readValue s r = some w) : hostAccess s (.read addr) = .ok (sendOut s (.hostData addr w)) := by
  have heffect : readEffect s r = s := if_neg fun h => hne h.1
  rw [hostAccess, if_pos ha, hr, hostRead, hv, heffect]

/-- A read whose value is open sends a free word out. -/
theorem hostAccess_read_open (ha : wordAligned addr = true) (hr : hostReg addr = r) (hv : readValue s r = none) :
    hostAccess s (.read addr) =
      .ok ((sendOut s (.hostData addr (Config.hostWordFree s.free))).withFree (s.free + 1)) := by
  rw [hostAccess, if_pos ha, hr, hostRead, hv, readOpen]

theorem readValue_readable (h : readableBusy r = true) : readValue s r = regValue s r := by
  rw [readValue, h, Bool.not_true, Bool.and_false, if_neg Bool.false_ne_true]

theorem readValue_idle (hb : s.cmd.busy = false) : readValue s r = regValue s r := by
  rw [readValue, hb, Bool.false_and, if_neg Bool.false_ne_true]

theorem readValue_unreadable (hb : s.cmd.busy = true) (h : readableBusy r = false ∨ r = .recCtl) :
    readValue s r = none := by
  obtain h | rfl := h
  · rw [readValue, hb, h]; rfl
  · exact readValue_readable rfl

/-- A read that R56 allows while a command runs. -/
theorem hostAccess_read_busy (ha : wordAligned addr = true) (hr : hostReg addr = r) (hread : readableBusy r = true)
    (hne : r ≠ .rxdata) (hv : regValue s r = some w) :
    hostAccess s (.read addr) = .ok (sendOut s (.hostData addr w)) :=
  hostAccess_read_stated ha hr hne ((readValue_readable hread).trans hv)

/-- A read while no command runs. -/
theorem hostAccess_read_idle (hb : s.cmd.busy = false) (ha : wordAligned addr = true) (hr : hostReg addr = r)
    (hne : r ≠ .rxdata) (hv : regValue s r = some w) :
    hostAccess s (.read addr) = .ok (sendOut s (.hostData addr w)) :=
  hostAccess_read_stated ha hr hne ((readValue_idle hb).trans hv)

theorem hostAccess_read_reserved (ha : addr.toNat % 4 = 0) (h : ReservedAddr addr) :
    hostAccess s (.read addr) = .ok (sendOut s (.hostData addr 0)) :=
  hostAccess_read_busy (beq_iff_eq.2 ha) (hostReg_reserved ha h) rfl nofun rfl

/-- A read of RXDATA while no command runs takes the byte at the pointer and moves the pointer on (R51). -/
theorem hostAccess_read_rxdata (hb : s.cmd.busy = false) (hp : s.buf.rxRptr < s.buf.rxLen) :
    hostAccess s (.read 0x068) = .ok
      ((sendOut s (.hostData 0x068 ((Memory.read s.buf.rx s.buf.rxRptr).zeroExtend 32))).withBuf
        { s.buf with rxRptr := s.buf.rxRptr + 1 }) := by
  have halign : wordAligned 0x068 = true := rfl
  have hreg : hostReg 0x068 = .rxdata := rfl
  have heffect : readEffect s .rxdata = s.withBuf { s.buf with rxRptr := s.buf.rxRptr + 1 } := if_pos ⟨rfl, hb, hp⟩
  rw [hostAccess, if_pos halign, hreg, hostRead, readValue_idle hb, regValue, if_pos hp, heffect]
  rfl

theorem hostAccess_read_rxdata_empty (hb : s.cmd.busy = false) (hp : s.buf.rxLen ≤ s.buf.rxRptr) :
    hostAccess s (.read 0x068) = .ok (sendOut s (.hostData 0x068 0)) := by
  have halign : wordAligned 0x068 = true := rfl
  have hreg : hostReg 0x068 = .rxdata := rfl
  have heffect : readEffect s .rxdata = s := if_neg fun h => Nat.not_lt.2 hp h.2.2
  rw [hostAccess, if_pos halign, hreg, hostRead, readValue_idle hb, regValue, if_neg (Nat.not_lt.2 hp), heffect]

end

/-! ## Words made of bits -/

/-- The number whose bits from bit 0 on are those of the list. -/
def bitsNum : List Bool → Nat
  | [] => 0
  | b :: bs => bit b + 2 * bitsNum bs

theorem testBit_bitsNum (l : List Bool) : ∀ k, (bitsNum l).testBit k = l.getD k false := by
  induction l with
  | nil => exact fun k => Nat.zero_testBit k
  | cons b l ih =>
    have hb : bitsNum (b :: l) = Nat.bit b (bitsNum l) := by
      cases b
      · exact Nat.zero_add _
      · exact Nat.add_comm 1 _
    intro k
    rw [hb]
    cases k with
    | zero => exact Nat.testBit_bit_zero b _
    | succ k => rw [Nat.testBit_bit_succ, ih]; rfl

theorem bitsNum_lt (l : List Bool) : bitsNum l < 2 ^ l.length := by
  induction l with
  | nil => exact Nat.one_pos
  | cons b l ih =>
    have hb : bit b ≤ 1 := by cases b <;> decide
    rw [bitsNum, List.length_cons, Nat.pow_succ]
    omega

/-- A word that is the number of at most 32 bits: its bits, and its size. -/
theorem word_of_bits {w : Word} {l : List Bool} (hl : l.length ≤ 32) (hw : w = BitVec.ofNat 32 (bitsNum l)) :
    (∀ k, w.getLsbD k = l.getD k false) ∧ w.toNat < 2 ^ l.length := by
  subst hw
  have hlt : bitsNum l < 2 ^ 32 := Nat.lt_of_lt_of_le (bitsNum_lt l) (Nat.pow_le_pow_right (by decide) hl)
  constructor
  · intro k
    rw [BitVec.getLsbD_ofNat, testBit_bitsNum]
    by_cases hk : k < 32
    · rw [decide_eq_true hk, Bool.true_and]
    · rw [decide_eq_false hk, Bool.false_and, List.getD_eq_default _ _ (by omega)]
  · rw [BitVec.toNat_ofNat, Nat.mod_eq_of_lt hlt]
    exact bitsNum_lt l

/-- The bits of STATUS (R42). -/
def statusBits (s : State) : List Bool := [s.cmd.busy, s.cmd.done, s.cmd.fail, s.ss.running, s.cmd.cmdOvr,
  s.rcd.valid, s.rcd.ovr, s.cmd.fxSat, s.mg.ovf, s.sa.okA, s.sa.okG, s.sa.okM, irq s]

theorem statusWord_eq (s : State) : statusWord s = BitVec.ofNat 32 (bitsNum (statusBits s)) := by
  refine congrArg (BitVec.ofNat 32) ?_
  simp only [statusBits, bitsNum]
  omega

/-- The bits of CTRL (R44). -/
def ctrlBits (c : Ctrl) : List Bool := [c.btAttach, c.agTAttach, c.mgTAttach, c.saAcc, c.saGyr, c.saMag, c.cancel,
  c.outRaw, c.policyStale, c.ieRec, c.ieDone]

theorem ctrlWord_eq (c : Ctrl) : ctrlWord c = BitVec.ofNat 32 (bitsNum (ctrlBits c)) := by
  refine congrArg (BitVec.ofNat 32) ?_
  simp only [ctrlBits, bitsNum]
  omega

/-! The words of AGSTAT, MGSTAT, BUSADDR and RXCTL (R48, R49, R51, R52), field by field. -/

theorem agstatWord_eq (a : AgDriver) : agstatWord a = BitVec.ofNat 32
    ((agStateNum a.state).toNat + 2 ^ 4 * a.arange.toNat + 2 ^ 6 * a.grange.toNat) := by
  rw [agstatWord, Nat.mul_comm, Nat.mul_comm (2 ^ 6)]

theorem mgstatWord_eq (m : MgDriver) : mgstatWord m = BitVec.ofNat 32 ((magModeNum m.mode).toNat +
    2 ^ 4 * m.resbit.toNat + 2 ^ 5 * bit m.ovf + 2 ^ 6 * bit m.initDone + 2 ^ 8 * m.stage.toNat) := by
  rw [mgstatWord, Nat.mul_comm, Nat.mul_comm (2 ^ 5), Nat.mul_comm (2 ^ 6), Nat.mul_comm (2 ^ 8)]

theorem busaddrWord_eq (p : Params) (b : Transport) : busaddrWord p b = BitVec.ofNat 32
    (p.agAddr.toNat + 2 ^ 8 * p.mgAddr.toNat + (match b.sel with
      | none => 0
      | some a => 2 ^ 16 * a.toNat + 2 ^ 23)) := by
  rw [busaddrWord, Nat.mul_comm (2 ^ 8)]
  cases b.sel with
  | none => rfl
  | some a =>
    show BitVec.ofNat 32 (_ + (a.toNat * 2 ^ 16 + 2 ^ 23)) = BitVec.ofNat 32 (_ + (2 ^ 16 * a.toNat + 2 ^ 23))
    rw [Nat.mul_comm a.toNat]

theorem rxctlWord_eq {b : Buffers} (h1 : b.rxLen ≤ 511) (h2 : b.rxRptr ≤ 511) :
    rxctlWord b = BitVec.ofNat 32 (b.rxLen + 2 ^ 16 * b.rxRptr) := by
  rw [rxctlWord, Nat.mod_eq_of_lt (by omega), Nat.mod_eq_of_lt (by omega), Nat.mul_comm]

/-- A word written to CTRL and read back: its 11 bits that exist. -/
theorem ctrlWord_ctrlOfWord (v : Word) : ctrlWord (ctrlOfWord v) = v &&& 0x7FF := by
  obtain ⟨hbit, -⟩ := word_of_bits (l := ctrlBits (ctrlOfWord v)) (show 11 ≤ 32 by decide) (ctrlWord_eq _)
  have hmask : ∀ k < 32, (0x7FF : Word).getLsbD k = decide (k < 11) := by decide
  have hbits : ctrlBits (ctrlOfWord v) = (List.range 11).map v.getLsbD := rfl
  refine BitVec.eq_of_getLsbD_eq fun k hk => ?_
  rw [hbit, hbits, BitVec.getLsbD_and, hmask k hk]
  by_cases h : k < 11
  · rw [decide_eq_true h, Bool.and_true, List.getD_eq_getElem _ _ (by simpa using h)]
    simp
  · rw [decide_eq_false h, Bool.and_false, List.getD_eq_default _ _ (by simpa using h)]

/-! ## Writes -/

section
variable {s t : State} {addr : BitVec 9} {r : HostReg} {v : Word}

theorem hostAccess_write (hr : hostReg addr = r) (h : hostAccess s (.write addr v) = .ok t) :
    t = hostWrite s v r := by
  obtain ⟨_, -, e, -⟩ | ⟨addr', v', -, e, rfl⟩ := hostAccess_cases h
  · cases e
  · cases e; rw [hr]

theorem wordAligned_of_write (h : hostAccess s (.write addr v) = .ok t) : wordAligned addr = true := by
  obtain ⟨_, -, e, -⟩ | ⟨addr', v', ha, e, -⟩ := hostAccess_cases h
  · cases e
  · cases e; exact ha

/-- A write of a register without a case of its own: ignored while a command runs (R56), else `writeIdle`. -/
theorem hostWrite_other (h1 : r ≠ .status) (h2 : r ≠ .ctrl) (h3 : r ≠ .recCtl) (h4 : r ≠ .cmd) :
    hostWrite s v r = if s.cmd.busy then s else writeIdle s v r := by
  rw [hostWrite, if_neg h1, if_neg h2, if_neg h3, if_neg h4]

theorem hostWrite_idle_other (hb : s.cmd.busy = false) (h1 : r ≠ .status) (h2 : r ≠ .ctrl) (h3 : r ≠ .recCtl)
    (h4 : r ≠ .cmd) : hostWrite s v r = writeIdle s v r := by
  rw [hostWrite_other h1 h2 h3 h4, hb, if_neg Bool.false_ne_true]

/-- A write that no rule of the map gives an effect (R40, R57) is ignored. -/
theorem hostWrite_unwritable (hb : s.cmd.busy = false) (h : writable r = false) : hostWrite s v r = s := by
  cases r with
  | cmd | status | ctrl | period | txdata | txctl | rxctl | recCtl => cases h
  | x i => cases h
  | caloff g i => cases h
  | calmat r c => cases h
  | _ => exact hostWrite_idle_other hb nofun nofun nofun nofun

theorem writeCtrl_busy (hb : s.cmd.busy = true) : hostWrite s v .ctrl = s.withCtrl { s.ctrl with
    cancel := v.getLsbD 6, ieRec := v.getLsbD 9, ieDone := v.getLsbD 10 } := if_pos hb

/-- A write of CTRL while no command runs: the bits, and the selection forgotten if BT_ATTACH is cleared. -/
theorem writeCtrl_idle (hb : s.cmd.busy = false) : hostWrite s v .ctrl = (s.withCtrl (ctrlOfWord v)).withBt
    { s.bt with sel := if v.getLsbD 0 then s.bt.sel else none } := by
  have hw : hostWrite s v .ctrl = writeCtrl s v := rfl
  rw [hw, writeCtrl, hb, if_neg Bool.false_ne_true, ctrlOfWord]
  cases v.getLsbD 0 <;> rfl

end

/-! ## The calibration window -/

theorem vecGet_vecPut (u : Vec3) (i j : Fin 3) (w : Word) :
    vecGet (vecPut u i w) j = if j = i then w else vecGet u j := by
  fin_cases i <;> fin_cases j <;> rfl

theorem offsetOf_eq (c : Profile) (g : Fin 3) : ![c.aoff, c.goff, c.moff] g = offsetOf c g := by
  fin_cases g <;> rfl

theorem rowOf_eq (m : Mat3) (r : Fin 3) : ![m.r0, m.r1, m.r2] r = rowOf m r := by
  fin_cases r <;> rfl

theorem offsetOf_writeOffset (c : Profile) (g i g' : Fin 3) (v : Word) :
    offsetOf (writeOffset c g i v) g' = if g' = g then vecPut (offsetOf c g) i v else offsetOf c g' := by
  fin_cases g <;> fin_cases g' <;> rfl

theorem rowOf_writeMat (m : Mat3) (r c r' : Fin 3) (v : Word) :
    rowOf (writeMat m r c v) r' = if r' = r then vecPut (rowOf m r) c v else rowOf m r' := by
  fin_cases r <;> fin_cases r' <;> rfl

theorem mmat_writeOffset (c : Profile) (g i : Fin 3) (v : Word) : (writeOffset c g i v).mmat = c.mmat := by
  fin_cases g <;> rfl

/-- An entry of a table of three vectors in which one vector had one entry replaced. -/
theorem vecGet_replaced {f f' : Fin 3 → Vec3} {g i : Fin 3} {v : Word}
    (h : ∀ g', f' g' = if g' = g then vecPut (f g) i v else f g') (g' i' : Fin 3) :
    vecGet (f' g') i' = if (g', i') = (g, i) then v else vecGet (f g') i' := by
  rw [h]
  by_cases hg : g' = g
  · subst hg
    rw [if_pos rfl, vecGet_vecPut]
    simp only [Prod.mk.injEq, true_and]
  · rw [if_neg hg, if_neg fun e => hg (Prod.mk.inj e).1]

/-! ## What the host's writes leave of an idle core -/

section
variable {s t : State} {v : Word} (hb : s.cmd.busy = false)
include hb

theorem hostAccess_write_idle {addr : BitVec 9} (r : HostReg) (hr : hostReg addr = r) (h1 : r ≠ .status)
    (h2 : r ≠ .ctrl) (h3 : r ≠ .recCtl) (h4 : r ≠ .cmd) (h : hostAccess s (.write addr v) = .ok t) :
    t = writeIdle s v r :=
  (hostAccess_write hr h).trans (hostWrite_idle_other hb h1 h2 h3 h4)

/-- The data registers but for the angles and the result (R22). -/
theorem hostAccess_write_x (i : Fin 32)
    (h : hostAccess s (.write (BitVec.ofNat 9 (0x080 + 4 * i.val)) v) = .ok t) :
    t = if i.val ≤ 26 ∨ i.val = 30 then s.setX i v else s := by
  rw [hostAccess_write_idle hb (.x i) (hostReg_x i).2 nofun nofun nofun nofun h, writeIdle, hostWritableX]
  simp only [Bool.or_eq_true, decide_eq_true_eq]

/-- The control bits (R44). -/
theorem hostAccess_write_ctrl (h : hostAccess s (.write 0x010 v) = .ok t) : ctrlWord t.ctrl = v &&& 0x7FF ∧
    t.bt.sel = (if v.getLsbD 0 then s.bt.sel else none) ∧
    t = (s.withCtrl t.ctrl).withBt { s.bt with sel := t.bt.sel } := by
  rw [(hostAccess_write rfl h).trans (writeCtrl_idle hb)]
  exact ⟨ctrlWord_ctrlOfWord v, rfl, rfl⟩

/-- An offset, and nothing else of the calibration window (R54). -/
theorem hostAccess_write_offset (g i : Fin 3)
    (h : hostAccess s (.write (BitVec.ofNat 9 (0x100 + 4 * (3 * g.val + i.val))) v) = .ok t) :
    t = s.withCal t.cal ∧ t.cal.mmat = s.cal.mmat ∧
      ∀ g' i' : Fin 3, vecGet (![t.cal.aoff, t.cal.goff, t.cal.moff] g') i' =
        if (g', i') = (g, i) then v else vecGet (![s.cal.aoff, s.cal.goff, s.cal.moff] g') i' := by
  rw [hostAccess_write_idle hb (.caloff g i) (hostReg_caloff g i).2 nofun nofun nofun nofun h]
  refine ⟨rfl, mmat_writeOffset s.cal g i v, vecGet_replaced fun g' => ?_⟩
  rw [offsetOf_eq, offsetOf_eq, offsetOf_eq]
  exact offsetOf_writeOffset s.cal g i g' v

/-- A matrix entry, and nothing else of the calibration window (R54). -/
theorem hostAccess_write_mat (r c : Fin 3)
    (h : hostAccess s (.write (BitVec.ofNat 9 (0x124 + 4 * (3 * r.val + c.val))) v) = .ok t) :
    t = s.withCal { s.cal with mmat := t.cal.mmat } ∧
      ∀ r' c' : Fin 3, vecGet (![t.cal.mmat.r0, t.cal.mmat.r1, t.cal.mmat.r2] r') c' =
        if (r', c') = (r, c) then v else vecGet (![s.cal.mmat.r0, s.cal.mmat.r1, s.cal.mmat.r2] r') c' := by
  rw [hostAccess_write_idle hb (.calmat r c) (hostReg_calmat r c).2 nofun nofun nofun nofun h]
  refine ⟨rfl, vecGet_replaced fun r' => ?_⟩
  rw [rowOf_eq, rowOf_eq, rowOf_eq]
  exact rowOf_writeMat s.cal.mmat r c r' v

/-- A byte pushed into the transmit buffer (R51). -/
theorem hostAccess_write_txdata (h : hostAccess s (.write 0x060 v) = .ok t) (hwf : Memory.wf s.buf.tx = true) :
    (s.buf.txLen < 511 → t.buf.txLen = s.buf.txLen + 1 ∧
      (∀ k, Memory.read t.buf.tx k = if k = s.buf.txLen then v.truncate 8 else Memory.read s.buf.tx k) ∧
      t = s.withBuf { s.buf with tx := t.buf.tx, txLen := t.buf.txLen }) ∧
    (511 ≤ s.buf.txLen → t = s) := by
  have hw := hostAccess_write_idle hb .txdata rfl nofun nofun nofun nofun h
  refine ⟨fun hlen => ?_, fun hlen => hw.trans (if_neg (Nat.not_lt.2 hlen))⟩
  rw [hw.trans (if_pos hlen)]
  refine ⟨rfl, fun k => ?_, rfl⟩
  rw [State.withBuf_buf, Memory.read_write hwf]
  exact if_congr eq_comm rfl rfl

theorem hostAccess_write_unwritable {addr : BitVec 9} (ha : addr.toNat % 4 = 0) (hw : ¬WritableAddr addr)
    (h : hostAccess s (.write addr v) = .ok t) : t = s :=
  (hostAccess_write rfl h).trans (hostWrite_unwritable hb (hostReg_unwritable ha hw))

end

/-! ## The statements -/

/-- Settles O57: each address is looked up once (`hostReg_reserved`, `hostReg_unreadable`, `hostReg_special`), and a
register reads and writes as the lemmas above say. -/
theorem hostWhileBusy : Obligations.HostWhileBusy := by
  intro s hb readable reserved
  refine ⟨?_, fun addr ha h => hostAccess_read_reserved ha h, fun addr ha h h' => ?_, fun addr v t h => ?_⟩
  · simp only [readable, List.forall_mem_cons, List.not_mem_nil, false_implies, implies_true, and_true]
    and_intros <;> exact hostAccess_read_busy rfl rfl rfl nofun rfl
  · exact hostAccess_read_open (beq_iff_eq.2 ha) rfl
      (readValue_unreadable hb (hostReg_unreadable ha h h'))
  · obtain ⟨hstatus, hctrl, hrec, hcmd⟩ := hostReg_special (wordAligned_of_write h)
    refine ⟨?_, ?_, ?_, ?_, fun h1 h2 h3 h4 => ?_⟩
    · rintro rfl; exact (hostAccess_write rfl h).trans (writeCtrl_busy hb)
    · rintro rfl; exact hostAccess_write rfl h
    · rintro rfl; exact hostAccess_write rfl h
    · rintro rfl; exact (hostAccess_write rfl h).trans (if_pos hb)
    · rw [hostAccess_write rfl h, hostWrite_other (h2 ∘ hstatus) (h1 ∘ hctrl) (h3 ∘ hrec) (h4 ∘ hcmd), if_pos hb]

/-- Settles O58: as O57, over the whole map. -/
theorem hostWhileIdle : Obligations.HostWhileIdle := by
  intro s hb rd reserved writable
  have read : ∀ {addr w} (r : HostReg), wordAligned addr = true → hostReg addr = r → r ≠ .rxdata →
      regValue s r = some w → rd addr w := fun r => hostAccess_read_idle hb
  obtain ⟨hstatus, hstatus_lt⟩ := word_of_bits (l := statusBits s) (show 13 ≤ 32 by decide) (statusWord_eq s)
  obtain ⟨hctrl, hctrl_lt⟩ := word_of_bits (l := ctrlBits s.ctrl) (show 11 ≤ 32 by decide) (ctrlWord_eq s.ctrl)
  refine ⟨⟨statusWord s, read .status rfl rfl nofun rfl, (hstatus 0).trans hb, hstatus 1, hstatus 2,
      hstatus 3, hstatus 4, hstatus 5, hstatus 6, hstatus 7, hstatus 8, hstatus 9, hstatus 10, hstatus 11,
      hstatus 12, hstatus_lt⟩,
    ⟨ctrlWord s.ctrl, read .ctrl rfl rfl nofun rfl, hctrl 0, hctrl 1, hctrl 2, hctrl 3, hctrl 4,
      hctrl 5, hctrl 6, hctrl 7, hctrl 8, hctrl 9, hctrl 10, hctrl_lt⟩,
    read .agstat rfl rfl nofun (congrArg some (agstatWord_eq s.ag)),
    read .mgstat rfl rfl nofun (congrArg some (mgstatWord_eq s.mg)),
    read .busaddr rfl rfl nofun (congrArg some (busaddrWord_eq s.cfg s.bt)),
    fun h1 h2 => read .rxctl rfl rfl nofun (congrArg some (rxctlWord_eq h1 h2)),
    hostAccess_read_rxdata hb, hostAccess_read_rxdata_empty hb, ?stated,
    fun i => read (.x i) (hostReg_x i).1 (hostReg_x i).2 nofun rfl,
    fun g i => read (.caloff g i) (hostReg_caloff g i).1 (hostReg_caloff g i).2 nofun
      (congrArg (fun u => some (vecGet u i)) (offsetOf_eq s.cal g).symm),
    fun r c => read (.calmat r c) (hostReg_calmat r c).1 (hostReg_calmat r c).2 nofun
      (congrArg (fun u => some (vecGet u c)) (rowOf_eq s.cal.mmat r).symm),
    fun addr => hostAccess_read_reserved, ⟨_, hostAccess_read_open rfl rfl (readValue_idle hb)⟩,
    fun v t => ⟨hostAccess_write_x hb, hostAccess_write rfl, hostAccess_write_ctrl hb,
      hostAccess_write_idle hb .period rfl nofun nofun nofun nofun, hostAccess_write_offset hb,
      hostAccess_write_mat hb, hostAccess_write_txdata hb,
      hostAccess_write_idle hb .txctl rfl nofun nofun nofun nofun,
      hostAccess_write_idle hb .rxctl rfl nofun nofun nofun nofun, hostAccess_write rfl,
      fun addr => hostAccess_write_unwritable hb⟩⟩
  case stated =>
    simp only [List.forall_mem_cons, List.not_mem_nil, false_implies, implies_true, and_true]
    and_intros <;> exact read _ rfl rfl nofun rfl

end Sys2Proof.Machine
end

section
/-! PROOF of O1 to O4. The encoding (spec/30_encoding.md R108 to R114): field by field, the word of a command is
the word that decodes to it, and every other word is refused. -/

namespace Sys2Proof

/-! ## Fields of a word -/

/-- A run of bits is two runs side by side just when its upper and its lower part are the two. -/
theorem extractLsb'_eq_append_iff (s n m : Nat) {k : Nat} {x : BitVec k} {a : BitVec n} {b : BitVec m} :
    x.extractLsb' s (n + m) = a ++ b ↔ x.extractLsb' (s + m) n = a ∧ x.extractLsb' s m = b := by
  rw [← BitVec.extractLsb'_append_extractLsb'_eq_extractLsb' rfl]
  constructor
  · intro h
    have hl := congrArg (BitVec.extractLsb' m n) h
    have hr := congrArg (BitVec.extractLsb' 0 m) h
    rw [BitVec.extractLsb'_append_eq_left, BitVec.extractLsb'_append_eq_left] at hl
    rw [BitVec.extractLsb'_append_eq_right, BitVec.extractLsb'_append_eq_right] at hr
    exact ⟨hl, hr⟩
  · rintro ⟨rfl, rfl⟩
    rfl

theorem extractLsb'_eq_zero_iff (s n m : Nat) {k : Nat} {x : BitVec k} :
    x.extractLsb' s (n + m) = 0 ↔ x.extractLsb' (s + m) n = 0 ∧ x.extractLsb' s m = 0 := by
  have h := extractLsb'_eq_append_iff s n m (x := x) (a := 0#n) (b := 0#m)
  rwa [BitVec.zero_append_zero] at h

/-- Bits 25:0, where a command has its operands (R108). -/
def operandsOf (w : Word) : BitVec 26 := w.extractLsb' 0 26

theorem encode_eq_iff {w : Word} {i : Instr} : encode i = w ↔ opcOf w = i.opc ∧ operandsOf w = i.operands := by
  have h := extractLsb'_eq_append_iff 0 6 26 (x := w) (a := i.opc) (b := i.operands)
  rw [BitVec.extractLsb'_eq_self] at h
  exact eq_comm.trans h

theorem toNat_opcOf (w : Word) : (opcOf w).toNat = w.toNat / 2 ^ 26 := by
  rw [opcOf, BitVec.extractLsb'_toNat, Nat.shiftRight_eq_div_pow, Nat.mod_eq_of_lt]
  have hw := w.isLt
  omega

theorem toNat_operandsOf (w : Word) : (operandsOf w).toNat = w.toNat % 2 ^ 26 := by
  rw [operandsOf, BitVec.extractLsb'_toNat, Nat.shiftRight_zero]

theorem fldDev_eq_iff {w : Word} {dev : Dev} : fldDev w = dev ↔ w.extractLsb' 25 1 = dev.bits := by
  have read : ∀ b : BitVec 1, (if b = 1#1 then Dev.mg else Dev.ag) = dev ↔ b = dev.bits := by
    cases dev <;> decide
  exact read _

section
variable {w : Word} {reg val : Byte}

theorem operandsOf_eq_formatTV_iff {a : BitVec 7} {low : BitVec 11} : operandsOf w = formatTV a reg low ↔
    fldA w = a ∧ fldReg w = reg ∧ w.extractLsb' 0 11 = low := by
  have hlow := extractLsb'_eq_append_iff 0 15 11 (x := w) (a := a ++ reg) (b := low)
  have hreg := extractLsb'_eq_append_iff 11 7 8 (x := w) (a := a) (b := reg)
  exact hlow.trans ((and_congr_left' hreg).trans and_assoc)

theorem operandsOf_eq_formatB_iff {dev : Dev} {first : BitVec 3} {flen : BitVec 4} :
    operandsOf w = formatB dev reg first flen val ↔ fldDev w = dev ∧ fldRegB w = reg ∧ fldFirst w = first ∧
      fldFlen w = flen ∧ w.extractLsb' 8 2 = 0 ∧ fldVal w = val := by
  have hval := extractLsb'_eq_append_iff 0 18 8 (x := w) (a := dev.bits ++ reg ++ first ++ flen ++ 0#2) (b := val)
  have hzero := extractLsb'_eq_append_iff 8 16 2 (x := w) (a := dev.bits ++ reg ++ first ++ flen) (b := 0#2)
  have hflen := extractLsb'_eq_append_iff 10 12 4 (x := w) (a := dev.bits ++ reg ++ first) (b := flen)
  have hfirst := extractLsb'_eq_append_iff 14 9 3 (x := w) (a := dev.bits ++ reg) (b := first)
  have hreg := extractLsb'_eq_append_iff 17 1 8 (x := w) (a := dev.bits) (b := reg)
  rw [fldDev_eq_iff, ← and_assoc, ← and_assoc, ← and_assoc, ← and_assoc]
  exact hval.trans (and_congr_left' (hzero.trans (and_congr_left' (hflen.trans (and_congr_left'
    (hfirst.trans (and_congr_left' hreg)))))))

/-! The low bits of the commands that leave some of their format's fields zero (R110). -/

theorem lowWrbyte_iff : w.extractLsb' 0 11 = 0#3 ++ val ↔ w.extractLsb' 8 3 = 0 ∧ fldVal w = val :=
  extractLsb'_eq_append_iff 0 3 8

theorem lowRbits_iff : w.extractLsb' 0 10 = 0 ↔ w.extractLsb' 8 2 = 0 ∧ fldVal w = 0 :=
  extractLsb'_eq_zero_iff 0 2 8

theorem lowRbit_iff : w.extractLsb' 0 14 = 0 ↔ fldFlen w = 0 ∧ w.extractLsb' 8 2 = 0 ∧ fldVal w = 0 :=
  (extractLsb'_eq_zero_iff 0 4 10).trans (and_congr_right' lowRbits_iff)

theorem lowWbit_iff {b : BitVec 1} : fldFlen w = 0 ∧ w.extractLsb' 8 2 = 0 ∧ fldVal w = 0#7 ++ b ↔
    w.extractLsb' 1 13 = 0 ∧ w.extractLsb' 0 1 = b := by
  have hval : fldVal w = 0#7 ++ b ↔ _ := extractLsb'_eq_append_iff 0 7 1
  have hzero := extractLsb'_eq_zero_iff 1 2 7 (x := w)
  have hflen := extractLsb'_eq_zero_iff 1 4 9 (x := w)
  rw [hval, hflen, hzero, and_assoc, and_assoc]
  rfl

end

/-! ## The rows of the decoder -/

theorem checked_eq_ok_iff {zeros : Bool} {i j : Instr} :
    checked zeros j = .ok i ↔ (zeros = true ∧ j = i) ∧ i.wellFormed = true := by
  unfold checked
  split
  next hz =>
    split
    next hj => exact ⟨fun h => by cases h; exact ⟨⟨hz, rfl⟩, hj⟩, fun ⟨⟨_, h⟩, _⟩ => congrArg _ h⟩
    next hj => exact ⟨nofun, fun ⟨⟨_, h⟩, hi⟩ => absurd (h ▸ hi) hj⟩
  next hz => exact ⟨nofun, fun ⟨⟨h, _⟩, _⟩ => absurd h hz⟩

theorem checked_ne_reserved {zeros : Bool} {i : Instr} : checked zeros i ≠ .error .reservedOpcode := by
  unfold checked
  split
  · split <;> nofun
  · nofun

/-- The opcodes that R111 (a) calls illegal. -/
def reservedOpcodes : List Nat :=
  [0x00, 0x05, 0x06, 0x07, 0x0C, 0x0D, 0x0E, 0x0F, 0x17, 0x1E, 0x1F, 0x27,
    0x2A, 0x2B, 0x2C, 0x2D, 0x2E, 0x2F, 0x31, 0x32, 0x33, 0x34, 0x35, 0x36, 0x37, 0x38, 0x39, 0x3A,
    0x3B, 0x3C, 0x3D, 0x3E, 0x3F]

theorem opc_not_reserved (i : Instr) : i.opc.toNat ∉ reservedOpcodes := by
  cases i <;> exact of_decide_eq_true rfl

/-- The decoder has a row for the opcode, or the opcode is reserved. -/
theorem decode_cases (w : Word) :
    (∃ zeros i, decode w = checked zeros i ∧ opcOf w = i.opc) ∨
    (decode w = .error .reservedOpcode ∧ (opcOf w).toNat ∈ reservedOpcodes) := by
  rw [decode]
  split
  case h_32 =>
    refine .inr ⟨rfl, ?_⟩
    have hlt := (opcOf w).isLt
    simp only [reservedOpcodes, List.mem_cons, List.not_mem_nil, or_false, imp_false] at *
    omega
  all_goals next h => exact .inl ⟨_, _, rfl, BitVec.eq_of_toNat_eq h⟩

/-- For a word with the opcode of a command, the row of the decoder checks just that the operands are those of
the command. -/
theorem decode_eq_ok_iff_of_opcOf {w : Word} {i : Instr} (h : opcOf w = i.opc) :
    decode w = .ok i ↔ operandsOf w = i.operands ∧ i.wellFormed = true := by
  rw [decode, h]
  cases i <;> refine checked_eq_ok_iff.trans (and_congr_left' ?_)
  case btWrite | btRead =>
    simp only [true_and, Instr.btWrite.injEq, Instr.btRead.injEq, Instr.operands, operandsOf_eq_formatTV_iff]
    rfl
  case btWrbyte =>
    simp only [beq_iff_eq, Instr.btWrbyte.injEq, Instr.operands, operandsOf_eq_formatTV_iff, lowWrbyte_iff]
    tauto
  case btRdbyte =>
    simp only [beq_iff_eq, Instr.btRdbyte.injEq, Instr.operands, operandsOf_eq_formatTV_iff]
    tauto
  case rdRbit =>
    simp only [beq_iff_eq, Instr.rdRbit.injEq, Instr.operands, operandsOf_eq_formatB_iff, lowRbit_iff]
    tauto
  case rdWbit =>
    simp only [beq_iff_eq, Instr.rdWbit.injEq, Instr.operands, operandsOf_eq_formatB_iff, lowWbit_iff]
    tauto
  case rdRbits =>
    simp only [beq_iff_eq, Instr.rdRbits.injEq, Instr.operands, operandsOf_eq_formatB_iff, lowRbits_iff]
    tauto
  case rdWbits =>
    simp only [beq_iff_eq, Instr.rdWbits.injEq, Instr.operands, operandsOf_eq_formatB_iff]
    tauto
  case agSetar | agSetgr =>
    simp only [beq_iff_eq, Instr.agSetar.injEq, Instr.agSetgr.injEq]
    exact (extractLsb'_eq_append_iff 0 24 2).symm
  case mgSetmode | caApply =>
    simp only [beq_iff_eq, Instr.mgSetmode.injEq, Instr.caApply.injEq]
    exact (extractLsb'_eq_append_iff 0 23 3).symm
  case mgSetres =>
    simp only [beq_iff_eq, Instr.mgSetres.injEq]
    exact (extractLsb'_eq_append_iff 0 25 1).symm
  case ssRun =>
    simp only [beq_iff_eq, Instr.ssRun.injEq]
    exact (extractLsb'_eq_append_iff 0 10 16).symm
  all_goals
    simp only [beq_iff_eq, and_true]
    rfl

/-- The decoder and the encoder are each other's converse, on the legal commands. -/
theorem decode_eq_ok_iff {w : Word} {i : Instr} : decode w = .ok i ↔ encode i = w ∧ i.wellFormed = true := by
  have row (h : opcOf w = i.opc) : decode w = .ok i ↔ encode i = w ∧ i.wellFormed = true := by
    rw [decode_eq_ok_iff_of_opcOf h, encode_eq_iff, and_iff_right h]
  constructor
  · intro h
    obtain ⟨zeros, j, hrow, hop⟩ | ⟨hres, _⟩ := decode_cases w
    · obtain ⟨⟨_, rfl⟩, _⟩ := checked_eq_ok_iff.mp (hrow.symm.trans h)
      exact (row hop).mp h
    · cases hres.symm.trans h
  · exact fun h => (row (encode_eq_iff.mp h.1).1).mpr h

/-! ## The statements -/

/-- Settles O1: the word of a command, by its own fields (`decode_eq_ok_iff`). -/
theorem decodeEncode : Obligations.DecodeEncode := fun _ hi => decode_eq_ok_iff.mpr ⟨rfl, hi⟩

/-- Settles O2: the row that took the word is the row of the command (`decode_eq_ok_iff`). -/
theorem encodeDecode : Obligations.EncodeDecode := fun _ _ => decode_eq_ok_iff.mp

/-- Settles O3: each word is the encoding of its legal command. -/
theorem decodeSpecWords : Obligations.DecodeSpecWords := by
  unfold Obligations.DecodeSpecWords
  simp only [decode_eq_ok_iff]
  decide

theorem decode_eq_reserved_iff {w : Word} :
    decode w = .error .reservedOpcode ↔ (opcOf w).toNat ∈ reservedOpcodes := by
  obtain ⟨zeros, i, hrow, hop⟩ | ⟨hres, hmem⟩ := decode_cases w
  · rw [hrow, hop]
    exact iff_of_false checked_ne_reserved (opc_not_reserved i)
  · exact iff_of_true hres hmem

/-- The opcodes of format N, the commands without operands (R110). -/
def formatNOpcodes : List Nat :=
  [0x10, 0x13, 0x14, 0x15, 0x16, 0x18, 0x1B, 0x1C, 0x1D, 0x20, 0x21, 0x22, 0x23, 0x24, 0x25, 0x26, 0x29]

theorem decode_formatN {w : Word} (h : (opcOf w).toNat ∈ formatNOpcodes) :
    ∃ i, decode w = checked (operandsOf w == 0) i := by
  rw [decode]
  generalize (opcOf w).toNat = n at h ⊢
  revert n
  simp only [formatNOpcodes, List.forall_mem_cons, List.not_mem_nil, false_implies, implies_true, and_true]
  and_intros <;> exact ⟨_, rfl⟩

/-- Settles O4: the rows of the decoder (`decode_cases`) are those of the opcodes that are not reserved, and a
row of format N checks all operand bits. -/
theorem decodeRefuses : Obligations.DecodeRefuses := by
  refine ⟨fun w => ?_, fun w hop hne => ?_⟩
  · rw [← toNat_opcOf]
    exact decode_eq_reserved_iff
  · rw [← toNat_opcOf] at hop
    obtain ⟨i, hrow⟩ := decode_formatN hop
    have hzero : (operandsOf w == 0) = false := by
      rw [beq_eq_false_iff_ne]
      intro h
      rw [← toNat_operandsOf, h] at hne
      exact hne rfl
    rw [hrow, hzero]
    rfl

end Sys2Proof
end

section
/-! PROOF of O8. Bit-fields (spec/30_encoding.md R93, R94): what extraction and insertion do, bit by bit. -/

namespace Sys2Proof.Machine

open Sys2Proof

section
variable {first len : Nat}

theorem fieldMask_eq : fieldMask first len = BitVec.ofNat 8 ((2 ^ len - 1) * 2 ^ (first + 1 - len)) := by
  rw [fieldMask, fieldShift, Nat.shiftLeft_eq, Nat.shiftLeft_eq, Nat.one_mul]

variable (hf : first ≤ 7) (hl : len ≤ first + 1)
include hf hl

/-- The mask is the bits of the field. -/
theorem getLsbD_fieldMask (k : Nat) :
    (fieldMask first len).getLsbD k = decide (first + 1 - len ≤ k ∧ k ≤ first) := by
  rw [fieldMask, fieldShift, BitVec.getLsbD_ofNat, Nat.testBit_shiftLeft, Nat.one_shiftLeft,
    Nat.testBit_two_pow_sub_one, ← Bool.decide_and, ← Bool.decide_and, decide_eq_decide]
  omega

theorem getLsbD_fieldGet (b : Byte) (k : Nat) :
    (fieldGet first len b).getLsbD k = (decide (k < len) && b.getLsbD (first + 1 - len + k)) := by
  rw [fieldGet, BitVec.getLsbD_ushiftRight, BitVec.getLsbD_and, getLsbD_fieldMask hf hl, Bool.and_comm, fieldShift]
  congr 1
  rw [decide_eq_decide]
  omega

theorem getLsbD_fieldPut (b v : Byte) (k : Nat) : (fieldPut first len b v).getLsbD k =
    if first + 1 - len ≤ k ∧ k ≤ first then v.getLsbD (k - (first + 1 - len)) else b.getLsbD k := by
  rw [fieldPut, BitVec.getLsbD_or, BitVec.getLsbD_and, BitVec.getLsbD_and, BitVec.getLsbD_not,
    BitVec.getLsbD_shiftLeft, getLsbD_fieldMask hf hl, fieldShift]
  by_cases hk : first + 1 - len ≤ k ∧ k ≤ first
  · have h8 : k < 8 := by omega
    have hs : ¬k < first + 1 - len := by omega
    simp [hk, h8, hs]
  · have hb : (b.getLsbD k && decide (k < 8)) = b.getLsbD k := by
      rw [Bool.and_eq_left_iff_imp, decide_eq_true_iff]
      exact BitVec.lt_of_getLsbD
    rw [if_neg hk, decide_eq_false hk, Bool.and_false, Bool.or_false, Bool.not_false, Bool.and_true, hb]

/-- A field is a run of bits of its byte. -/
theorem fieldGet_eq (b : Byte) : fieldGet first len b = (b.extractLsb' (first + 1 - len) len).setWidth 8 := by
  refine BitVec.eq_of_getLsbD_eq fun k hk => ?_
  rw [getLsbD_fieldGet hf hl, BitVec.getLsbD_setWidth, BitVec.getLsbD_extractLsb', decide_eq_true hk, Bool.true_and]

theorem toNat_fieldGet (b : Byte) :
    (fieldGet first len b).toNat = b.toNat / 2 ^ (first + 1 - len) % 2 ^ len := by
  have hlt : b.toNat / 2 ^ (first + 1 - len) % 2 ^ len < 2 ^ 8 :=
    Nat.lt_of_lt_of_le (Nat.mod_lt _ (Nat.two_pow_pos len)) (Nat.pow_le_pow_right (by decide) (by omega))
  rw [fieldGet_eq hf hl, BitVec.toNat_setWidth, BitVec.extractLsb'_toNat, Nat.shiftRight_eq_div_pow,
    Nat.mod_eq_of_lt hlt]

/-- What was inserted is read back, but for the bits that the field has no room for (R178). -/
theorem fieldGet_fieldPut (b v : Byte) :
    fieldGet first len (fieldPut first len b v) = (v.setWidth len).setWidth 8 := by
  refine BitVec.eq_of_getLsbD_eq fun k hk => ?_
  rw [getLsbD_fieldGet hf hl, getLsbD_fieldPut hf hl, BitVec.getLsbD_setWidth, BitVec.getLsbD_setWidth,
    decide_eq_true hk, Bool.true_and]
  by_cases hkl : k < len
  · rw [if_pos (by omega), Nat.add_sub_cancel_left]
  · rw [decide_eq_false hkl, Bool.false_and, Bool.false_and]

end

/-- Settles O8, from the bits of the two operations and from the field as a number (`toNat_fieldGet`). -/
theorem fieldExtractInsert : Obligations.FieldExtractInsert := by
  intro first len b v hf _ hl mask
  have hmask : fieldMask first len = mask := fieldMask_eq
  have hget := toNat_fieldGet hf hl b
  refine ⟨?_, ?_, ?_, hget, getLsbD_fieldPut hf hl b v, ?_⟩
  · rw [fieldGet, hmask, fieldShift]
  · rw [fieldPut, hmask, fieldShift]
  · rw [hget]
    exact Nat.mod_lt _ (Nat.two_pow_pos len)
  · have hlt : v.toNat % 2 ^ len < 2 ^ 8 := Nat.lt_of_le_of_lt (Nat.mod_le _ _) v.isLt
    rw [fieldGet_fieldPut hf hl, BitVec.toNat_setWidth, BitVec.toNat_setWidth, Nat.mod_eq_of_lt hlt]

end Sys2Proof.Machine
end

section
/-! PROOF of O9 to O11. Numerics (spec/40_numerics.md R131 to R136, R141 to R143): `sat32` is a clamp, so each
fixed-point operation is its exact integer, clamped and marked; the three parameter functions are limited, and
at their anchors they are their references. -/

namespace Sys2Proof.Machine

open Sys2Proof

/-! ## The range of a word -/

theorem fxMin_le_toInt (w : Word) : fxMin ≤ w.toInt := BitVec.le_toInt w

theorem toInt_le_fxMax (w : Word) : w.toInt ≤ fxMax := Int.le_of_lt_add_one BitVec.toInt_lt

theorem toInt_ofInt_of_mem {v : Int} (hmin : fxMin ≤ v) (hmax : v ≤ fxMax) : (BitVec.ofInt 32 v).toInt = v :=
  BitVec.toInt_ofInt_eq_self (by decide) hmin (Int.lt_add_one_of_le hmax)

/-! ## Saturation -/

/-- The integer that `sat32` leaves of an exact result (R131). -/
def fxClamp (v : Int) : Int := max (-2 ^ 31) (min v (2 ^ 31 - 1))

theorem fxClamp_eq (v : Int) : fxClamp v = if fxMax < v then fxMax else if v < fxMin then fxMin else v := by
  simp only [fxClamp, fxMax, fxMin]
  omega

theorem fxClamp_eq_self_iff {v : Int} : fxClamp v = v ↔ fxMin ≤ v ∧ v ≤ fxMax := by
  simp only [fxClamp, fxMax, fxMin]
  omega

theorem toInt_sat32 (v : Int) : (sat32 v).toInt = fxClamp v := by
  rw [sat32, fxClamp_eq]
  split
  case isTrue => exact toInt_ofInt_of_mem (by decide) (by decide)
  case isFalse hmax =>
    split
    case isTrue => exact toInt_ofInt_of_mem (by decide) (by decide)
    case isFalse hmin => exact toInt_ofInt_of_mem (Int.not_lt.mp hmin) (Int.not_lt.mp hmax)

theorem sat32_toInt (w : Word) : sat32 w.toInt = w := by
  rw [← BitVec.toInt_inj, toInt_sat32, fxClamp_eq_self_iff]
  exact ⟨fxMin_le_toInt w, toInt_le_fxMax w⟩

theorem saturates_iff {v : Int} : saturates v = true ↔ fxClamp v ≠ v := by
  rw [saturates, Bool.or_eq_true, decide_eq_true_iff, decide_eq_true_iff, Ne, fxClamp_eq_self_iff]
  omega

/-- Settles O9: `sat32` is the clamp (`toInt_sat32`). -/
theorem saturationClamps : Obligations.SaturationClamps := by
  intro v
  rw [toInt_sat32, fxClamp]
  omega

/-! ## The operations -/

theorem toInt_fxResult (v : Int) (m : Bool) : (fxResult v m).val.toInt = fxClamp v := toInt_sat32 v

/-- The mark of an operation of operands without marks. -/
theorem fxResult_sat_iff {v : Int} : (fxResult v false).sat = true ↔ fxClamp v ≠ v := by
  rw [fxResult, Bool.false_or, saturates_iff]

/-- The mark of an operation of two operands: one that an operand carried, or its own (R132). -/
theorem fxResult_or_sat_iff {v : Int} {m n : Bool} :
    (fxResult v (m || n)).sat = true ↔ m = true ∨ n = true ∨ fxClamp v ≠ v := by
  rw [fxResult, Bool.or_eq_true, Bool.or_eq_true, saturates_iff, or_assoc]

/-- A result that is a word already is left as it is. -/
theorem fxResult_toInt (w : Word) (m : Bool) : fxResult w.toInt m = ⟨w, m⟩ := by
  have hsat : saturates w.toInt = false := by
    rw [← Bool.not_eq_true, saturates_iff, not_not, fxClamp_eq_self_iff]
    exact ⟨fxMin_le_toInt w, toInt_le_fxMax w⟩
  rw [fxResult, sat32_toInt, hsat, Bool.or_false]

theorem fxAdd_comm (a b : Fx) : fxAdd a b = fxAdd b a := by
  rw [fxAdd, fxAdd, Int.add_comm, Bool.or_comm]

/-- Without a saturation inside, both groupings clamp the same sum. -/
theorem fxAdd_assoc_val {a b c : Fx}
    (hab : fxClamp (a.val.toInt + b.val.toInt) = a.val.toInt + b.val.toInt)
    (hbc : fxClamp (b.val.toInt + c.val.toInt) = b.val.toInt + c.val.toInt) :
    (fxAdd (fxAdd a b) c).val = (fxAdd a (fxAdd b c)).val := by
  have hl : (fxAdd a b).val.toInt = a.val.toInt + b.val.toInt := (toInt_fxResult _ _).trans hab
  have hr : (fxAdd b c).val.toInt = b.val.toInt + c.val.toInt := (toInt_fxResult _ _).trans hbc
  calc
    sat32 ((fxAdd a b).val.toInt + c.val.toInt) = sat32 (a.val.toInt + b.val.toInt + c.val.toInt) := by rw [hl]
    _ = sat32 (a.val.toInt + (fxAdd b c).val.toInt) := by rw [hr, Int.add_assoc]

theorem fxMul_comm (a b : Fx) : fxMul a b = fxMul b a := by
  rw [fxMul, fxMul, Int.mul_comm, Bool.or_comm]

theorem fxMul_one (a : Fx) : fxMul a (.of 65536) = a := by
  have hval : a.val.toInt * (Fx.of 65536).val.toInt / 65536 = a.val.toInt :=
    Int.mul_ediv_cancel a.val.toInt (by decide)
  rw [fxMul, hval, fxResult_toInt]
  exact congrArg (Fx.mk a.val) (Bool.or_false a.sat)

theorem fxMul_zero_val (a : Fx) : (fxMul a (.of 0)).val = 0 := by
  have hval : a.val.toInt * (Fx.of 0).val.toInt / 65536 = 0 := by
    rw [show (Fx.of 0).val.toInt = 0 from rfl, Int.mul_zero, Int.zero_ediv]
  rw [fxMul, hval]
  rfl

/-- Rounding toward minus infinity loses half of a unit on one side only (R133). -/
theorem fxMul_not_assoc : ∃ a b c : Fx, (fxMul (fxMul a b) c).val ≠ (fxMul a (fxMul b c)).val :=
  ⟨.of 1, .of 32768, .of 131072, by decide⟩

/-- The greatest magnitude of a scaled sample is that of R135. -/
theorem fxScale_sat_of_table {raw : BitVec 16} {res : Word} (h0 : 0 ≤ res.toInt) (hmax : res.toInt ≤ 39322) :
    (fxScale raw res).sat = false := by
  have hraw : -32768 ≤ raw.toInt := BitVec.le_toInt raw
  have hraw' : raw.toInt < 32768 := BitVec.toInt_lt
  have hlo : -32768 * 39322 ≤ raw.toInt * res.toInt := by nlinarith
  have hhi : raw.toInt * res.toInt ≤ 32768 * 39322 := by nlinarith
  rw [← Bool.not_eq_true, fxScale, fxResult_sat_iff, not_not, fxClamp_eq_self_iff, fxMin, fxMax]
  omega

theorem fxFromUs_of_nonpos {d : Int} (h : d ≤ 0) : fxFromUs d = .of 0 := if_pos h

/-- The quotient of R136 is the number of seconds in FX bits. -/
theorem fxFromUs_of_pos {d : Int} (h : 0 < d) : fxFromUs d = fxResult (d * 65536 / 1000000) false := by
  have hq : d * 1024 / 15625 = d * 65536 / 1000000 := by omega
  rw [fxFromUs, if_neg (Int.not_le.mpr h), hq]

/-- Settles O10: each operation is its exact integer, clamped and marked by `fxResult`. -/
theorem fixedPointOperations : Obligations.FixedPointOperations := by
  refine ⟨fun a b => ⟨toInt_fxResult _ _, fxResult_or_sat_iff, fxAdd_comm a b⟩, fun a b c => fxAdd_assoc_val,
    fun a b => ⟨toInt_fxResult _ _, fxResult_or_sat_iff⟩,
    fun a b => ⟨toInt_fxResult _ _, fxResult_or_sat_iff, fxMul_comm a b, fxMul_one a, fxMul_zero_val a⟩,
    fxMul_not_assoc, by decide, by decide,
    fun raw res => ⟨toInt_fxResult _ _, fxResult_sat_iff, fxScale_sat_of_table⟩,
    fun d => ⟨fun h => ?_, fun h => ?_⟩, by decide, by decide, by decide, by decide, by decide, fun _ _ => rfl⟩
  · rw [fxFromUs_of_nonpos h]
    exact ⟨rfl, rfl⟩
  · rw [fxFromUs_of_pos h]
    exact ⟨toInt_fxResult _ _, fxResult_sat_iff⟩

/-! ## The parameter functions: ranges -/

theorem toInt_limited_mem {m : Int} (h0 : 0 ≤ m) (hm : m ≤ fxMax) (v : Word) :
    -m ≤ (limited m v).toInt ∧ (limited m v).toInt ≤ m := by
  have hmin : fxMin ≤ -m := by
    simp only [fxMin, fxMax] at hm ⊢
    omega
  rw [limited]
  split
  case isTrue =>
    rw [toInt_ofInt_of_mem (by omega) hm]
    omega
  case isFalse hhi =>
    split
    case isTrue =>
      rw [toInt_ofInt_of_mem hmin (by omega)]
      omega
    case isFalse hlo => exact ⟨Int.not_lt.mp hlo, Int.not_lt.mp hhi⟩

/-- The anchors are in the range, and off them the value is limited to it; so below. -/
theorem atan2d_mem (y x : Word) : -11796480 ≤ (atan2d y x).toInt ∧ (atan2d y x).toInt ≤ 11796480 := by
  rw [atan2d]
  split_ifs
  on_goal 6 => exact toInt_limited_mem (by decide) (by decide) _
  all_goals decide

theorem sind_mem (d : Word) : -65536 ≤ (sind d).toInt ∧ (sind d).toInt ≤ 65536 := by
  rw [sind]
  split_ifs
  on_goal 4 => exact toInt_limited_mem (by decide) (by decide) _
  all_goals decide

theorem cosd_mem (d : Word) : -65536 ≤ (cosd d).toInt ∧ (cosd d).toInt ≤ 65536 := by
  rw [cosd]
  split_ifs
  on_goal 4 => exact toInt_limited_mem (by decide) (by decide) _
  all_goals decide

/-! ## The anchors of ATAN2D -/

theorem atan2d_zero_of_nonneg {x : Word} (h : 0 ≤ x.toInt) : atan2d 0 x = 0 := by
  rw [atan2d, if_pos rfl, if_neg (Int.not_lt.mpr h)]

theorem atan2d_zero_of_neg {x : Word} (h : x.toInt < 0) : atan2d 0 x = 11796480 := by
  rw [atan2d, if_pos rfl, if_pos h]

theorem ne_zero_of_toInt {w : Word} (h : w.toInt ≠ 0) : w ≠ 0 := fun hw => h (congrArg BitVec.toInt hw)

theorem atan2d_pos_zero {y : Word} (h : 0 < y.toInt) : atan2d y 0 = 5898240 := by
  rw [atan2d, if_neg (ne_zero_of_toInt h.ne'), if_pos rfl, if_pos h]

theorem toInt_atan2d_neg_zero {y : Word} (h : y.toInt < 0) : (atan2d y 0).toInt = -5898240 := by
  rw [atan2d, if_neg (ne_zero_of_toInt h.ne), if_pos rfl, if_neg h.not_gt]
  rfl

theorem atan2d_self {y : Word} (h : 0 < y.toInt) : atan2d y y = 2949120 := by
  have hy := ne_zero_of_toInt h.ne'
  rw [atan2d, if_neg hy, if_neg hy, if_pos ⟨rfl, h⟩]

/-! ## The anchors of SIND and COSD -/

/-- The sine of `k` right angles; the cosine is the sine of one more. -/
def quarterSine (k : Int) : Int := if k % 4 = 1 then 1 else if k % 4 = 3 then -1 else 0

theorem rightAngle_of_toInt {d : Word} {k : Int} (h : d.toInt = 90 * k * 65536) : rightAngle d = true := by
  rw [rightAngle, beq_iff_eq]
  omega

theorem quadrant_of_toInt {d : Word} {k : Int} (h : d.toInt = 90 * k * 65536) : quadrant d = k % 4 := by
  rw [quadrant]
  omega

theorem toInt_sind_of_toInt {d : Word} {k : Int} (h : d.toInt = 90 * k * 65536) :
    (sind d).toInt = quarterSine k * 65536 := by
  rw [sind, if_pos (rightAngle_of_toInt h), quadrant_of_toInt h, quarterSine]
  split_ifs <;> rfl

theorem toInt_cosd_of_toInt {d : Word} {k : Int} (h : d.toInt = 90 * k * 65536) :
    (cosd d).toInt = quarterSine (k + 1) * 65536 := by
  have h0 : (k + 1) % 4 = 1 ↔ k % 4 = 0 := by omega
  have h2 : (k + 1) % 4 = 3 ↔ k % 4 = 2 := by omega
  rw [cosd, if_pos (rightAngle_of_toInt h), quadrant_of_toInt h, quarterSine, if_congr h0 rfl (if_congr h2 rfl rfl)]
  split_ifs <;> rfl

/-! ## The references at the anchors -/

/-- Where the reference is an FX value and the function gives it, the error is none. -/
theorem within_zero_of_eq {r : ℝ} {w : Word} (h : r * 65536 = w.toInt) : Within 0 r w := by
  refine ⟨w.toInt, ⟨fxMin_le_toInt w, toInt_le_fxMax w, fun c _ _ => ?_⟩, by simp⟩
  rw [h, sub_self, abs_zero]
  exact abs_nonneg _

/-- At an angle of `c` half turns: the degrees, in FX bits, are `n`, and `n` is what the function gives. -/
theorem atanWithin_zero_of_arg {y x : Word} (c : ℝ) (n : Int)
    (harg : Complex.arg ⟨x.toInt, y.toInt⟩ = c * Real.pi) (hval : (atan2d y x).toInt = n)
    (hcn : c * 180 * 65536 = n) : AtanWithin 0 y x := by
  refine within_zero_of_eq ?_
  rw [harg, hval, ← hcn, mul_right_comm, mul_div_cancel_right₀ _ Real.pi_ne_zero]

theorem arg_diagonal {r : ℝ} (h : 0 < r) : Complex.arg ⟨r, r⟩ = Real.pi / 4 := by
  have hlt : |Complex.arg ⟨r, r⟩| < Real.pi / 2 := Complex.abs_arg_lt_pi_div_two_iff.mpr (.inl h)
  obtain ⟨hlo, hhi⟩ := abs_lt.mp hlt
  calc
    Complex.arg ⟨r, r⟩ = Real.arctan (Real.tan (Complex.arg ⟨r, r⟩)) := (Real.arctan_tan hlo hhi).symm
    _ = Real.arctan 1 := by rw [Complex.tan_arg, div_self h.ne']
    _ = Real.pi / 4 := Real.arctan_one

theorem atanWithin_zero_left (x : Word) : AtanWithin 0 0 x := by
  rcases lt_or_ge x.toInt 0 with hx | hx
  · refine atanWithin_zero_of_arg 1 11796480 ?_ (congrArg BitVec.toInt (atan2d_zero_of_neg hx)) (by norm_num)
    rw [one_mul, Complex.arg_eq_pi_iff]
    exact ⟨Int.cast_lt_zero.mpr hx, Int.cast_zero⟩
  · refine atanWithin_zero_of_arg 0 0 ?_ (congrArg BitVec.toInt (atan2d_zero_of_nonneg hx)) (by norm_num)
    rw [zero_mul, Complex.arg_eq_zero_iff]
    exact ⟨Int.cast_nonneg hx, Int.cast_zero⟩

theorem atanWithin_zero_right {y : Word} (hy : y.toInt ≠ 0) : AtanWithin 0 y 0 := by
  rcases Int.lt_or_gt_of_ne hy with hneg | hpos
  · refine atanWithin_zero_of_arg (-1 / 2) (-5898240) ?_ (toInt_atan2d_neg_zero hneg) (by norm_num)
    rw [show (-1 / 2 : ℝ) * Real.pi = -(Real.pi / 2) by ring, Complex.arg_eq_neg_pi_div_two_iff]
    exact ⟨Int.cast_zero, Int.cast_lt_zero.mpr hneg⟩
  · refine atanWithin_zero_of_arg (1 / 2) 5898240 ?_ (congrArg BitVec.toInt (atan2d_pos_zero hpos)) (by norm_num)
    rw [show (1 / 2 : ℝ) * Real.pi = Real.pi / 2 by ring, Complex.arg_eq_pi_div_two_iff]
    exact ⟨Int.cast_zero, Int.cast_pos.mpr hpos⟩

theorem atanWithin_diagonal {y : Word} (hy : 0 < y.toInt) : AtanWithin 0 y y := by
  refine atanWithin_zero_of_arg (1 / 4) 2949120 ?_ (congrArg BitVec.toInt (atan2d_self hy)) (by norm_num)
  rw [arg_diagonal (Int.cast_pos.mpr hy)]
  ring

/-- The sine at `k` right angles: whole turns of four are taken off. -/
theorem sin_right_angles (k : Int) : Real.sin (k * (Real.pi / 2)) = quarterSine k := by
  have hturn : (k : ℝ) * (Real.pi / 2) = (k % 4 : Int) * (Real.pi / 2) + (k / 4 : Int) * (2 * Real.pi) := by
    have hk : (k : ℝ) = (k % 4 : Int) + 4 * (k / 4 : Int) := by exact_mod_cast (Int.emod_add_mul_ediv k 4).symm
    linear_combination hk * (Real.pi / 2)
  have hrest : k % 4 = 0 ∨ k % 4 = 1 ∨ k % 4 = 2 ∨ k % 4 = 3 := by omega
  rw [hturn, Real.sin_add_int_mul_two_pi, quarterSine]
  rcases hrest with h | h | h | h <;> rw [h]
  · simp
  · simp
  · simp [mul_div_cancel₀]
  · rw [show ((3 : Int) : ℝ) * (Real.pi / 2) = Real.pi / 2 + Real.pi by push_cast; ring, Real.sin_add_pi]
    simp

theorem cos_right_angles (k : Int) : Real.cos (k * (Real.pi / 2)) = quarterSine (k + 1) := by
  rw [← sin_right_angles, ← Real.sin_add_pi_div_two]
  push_cast
  ring_nf

theorem sinCosWithin_of_toInt {d : Word} {k : Int} (h : d.toInt = 90 * k * 65536) : SinCosWithin 0 d := by
  have hangle : (d.toInt : ℝ) / 65536 * Real.pi / 180 = k * (Real.pi / 2) := by
    rw [h]
    push_cast
    ring
  constructor
  · refine within_zero_of_eq ?_
    rw [hangle, sin_right_angles, toInt_sind_of_toInt h]
    norm_cast
  · refine within_zero_of_eq ?_
    rw [hangle, cos_right_angles, toInt_cosd_of_toInt h]
    norm_cast

/-- Settles O11: the ranges, the anchors by the equations of the three functions, and the references there. -/
theorem trigProperties : Obligations.TrigProperties := by
  refine ⟨atan2d_mem, fun x => ⟨atan2d_zero_of_nonneg, atan2d_zero_of_neg⟩,
    fun y h => ⟨atan2d_pos_zero h, atan2d_self h⟩, fun y => toInt_atan2d_neg_zero,
    fun d => and_assoc.mp ⟨sind_mem d, cosd_mem d⟩, fun d k h => ?_, fun y x hyx => ?_,
    fun d k => sinCosWithin_of_toInt⟩
  · rw [toInt_sind_of_toInt h, toInt_cosd_of_toInt h, quarterSine, quarterSine]
    omega
  · by_cases hy : y = 0
    · rw [hy]
      exact atanWithin_zero_left x
    · rcases hyx with hy0 | rfl | ⟨rfl, hpos⟩
      · exact absurd hy0 hy
      · exact atanWithin_zero_right fun h => hy (BitVec.eq_of_toInt_eq h)
      · exact atanWithin_diagonal hpos

end Sys2Proof.Machine
end

section
/-! PROOF of O12 to O17. BusTransport (spec/41_bus_transport.md R150 to R160). How a write can end is said once
(`WriteEnd`, `memWrite_ends`), as Sys2Proof/Safety.lean says it of a read (`ReadEnd`, `memRead_ends`); a BT command is
such a routine in the frame of a command, so each statement picks the ends it speaks of. -/

namespace Sys2Proof.Machine

open Sys2Proof

/-! ## A routine and its command -/

/-- A transport routine that ends in `t`: it returns `x`, or raises a transport error. -/
def Res.ended {α : Type} (e : Option IoKind) (x : α) (t : State) : Res α :=
  match e with
  | none => .ret x t
  | some k => raiseIo k t

/-- The completion of a BT command whose routine ended so, leaving `t`: `v` is the result of a success
(spec/60_exceptions.md R329, R330). -/
def btCompleted (e : Option IoKind) (v : Word) (t : State) : State :=
  match e with
  | none => succeeded (setResult t v)
  | some k => failedWith ⟨.io k, .ag⟩ (setResult t 0)

/-- A command around a transport routine that does `f`, nothing outside intervening at its start and end. -/
theorem command_ended {α : Type} {op : BitVec 6} {legal : Bool} {routine : State → Res α} {val : α → Word}
    {f : State → State} {e : Option IoKind} {x : α} {s : State} {es : List Event} (hf : Neutral f)
    (hb : s.cmd.busy = false) (hl : legal = true) (hq : turnAhead s.env = false) (ht : turnAhead es = false)
    (h : ∃ q, routine (nextPhase (startCommand op s)) =
      .ended e x (((f (nextPhase (startCommand op s))).withEnv es).withSeq q)) :
    command op legal resultZero (fun t => (routine t).andThen fun y u => .ret () (setResult u (val y))) s =
      .next (btCompleted e (val x) ((f s).withEnv es)) := by
  obtain ⟨q, h⟩ := h
  cases e with
  | none => exact command_does (q := q) hf hb hl hq ht (by rw [h]; rfl)
  | some k => exact command_does_and_fails (q := q) hf hb hl hq ht (by rw [h]; rfl) fun _ _ => rfl

/-! ## How a write ends -/

/-- How a write ends (R150, R151, R152). -/
inductive WriteEnd where
  /-- no bus is attached -/
  | noBus
  /-- the payload is longer than 511 bytes -/
  | tooLarge
  /-- the selection fails -/
  | selectFailed
  /-- the write is answered by a time-out -/
  | timedOut
  /-- the write takes `k` bytes, the register address among them -/
  | took (k : Nat)

/-- Whether a write of `n` payload bytes to `a` can end so. -/
def WriteEnd.Fits (a : BitVec 7) (n : Nat) (s : State) : WriteEnd → Prop
  | .noBus => s.ctrl.btAttach = false
  | .tooLarge => s.ctrl.btAttach = true ∧ 511 < n
  | .selectFailed => s.ctrl.btAttach = true ∧ n ≤ 511 ∧ s.bt.sel ≠ some a
  | .timedOut => s.ctrl.btAttach = true ∧ n ≤ 511
  | .took k => s.ctrl.btAttach = true ∧ n ≤ 511 ∧ k ≤ 1 + n

/-- What a write that ends so takes from the environment. -/
def WriteEnd.ans (a : BitVec 7) (s : State) : WriteEnd → List Event
  | .noBus => []
  | .tooLarge => []
  | .selectFailed => [.answer .selectFail]
  | .timedOut => selectAns s a ++ [.answer .timedOut]
  | .took k => selectAns s a ++ [.answer (.wrote k)]

/-- The error a write of `n` payload bytes that ends so raises. -/
def WriteEnd.err (n : Nat) : WriteEnd → Option IoKind
  | .noBus => some .notConnected
  | .tooLarge => some .tooLarge
  | .selectFailed => some .selectFailed
  | .timedOut => some .timeout
  | .took k => if k = 1 + n then none else some .shortTransfer

/-- After a write of `bs` that ended so. -/
def WriteEnd.done (a : BitVec 7) (reg : Byte) (bs : List Byte) (s : State) : WriteEnd → State
  | .noBus => s
  | .tooLarge => s
  | .selectFailed => selectLost a s
  | .timedOut => writeDone a reg bs s
  | .took _ => writeDone a reg bs s

theorem WriteEnd.err_took_all (n : Nat) : (WriteEnd.took (1 + n)).err n = none := if_pos rfl

theorem WriteEnd.err_took_part {k n : Nat} (h : k < 1 + n) : (WriteEnd.took k).err n = some .shortTransfer :=
  if_neg (Nat.ne_of_lt h)

theorem neutral_writeEndDone (a : BitVec 7) (reg : Byte) (bs : List Byte) (r : WriteEnd) :
    Neutral fun s => r.done a reg bs s := by
  cases r with
  | noBus => exact neutral_id
  | tooLarge => exact neutral_id
  | selectFailed => exact ⟨fun _ _ _ => rfl, fun _ => rfl⟩
  | timedOut => exact ⟨fun _ _ _ => rfl, fun _ => rfl⟩
  | took k => exact ⟨fun _ _ _ => rfl, fun _ => rfl⟩

/-- A write, however it ends (R150, R151, R152). -/
theorem memWrite_ends {r : WriteEnd} {a : BitVec 7} {reg : Byte} {bs : List Byte} {s : State} {es : List Event}
    (hf : r.Fits a bs.length s) (he : s.env = r.ans a s ++ es) :
    ∃ q, memWrite a reg bs s = .ended (r.err bs.length) () (((r.done a reg bs s).withEnv es).withSeq q) := by
  have attached {u : State} (h : u.ctrl.btAttach = true) : ¬u.ctrl.btAttach = false := by rw [h]; decide
  have short {n : Nat} (h : n ≤ 511) : ¬Config.wrMax < n := Nat.not_lt.2 h
  cases r with
  | noBus =>
    obtain rfl : s.env = es := he
    exact ⟨s.seq, by rw [memWrite, if_pos (show s.ctrl.btAttach = false from hf)]; rfl⟩
  | tooLarge =>
    obtain ⟨hb, hn⟩ := hf
    obtain rfl : s.env = es := he
    exact ⟨s.seq, by rw [memWrite, if_neg (attached hb), if_pos (show Config.wrMax < bs.length from hn)]; rfl⟩
  | selectFailed =>
    obtain ⟨hb, hn, hs⟩ := hf
    obtain ⟨q, hq⟩ := btSelect_fail hs he
    exact ⟨q, by rw [memWrite, if_neg (attached hb), if_neg (short hn), hq]; rfl⟩
  | timedOut =>
    obtain ⟨hb, hn⟩ := hf
    obtain ⟨q, hq⟩ := btSelect_ok (es := .answer .timedOut :: es) (he.trans (List.append_assoc ..))
    refine ⟨(nextPhase (nextPhase (s.withSeq q))).seq, ?_⟩
    rw [memWrite, if_neg (attached hb), if_neg (short hn), hq, Res.ret_andThen, busWrite,
      busPrimitive_answer (a := .timedOut) (es := es) (b := none) rfl rfl]
    rfl
  | took k =>
    obtain ⟨hb, hn, hk⟩ := hf
    have hanswer : writeAnswer (reg :: bs).length (.wrote k) = some (some k) :=
      if_pos (by rw [List.length_cons, Nat.add_comm]; exact hk)
    obtain ⟨q, hq⟩ := btSelect_ok (es := .answer (.wrote k) :: es) (he.trans (List.append_assoc ..))
    refine ⟨(nextPhase (nextPhase (s.withSeq q))).seq, ?_⟩
    rw [memWrite, if_neg (attached hb), if_neg (short hn), hq, Res.ret_andThen, busWrite,
      busPrimitive_answer (es := es) rfl hanswer, WriteEnd.err]
    by_cases hall : k = 1 + bs.length
    · rw [if_pos hall]
      exact if_pos hall
    · rw [if_neg hall]
      exact if_neg hall

/-! ## The start of a command changes nothing that its transport routine looks at -/

theorem writeEndFits_congr {s t : State} (hb : s.bt = t.bt) (hc : s.ctrl = t.ctrl) (a : BitVec 7) (n : Nat)
    (r : WriteEnd) : r.Fits a n s ↔ r.Fits a n t := by
  cases r <;> simp only [WriteEnd.Fits, hb, hc]

theorem writeEndAns_congr {s t : State} (h : s.bt = t.bt) (a : BitVec 7) (r : WriteEnd) : r.ans a s = r.ans a t := by
  cases r <;> simp only [WriteEnd.ans, selectAns_congr h]

theorem turnAhead_writeEndAns {a : BitVec 7} {s : State} {es : List Event} (he : turnAhead es = false)
    (r : WriteEnd) : turnAhead (r.ans a s ++ es) = false := by
  cases r with
  | noBus => exact he
  | tooLarge => exact he
  | selectFailed => rfl
  | timedOut => rw [WriteEnd.ans, List.append_assoc]; exact turnAhead_selectAns s a rfl
  | took k => rw [WriteEnd.ans, List.append_assoc]; exact turnAhead_selectAns s a rfl

theorem turnAhead_shortsAns (xs : List Short) {es : List Event} (he : turnAhead es = false) :
    turnAhead (shortsAns xs ++ es) = false := by
  cases xs with
  | nil => exact he
  | cons x xs => cases x <;> rfl

theorem turnAhead_readEndAns {a : BitVec 7} {s : State} {es : List Event} (he : turnAhead es = false)
    (r : ReadEnd) : turnAhead (r.ans a s ++ es) = false := by
  have attempted (xs : List Short) {last : List Event} (h : turnAhead (last ++ es) = false) :
      turnAhead (selectAns s a ++ (shortsAns xs ++ last) ++ es) = false := by
    rw [List.append_assoc, List.append_assoc]
    exact turnAhead_selectAns s a (turnAhead_shortsAns xs h)
  cases r with
  | noBus => exact he
  | selectFailed => rfl
  | primeTimedOut xs => exact attempted xs rfl
  | readTimedOut xs => exact attempted xs rfl
  | givenUp xs x => exact attempted xs (by cases x <;> rfl)
  | full xs bs => exact attempted xs rfl

/-! ## The payload of BT.WRITE (R156) -/

theorem length_txPayload (s : State) (n : Nat) : (txPayload s n).length = n := by
  rw [txPayload]
  split
  · exact Memory.length_take s.buf.tx n
  · exact List.length_replicate

theorem txPayload_of_le {n : Nat} (h : n ≤ 511) (s : State) : txPayload s n = Memory.take s.buf.tx n := if_pos h

/-! ## The four commands, however their routine ends -/

section
variable {s : State} {a : BitVec 7} {reg : Byte} {es : List Event}

theorem execBtWrite_ends (r : WriteEnd) {len : BitVec 11} (hb : s.cmd.busy = false) (ht : turnAhead es = false)
    (hf : r.Fits a len.toNat s) (he : s.env = r.ans a s ++ es) :
    exec (.btWrite a reg len) s = .next (btCompleted (r.err len.toNat) (len.zeroExtend 32)
      ((r.done a reg (txPayload s len.toNat) s).withEnv es)) := by
  refine command_ended (routine := fun t => memWrite a reg (txPayload t len.toNat) t) (x := ())
    (neutral_writeEndDone a reg (txPayload s len.toNat) r) hb rfl (he ▸ turnAhead_writeEndAns ht r) ht ?_
  have h := memWrite_ends (r := r) (reg := reg) (bs := txPayload s len.toNat) (s := nextPhase (startCommand 0x01 s))
    ((writeEndFits_congr rfl rfl a _ r).2 (by rwa [length_txPayload]))
    (he.trans (congrArg (· ++ es) (writeEndAns_congr rfl a r)))
  rwa [length_txPayload] at h

theorem execBtWrbyte_ends (r : WriteEnd) {val : Byte} (hb : s.cmd.busy = false) (ht : turnAhead es = false)
    (hf : r.Fits a 1 s) (he : s.env = r.ans a s ++ es) :
    exec (.btWrbyte a reg val) s = .next (btCompleted (r.err 1) 1 ((r.done a reg [val] s).withEnv es)) := by
  refine command_ended (routine := memWrite a reg [val]) (x := ()) (neutral_writeEndDone a reg [val] r) hb rfl
    (he ▸ turnAhead_writeEndAns ht r) ht (memWrite_ends (r := r) ((writeEndFits_congr rfl rfl a 1 r).2 hf) ?_)
  exact he.trans (congrArg (· ++ es) (writeEndAns_congr rfl a r))

/-- The read routine of a started command. -/
theorem memRead_of_started {r : ReadEnd} {n : Nat} (op : BitVec 6) (hf : r.fits a n s = true)
    (he : s.env = r.ans a s ++ es) (hc : s.clock.toNat + r.delay < 2 ^ 64) :
    ∃ q, memRead a reg n (nextPhase (startCommand op s)) =
      .ended r.err r.bytes (((r.done a reg n (nextPhase (startCommand op s))).withEnv es).withSeq q) := by
  obtain ⟨q, h⟩ := memRead_ends (r := r) (a := a) (reg := reg) (n := n) (s := nextPhase (startCommand op s))
    (es := es) ((readEndFits_congr rfl rfl a n r).trans hf)
    (he.trans (congrArg (· ++ es) (readEndAns_congr rfl a r))) hc
  refine ⟨q, h.trans ?_⟩
  cases r.err <;> rfl

theorem execBtRead_ends (r : ReadEnd) {len : BitVec 11} (hb : s.cmd.busy = false) (ht : turnAhead es = false)
    (h1 : 1 ≤ len.toNat) (h2 : len.toNat ≤ 511) (hf : r.fits a len.toNat s = true) (he : s.env = r.ans a s ++ es)
    (hc : s.clock.toNat + r.delay < 2 ^ 64) :
    exec (.btRead a reg len) s =
      .next (btCompleted r.err (len.zeroExtend 32) ((r.done a reg len.toNat s).withEnv es)) :=
  command_ended (routine := memRead a reg len.toNat) (neutral_readEndDone a reg len.toNat r) hb
    (by rw [validReadLen, decide_eq_true h1, decide_eq_true h2]; rfl) (he ▸ turnAhead_readEndAns ht r) ht
    (memRead_of_started 0x02 hf he hc)

theorem execBtRdbyte_ends (r : ReadEnd) (hb : s.cmd.busy = false) (ht : turnAhead es = false)
    (hf : r.fits a 1 s = true) (he : s.env = r.ans a s ++ es) (hc : s.clock.toNat + r.delay < 2 ^ 64) :
    exec (.btRdbyte a reg) s =
      .next (btCompleted r.err ((byteAt r.bytes 0).zeroExtend 32) ((r.done a reg 1 s).withEnv es)) :=
  command_ended (routine := memRead a reg 1) (val := fun bs => (byteAt bs 0).zeroExtend 32)
    (neutral_readEndDone a reg 1 r) hb rfl (he ▸ turnAhead_readEndAns ht r) ht (memRead_of_started 0x04 hf he hc)

end

/-! ## The statements -/

/-- Settles O12: the write that takes all its bytes (`WriteEnd.took`). -/
theorem btWritesSend : Obligations.BtWritesSend := by
  intro s a reg es hb ha ht
  refine ⟨fun len hlen he => ?_, fun val he => ?_⟩
  · rw [execBtWrite_ends (.took (1 + len.toNat)) hb ht ⟨ha, hlen, le_rfl⟩ (he.trans (List.append_assoc ..).symm),
      WriteEnd.err_took_all, txPayload_of_le hlen]
    rfl
  · exact execBtWrbyte_ends (.took (1 + 1)) hb ht ⟨ha, by decide, le_rfl⟩ (he.trans (List.append_assoc ..).symm)

/-- Settles O13: the read that is full after its short attempts (`ReadEnd.full`). -/
theorem btReadsReceive : Obligations.BtReadsReceive := by
  intro s a reg xs bs es hb ha ht hxs hfit he hc
  have hf : (ReadEnd.full xs bs).fits a bs.length s = true := by
    simpa [ReadEnd.fits, ha, shortsFit, hxs] using hfit
  have he : s.env = (ReadEnd.full xs bs).ans a s ++ es := by rw [he, ReadEnd.ans, List.append_assoc, List.append_assoc]
  refine ⟨fun len hlen h1 h2 => ?_, ?_⟩
  · exact execBtRead_ends _ hb ht h1 h2 (hlen ▸ hf) he hc
  · rintro b rfl
    exact execBtRdbyte_ends _ hb ht hf he hc

/-- Settles O14: the state that a read full at its first attempt leaves, byte by byte (`Memory.read_writeFrom`). -/
theorem btReadFillsBuffer : Obligations.BtReadFillsBuffer := by
  intro s a reg len bs es hb ha ht hwf hlen h1 h2 he
  have hread := (btReadsReceive s a reg [] bs es hb ha ht (Nat.zero_le 4) (fun _ hx => nomatch hx) he s.clock.isLt).1
    len hlen h1 h2
  refine ⟨_, hread, fun k hk => ?_, fun k hk => ?_, hlen, rfl, ⟨fun _ => rfl, rfl⟩, Memory.wf_writeFrom 0 bs hwf,
    fun k hk => ?_, rfl⟩
  · exact (Memory.read_writeFrom hwf 0 k bs).trans (if_pos (by omega))
  · exact (Memory.read_writeFrom hwf 0 k bs).trans (if_neg (by omega))
  · exact (setResult_getX _ _ k).trans (if_neg (Ne.symm hk))

/-- Settles O15: the read that is short at all five attempts (`ReadEnd.givenUp`). -/
theorem btReadGivesUp : Obligations.BtReadGivesUp := by
  intro s a reg len xs x es hb ha ht h1 h2 hxs hfit he hc
  obtain ⟨hx, hall⟩ := List.forall_mem_cons.1 hfit
  refine execBtRead_ends (.givenUp xs x) hb ht h1 h2 ?_ ?_ ?_
  · simpa [ReadEnd.fits, ha, hxs, hx] using hall
  · rw [he, ReadEnd.ans, List.append_assoc, List.append_assoc]
  · rw [ReadEnd.delay, hxs]
    exact hc

/-- Settles O16: the ends that take nothing from the environment and leave the state as it is. -/
theorem btRefusesFirst : Obligations.BtRefusesFirst := by
  intro s a reg hb ht
  refine ⟨fun hno => ?_, fun ha len hlen => execBtWrite_ends .tooLarge hb ht ⟨ha, hlen⟩ rfl⟩
  have hfit (n : Nat) : ReadEnd.noBus.fits a n s = true := by rw [ReadEnd.fits, hno]; rfl
  exact ⟨fun len => execBtWrite_ends .noBus hb ht hno rfl,
    fun len h1 h2 => execBtRead_ends .noBus hb ht h1 h2 (hfit _) rfl s.clock.isLt,
    fun val => execBtWrbyte_ends .noBus hb ht hno rfl,
    execBtRdbyte_ends .noBus hb ht (hfit 1) rfl s.clock.isLt⟩

/-- Settles O17: the other failing ends of a write, and every failing end of a read. -/
theorem btTransferFails : Obligations.BtTransferFails := by
  intro s a reg es hb ha ht
  refine ⟨fun hs he => ⟨fun val => ?_, fun len hlen => ?_⟩, fun he => ⟨fun val => ?_, fun len hlen => ?_⟩,
    fun k he => ⟨fun val hk => ?_, fun len hlen hk => ?_⟩,
    fun r k hk he hc => ⟨fun hf => ?_, fun len h1 h2 hf => ?_⟩⟩
  · exact execBtWrbyte_ends .selectFailed hb ht ⟨ha, by decide, hs⟩ he
  · exact execBtWrite_ends .selectFailed hb ht ⟨ha, hlen, hs⟩ he
  · exact execBtWrbyte_ends .timedOut hb ht ⟨ha, by decide⟩ (he.trans (List.append_cons ..))
  · rw [← txPayload_of_le hlen]
    exact execBtWrite_ends .timedOut hb ht ⟨ha, hlen⟩ (he.trans (List.append_cons ..))
  · rw [execBtWrbyte_ends (.took k) hb ht ⟨ha, by decide, hk.le⟩ (he.trans (List.append_cons ..)),
      WriteEnd.err_took_part hk]
    rfl
  · rw [execBtWrite_ends (.took k) hb ht ⟨ha, hlen, hk.le⟩ (he.trans (List.append_cons ..)),
      WriteEnd.err_took_part hk, txPayload_of_le hlen]
    rfl
  · rw [execBtRdbyte_ends r hb ht hf he hc, hk]
    rfl
  · rw [execBtRead_ends r hb ht h1 h2 hf he hc, hk]
    rfl

end Sys2Proof.Machine
end

section
/-! PROOF of O18 to O21. RegisterDevice (spec/42_register_device.md R170 to R177). The one-bit commands are the
bit-field commands at length 1, so each end of a bit-field routine in the frame of a command is said once and serves
both; that a routine checks its transport before all else is a predicate of its own (`ChecksTransport`), which
sequencing keeps. -/

namespace Sys2Proof.Machine

open Sys2Proof

/-! ## The field of one bit -/

/-- The field of length 1 is the bit itself, in the least place. -/
theorem fieldGet_one {first : Nat} (hf : first ≤ 7) (b : Byte) :
    (fieldGet first 1 b).zeroExtend 32 = if b.getLsbD first then 1 else 0 := by
  refine BitVec.eq_of_toNat_eq ?_
  rw [BitVec.toNat_setWidth_of_le (by decide), toNat_fieldGet hf (by omega), Nat.add_sub_cancel, Nat.pow_one,
    ← Nat.toNat_testBit, ← BitVec.getLsbD]
  cases b.getLsbD first <;> rfl

/-! ## The bit-field routines in the frame of a command -/

section
variable {op : BitVec 6} {legal : Bool} {dev : Dev} {reg : Byte} {first len : Nat} {s : State} {es : List Event}

/-- A bit-field read whose byte `b` comes at the first attempt (R172). -/
theorem command_rdBits_full {b : Byte} (hb : s.cmd.busy = false) (hl : legal = true) (hd : attached s dev = true)
    (ha : s.ctrl.btAttach = true) (ht : turnAhead es = false)
    (he : s.env = selectAns s (busAddr s.cfg dev) ++ (readAns [b] ++ es)) :
    command op legal resultZero
      (fun t => (rdBits dev reg first len t).andThen fun v u => .ret () (setResult u (v.zeroExtend 32))) s =
    .next (succeeded (setResult ((readDone (busAddr s.cfg dev) reg [b] s).withEnv es)
      ((fieldGet first len b).zeroExtend 32))) := by
  obtain ⟨q, h⟩ := rdBits_full (reg := reg) (first := first) (len := len) (s := nextPhase (startCommand op s))
    (dev := dev) (by cases dev <;> exact hd) ha he
  exact command_does (q := q) (neutral_readDone _ reg [b]) hb hl (he ▸ turnAhead_selectAns s _ rfl) ht
    (by rw [h]; rfl)

/-- A bit-field write whose read gives `b` at the first attempt and whose write is full (R173). -/
theorem command_wrBits_full {b v : Byte} (hb : s.cmd.busy = false) (hl : legal = true) (hd : attached s dev = true)
    (ha : s.ctrl.btAttach = true) (ht : turnAhead es = false)
    (he : s.env = selectAns s (busAddr s.cfg dev) ++ (bitsAns b ++ es)) :
    command op legal resultZero
      (fun t => (wrBits dev reg first len v t).andThen fun _ u => .ret () (setResult u 0)) s =
    .next (succeeded (setResult ((bitsDone (busAddr s.cfg dev) reg first len v b s).withEnv es) 0)) := by
  obtain ⟨q, h⟩ := wrBits_full (reg := reg) (first := first) (len := len) (v := v)
    (s := nextPhase (startCommand op s)) (dev := dev) (by cases dev <;> exact hd) ha he
  exact command_does (q := q) (neutral_bitsDone _ reg first len v b) hb hl (he ▸ turnAhead_selectAns s _ rfl) ht
    (by rw [h]; rfl)

/-- A bit-field write ends with its read, if that fails (R173). -/
theorem wrBits_unread {r : ReadEnd} {k : IoKind} {v : Byte} (hk : r.err = some k) (hd : attached s dev = true)
    (hf : r.fits (busAddr s.cfg dev) 1 s = true) (he : s.env = r.ans (busAddr s.cfg dev) s ++ es)
    (hc : s.clock.toNat + r.delay < 2 ^ 64) :
    ∃ q, wrBits dev reg first len v s =
      .raise ⟨.io k, dev⟩ (((r.done (busAddr s.cfg dev) reg 1 s).withEnv es).withSeq q) := by
  obtain ⟨q, h⟩ := devRead_ends (reg := reg) hf he hc
  rw [hk] at h
  exact ⟨q, by rw [wrBits, rdCheck_ok hd, Res.ret_andThen, h]; rfl⟩

/-- The command of a bit-field write whose read fails (R173, spec/60_exceptions.md R330). -/
theorem command_wrBits_unread {r : ReadEnd} {k : IoKind} {v : Byte} (hb : s.cmd.busy = false) (hl : legal = true)
    (hd : attached s dev = true) (ht : turnAhead es = false) (hk : r.err = some k)
    (hf : r.fits (busAddr s.cfg dev) 1 s = true) (he : s.env = r.ans (busAddr s.cfg dev) s ++ es)
    (hc : s.clock.toNat + r.delay < 2 ^ 64) :
    command op legal resultZero
      (fun t => (wrBits dev reg first len v t).andThen fun _ u => .ret () (setResult u 0)) s =
    .next (failedWith ⟨.io k, dev⟩ (setResult ((r.done (busAddr s.cfg dev) reg 1 s).withEnv es) 0)) := by
  obtain ⟨q, h⟩ := wrBits_unread (reg := reg) (first := first) (len := len) (v := v) (dev := dev)
    (s := nextPhase (startCommand op s)) hk (by cases dev <;> exact hd)
    ((readEndFits_congr rfl rfl _ 1 r).trans hf) (he.trans (congrArg (· ++ es) (readEndAns_congr rfl _ r))) hc
  exact command_does_and_fails (q := q) (neutral_readEndDone _ reg 1 r) hb hl (he ▸ turnAhead_readEndAns ht r) ht
    (by rw [h]; rfl) fun _ _ => rfl

end

/-! ## What a read sends -/

/-- Among what is sent, every write is of the register address alone. -/
def AddressOnly (reg : Byte) (sent : List PortEvent) : Prop := ∀ bs, PortEvent.write bs ∈ sent → bs = [reg]

section
variable {reg : Byte}

theorem AddressOnly.append {l m : List PortEvent} (hl : AddressOnly reg l) (hm : AddressOnly reg m) :
    AddressOnly reg (l ++ m) := fun bs h => (List.mem_append.1 h).elim (hl bs) (hm bs)

theorem addressOnly_selectSent (s : State) (a : BitVec 7) : AddressOnly reg (selectSent s a) := by
  intro bs h
  rw [selectSent] at h
  split at h <;> simp at h

theorem addressOnly_shortSent (n : Nat) (x : Short) : AddressOnly reg (x.sent reg n) := by
  intro bs h
  cases x <;> simpa [Short.sent] using h

theorem addressOnly_shortsSent (n : Nat) (xs : List Short) : AddressOnly reg (shortsSent reg n xs) := by
  induction xs with
  | nil => exact fun bs h => nomatch h
  | cons x xs ih =>
    refine ih.append fun bs h => addressOnly_shortSent n x bs ?_
    simpa using h

/-- A read, however it ends, sends no payload (R152, R154). -/
theorem readEndDone_port (a : BitVec 7) (n : Nat) (s : State) (r : ReadEnd) :
    ∃ sent, (r.done a reg n s).port = sent ++ s.port ∧ AddressOnly reg sent := by
  have tried (xs : List Short) (n : Nat) {last : List PortEvent} (h : AddressOnly reg last) :
      ∃ sent, (readTried xs last a reg n s).port = sent ++ s.port ∧ AddressOnly reg sent := by
    refine ⟨last ++ (shortsSent reg n xs ++ selectSent s a), ?_,
      h.append ((addressOnly_shortsSent n xs).append (addressOnly_selectSent s a))⟩
    rw [List.append_assoc, List.append_assoc]
    rfl
  have attempt (n : Nat) : AddressOnly reg [.read n, .write [reg]] := addressOnly_shortSent n (.read [])
  cases r with
  | noBus => exact ⟨[], rfl, fun bs h => nomatch h⟩
  | selectFailed => exact ⟨[.select a], rfl, fun bs h => by simp at h⟩
  | primeTimedOut xs => rw [ReadEnd.done, rxFailed_port]; exact tried xs n (addressOnly_shortSent n .prime)
  | readTimedOut xs => rw [ReadEnd.done, rxFailed_port]; exact tried xs n (attempt n)
  | givenUp xs x => rw [ReadEnd.done, readGivenUp, rxFailed_port]; exact tried xs n (addressOnly_shortSent n x)
  | full xs bs => exact tried xs bs.length (attempt bs.length)

end

/-! ## Routines that check their transport first (R171) -/

/-- A routine that, when the driver of `dev` has no transport, raises `Disconnected` and does nothing else. -/
def ChecksTransport {α : Type} (dev : Dev) (routine : State → Res α) : Prop :=
  ∀ t, attached t dev = false → routine t = .raise ⟨.disconnected, dev⟩ t

section
variable {α β : Type} {dev : Dev}

theorem checksTransport_rdCheck (dev : Dev) : ChecksTransport dev (rdCheck dev) := fun _ => rdCheck_fails

theorem ChecksTransport.andThen {routine : State → Res α} (h : ChecksTransport dev routine)
    (f : α → State → Res β) : ChecksTransport dev fun t => (routine t).andThen f := fun t ht => by
  simp only [h t ht, Res.raise_andThen]

theorem checksTransport_rdBits (reg : Byte) (first len : Nat) : ChecksTransport dev (rdBits dev reg first len) :=
  (checksTransport_rdCheck dev).andThen _

/-- The field written may depend on the state, as the parameters do. -/
theorem checksTransport_wrBits (reg : State → Byte) (first len : State → Nat) (v : State → Byte) :
    ChecksTransport dev fun t => wrBits dev (reg t) (first t) (len t) (v t) t := fun t =>
  (checksTransport_rdCheck dev).andThen _ t

theorem checksTransport_agSetRangeA (code : BitVec 2) : ChecksTransport .ag (agSetRangeA code) :=
  (checksTransport_wrBits (·.cfg.agAfs.reg) (·.cfg.agAfs.first) (fun _ => 2) fun _ => code.zeroExtend 8).andThen _

theorem checksTransport_agSetRangeG (code : BitVec 2) : ChecksTransport .ag (agSetRangeG code) :=
  (checksTransport_wrBits (·.cfg.agGfs.reg) (·.cfg.agGfs.first) (fun _ => 2) fun _ => code.zeroExtend 8).andThen _

theorem checksTransport_agInitialize : ChecksTransport .ag agInitialize := (checksTransport_rdCheck .ag).andThen _

theorem checksTransport_agRead6 (reg : State → Byte) : ChecksTransport .ag fun t => agRead6 (reg t) t := fun t =>
  (checksTransport_rdCheck .ag).andThen _ t

theorem checksTransport_mgInitialize : ChecksTransport .mg mgInitialize := (checksTransport_rdCheck .mg).andThen _

theorem checksTransport_mgBurst : ChecksTransport .mg mgBurst := (checksTransport_rdCheck .mg).andThen _

/-- The command of a routine that checks a transport which is not there (spec/60_exceptions.md R324, R330); `v` is what
`x[31]` is set to. -/
theorem command_disconnected {op : BitVec 6} {legal : Bool} {result : State → State} {body : State → Res Unit}
    {s : State} {v : Word} (h : ChecksTransport dev body) (hb : s.cmd.busy = false) (hl : legal = true)
    (hd : attached s dev = false) (ht : turnAhead s.env = false)
    (hres : ∀ c q, result ((s.withCmd c).withSeq q) = setResult ((s.withCmd c).withSeq q) v) :
    command op legal result body s = .next (failedWith ⟨.disconnected, dev⟩ (setResult s v)) :=
  command_does_and_fails (es := s.env) neutral_id hb hl ht ht (h _ (by cases dev <;> exact hd)) hres

end

/-! ## The statements -/

/-- Settles O18: the bit-field read in the frame of its command, at length 1 and at `flen`. -/
theorem rdReadsField : Obligations.RdReadsField := by
  intro s dev reg b first es hb hd ha ht he
  refine ⟨?_, fun flen hv => command_rdBits_full hb hv hd ha ht he⟩
  rw [← fieldGet_one (Nat.le_of_lt_succ first.isLt)]
  exact command_rdBits_full hb rfl hd ha ht he

/-- Settles O19: the bit-field write in the frame of its command, at length 1 and at `flen`. -/
theorem rdWritesField : Obligations.RdWritesField := by
  intro s dev reg b first es hb hd ha ht he
  exact ⟨fun val => command_wrBits_full hb rfl hd ha ht he,
    fun flen val hv => command_wrBits_full hb hv hd ha ht he⟩

/-- Settles O20: the bit-field write that ends with its read, and what that read sent. -/
theorem rdWriteNeedsRead : Obligations.RdWriteNeedsRead := by
  intro s dev reg first r k es hb hd ht hk hf he hc
  exact ⟨readEndDone_port _ 1 s r, fun val => command_wrBits_unread hb rfl hd ht hk hf he hc,
    fun flen val hv => command_wrBits_unread hb hv hd ht hk hf he hc⟩

/-- Settles O21: the routine of every driver command checks the transport first. -/
theorem driverDisconnected : Obligations.DriverDisconnected := by
  intro i s dev hi hw hb hd ht
  have fails {op : BitVec 6} {legal : Bool} {body : State → Res Unit} (hl : legal = true)
      (h : ChecksTransport dev body) : command op legal resultZero body s =
        .next (failedWith ⟨.disconnected, dev⟩ (setResult s 0)) :=
    command_disconnected h hb hl hd ht fun _ _ => rfl
  cases i with
  | rdRbit d reg first => cases hi; exact fails rfl ((checksTransport_rdBits reg _ _).andThen _)
  | rdWbit d reg first val =>
    cases hi; exact fails rfl ((checksTransport_wrBits (fun _ => reg) _ _ _).andThen _)
  | rdRbits d reg first flen => cases hi; exact fails hw ((checksTransport_rdBits reg _ _).andThen _)
  | rdWbits d reg first flen val =>
    cases hi; exact fails hw ((checksTransport_wrBits (fun _ => reg) _ _ _).andThen _)
  | agInit =>
    cases hi; exact command_disconnected (checksTransport_agInitialize.andThen _) hb rfl hd ht fun _ _ => rfl
  | agSetar code => cases hi; exact fails rfl ((checksTransport_agSetRangeA code).andThen _)
  | agSetgr code => cases hi; exact fails rfl ((checksTransport_agSetRangeG code).andThen _)
  | agRdaraw => cases hi; exact fails rfl ((checksTransport_agRead6 (·.cfg.agAccelOut)).andThen _)
  | agRdgraw => cases hi; exact fails rfl ((checksTransport_agRead6 (·.cfg.agGyroOut)).andThen _)
  | agRda => cases hi; exact fails rfl ((checksTransport_agRead6 (·.cfg.agAccelOut)).andThen _)
  | agRdg => cases hi; exact fails rfl ((checksTransport_agRead6 (·.cfg.agGyroOut)).andThen _)
  | mgInit =>
    cases hi; exact command_disconnected (checksTransport_mgInitialize.andThen _) hb rfl hd ht fun _ _ => rfl
  | mgSetmode mode => cases hi; exact fails hw ((checksTransport_rdCheck .mg).andThen _)
  | mgSetres code => cases hi; exact fails rfl ((checksTransport_rdCheck .mg).andThen _)
  | mgRdraw => cases hi; exact fails rfl (checksTransport_mgBurst.andThen _)
  | mgRd => cases hi; exact fails rfl (checksTransport_mgBurst.andThen _)
  | _ => cases hi

end Sys2Proof.Machine
end

section
/-! PROOF, shared by the claims about failing commands. What a routine comes to, with a condition for its return and
one for each error it raises (`Res.Post`); and that whatever the bus operations raise is or wraps a transport error
(`Res.WrapsIo`). -/

namespace Sys2Proof.Machine

open Sys2Proof

/-! ## What a routine comes to -/

/-- A routine that returns leaves `R`; one that raises `e` leaves `E e`; it is not abandoned for a next state. -/
def Res.Post {α : Type} (R : State → Prop) (E : Err → State → Prop) : Res α → Prop
  | .ret _ s => R s
  | .raise e s => E e s
  | .stop (.next _) => False
  | .stop (.fault _) => True
  | .stop (.refused _) => True

section
variable {α β : Type} {P R : State → Prop} {E : Err → State → Prop} {r : Res α}

theorem Res.Keeps.post (h : r.Keeps P fun _ => False) : r.Post P fun _ => P := by
  cases r with
  | ret a s => exact h
  | raise e s => exact h
  | stop o => cases o <;> exact h

theorem Res.Post.andThen {f : α → State → Res β} (h : r.Post P E) (hf : ∀ a t, P t → (f a t).Post R E) :
    (r.andThen f).Post R E := by
  cases r with
  | ret a s => exact hf a s h
  | raise e s => exact h
  | stop o => cases o <;> exact h

theorem Res.Post.mapErr {E' : Err → State → Prop} {f : Err → State → Err} (h : r.Post R E)
    (hf : ∀ e t, E e t → E' (f e t) t) : (r.mapErr f).Post R E' := by
  cases r with
  | ret a s => exact h
  | raise e s => exact hf e s h
  | stop o => cases o <;> exact h

end

/-- What the last step of a command does. -/
theorem closing_ends {P K : State → Prop} (st : Stable P fun _ => False) {s : State} {f : State → State} (h : P s)
    (hf : ∀ t, P t → K (f t)) : Ends K (closing (corePoint s) f) := by
  have hp := st.corePoint h
  cases hc : corePoint s with
  | ret a t => rw [hc] at hp; exact hf t hp
  | raise e t => exact absurd hc corePoint_not_raise
  | stop o =>
    rw [hc] at hp
    cases o with
    | next t => exact hp.elim
    | fault _ => trivial
    | refused _ => trivial

/-- What a legal command of an idle core comes to: `R` holds when it completes, or `E e` when it fails with `e`. -/
theorem command_post {P R K : State → Prop} {E : Err → State → Prop} (hP : Stable P fun _ => False)
    (hR : Stable R fun _ => False) (hE : ∀ e, Stable (E e) fun _ => False) {op : BitVec 6} {legal : Bool}
    {result : State → State} {body : State → Res Unit} {s : State} (hb : s.cmd.busy = false) (hl : legal = true)
    (hs : P (startCommand op s)) (hbody : ∀ u, P u → (body u).Post R E)
    (hdone : ∀ w, R w → K (completeCommand w)) (hfail : ∀ e w, E e w → K (failCommand result e w)) :
    Ends K (command op legal result body s) := by
  rw [command, turnedAway, if_neg (by simp [hb]), if_pos hl]
  have h : ((corePoint (startCommand op s)).andThen fun _ t => body t).Post R E := by
    have hp := hP.corePoint hs
    cases hc : corePoint (startCommand op s) with
    | ret a u => rw [hc] at hp; exact hbody u hp
    | raise e u => exact absurd hc corePoint_not_raise
    | stop o => rw [hc] at hp; cases o <;> exact hp
  generalize (corePoint (startCommand op s)).andThen _ = r at h
  cases r with
  | ret a u => exact closing_ends hR h hdone
  | raise e u => exact closing_ends (hE e) h (hfail e)
  | stop o =>
    cases o with
    | next t => exact h.elim
    | fault _ => trivial
    | refused _ => trivial

/-- The bus operations look at neither the registers, the command flags, the attachments nor the drivers. -/
theorem busUnaware_of (C : CmdStatus → Vector Word 32 → Ctrl → AgDriver → MgDriver → Prop) :
    BusUnaware fun s => C s.cmd s.x s.ctrl s.ag s.mg where
  env := fun _ _ => Iff.rfl
  port := fun _ _ h => h
  seq := fun _ _ h => h
  clock := fun _ _ _ h => h
  bt := fun _ _ h => h
  buf := fun _ _ h => h
  free := fun _ _ h => h
  rmw := fun _ _ h => h

/-! ## Errors that wrap a transport error -/

/-- Whatever a routine raises is or wraps a transport error (spec/60_exceptions.md R323). -/
def Res.WrapsIo {α : Type} : Res α → Prop
  | .ret _ _ => True
  | .raise e _ => ∃ k, e.kind.inner = some k
  | .stop _ => True

section
variable {α β : Type}

theorem Res.wrapsIo_of_not_raise {r : Res α} (h : ∀ e t, r ≠ .raise e t) : r.WrapsIo := by
  cases r with
  | ret a s => trivial
  | raise e s => exact absurd rfl (h e s)
  | stop o => trivial

theorem Res.WrapsIo.andThen {r : Res α} {f : α → State → Res β} (h : r.WrapsIo) (hf : ∀ a t, (f a t).WrapsIo) :
    (r.andThen f).WrapsIo := by
  cases r with
  | ret a s => exact hf a s
  | raise e s => exact h
  | stop o => trivial

/-- Naming the device keeps what an error wraps. -/
theorem Res.WrapsIo.onDev {r : Res α} (h : r.WrapsIo) (dev : Dev) : (onDev dev r).WrapsIo := by
  cases r with
  | ret a s => trivial
  | raise e s => exact h
  | stop o => trivial

/-- What a routine keeps, it keeps when it raises. -/
theorem Res.Keeps.post_wrapsIo {P : State → Prop} {r : Res α} (h : r.Keeps P fun _ => False) (hw : r.WrapsIo) :
    r.Post P fun e t => P t ∧ ∃ k, e.kind.inner = some k := by
  cases r with
  | ret a s => exact h
  | raise e s => exact ⟨h, hw⟩
  | stop o => cases o <;> exact h

theorem waitFor_not_raise {d : Nat} {s t : State} {e : Err} : waitFor d s ≠ .raise e t := by
  rw [waitFor]
  cases h : corePoint s with
  | ret a u => exact waitTo_not_raise
  | raise e u => exact absurd h corePoint_not_raise
  | stop o => exact fun h => nomatch h

theorem wrapsIo_corePoint (s : State) : (corePoint s).WrapsIo :=
  Res.wrapsIo_of_not_raise fun _ _ => corePoint_not_raise

theorem wrapsIo_waitFor (d : Nat) (s : State) : (waitFor d s).WrapsIo :=
  Res.wrapsIo_of_not_raise fun _ _ => waitFor_not_raise

theorem wrapsIo_raiseIo (k : IoKind) (s : State) : (raiseIo k s : Res α).WrapsIo := ⟨k, rfl⟩

theorem wrapsIo_awaitAnswer (accept : Answer → Option β) (es : List Event) :
    ∀ s, (awaitAnswer accept es s).WrapsIo := by
  induction es with
  | nil => exact fun _ => trivial
  | cons e es ih =>
    intro s
    cases e with
    | outside o =>
      exact (Res.wrapsIo_of_not_raise fun _ _ => outsideMove_not_raise).andThen fun _ t => ih t
    | turn => exact ih s
    | answer a =>
      simp only [awaitAnswer]
      split
      · trivial
      · exact ih s

theorem wrapsIo_busPrimitive (sent : PortEvent) (accept : Answer → Option β) (s : State) :
    (busPrimitive sent accept s).WrapsIo :=
  (wrapsIo_corePoint s).andThen fun _ _ => wrapsIo_awaitAnswer accept _ _

theorem wrapsIo_btSelect (a : BitVec 7) (s : State) : (btSelect a s).WrapsIo := by
  simp only [btSelect]
  split
  · trivial
  · refine (wrapsIo_busPrimitive _ _ s).andThen fun ok t => ?_
    split
    · trivial
    · exact wrapsIo_raiseIo _ _

theorem wrapsIo_memWrite (a : BitVec 7) (reg : Byte) (bs : List Byte) (s : State) : (memWrite a reg bs s).WrapsIo := by
  simp only [memWrite]
  split
  · exact wrapsIo_raiseIo _ _
  · split
    · exact wrapsIo_raiseIo _ _
    · refine (wrapsIo_btSelect a s).andThen fun _ t => (wrapsIo_busPrimitive _ _ t).andThen fun r u => ?_
      split
      · exact wrapsIo_raiseIo _ _
      · split
        · trivial
        · exact wrapsIo_raiseIo _ _

theorem wrapsIo_afterShort {left : Nat} {again : State → Res (List Byte)} (h : ∀ t, (again t).WrapsIo) (s : State) :
    (afterShort left s again).WrapsIo := by
  simp only [afterShort]
  split
  · exact wrapsIo_raiseIo _ _
  · exact (wrapsIo_waitFor _ s).andThen fun _ t => h t

theorem wrapsIo_readAttempts (reg : Byte) (n left : Nat) : ∀ s, (readAttempts reg n left s).WrapsIo := by
  induction left with
  | zero => exact fun s => wrapsIo_raiseIo _ _
  | succ left ih =>
    intro s
    simp only [readAttempts]
    refine (wrapsIo_busPrimitive _ _ _).andThen fun w t => ?_
    split
    · exact wrapsIo_raiseIo _ _
    · split
      · refine (wrapsIo_busPrimitive _ _ t).andThen fun r u => ?_
        split
        · exact wrapsIo_raiseIo _ _
        · split
          · trivial
          · exact wrapsIo_afterShort ih u
      · exact wrapsIo_afterShort ih t

theorem wrapsIo_memRead (a : BitVec 7) (reg : Byte) (n : Nat) (s : State) : (memRead a reg n s).WrapsIo := by
  simp only [memRead]
  split
  · exact wrapsIo_raiseIo _ _
  · exact (wrapsIo_btSelect a s).andThen fun _ t => wrapsIo_readAttempts reg n _ _

theorem wrapsIo_devRead (dev : Dev) (reg : Byte) (n : Nat) (s : State) : (devRead dev reg n s).WrapsIo :=
  (wrapsIo_memRead _ reg n s).onDev dev

theorem wrapsIo_devWrite (dev : Dev) (reg : Byte) (bs : List Byte) (s : State) : (devWrite dev reg bs s).WrapsIo :=
  (wrapsIo_memWrite _ reg bs s).onDev dev

/-- `Disconnected` wraps `NotConnected` (spec/60_exceptions.md R324). -/
theorem wrapsIo_rdCheck (dev : Dev) (s : State) : (rdCheck dev s).WrapsIo := by
  simp only [rdCheck]
  split
  · trivial
  · exact ⟨.notConnected, rfl⟩

theorem wrapsIo_wrBits (dev : Dev) (reg : Byte) (first len : Nat) (v : Byte) (s : State) :
    (wrBits dev reg first len v s).WrapsIo :=
  (wrapsIo_rdCheck dev s).andThen fun _ t => (wrapsIo_devRead dev reg 1 t).andThen fun _ _ =>
    wrapsIo_devWrite dev reg _ _

theorem wrapsIo_microOp (m : MicroOp) (s : State) : (microOp m s).WrapsIo := by
  cases m with
  | wbits f v => exact wrapsIo_wrBits .ag f.reg f.first f.len v s
  | wbyte reg v => exact wrapsIo_devWrite .ag reg [v] s
  | setgr code => exact (wrapsIo_wrBits .ag _ _ 2 _ s).andThen fun _ _ => trivial
  | setar code => exact (wrapsIo_wrBits .ag _ _ 2 _ s).andThen fun _ _ => trivial
  | delay d => exact wrapsIo_waitFor d s

end

end Sys2Proof.Machine
end

section
/-! PROOF of O22 to O26. The setters, and AccelGyroDriver (spec/43_accel_gyro.md R190 to R205). Against a bus that
answers, each command is its routine (Sys2Proof/Laws/Answered.lean) in the frame of a command; against any bus, what
its routine comes to is said for each part of it (`Res.Post`). -/

namespace Sys2Proof.Machine

open Sys2Proof

/-! ## The magnetometer's setters check the transport as a part of their routine -/

theorem exec_mgSetres (code : BitVec 1) (s : State) : exec (.mgSetres code) s = command 0x1A true resultZero
    (fun t => ((rdCheck .mg t).andThen fun _ => mgSetRes code).andThen fun _ u =>
      .ret () (setResult u (code.zeroExtend 32))) s := by
  simp only [Res.andThen_assoc]
  rfl

theorem exec_mgSetmode (mode : BitVec 3) (s : State) : exec (.mgSetmode mode) s =
    command 0x19 (validMode mode) resultZero
      (fun t => ((rdCheck .mg t).andThen fun _ => mgSetModeNum mode).andThen fun _ u =>
        .ret () (setResult u (mode.zeroExtend 32))) s := by
  simp only [Res.andThen_assoc]
  rfl

theorem validMode_of_magModeOf {n : BitVec 3} {m : MagMode} (h : magModeOf n = some m) : validMode n = true := by
  rw [validMode, decide_eq_true_iff]
  intro h7
  rw [magModeOf, h7] at h
  cases h

theorem mgSetModeNum_of_magModeOf {n : BitVec 3} {m : MagMode} (h : magModeOf n = some m) :
    mgSetModeNum n = mgSetMode m := by
  funext s
  simp only [mgSetModeNum, h]

/-! ## O22: a setter against a bus that answers -/

theorem neutral_rangeADone (code : BitVec 2) (b : Byte) : Neutral (rangeADone code b) :=
  ⟨fun _ _ _ => rfl, fun _ => rfl⟩

theorem neutral_rangeGDone (code : BitVec 2) (b : Byte) : Neutral (rangeGDone code b) :=
  ⟨fun _ _ _ => rfl, fun _ => rfl⟩

theorem neutral_resDone (code : BitVec 1) (b : Byte) : Neutral (resDone code b) :=
  ⟨fun _ _ _ => rfl, fun _ => rfl⟩

theorem turnAhead_modeAns (m : MagMode) (b : Byte) (es : List Event) : turnAhead (modeAns m b ++ es) = false := by
  rw [modeAns]
  split <;> rfl

/-- Settles O22: the routine of each setter, answered in full, in the frame of its command. -/
theorem settersSet : Obligations.SettersSet := by
  intro s b es hb ha ht
  refine ⟨fun code hd he => ⟨?_, ?_⟩, fun code hd he => ?_, fun n m hd hm he hc => ?_⟩
  · exact command_ended (e := none) (x := ()) (neutral_rangeADone code b) hb rfl
      (he ▸ turnAhead_selectAns s _ rfl) ht (agSetRangeA_full hd ha he)
  · exact command_ended (e := none) (x := ()) (neutral_rangeGDone code b) hb rfl
      (he ▸ turnAhead_selectAns s _ rfl) ht (agSetRangeG_full hd ha he)
  · rw [exec_mgSetres]
    refine command_ended (e := none) (x := ()) (neutral_resDone code b) hb rfl
      (he ▸ turnAhead_selectAns s _ rfl) ht ?_
    rw [rdCheck_ok (by exact hd)]
    exact mgSetRes_full hd ha he
  · rw [exec_mgSetmode, mgSetModeNum_of_magModeOf hm]
    refine command_ended (e := none) (x := ()) (neutral_modeDone m b) hb (validMode_of_magModeOf hm)
      (he ▸ turnAhead_selectAns s _ (turnAhead_modeAns m b es)) ht ?_
    rw [rdCheck_ok (by exact hd)]
    exact mgSetMode_full hd ha he hc

/-! ## O23: a setter, whatever the bus answers -/

/-- No failure yet, and the drivers are so. -/
def Drivers (ag : AgDriver) (mg : MgDriver) (s : State) : Prop := s.cmd.fail = false ∧ s.ag = ag ∧ s.mg = mg

theorem busUnaware_drivers (ag : AgDriver) (mg : MgDriver) : BusUnaware (Drivers ag mg) :=
  busUnaware_of fun c _ _ a m => c.fail = false ∧ a = ag ∧ m = mg

/-- A bit-field write changes no driver; after it, if it succeeds, comes `f`. -/
theorem wrBits_drivers_post {ag ag' : AgDriver} {mg mg' : MgDriver} {dev : Dev} {reg : Byte} {first len : Nat}
    {v : Byte} {f : Unit → State → Res Unit} {s : State} (h : Quiet (Drivers ag mg) s)
    (hf : ∀ t, Quiet (Drivers ag mg) t → (f () t).Post (Quiet (Drivers ag' mg')) fun _ => Quiet (Drivers ag mg)) :
    ((wrBits dev reg first len v s).andThen f).Post (Quiet (Drivers ag' mg')) fun _ => Quiet (Drivers ag mg) :=
  (wrBits_keeps (busUnaware_drivers ag mg).stableBus (busUnaware_drivers ag mg).keepsRmw h).post.andThen
    fun _ t ht => hf t ht

theorem agSetRangeA_post {ag : AgDriver} {mg : MgDriver} {s : State} (code : BitVec 2)
    (h : Quiet (Drivers ag mg) s) : (agSetRangeA code s).Post
      (Quiet (Drivers { ag with arange := code, ares := aresTable code } mg)) fun _ => Quiet (Drivers ag mg) :=
  wrBits_drivers_post h fun _ ⟨hb, he, hf, ha, hm⟩ => ⟨hb, he, hf, by rw [State.withAg_ag, ha], hm⟩

theorem agSetRangeG_post {ag : AgDriver} {mg : MgDriver} {s : State} (code : BitVec 2)
    (h : Quiet (Drivers ag mg) s) : (agSetRangeG code s).Post
      (Quiet (Drivers { ag with grange := code, gres := gresTable code } mg)) fun _ => Quiet (Drivers ag mg) :=
  wrBits_drivers_post h fun _ ⟨hb, he, hf, ha, hm⟩ => ⟨hb, he, hf, by rw [State.withAg_ag, ha], hm⟩

theorem mgSetRes_post {ag : AgDriver} {mg : MgDriver} {s : State} (code : BitVec 1)
    (h : Quiet (Drivers ag mg) s) : (mgSetRes code s).Post
      (Quiet (Drivers ag { mg with resbit := code, res := mresTable code })) fun _ => Quiet (Drivers ag mg) :=
  wrBits_drivers_post h fun _ ⟨hb, he, hf, ha, hm⟩ => ⟨hb, he, hf, ha, by rw [State.withMg_mg, hm]⟩

/-- The settle wait after PowerDown never raises, so a mode that was written stays in the cache (R222). -/
theorem mgSetMode_post {ag : AgDriver} {mg : MgDriver} {s : State} (m : MagMode) (h : Quiet (Drivers ag mg) s) :
    (mgSetMode m s).Post (Quiet (Drivers ag { mg with mode := m })) fun _ => Quiet (Drivers ag mg) := by
  refine wrBits_drivers_post h fun t ⟨hb, he, hf, ha, hm⟩ => ?_
  have hmode : Quiet (Drivers ag { mg with mode := m }) (t.withMg { t.mg with mode := m }) :=
    ⟨hb, he, hf, ha, by rw [State.withMg_mg, hm]⟩
  by_cases hp : m = .powerDown
  · have hw := (busUnaware_drivers ag { mg with mode := m }).stable.waitFor (d := Config.mgSettleUs) hmode
    simp only [if_pos hp]
    cases hr : waitFor Config.mgSettleUs (t.withMg { t.mg with mode := m }) with
    | ret a u => rw [hr] at hw; exact hw
    | raise e u => exact absurd hr waitFor_not_raise
    | stop o => rw [hr] at hw; cases o <;> exact hw
  · simp only [if_neg hp]
    exact hmode

theorem rdCheck_andThen_post {α : Type} {P R : State → Prop} {dev : Dev} {f : Unit → State → Res α} {s : State}
    (h : P s) (hf : (f () s).Post R fun _ => P) : ((rdCheck dev s).andThen f).Post R fun _ => P := by
  simp only [rdCheck]
  split
  · exact hf
  · exact h

/-- A command whose routine succeeds with the drivers `ag` and `mg`, or fails with the drivers as they were. -/
theorem command_setter_cases {op : BitVec 6} {legal : Bool} {routine : State → Res Unit} {ag : AgDriver}
    {mg : MgDriver} {v : Word} {s t : State} (hb : s.cmd.busy = false) (hl : legal = true)
    (hq : hostQuiet s.env = true)
    (hr : ∀ u, Quiet (Drivers s.ag s.mg) u →
      (routine u).Post (Quiet (Drivers ag mg)) fun _ => Quiet (Drivers s.ag s.mg))
    (h : command op legal resultZero (fun t => (routine t).andThen fun _ u => .ret () (setResult u v)) s = .next t) :
    (t.cmd.fail = true ∧ t.ag = s.ag ∧ t.mg = s.mg ∧ t.getX 31 = 0) ∨
    (t.cmd.fail = false ∧ t.ag = ag ∧ t.mg = mg ∧ t.getX 31 = v) := by
  have old := (busUnaware_drivers s.ag s.mg).stable
  have new : BusUnaware fun u => Drivers ag mg u ∧ u.getX 31 = v :=
    busUnaware_of fun c x _ a m => (c.fail = false ∧ a = ag ∧ m = mg) ∧ x.get 31 = v
  refine (command_post (P := Quiet (Drivers s.ag s.mg)) (E := fun _ => Quiet (Drivers s.ag s.mg))
    (K := fun t => (t.cmd.fail = true ∧ t.ag = s.ag ∧ t.mg = s.mg ∧ t.getX 31 = 0) ∨
      (t.cmd.fail = false ∧ t.ag = ag ∧ t.mg = mg ∧ t.getX 31 = v))
    old new.stable (fun _ => old) hb hl ⟨rfl, hq, rfl, rfl, rfl⟩ (fun u hu => ?_) (fun w hw => ?_)
    fun e w hw => ?_).next h
  · refine (hr u hu).andThen fun _ w ⟨hbw, hqw, hd⟩ => ⟨hbw, hqw, hd, ?_⟩
    rw [setResult_getX, if_pos rfl]
  · obtain ⟨-, -, ⟨hf, ha, hm⟩, hx⟩ := hw
    exact .inr ⟨hf, ha, hm, hx⟩
  · obtain ⟨-, -, -, ha, hm⟩ := hw
    exact .inl ⟨rfl, ha, hm, (setResult_getX w 0 31).trans (if_pos rfl)⟩

/-- Settles O23: each setter's routine changes its cache after the write, if that succeeds. -/
theorem settersKeepOnFailure : Obligations.SettersKeepOnFailure := by
  intro s t hb hq
  refine ⟨fun code h => ?_, fun code h => ?_, fun code h => ?_, fun n m hm h => ?_⟩
  · exact (command_setter_cases hb rfl hq (fun _ => agSetRangeA_post code) h).imp
      (fun ⟨hf, ha, _, hx⟩ => ⟨hf, ha, hx⟩) fun ⟨hf, ha, _, hx⟩ => ⟨hf, ha, hx⟩
  · exact (command_setter_cases hb rfl hq (fun _ => agSetRangeG_post code) h).imp
      (fun ⟨hf, ha, _, hx⟩ => ⟨hf, ha, hx⟩) fun ⟨hf, ha, _, hx⟩ => ⟨hf, ha, hx⟩
  · rw [exec_mgSetres] at h
    exact (command_setter_cases hb rfl hq (fun _ hu => rdCheck_andThen_post hu (mgSetRes_post code hu)) h).imp
      (fun ⟨hf, _, hm, hx⟩ => ⟨hf, hm, hx⟩) fun ⟨hf, _, hm, hx⟩ => ⟨hf, hm, hx⟩
  · rw [exec_mgSetmode, mgSetModeNum_of_magModeOf hm] at h
    exact (command_setter_cases hb (validMode_of_magModeOf hm) hq
      (fun _ hu => rdCheck_andThen_post hu (mgSetMode_post m hu)) h).imp
      (fun ⟨hf, _, hm, hx⟩ => ⟨hf, hm, hx⟩) fun ⟨hf, _, hm, hx⟩ => ⟨hf, hm, hx⟩

/-! ## O24: AG.INIT against a bus that answers -/

/-- After AG_INIT whose stages were `cs` (R194). -/
def agInitDone (cs : List (List (MicroOp × Byte) × AgState)) (s : State) : State :=
  setAgState .ready (stagesDone cs (setAgState .uninitialized s))

theorem neutral_agInitDone (cs : List (List (MicroOp × Byte) × AgState)) : Neutral (agInitDone cs) :=
  ((neutral_setAgState _).after (neutral_stagesDone cs)).after (neutral_setAgState _)

theorem opDone_withEnv (m : MicroOp) (b : Byte) (es : List Event) (s : State) :
    opDone m b (s.withEnv es) = (opDone m b s).withEnv es := by
  cases m <;> rfl

theorem opsDone_withEnv (cs : List (MicroOp × Byte)) (es : List Event) :
    ∀ s : State, opsDone cs (s.withEnv es) = (opsDone cs s).withEnv es := by
  induction cs with
  | nil => exact fun _ => rfl
  | cons c cs ih => intro s; rw [opsDone, opDone_withEnv, ih]; rfl

theorem stagesDone_withEnv (cs : List (List (MicroOp × Byte) × AgState)) (es : List Event) :
    ∀ s : State, stagesDone cs (s.withEnv es) = (stagesDone cs s).withEnv es := by
  induction cs with
  | nil => exact fun _ => rfl
  | cons c cs ih => intro s; rw [stagesDone, opsDone_withEnv]; exact ih (setAgState c.2 (opsDone c.1 s))

/-- The initialization does not look at the environment list. -/
theorem agInitDone_withEnv (cs : List (List (MicroOp × Byte) × AgState)) (es : List Event) (s : State) :
    agInitDone cs (s.withEnv es) = (agInitDone cs s).withEnv es :=
  congrArg (setAgState .ready) (stagesDone_withEnv cs es (setAgState .uninitialized s))

/-- A turn ahead of a command places its start; the rest of the environment list is its routine's. -/
theorem command_after_turn {op : BitVec 6} {legal : Bool} {result : State → State} {body : State → Res Unit}
    {s : State} {es : List Event} (hb : s.cmd.busy = false) (hl : legal = true) (he : s.env = .turn :: es) :
    command op legal result body s = command op legal result (fun t => body (t.withEnv es)) (s.withEnv []) := by
  rw [command, command, turnedAway, turnedAway, if_neg (by simp [hb]), if_pos hl, if_neg (by simp [hb]), if_pos hl,
    corePoint_turn (s := startCommand op s) he, corePoint_quiet (s := startCommand op (s.withEnv [])) rfl]
  rfl

/-- Settles O24: the whole initialization, answered in full, in the frame of its command. -/
theorem agInitCompletes : Obligations.AgInitCompletes := by
  intro s l1 l2 l3 l4 l5 es hb hd ha ht hcfg stages hc he
  let u := nextPhase (startCommand 0x10 (s.withEnv []))
  let ans := stagesAns stages (setAgState .uninitialized s) ++ es
  obtain ⟨q, hinit⟩ : ∃ q, agInitialize (u.withEnv ans) =
      .ret () (((agInitDone stages (u.withEnv ans)).withEnv es).withSeq q) :=
    agInitialize_full (congrArg InitTable.reset hcfg) (congrArg InitTable.clock hcfg)
      (congrArg InitTable.filters hcfg) (congrArg InitTable.bypass hcfg) (congrArg InitTable.range hcfg) hd ha
      (congrArg (· ++ es) (stagesAns_congr stages rfl rfl))
      (by simp only [stages, stagesDelay] at hc; show s.clock.toNat + _ < _; omega)
  rw [agInitDone_withEnv] at hinit
  have hrun := command_does (result := resultAgState) (neutral_agInitDone stages) hb rfl rfl ht
    (body := fun t => (agInitialize (t.withEnv ans)).andThen fun _ u => .ret () (setResult u 6)) (s := s.withEnv [])
    (by rw [hinit]; rfl)
  rw [agInitDone_withEnv] at hrun
  exact (command_after_turn hb rfl he).trans hrun

/-! ## O25: AG.INIT, whatever the bus answers -/

/-- Inside AG.INIT with a transport, which did not fail yet and has reached `v`. -/
def InitReached (v : AgState) (s : State) : Prop :=
  s.cmd.fail = false ∧ s.cmd.err = 0 ∧ s.ctrl.agTAttach = true ∧ s.ag.state = v

/-- AG.INIT failed with `e` in a stage: `e` names the state reached, and wraps a transport error (R195). -/
def InitFailed (e : Err) (s : State) : Prop :=
  s.ag.state ≠ .ready ∧ s.ag.state ≠ .rangeConfigured ∧
    ∃ k, e = ⟨.initSequenceFailed (agStateNum s.ag.state) (some k), .ag⟩

theorem busUnaware_initReached (v : AgState) : BusUnaware (InitReached v) :=
  busUnaware_of fun c _ k a _ => c.fail = false ∧ c.err = 0 ∧ k.agTAttach = true ∧ a.state = v

theorem busUnaware_initFailed (e : Err) : BusUnaware (InitFailed e) :=
  busUnaware_of fun _ _ _ a _ => a.state ≠ .ready ∧ a.state ≠ .rangeConfigured ∧
    ∃ k, e = ⟨.initSequenceFailed (agStateNum a.state) (some k), .ag⟩

section
variable {v : AgState} {s : State}

/-- A micro-operation may change a range and its cache, not the state reached (R192). -/
theorem microOp_keeps_initReached (m : MicroOp) (h : Quiet (InitReached v) s) :
    (microOp m s).Keeps (Quiet (InitReached v)) fun _ => False := by
  have bus := (busUnaware_initReached v).stableBus
  have bits {reg : Byte} {first len : Nat} {b : Byte} :
      (wrBits .ag reg first len b s).Keeps (Quiet (InitReached v)) fun _ => False :=
    wrBits_keeps bus (busUnaware_initReached v).keepsRmw h
  cases m with
  | wbits f b => exact bits
  | wbyte reg b => exact devWrite_keeps bus.toSelectStable h
  | setgr code => exact bits.andThen fun _ _ ht => ht
  | setar code => exact bits.andThen fun _ _ ht => ht
  | delay d => exact bus.waitFor h

theorem microOps_post_initReached (ms : List MicroOp) : ∀ s, Quiet (InitReached v) s →
    (microOps ms s).Post (Quiet (InitReached v)) fun e t => Quiet (InitReached v) t ∧ ∃ k, e.kind.inner = some k := by
  induction ms with
  | nil => exact fun s h => h
  | cons m ms ih =>
    exact fun s h => ((microOp_keeps_initReached m h).post_wrapsIo (wrapsIo_microOp m s)).andThen fun _ t ht => ih t ht

/-- A stage from the state `v` reaches the next, or fails and names `v` (R191, R194, R195). -/
theorem agStage_post {ops : List MicroOp} {reached : AgState} (hready : v ≠ .ready) (hrange : v ≠ .rangeConfigured)
    (h : Quiet (InitReached v) s) :
    (agStage ops reached s).Post (Quiet (InitReached reached)) fun e => Quiet (InitFailed e) := by
  refine ((microOps_post_initReached ops s h).mapErr ?_).andThen ?_
  · rintro e t ⟨⟨hb, hq, -, -, -, rfl⟩, k, hk⟩
    exact ⟨hb, hq, hready, hrange, k, by rw [hk]⟩
  · rintro - t ⟨hb, hq, hf, he, ha, -⟩
    exact ⟨hb, hq, hf, he, ha, rfl⟩

/-- The last stage leads to `Ready` at once, so no failure names its state. -/
theorem agInitialize_post (h : Quiet (InitReached v) s) :
    (agInitialize s).Post (Quiet (InitReached .ready)) fun e => Quiet (InitFailed e) := by
  obtain ⟨hb, hq, hf, he, ha, -⟩ := h
  rw [agInitialize, rdCheck_ok (dev := .ag) ha, Res.ret_andThen]
  have h0 : Quiet (InitReached .uninitialized) (setAgState .uninitialized s) := ⟨hb, hq, hf, he, ha, rfl⟩
  exact (agStage_post (by decide) (by decide) h0).andThen fun _ _ h1 =>
    (agStage_post (by decide) (by decide) h1).andThen fun _ _ h2 =>
    (agStage_post (by decide) (by decide) h2).andThen fun _ _ h3 =>
    (agStage_post (by decide) (by decide) h3).andThen fun _ _ h4 =>
    (agStage_post (by decide) (by decide) h4).andThen fun _ _ ⟨hb, hq, hf, he, ha, _⟩ => ⟨hb, hq, hf, he, ha, rfl⟩

end

/-- Settles O25: what the five stages come to (`agInitialize_post`), in the frame of the command. -/
theorem agInitOutcome : Obligations.AgInitOutcome := by
  intro s t hb hd hq h
  have ready : BusUnaware fun u => InitReached .ready u ∧ u.getX 31 = 6 :=
    busUnaware_of fun c x k a _ =>
      (c.fail = false ∧ c.err = 0 ∧ k.agTAttach = true ∧ a.state = .ready) ∧ x.get 31 = 6
  refine (command_post (op := 0x10) (legal := true) (result := resultAgState)
    (body := fun t => (agInitialize t).andThen fun _ u => .ret () (setResult u 6))
    (K := fun t => (t.cmd.fail = false ∧ t.cmd.err = 0 ∧ t.ag.state = .ready ∧ t.getX 31 = 6) ∨
      (t.cmd.fail = true ∧ t.ag.state ≠ .ready ∧ t.ag.state ≠ .rangeConfigured ∧
        t.getX 31 = (agStateNum t.ag.state).zeroExtend 32 ∧
        ∃ k : IoKind, t.cmd.err = errword ⟨.initSequenceFailed (agStateNum t.ag.state) (some k), .ag⟩))
    (busUnaware_initReached s.ag.state).stable ready.stable (fun e => (busUnaware_initFailed e).stable) hb rfl
    ⟨rfl, hq, rfl, rfl, hd, rfl⟩ (fun u hu => ?_) (fun w hw => ?_) fun e w hw => ?_).next h
  · refine (agInitialize_post hu).andThen fun _ w ⟨hbw, hqw, hw⟩ => ⟨hbw, hqw, hw, ?_⟩
    rw [setResult_getX, if_pos rfl]
  · obtain ⟨-, -, ⟨hf, he, -, hs⟩, hx⟩ := hw
    exact .inl ⟨hf, he, hs, hx⟩
  · obtain ⟨-, -, hready, hrange, k, rfl⟩ := hw
    exact .inr ⟨rfl, hready, hrange, (setResult_getX w _ 31).trans (if_pos rfl), k, rfl⟩

/-! ## O26: the four reads -/

/-- A product that does not saturate is the product of the words (spec/40_numerics.md R135). -/
theorem fxScale_of_not_sat {raw : BitVec 16} {res : Word} (h : (fxScale raw res).sat = false) :
    fxScale raw res = ⟨raw.signExtend 32 * res, false⟩ := by
  have hclamp : fxClamp (raw.toInt * res.toInt) = raw.toInt * res.toInt := by
    rwa [← Bool.not_eq_true, fxScale, fxResult_sat_iff, not_not] at h
  have hval : (fxScale raw res).val = raw.signExtend 32 * res := calc
    (fxScale raw res).val = BitVec.ofInt 32 (fxScale raw res).val.toInt := (BitVec.ofInt_toInt).symm
    _ = BitVec.ofInt 32 (raw.toInt * res.toInt) := by rw [fxScale, toInt_fxResult, hclamp]
    _ = raw.signExtend 32 * res := by rw [BitVec.ofInt_mul, BitVec.ofInt_toInt]; rfl
  rw [← hval, ← h]

theorem aresTable_range (code : BitVec 2) : 0 ≤ (aresTable code).toInt ∧ (aresTable code).toInt ≤ 39322 := by
  revert code; decide

theorem gresTable_range (code : BitVec 2) : 0 ≤ (gresTable code).toInt ∧ (gresTable code).toInt ≤ 39322 := by
  revert code; decide

/-- Scaling by a resolution of the tables (R105, R106). -/
theorem fxScale_of_table {raw : BitVec 16} {res : Word} (h : 0 ≤ res.toInt ∧ res.toInt ≤ 39322) :
    fxScale raw res = ⟨raw.signExtend 32 * res, false⟩ :=
  fxScale_of_not_sat (fxScale_sat_of_table h.1 h.2)

/-- Values none of which saturated leave the flag `fx_sat` as it is. -/
theorem putFx3_of_not_sat (s : State) (i j k : Fin 32) (a b c : Word) :
    putFx3 s i j k ⟨a, false⟩ ⟨b, false⟩ ⟨c, false⟩ = s.setX3 i j k a b c := by
  simp only [putFx3, orSat, Bool.or_false]
  rfl

theorem Neutral.withSeq {f : State → State} (hf : Neutral f) (s : State) (q : Option SeqPos) :
    f (s.withSeq q) = (f s).withSeq q := calc
  f (s.withSeq q) = f ((s.withCmd s.cmd).withSeq q) := rfl
  _ = ((f s).withCmd s.cmd).withSeq q := hf.commutes s.cmd q s
  _ = (f s).withSeq q := by rw [← hf.cmd s]; rfl

section
variable {op : BitVec 6} {reg : State → Byte} {put : Raw3 → State → State} {bs : List Byte} {s : State}
  {es : List Event}

/-- The axis burst of a started command. -/
theorem agRead6_of_started (hreg : reg (nextPhase (startCommand op s)) = reg s) (hd : s.ctrl.agTAttach = true)
    (ha : s.ctrl.btAttach = true) (hn : bs.length = 6) (he : s.env = selectAns s s.cfg.agAddr ++ (readAns bs ++ es)) :
    ∃ q, agRead6 (reg (nextPhase (startCommand op s))) (nextPhase (startCommand op s)) =
      .ret (decode6 bs) (((readDone s.cfg.agAddr (reg s) bs (nextPhase (startCommand op s))).withEnv es).withSeq q) :=
  hreg ▸ agRead6_full hd ha hn he

/-- A read command that does `f` to the registers with the axes read (R200 to R203). -/
theorem command_agRead6_does {f : State → State} (hf : Neutral f) (hcomm : ∀ u, f (u.withEnv es) = (f u).withEnv es)
    (hput : ∀ u : State, u.ag = s.ag → put (decode6 bs) u = f u) (hreg : reg (nextPhase (startCommand op s)) = reg s)
    (hb : s.cmd.busy = false) (hd : s.ctrl.agTAttach = true) (ha : s.ctrl.btAttach = true)
    (ht : turnAhead es = false) (hn : bs.length = 6)
    (he : s.env = selectAns s s.cfg.agAddr ++ (readAns bs ++ es)) :
    command op true resultZero
      (fun t => (agRead6 (reg t) t).andThen fun r u => .ret () (setResult (put r u) 1)) s =
    .next (succeeded (setResult (f ((readDone s.cfg.agAddr (reg s) bs s).withEnv es)) 1)) := by
  obtain ⟨q, h⟩ := agRead6_of_started (op := op) hreg hd ha hn he
  rw [hcomm]
  refine command_does (q := q) (hf.after (neutral_readDone s.cfg.agAddr (reg s) bs)) hb rfl
    (he ▸ turnAhead_selectAns s _ rfl) ht ?_
  rw [h, Res.ret_andThen,
    hput (((readDone s.cfg.agAddr (reg s) bs (nextPhase (startCommand op s))).withEnv es).withSeq q) rfl,
    hf.withSeq, hcomm]

end

section
variable {op : BitVec 6} {reg : State → Byte} {res : State → Word} {i j k i' j' k' : Fin 32} {bs : List Byte}
  {s : State} {es : List Event}

/-- The raw values of an axis burst, and their products with a cached resolution. -/
def putScaled (i j k i' j' k' : Fin 32) (res : State → Word) (r : Raw3) (u : State) : State :=
  putFx3 (u.setX3 i j k (sext16 r.x) (sext16 r.y) (sext16 r.z)) i' j' k'
    (fxScale r.x (res u)) (fxScale r.y (res u)) (fxScale r.z (res u))

/-- A raw read (R200, R201). -/
theorem command_rawRead_does (hreg : reg (nextPhase (startCommand op s)) = reg s)
    (hb : s.cmd.busy = false) (hd : s.ctrl.agTAttach = true) (ha : s.ctrl.btAttach = true)
    (ht : turnAhead es = false) (hn : bs.length = 6)
    (he : s.env = selectAns s s.cfg.agAddr ++ (readAns bs ++ es)) :
    let r := decode6 bs
    command op true resultZero (fun t => (agRead6 (reg t) t).andThen fun r u =>
      .ret () (setResult (u.setX3 i j k (sext16 r.x) (sext16 r.y) (sext16 r.z)) 1)) s =
    .next (succeeded (setResult (((readDone s.cfg.agAddr (reg s) bs s).withEnv es).setX3 i j k (r.x.signExtend 32)
      (r.y.signExtend 32) (r.z.signExtend 32)) 1)) :=
  command_agRead6_does (put := fun r u => u.setX3 i j k (sext16 r.x) (sext16 r.y) (sext16 r.z))
    (neutral_setX3 i j k _ _ _) (fun u => State.withEnv_setX3 u i j k _ _ _ es) (fun _ _ => rfl) hreg hb hd ha ht hn he

/-- A scaled read whose resolution is so small that nothing saturates (R202, R203). -/
theorem command_scaledRead_does (hres : ∀ u : State, u.ag = s.ag → res u = res s)
    (htable : 0 ≤ (res s).toInt ∧ (res s).toInt ≤ 39322) (hreg : reg (nextPhase (startCommand op s)) = reg s)
    (hb : s.cmd.busy = false) (hd : s.ctrl.agTAttach = true) (ha : s.ctrl.btAttach = true)
    (ht : turnAhead es = false) (hn : bs.length = 6)
    (he : s.env = selectAns s s.cfg.agAddr ++ (readAns bs ++ es)) :
    let r := decode6 bs
    command op true resultZero
      (fun t => (agRead6 (reg t) t).andThen fun r u => .ret () (setResult (putScaled i j k i' j' k' res r u) 1)) s =
    .next (succeeded (setResult ((((readDone s.cfg.agAddr (reg s) bs s).withEnv es).setX3 i j k (r.x.signExtend 32)
      (r.y.signExtend 32) (r.z.signExtend 32)).setX3 i' j' k' (r.x.signExtend 32 * res s)
      (r.y.signExtend 32 * res s) (r.z.signExtend 32 * res s)) 1)) := by
  intro r
  refine command_agRead6_does (put := putScaled i j k i' j' k' res)
    ((neutral_setX3 i' j' k' _ _ _).after (neutral_setX3 i j k _ _ _))
    (fun u => by rw [State.withEnv_setX3, State.withEnv_setX3]) (fun u hu => ?_) hreg hb hd ha ht hn he
  rw [putScaled, hres u hu, fxScale_of_table htable, fxScale_of_table htable, fxScale_of_table htable,
    putFx3_of_not_sat]
  rfl

/-- The products a scaled read leaves, saturated or not. -/
theorem command_scaledRead_getX (hres : ∀ u : State, u.ag = s.ag → res u = res s)
    (hdistinct : [i', j', k', 31].Nodup) (hreg : reg (nextPhase (startCommand op s)) = reg s)
    (hb : s.cmd.busy = false) (hd : s.ctrl.agTAttach = true) (ha : s.ctrl.btAttach = true)
    (ht : turnAhead es = false) (hn : bs.length = 6)
    (he : s.env = selectAns s s.cfg.agAddr ++ (readAns bs ++ es)) :
    let r := decode6 bs
    ∃ t, command op true resultZero
        (fun t => (agRead6 (reg t) t).andThen fun r u => .ret () (setResult (putScaled i j k i' j' k' res r u) 1)) s =
        .next t ∧
      t.getX i' = (fxScale r.x (res s)).val ∧ t.getX j' = (fxScale r.y (res s)).val ∧
      t.getX k' = (fxScale r.z (res s)).val := by
  intro r
  obtain ⟨q, h⟩ := agRead6_of_started (op := op) hreg hd ha hn he
  generalize hu : (((readDone s.cfg.agAddr (reg s) bs (nextPhase (startCommand op s))).withEnv es).withSeq q) = u at h
  have hag : res u = res s := hres u (by rw [← hu]; rfl)
  have henv : u.env = es := by rw [← hu]; rfl
  refine ⟨_, command_succeeds hb rfl (he ▸ turnAhead_selectAns s _ rfl)
    (u := setResult (putScaled i j k i' j' k' res r u) 1) (by rw [h]; rfl)
    (by rw [setResult_env, putScaled, putFx3_env, State.setX3_env, henv]; exact ht), ?_⟩
  simp only [List.nodup_cons, List.mem_cons, List.not_mem_nil, or_false, not_or] at hdistinct
  obtain ⟨⟨hij, hik, hi⟩, ⟨hjk, hj⟩, hk, -⟩ := hdistinct
  exact ⟨by simp [putScaled, putFx3_getX, hag, Ne.symm hi, Ne.symm hik, Ne.symm hij],
    by simp [putScaled, putFx3_getX, hag, Ne.symm hj, Ne.symm hjk],
    by simp [putScaled, putFx3_getX, hag, Ne.symm hk]⟩

end

/-- Settles O26: the registers each read writes, exactly where no scaled value saturates, and their values in any
case. -/
theorem agReads : Obligations.AgReads := by
  intro s b0 b1 b2 b3 b4 b5 es hb hd ha ht he x y z rd
  refine ⟨?_, ?_, fun ⟨hares, hgres, _⟩ => ⟨?_, ?_⟩, ?_, ?_⟩
  · exact command_rawRead_does (reg := fun t => t.cfg.agAccelOut) rfl hb hd ha ht rfl he
  · exact command_rawRead_does (reg := fun t => t.cfg.agGyroOut) rfl hb hd ha ht rfl he
  · exact command_scaledRead_does (reg := fun t => t.cfg.agAccelOut) (res := fun u => u.ag.ares)
      (fun _ h => congrArg AgDriver.ares h) (hares ▸ aresTable_range s.ag.arange) rfl hb hd ha ht rfl he
  · exact command_scaledRead_does (reg := fun t => t.cfg.agGyroOut) (res := fun u => u.ag.gres)
      (fun _ h => congrArg AgDriver.gres h) (hgres ▸ gresTable_range s.ag.grange) rfl hb hd ha ht rfl he
  · exact command_scaledRead_getX (i := 0) (j := 1) (k := 2) (reg := fun t => t.cfg.agAccelOut)
      (res := fun u => u.ag.ares) (bs := [b0, b1, b2, b3, b4, b5]) (fun _ h => congrArg AgDriver.ares h) (by decide)
      rfl hb hd ha ht rfl he
  · exact command_scaledRead_getX (i := 3) (j := 4) (k := 5) (reg := fun t => t.cfg.agGyroOut)
      (res := fun u => u.ag.gres) (bs := [b0, b1, b2, b3, b4, b5]) (fun _ h => congrArg AgDriver.gres h) (by decide)
      rfl hb hd ha ht rfl he

end Sys2Proof.Machine
end

section
/-! PROOF, shared by the claims about failing commands. What a command that succeeds leaves of the error word, what a
routine's errors wrap, and what an error word says of its class. -/

namespace Sys2Proof.Machine

open Sys2Proof

/-- A command that succeeds leaves no error word: the start clears it, and a failure writes both (R328, R330). -/
theorem err_eq_zero_of_succeeded {i : Instr} {s t : State} (hb : s.cmd.busy = false)
    (hq : hostQuiet s.env = true) (h : exec i s = .next t) (hf : t.cmd.fail = false) : t.cmd.err = 0 :=
  have kept : Kept (writes i) false false (fun u => u.cmd.err = 0) fun u => u.cmd.fail = false → u.cmd.err = 0 := {
    done := fun _ he _ => he
    failed := fun _ _ _ hf => nomatch hf
    top := fun _ _ _ he _ => he }
  kept.quietExec hb hq (fun _ => rfl) (fun hf => nomatch hf) h hf

section
variable {α : Type} {R : State → Prop} {E : Err → State → Prop} {r : Res α}

theorem Res.Post.weaken {E' : Err → State → Prop} (h : r.Post R E) (hE : ∀ e t, E e t → E' e t) :
    r.Post R E' := by
  cases r with
  | ret a s => exact h
  | raise e s => exact hE e s h
  | stop o => cases o <;> exact h

/-- What a routine comes to, with what its errors wrap. -/
theorem Res.Post.wrapsIo (h : r.Post R E) (hw : r.WrapsIo) :
    r.Post R fun e t => E e t ∧ ∃ k, e.kind.inner = some k := by
  cases r with
  | ret a s => exact h
  | raise e s => exact ⟨h, hw⟩
  | stop o => cases o <;> exact h

end

/-- `ERR.CLASS` of an error word (spec/60_exceptions.md R321). -/
theorem errword_class (e : Err) : (errword e).toNat % 16 = e.kind.classNum := by
  have hc : e.kind.classNum ≤ 4 := by cases e.kind <;> simp [ErrKind.classNum]
  rw [errword, BitVec.toNat_ofNat]
  omega

/-- A transport error, bare or wrapped, has no error word of a data error (R320, R321). -/
theorem errword_ne_overflow_of_inner {e : Err} {k : IoKind} (h : e.kind.inner = some k) :
    errword e ≠ errword ⟨.overflow, .mg⟩ := by
  intro heq
  have hclass : e.kind.classNum = 3 := by rw [← errword_class, heq]; rfl
  obtain ⟨kind, dev⟩ := e
  cases kind with
  | notReady => cases h
  | overflow => cases h
  | _ => cases hclass

end Sys2Proof.Machine
end

section
/-! PROOF of O27 to O31. MagDriver (spec/44_mag.md R220 to R237). Against a bus that answers, each command is its
routine (`mgInitialize_full`, `mgBurst_full`) in the frame of a command; against any bus, what its routine comes to is
said for each part of it (`Res.Post`). -/

namespace Sys2Proof.Machine

open Sys2Proof

/-! ## O27: MG.INIT against a bus that answers -/

theorem adjOf_eq_ofNat (r : Byte) : adjOf r = BitVec.ofNat 32 ((r.toNat + 128) * 256) := by
  apply BitVec.eq_of_toNat_eq
  simp [adjOf]

theorem modeDone_mg (m : MagMode) (b : Byte) (s : State) : (modeDone m b s).mg = { s.mg with mode := m } := by
  cases m <;> rfl

/-- PowerDown has a settle wait (R222). -/
theorem modeDone_powerDown_clock {b : Byte} {s : State} (h : s.clock.toNat + 100 < 2 ^ 64) :
    (modeDone .powerDown b s).clock.toNat = s.clock.toNat + 100 := by
  rw [modeDone, if_pos rfl, waited, State.withClock_clock, BitVec.toNat_ofNat]
  exact Nat.mod_eq_of_lt h

theorem modeDone_fuseRom_clock (b : Byte) (s : State) : (modeDone .fuseRom b s).clock = s.clock := rfl

/-- What MG_INIT leaves of the driver (R224, R225). -/
theorem mgInitDone_mg (b0 b1 b2 a0 a1 a2 : Byte) (s : State) : (mgInitDone b0 b1 b2 [a0, a1, a2] s).mg =
    { s.mg with mode := .powerDown, stage := 4, initDone := true, adj := ⟨adjOf a0, adjOf a1, adjOf a2⟩ } := by
  simp only [mgInitDone, setMgStage, setMgAdj, State.withMg_mg, modeDone_mg]
  rfl

theorem readDone_clock (a : BitVec 7) (reg : Byte) (bs : List Byte) (s : State) :
    (readDone a reg bs s).clock = s.clock := rfl

/-- The two settle waits of MG_INIT (R390). -/
theorem mgInitDone_clock {b0 b1 b2 : Byte} {asa : List Byte} {s : State} (h : s.clock.toNat + 200 < 2 ^ 64) :
    (mgInitDone b0 b1 b2 asa s).clock.toNat = s.clock.toNat + 200 := by
  have first (u : State) (hu : u.clock = s.clock) :
      (modeDone .powerDown b0 u).clock.toNat = s.clock.toNat + 100 :=
    (modeDone_powerDown_clock (hu ▸ by omega)).trans (by rw [hu])
  have second (u : State) (hu : u.clock.toNat = s.clock.toNat + 100) :
      (modeDone .powerDown b2 u).clock.toNat = s.clock.toNat + 200 :=
    (modeDone_powerDown_clock (by omega)).trans (by omega)
  simp only [mgInitDone, setMgStage, setMgAdj, State.withMg_clock]
  refine second _ ?_
  simp only [State.withMg_clock, readDone_clock, modeDone_fuseRom_clock]
  exact first _ (State.withMg_clock _ _)

/-- Settles O27: the whole initialization, answered in full, in the frame of its command. -/
theorem mgInitCompletes : Obligations.MgInitCompletes := by
  intro s m0 m1 m2 a0 a1 a2 es hb hd ha ht hc he
  refine ⟨?_, ?_, mgInitDone_clock hc⟩
  · obtain ⟨q, hinit⟩ := mgInitialize_full (s := nextPhase (startCommand 0x18 s)) hd ha rfl he hc
    exact command_does (neutral_mgInitDone m0 m1 m2 [a0, a1, a2]) hb rfl
      (he ▸ turnAhead_selectAns s _ (turnAhead_modeAns .powerDown m0 _)) ht (by rw [hinit]; rfl)
  · rw [mgInitDone_mg, adjOf_eq_ofNat, adjOf_eq_ofNat, adjOf_eq_ofNat]

/-! ## O28: MG.INIT, whatever the bus answers -/

theorem wrapsIo_mgSetMode (m : MagMode) (s : State) : (mgSetMode m s).WrapsIo :=
  (wrapsIo_wrBits .mg _ _ _ _ s).andThen fun _ t => by
    dsimp only
    split
    · exact wrapsIo_waitFor _ _
    · trivial

/-- The driver in the course of MG_INIT, which began with the driver `mg` (R224). -/
def MgDriver.atStage (mg : MgDriver) (mode : MagMode) (stage : BitVec 3) (adj : Vec3) : MgDriver :=
  { mg with mode := mode, stage := stage, adj := adj, initDone := false }

/-- The stages of MG_INIT stopped before the last was done: the multipliers are old before stage 3 (R224). -/
def StoppedAt (mg : MgDriver) (s : State) : Prop :=
  ∃ mode stage adj, s.mg = mg.atStage mode stage adj ∧ stage.toNat ≤ 3 ∧ (stage.toNat < 3 → adj = mg.adj)

/-- MG_INIT failed with `e`: `e` names the stage reached, and wraps a transport error (R224). -/
def MgInitFailed (mg : MgDriver) (e : Err) (s : State) : Prop :=
  StoppedAt mg s ∧ ∃ k, e = ⟨.initSequenceFailed s.mg.stage (some k), .mg⟩

theorem busUnaware_mgInitFailed (mg : MgDriver) (e : Err) : BusUnaware (MgInitFailed mg e) :=
  busUnaware_of fun _ _ _ _ m =>
    (∃ mode stage adj, m = mg.atStage mode stage adj ∧ stage.toNat ≤ 3 ∧ (stage.toNat < 3 → adj = mg.adj)) ∧
      ∃ k, e = ⟨.initSequenceFailed m.stage (some k), .mg⟩

section
variable {ag : AgDriver} {mg : MgDriver} {mode : MagMode} {stage : BitVec 3} {adj : Vec3} {s : State}

/-- A routine of a stage that leaves the driver alone when it fails. -/
theorem Res.Post.stopped {α : Type} {R : State → Prop} {r : Res α}
    (h : r.Post R fun _ => Quiet (Drivers ag (mg.atStage mode stage adj))) (hw : r.WrapsIo)
    (hstage : stage.toNat ≤ 3) (hadj : stage.toNat < 3 → adj = mg.adj) :
    r.Post R fun e t => Quiet (StoppedAt mg) t ∧ ∃ k, e.kind.inner = some k :=
  (h.wrapsIo hw).weaken fun _ _ ⟨⟨hb, hq, _, _, hm⟩, hk⟩ =>
    ⟨⟨hb, hq, mode, stage, adj, hm, hstage, hadj⟩, hk⟩

/-- A mode change in the course of MG_INIT (R222, R224). -/
theorem mgSetMode_post_atStage (m : MagMode) (hstage : stage.toNat ≤ 3) (hadj : stage.toNat < 3 → adj = mg.adj)
    (h : Quiet (Drivers ag (mg.atStage mode stage adj)) s) :
    (mgSetMode m s).Post (Quiet (Drivers ag (mg.atStage m stage adj)))
      fun e t => Quiet (StoppedAt mg) t ∧ ∃ k, e.kind.inner = some k :=
  (mgSetMode_post m h).stopped (wrapsIo_mgSetMode m s) hstage hadj

theorem devRead_post_atStage (reg : Byte) {n : Nat} (hn : n ≤ 511) (hstage : stage.toNat ≤ 3)
    (hadj : stage.toNat < 3 → adj = mg.adj) (h : Quiet (Drivers ag (mg.atStage mode stage adj)) s) :
    (devRead .mg reg n s).Post (Quiet (Drivers ag (mg.atStage mode stage adj)))
      fun e t => Quiet (StoppedAt mg) t ∧ ∃ k, e.kind.inner = some k :=
  (devRead_keeps (busUnaware_drivers _ _).stableBus hn h).post.stopped (wrapsIo_devRead .mg reg n s) hstage hadj

/-- The next stage begins. -/
theorem setMgStage_atStage (n : BitVec 3) (h : Quiet (Drivers ag (mg.atStage mode stage adj)) s) :
    Quiet (Drivers ag (mg.atStage mode n adj)) (setMgStage n s) := by
  obtain ⟨hb, hq, hf, ha, hm⟩ := h
  exact ⟨hb, hq, hf, ha, by rw [setMgStage, State.withMg_mg, hm]; rfl⟩

theorem setMgAdj_atStage (bs : List Byte) (h : Quiet (Drivers ag (mg.atStage mode stage adj)) s) :
    Quiet (Drivers ag (mg.atStage mode stage ⟨adjOf (byteAt bs 0), adjOf (byteAt bs 1), adjOf (byteAt bs 2)⟩))
      (setMgAdj bs s) := by
  obtain ⟨hb, hq, hf, ha, hm⟩ := h
  exact ⟨hb, hq, hf, ha, by rw [setMgAdj, State.withMg_mg, hm]; rfl⟩

/-- All four stages were done (R224). -/
def StagesDone (ag : AgDriver) (mg : MgDriver) (s : State) : Prop :=
  ∃ adj, Drivers ag (mg.atStage .powerDown 4 adj) s

/-- The four stages (R224): the multipliers come after the bytes of the fuse ROM, in stage 3. -/
theorem mgStages_post (h : Quiet (Drivers ag (mg.atStage mode 0 mg.adj)) s) :
    (mgStages s).Post (Quiet (StagesDone ag mg)) fun e t => Quiet (StoppedAt mg) t ∧ ∃ k, e.kind.inner = some k :=
  (mgSetMode_post_atStage .powerDown (by decide) (fun _ => rfl) h).andThen fun _ _ h0 =>
  (mgSetMode_post_atStage .fuseRom (by decide) (fun _ => rfl) (setMgStage_atStage 1 h0)).andThen fun _ _ h1 =>
  (devRead_post_atStage _ (by decide) (by decide) (fun _ => rfl) (setMgStage_atStage 2 h1)).andThen fun bs _ h2 =>
  (mgSetMode_post_atStage .powerDown (by decide) (fun h => absurd h (by decide))
    (setMgStage_atStage 3 (setMgAdj_atStage bs h2))).andThen fun _ _ h3 =>
  have ⟨hb, hq, hd⟩ := setMgStage_atStage 4 h3
  ⟨hb, hq, _, hd⟩

/-- MG_INIT completed (R224). -/
def MgInitCompleted (mg : MgDriver) (s : State) : Prop :=
  s.cmd.fail = false ∧ ∃ adj, s.mg = { mg.atStage .powerDown 4 adj with initDone := true }

/-- Inside MG.INIT with a transport, before its first stage. -/
def MgInitBegun (ag : AgDriver) (mg : MgDriver) (s : State) : Prop :=
  Drivers ag mg s ∧ s.ctrl.mgTAttach = true

/-- The transport is there, so nothing fails before the first stage (R224). -/
theorem mgInitialize_post (h : Quiet (MgInitBegun ag mg) s) :
    (mgInitialize s).Post (Quiet (MgInitCompleted mg)) fun e => Quiet (MgInitFailed mg e) := by
  obtain ⟨hb, hq, ⟨hf, ha, hm⟩, hd⟩ := h
  have h0 : Quiet (Drivers ag (mg.atStage mg.mode 0 mg.adj)) (s.withMg { s.mg with initDone := false, stage := 0 }) :=
    ⟨hb, hq, hf, ha, by rw [State.withMg_mg, hm]; rfl⟩
  rw [mgInitialize, rdCheck_ok (dev := .mg) hd, Res.ret_andThen]
  refine ((mgStages_post h0).mapErr ?_).andThen ?_
  · rintro e t ⟨⟨hb, hq, hs⟩, k, hk⟩
    exact ⟨hb, hq, hs, k, by rw [hk]⟩
  · rintro - t ⟨hb, hq, adj, hf, -, hm⟩
    exact ⟨hb, hq, hf, adj, by rw [State.withMg_mg, hm]⟩

end

/-- How MG.INIT with a transport ends, which began with the driver `mg` (R224). -/
def MgInitEnded (mg : MgDriver) (t : State) : Prop :=
  (MgInitCompleted mg t ∧ t.getX 31 = 4) ∨
  (t.cmd.fail = true ∧ StoppedAt mg t ∧ t.getX 31 = t.mg.stage.zeroExtend 32 ∧
    ∃ k : IoKind, t.cmd.err = errword ⟨.initSequenceFailed t.mg.stage (some k), .mg⟩)

/-- What the four stages come to (`mgInitialize_post`), in the frame of the command. -/
theorem exec_mgInit_ended {s t : State} (hb : s.cmd.busy = false) (hd : s.ctrl.mgTAttach = true)
    (hq : hostQuiet s.env = true) (h : exec .mgInit s = .next t) : MgInitEnded s.mg t := by
  have begun : BusUnaware (MgInitBegun s.ag s.mg) :=
    busUnaware_of fun c _ k a m => (c.fail = false ∧ a = s.ag ∧ m = s.mg) ∧ k.mgTAttach = true
  have done : BusUnaware fun u => MgInitCompleted s.mg u ∧ u.getX 31 = 4 :=
    busUnaware_of fun c x _ _ m =>
      (c.fail = false ∧ ∃ adj, m = { s.mg.atStage .powerDown 4 adj with initDone := true }) ∧ x.get 31 = 4
  refine (command_post (op := 0x18) (legal := true) (result := resultMgStage)
    (body := fun t => (mgInitialize t).andThen fun _ u => .ret () (setResult u 4)) (K := MgInitEnded s.mg)
    begun.stable done.stable (fun e => (busUnaware_mgInitFailed s.mg e).stable) hb rfl
    ⟨rfl, hq, ⟨rfl, rfl, rfl⟩, hd⟩ (fun u hu => ?_) (fun w hw => ?_) fun e w hw => ?_).next h
  · refine (mgInitialize_post hu).andThen fun _ w ⟨hbw, hqw, hw⟩ => ⟨hbw, hqw, hw, ?_⟩
    rw [setResult_getX, if_pos rfl]
  · obtain ⟨-, -, hdone⟩ := hw
    exact .inl hdone
  · obtain ⟨-, -, hstop, k, rfl⟩ := hw
    exact .inr ⟨rfl, hstop, (setResult_getX w _ 31).trans (if_pos rfl), k, rfl⟩

/-- Settles O28: the driver as MG.INIT leaves it (`exec_mgInit_ended`), read field by field. -/
theorem mgInitOutcome : Obligations.MgInitOutcome := by
  intro s t hb hd hq h
  obtain ⟨⟨hf, adj, hm⟩, hx⟩ | ⟨hf, ⟨mode, stage, adj, hm, hstage, hadj⟩, hx, k, he⟩ :=
    exec_mgInit_ended hb hd hq h
  · have herr := err_eq_zero_of_succeeded hb hq h hf
    rw [hm]
    exact ⟨rfl, rfl, rfl, .inl ⟨hf, herr, rfl, rfl, rfl, hx⟩⟩
  · rw [hm] at hx he ⊢
    exact ⟨rfl, rfl, rfl, .inr ⟨hf, hstage, rfl, hx, hadj, k, he⟩⟩

/-! ## O29 and O30: the two reads of a burst -/

/-- After a full burst whose overflow bit was `v` (R233). -/
def mgBurstDone (v : Bool) (bs : List Byte) (s : State) : State :=
  let t := readDone s.cfg.mgAddr s.cfg.mgBurstReg bs s
  t.withMg { t.mg with ovf := v }

theorem neutral_mgBurstDone (v : Bool) (bs : List Byte) : Neutral (mgBurstDone v bs) :=
  ⟨fun _ _ _ => rfl, fun _ => rfl⟩

theorem mgBurstDone_x (v : Bool) (bs : List Byte) (s : State) : (mgBurstDone v bs s).x = s.x := rfl

/-- The raw values of a burst, and their products with the resolution and the multipliers (R234, R235). -/
def putMagSample (r : Raw3) (u : State) : State :=
  putFx3 (putRawM u r) 15 16 17 (mgScale r.x u.mg.res u.mg.adj.x) (mgScale r.y u.mg.res u.mg.adj.y)
    (mgScale r.z u.mg.res u.mg.adj.z)

section
variable {bs : List Byte} {s : State} {es : List Event} (hd : s.ctrl.mgTAttach = true)
  (ha : s.ctrl.btAttach = true) (hn : bs.length = 8) (he : s.env = selectAns s s.cfg.mgAddr ++ (readAns bs ++ es))
include hd ha hn he

/-- A ready burst (R229, R233). -/
theorem mgBurst_ready (hready : (byteAt bs 0).getLsbD s.cfg.mgDrdyBit = true) :
    ∃ q, mgBurst s = if (byteAt bs 7).getLsbD s.cfg.mgHoflBit then
        .raise ⟨.overflow, .mg⟩ (((mgBurstDone true bs s).withEnv es).withSeq q)
      else .ret (decodeBurst s.cfg.magLowByteFirst bs) (((mgBurstDone false bs s).withEnv es).withSeq q) := by
  obtain ⟨q, h⟩ := mgBurst_full hd ha hn he
  dsimp only at h
  rw [if_neg (by rw [hready]; decide)] at h
  exact ⟨q, h⟩

section
variable {op : BitVec 6} {put : Raw3 → State → Res Unit} (hb : s.cmd.busy = false) (ht : turnAhead es = false)
include hb ht

/-- A read of a burst that is not ready (R229). -/
theorem command_mgBurst_notReady (hready : (byteAt bs 0).getLsbD s.cfg.mgDrdyBit = false) :
    command op true resultZero (fun t => (mgBurst t).andThen put) s = .next (failedWith ⟨.notReady, .mg⟩
      (setResult ((readDone s.cfg.mgAddr s.cfg.mgBurstReg bs s).withEnv es) 0)) := by
  obtain ⟨q, h⟩ := mgBurst_full (s := nextPhase (startCommand op s)) hd ha hn he
  refine command_does_and_fails (q := q) (neutral_readDone s.cfg.mgAddr s.cfg.mgBurstReg bs) hb rfl
    (he ▸ turnAhead_selectAns s _ rfl) ht ?_ fun _ _ => rfl
  rw [h]
  simp only [if_pos (show (byteAt bs 0).getLsbD (nextPhase (startCommand op s)).cfg.mgDrdyBit = false from hready)]
  rfl

/-- A read of a ready burst that has overflowed (R229, R233). -/
theorem command_mgBurst_overflow (hready : (byteAt bs 0).getLsbD s.cfg.mgDrdyBit = true)
    (hovf : (byteAt bs 7).getLsbD s.cfg.mgHoflBit = true) :
    command op true resultZero (fun t => (mgBurst t).andThen put) s =
      .next (failedWith ⟨.overflow, .mg⟩ (setResult ((mgBurstDone true bs s).withEnv es) 0)) := by
  obtain ⟨q, h⟩ := mgBurst_ready (s := nextPhase (startCommand op s)) hd ha hn he hready
  rw [if_pos (by exact hovf)] at h
  exact command_does_and_fails (q := q) (neutral_mgBurstDone true bs) hb rfl (he ▸ turnAhead_selectAns s _ rfl) ht
    (by rw [h]; rfl) fun _ _ => rfl

end

section
variable (hready : (byteAt bs 0).getLsbD s.cfg.mgDrdyBit = true)
  (hovf : (byteAt bs 7).getLsbD s.cfg.mgHoflBit = false)
include hready hovf

/-- The good burst of a started command. -/
theorem mgBurst_of_started (op : BitVec 6) :
    ∃ q, mgBurst (nextPhase (startCommand op s)) = .ret (decodeBurst s.cfg.magLowByteFirst bs)
      (((mgBurstDone false bs (nextPhase (startCommand op s))).withEnv es).withSeq q) := by
  obtain ⟨q, h⟩ := mgBurst_ready (s := nextPhase (startCommand op s)) hd ha hn he hready
  exact ⟨q, h.trans (if_neg (by rw [nextPhase_cfg, startCommand_cfg, hovf]; decide))⟩

/-- MG.RDRAW of a good burst (R234). -/
theorem exec_mgRdraw_good (hb : s.cmd.busy = false) (ht : turnAhead es = false) :
    exec .mgRdraw s = .next (succeeded (setResult
      (putRawM ((mgBurstDone false bs s).withEnv es) (decodeBurst s.cfg.magLowByteFirst bs)) 1)) := by
  obtain ⟨q, h⟩ := mgBurst_of_started hd ha hn he hready hovf 0x1B
  rw [putRawM, State.withEnv_setX3]
  refine command_does (q := q) ((neutral_setX3 6 7 8 _ _ _).after (neutral_mgBurstDone false bs)) hb rfl
    (he ▸ turnAhead_selectAns s _ rfl) ht ?_
  rw [h, Res.ret_andThen, putRawM, State.withSeq_setX3, State.withEnv_setX3]

/-- MG.RD of a good burst (R235): its sample is put into a state `u` that has the registers of the start. -/
theorem exec_mgRd_good (hb : s.cmd.busy = false) (ht : turnAhead es = false) :
    ∃ u, exec .mgRd s = .next (completeCommand (nextPhase (setResult
        (putMagSample (decodeBurst s.cfg.magLowByteFirst bs) u) 1))) ∧
      u.x = s.x ∧ u.mg = { s.mg with ovf := false } ∧ u.buf = (mgBurstDone false bs s).buf ∧
      u.port = (mgBurstDone false bs s).port ∧ u.cmd.fail = false ∧ u.cmd.fxSat = s.cmd.fxSat := by
  obtain ⟨q, h⟩ := mgBurst_of_started hd ha hn he hready hovf 0x1C
  refine ⟨((mgBurstDone false bs (nextPhase (startCommand 0x1C s))).withEnv es).withSeq q,
    command_succeeds hb rfl (he ▸ turnAhead_selectAns s _ rfl) (by rw [h]; rfl) ?_,
    mgBurstDone_x false bs (nextPhase _), rfl, rfl, rfl, rfl, rfl⟩
  rw [setResult_env, putMagSample, putFx3_env, putRawM, State.setX3_env]
  exact ht

end

end

/-- A sample scaled by a resolution of the table and a multiplier of a fuse ROM, at most (255 + 128) * 256, fits
(R225, R235). -/
theorem mgScale_sat_of_fuseRom {raw : BitVec 16} {res adj : Word} (hres : 0 ≤ res.toInt ∧ res.toInt ≤ 39322)
    (hadj : adj.toNat ≤ 98048) : (mgScale raw res adj).sat = false := by
  obtain ⟨h0, hmax⟩ := hres
  have hsat := fxScale_sat_of_table (raw := raw) h0 hmax
  have hval : (fxScale raw res).val.toInt = raw.toInt * res.toInt := by
    rwa [← Bool.not_eq_true, fxScale, fxResult_sat_iff, not_not, ← toInt_fxResult _ false] at hsat
  have hint : adj.toInt = adj.toNat := BitVec.toInt_eq_toNat_of_lt (by omega)
  have hraw : -32768 ≤ raw.toInt := BitVec.le_toInt raw
  have hraw' : raw.toInt < 32768 := BitVec.toInt_lt
  have hlo : -32768 * 39322 ≤ raw.toInt * res.toInt := by nlinarith
  have hhi : raw.toInt * res.toInt ≤ 32768 * 39322 := by nlinarith
  have hlo' : -32768 * 39322 * 98048 ≤ raw.toInt * res.toInt * adj.toNat := by nlinarith
  have hhi' : raw.toInt * res.toInt * adj.toNat ≤ 32768 * 39322 * 98048 := by nlinarith
  rw [mgScale, fxMul, hsat, hval, Fx.of, hint, Bool.or_false, ← Bool.not_eq_true, fxResult_sat_iff, not_not,
    fxClamp_eq_self_iff, fxMin, fxMax]
  omega

theorem mresTable_range (code : BitVec 1) : 0 ≤ (mresTable code).toInt ∧ (mresTable code).toInt ≤ 39322 := by
  revert code; decide

theorem decodeBurst_bytes (low : Bool) (b0 b1 b2 b3 b4 b5 b6 b7 : Byte) :
    decodeBurst low [b0, b1, b2, b3, b4, b5, b6, b7] =
      ⟨if low then b2 ++ b1 else b1 ++ b2, if low then b4 ++ b3 else b3 ++ b4,
        if low then b6 ++ b5 else b5 ++ b6⟩ := by
  cases low <;> rfl

/-- The registers an MG.RD leaves (R234, R235). -/
theorem putMagSample_getX (r : Raw3) (u : State) (n : Fin 32) : (putMagSample r u).getX n =
    if 17 = n then (mgScale r.z u.mg.res u.mg.adj.z).val else if 16 = n then (mgScale r.y u.mg.res u.mg.adj.y).val
    else if 15 = n then (mgScale r.x u.mg.res u.mg.adj.x).val
    else if 8 = n then sext16 r.z else if 7 = n then sext16 r.y else if 6 = n then sext16 r.x else u.getX n := by
  rw [putMagSample, putFx3_getX, putRawM, State.setX3_getX]

/-- A sample none of whose axes saturates leaves the flag `fx_sat` as it is. -/
theorem putMagSample_fxSat {r : Raw3} {u : State} (hres : 0 ≤ u.mg.res.toInt ∧ u.mg.res.toInt ≤ 39322)
    (hx : u.mg.adj.x.toNat ≤ 98048) (hy : u.mg.adj.y.toNat ≤ 98048) (hz : u.mg.adj.z.toNat ≤ 98048) :
    (putMagSample r u).cmd.fxSat = u.cmd.fxSat := by
  rw [putMagSample, putFx3_cmd, mgScale_sat_of_fuseRom hres hx, mgScale_sat_of_fuseRom hres hy,
    mgScale_sat_of_fuseRom hres hz]
  exact Bool.or_false _

theorem putMagSample_getX_of_ne {n : Fin 32} (hn : n ∉ [6, 7, 8, 15, 16, 17]) (r : Raw3) (u : State) :
    (putMagSample r u).getX n = u.getX n := by
  simp only [List.mem_cons, List.not_mem_nil, or_false, not_or] at hn
  obtain ⟨h6, h7, h8, h15, h16, h17⟩ := hn
  rw [putMagSample_getX, if_neg (Ne.symm h17), if_neg (Ne.symm h16), if_neg (Ne.symm h15), if_neg (Ne.symm h8),
    if_neg (Ne.symm h7), if_neg (Ne.symm h6)]

/-- Settles O29: the registers and the driver as the two reads leave them, in either byte order. -/
theorem mgReads : Obligations.MgReads := by
  intro s b0 b1 b2 b3 b4 b5 b6 b7 es hb hd ha ht hready hovf he x y z u
  have axes : decodeBurst s.cfg.magLowByteFirst [b0, b1, b2, b3, b4, b5, b6, b7] = ⟨x, y, z⟩ :=
    decodeBurst_bytes _ b0 b1 b2 b3 b4 b5 b6 b7
  have raw := exec_mgRdraw_good hd ha rfl he hready hovf hb ht
  obtain ⟨v, scaled, hX, hmg, hbuf, hport, hfail, hsat⟩ := exec_mgRd_good hd ha rfl he hready hovf hb ht
  rw [axes] at raw scaled
  have getX (k : Fin 32) : (completeCommand (nextPhase (setResult (putMagSample ⟨x, y, z⟩ v) 1))).getX k =
      if 31 = k then 1 else (putMagSample ⟨x, y, z⟩ v).getX k := setResult_getX _ _ k
  have sample (k : Fin 32) := putMagSample_getX ⟨x, y, z⟩ v k
  rw [hmg] at sample
  refine ⟨raw, _, scaled, (getX 6).trans (sample 6), (getX 7).trans (sample 7), (getX 8).trans (sample 8),
    (getX 15).trans (sample 15), (getX 16).trans (sample 16), (getX 17).trans (sample 17), getX 31, fun k hk => ?_,
    hmg, hbuf, hport, hfail, rfl, fun ⟨_, _, hres⟩ hadjx hadjy hadjz => ?_⟩
  · have h31 : 31 ≠ k := by rintro rfl; exact hk (by decide)
    rw [getX, if_neg h31, putMagSample_getX_of_ne (fun h => hk (List.mem_append_left [31] h)), State.getX, hX,
      State.getX]
  · have htable := mresTable_range s.mg.resbit
    rw [← hres] at htable
    have hkeep : (putMagSample ⟨x, y, z⟩ v).cmd.fxSat = v.cmd.fxSat :=
      putMagSample_fxSat (by rw [hmg]; exact htable) (by rw [hmg]; exact hadjx) (by rw [hmg]; exact hadjy)
        (by rw [hmg]; exact hadjz)
    rw [completeCommand_cmd, nextPhase_cmd, setResult_cmd]
    exact hkeep.trans hsat

/-- Either read is a burst and what is done with it (R234, R235). -/
theorem exec_burst_read {i : Instr} (hi : i ∈ [Instr.mgRdraw, .mgRd]) (s : State) : ∃ op put,
    exec i s = command op true resultZero (fun t => (mgBurst t).andThen put) s := by
  simp only [List.mem_cons, List.not_mem_nil, or_false] at hi
  obtain rfl | rfl := hi
  · exact ⟨0x1B, _, rfl⟩
  · exact ⟨0x1C, _, rfl⟩

/-- Settles O30: what either read makes of a burst that fails (`mgBurst_full`). -/
theorem mgBurstRefused : Obligations.MgBurstRefused := by
  intro s bs es hb hd ha ht hn he u
  refine ⟨fun hready i hi => ?_, fun hready hovf i hi => ?_⟩
  · obtain ⟨op, put, h⟩ := exec_burst_read hi s
    exact h.trans (command_mgBurst_notReady hd ha hn he hb ht hready)
  · obtain ⟨op, put, h⟩ := exec_burst_read hi s
    exact h.trans (command_mgBurst_overflow hd ha hn he hb ht hready hovf)

/-! ## O31: MG.GETOVF -/

theorem ofNat_bit (b : Bool) : BitVec.ofNat 32 (bit b) = if b then 1 else 0 := by cases b <;> rfl

/-- MG.GETOVF does nothing but give its result (R236). -/
theorem exec_mgGetovf_quiet {s : State} (hb : s.cmd.busy = false) (hq : turnAhead s.env = false) :
    exec .mgGetovf s = .next (succeeded (setResult s (if s.mg.ovf then 1 else 0))) := by
  refine command_does (f := fun u => u) (es := s.env) (q := (nextPhase (startCommand 0x1D s)).seq) neutral_id hb rfl
    hq hq ?_
  rw [ofNat_bit]
  rfl

/-- MG_BURST failed with `e`: if that is an overflow, `mg_ovf` is 1 (R233). -/
def BurstFailed (e : Err) (s : State) : Prop := errword e = errword ⟨.overflow, .mg⟩ → s.mg.ovf = true

theorem busUnaware_burstFailed (e : Err) : BusUnaware (BurstFailed e) :=
  busUnaware_of fun _ _ _ _ m => errword e = errword ⟨.overflow, .mg⟩ → m.ovf = true

/-- No failure yet. -/
def Unfailed (s : State) : Prop := s.cmd.fail = false

theorem busUnaware_unfailed : BusUnaware Unfailed := busUnaware_of fun c _ _ _ _ => c.fail = false

/-- No failure yet, and the last burst did not overflow (R233). -/
def BurstGood (s : State) : Prop := s.cmd.fail = false ∧ s.mg.ovf = false

theorem busUnaware_burstGood : BusUnaware BurstGood :=
  busUnaware_of fun c _ _ _ m => c.fail = false ∧ m.ovf = false

/-- What a routine of the transport raises is no overflow. -/
theorem Res.Post.burstFailed {α : Type} {r : Res α} (h : r.Post (Quiet Unfailed) fun _ => Quiet Unfailed)
    (hw : r.WrapsIo) : r.Post (Quiet Unfailed) fun e => Quiet (BurstFailed e) :=
  (h.wrapsIo hw).weaken fun _ _ ⟨⟨hb, hq, _⟩, _, hk⟩ =>
    ⟨hb, hq, fun h => absurd h (errword_ne_overflow_of_inner hk)⟩

/-- The flag after a burst, whatever the bus answers (R233). -/
theorem mgBurst_post {s : State} (h : Quiet Unfailed s) :
    (mgBurst s).Post (Quiet BurstGood) fun e => Quiet (BurstFailed e) := by
  have check := (rdCheck_keeps (J := fun _ => False) (dev := .mg) h).post.burstFailed (wrapsIo_rdCheck .mg s)
  refine check.andThen fun _ t ht => ?_
  have read := (devRead_keeps (dev := .mg) (reg := t.cfg.mgBurstReg) (n := Config.mgBurstLen)
    busUnaware_unfailed.stableBus (by decide) ht).post.burstFailed (wrapsIo_devRead .mg _ _ t)
  refine read.andThen fun bs u ⟨hb, hq, hf⟩ => ?_
  split
  · exact ⟨hb, hq, fun h => absurd h (by decide)⟩
  · split
    · exact ⟨hb, hq, fun _ => rfl⟩
    · exact ⟨hb, hq, hf, rfl⟩

/-- The flag after MG.RD, whatever the bus answers (R233, R236). -/
theorem exec_mgRd_ovf {s t : State} (hb : s.cmd.busy = false) (hq : hostQuiet s.env = true)
    (h : exec .mgRd s = .next t) :
    BurstGood t ∨ t.cmd.fail = true ∧ (t.cmd.err = errword ⟨.overflow, .mg⟩ → t.mg.ovf = true) := by
  refine (command_post (op := 0x1C) (legal := true) (result := resultZero)
    (body := fun t => (mgBurst t).andThen fun r u => .ret () (setResult (putMagSample r u) 1))
    (K := fun t => BurstGood t ∨ t.cmd.fail = true ∧ (t.cmd.err = errword ⟨.overflow, .mg⟩ → t.mg.ovf = true))
    busUnaware_unfailed.stable busUnaware_burstGood.stable (fun e => (busUnaware_burstFailed e).stable) hb rfl
    ⟨rfl, hq, rfl⟩ (fun u hu => ?_) (fun w ⟨_, _, hgood⟩ => ?_) fun e w ⟨_, _, hovf⟩ => ?_).next h
  · exact (mgBurst_post hu).andThen fun _ _ hgood => hgood
  · exact .inl hgood
  · exact .inr ⟨rfl, hovf⟩

/-- Settles O31: the flag is what the bursts left (`exec_mgRd_ovf`), and a success leaves no error word. -/
theorem mgGetovf : Obligations.MgGetovf := by
  refine ⟨by decide, fun s => exec_mgGetovf_quiet, rfl, fun s t hq hb h herr => ?_, fun s t hq hb h hf => ?_⟩
  · obtain ⟨hf, -⟩ | ⟨-, hovf⟩ := exec_mgRd_ovf hb hq h
    · exact absurd (herr.symm.trans (err_eq_zero_of_succeeded hb hq h hf)) (errword_ne_zero _)
    · exact hovf herr
  · obtain ⟨-, hovf⟩ | ⟨hfail, -⟩ := exec_mgRd_ovf hb hq h
    · exact hovf
    · rw [hf] at hfail
      cases hfail

end Sys2Proof.Machine
end

section
/-! PROOF of O32 to O34. SensorAggregator (spec/45_aggregator.md R250 to R261) against a bus that answers: each poll
command is its routine (`pollGroup_relabel`, `pollAll_full`) after the capture time stamp, in the frame of a command. -/

namespace Sys2Proof.Machine

open Sys2Proof

/-! ## O32: readiness -/

/-- SA.RDYA, SA.RDYG and SA.RDYM give the predicate of their group and do nothing else (R252, R258 to R260). -/
theorem command_readyOf_quiet (op : BitVec 6) (g : Group) {s : State} (hb : s.cmd.busy = false)
    (hq : turnAhead s.env = false) : command op true resultZero (readyOf g) s =
      .next (succeeded (setResult s (if groupReady s g then 1 else 0))) := by
  refine command_does (f := fun u => u) (es := s.env) (q := (nextPhase (startCommand op s)).seq) neutral_id hb rfl
    hq hq ?_
  have hready : groupReady (nextPhase (startCommand op s)) g = groupReady s g := groupReady_congr rfl rfl rfl g
  rw [readyOf, ofNat_bit, hready]
  rfl

theorem groupReady_acc_iff (s : State) : groupReady s .acc = true ↔
    s.ctrl.saAcc = true ∧ s.ctrl.agTAttach = true ∧ s.ag.state = .ready := by
  simp only [groupReady, Bool.and_eq_true, decide_eq_true_eq, and_assoc]

theorem groupReady_gyr_iff (s : State) : groupReady s .gyr = true ↔
    s.ctrl.saGyr = true ∧ s.ctrl.agTAttach = true ∧ s.ag.state = .ready := by
  simp only [groupReady, Bool.and_eq_true, decide_eq_true_eq, and_assoc]

theorem groupReady_mag_iff (s : State) : groupReady s .mag = true ↔
    s.ctrl.saMag = true ∧ s.ctrl.mgTAttach = true ∧ s.mg.initDone = true ∧ s.mg.mode ≠ .powerDown ∧
      s.mg.mode ≠ .fuseRom := by
  simp only [groupReady, Bool.and_eq_true, decide_eq_true_eq, and_assoc]

/-- Settles O32: the three commands give `groupReady` (`command_readyOf_quiet`), read group by group. -/
theorem saReady : Obligations.SaReady := by
  refine ⟨by decide, by decide, by decide, fun s hb hq => ⟨?_, ?_, ?_⟩,
    _, command_readyOf_quiet 0x24 .acc (s := State.reset) rfl rfl, (setResult_getX _ _ 31).trans (if_pos rfl)⟩
  · simp only [← groupReady_acc_iff]
    exact command_readyOf_quiet 0x24 .acc hb hq
  · simp only [← groupReady_gyr_iff]
    exact command_readyOf_quiet 0x25 .gyr hb hq
  · simp only [← groupReady_mag_iff]
    exact command_readyOf_quiet 0x26 .mag hb hq

/-! ## A routine that reports an error after its work is done -/

/-- The end of a routine in the state `s`: it raises the error, if there is one. -/
def reporting (err : Option Err) (s : State) : Res Unit :=
  match err with
  | none => .ret () s
  | some e => .raise e s

/-- The completion of a command whose routine ended in the state `s` so (R329, R330). -/
def reported (err : Option Err) (s : State) : State :=
  match err with
  | none => succeeded s
  | some e => failedWith e s

theorem setResult_setResult (s : State) (v w : Word) : setResult (setResult s v) w = setResult s w := by
  simp only [setResult, State.setX, Vector.set_set]

section
variable {op : BitVec 6} {result : State → State} {body : State → Res Unit} {s : State} {f : State → State}
  {es : List Event} {q : Option SeqPos} {v : Word} {err : Option Err}

theorem neutral_setResult (v : Word) : Neutral fun s => setResult s v := ⟨fun _ _ _ => rfl, fun _ => rfl⟩

/-- A command whose routine does `f`, gives `v`, and then reports `err`: what completes it depends on `err` alone
(R328 to R330). -/
theorem command_reports (hf : Neutral f) (hb : s.cmd.busy = false) (hq : turnAhead s.env = false)
    (ht : turnAhead es = false)
    (hbody : body (nextPhase (startCommand op s)) =
      reporting err (setResult (((f (nextPhase (startCommand op s))).withEnv es).withSeq q) v))
    (hres : err ≠ none → ∀ u, result (setResult u v) = setResult u v) :
    command op true result body s = .next (reported err (setResult ((f s).withEnv es) v)) := by
  cases err with
  | none => exact command_does hf hb rfl hq ht hbody
  | some e =>
    have h := command_does_and_fails (f := fun u => setResult (f u) v) (v := v) (q := q) (result := result)
      ((neutral_setResult v).after hf) hb rfl hq ht hbody fun c q => by
        refine (hres (by simp) (((((f s).withCmd c).withEnv es).withSeq q))).trans ?_
        exact (setResult_setResult _ v v).symm
    rw [h]
    exact congrArg (fun u => Host.Outcome.next (failedWith e u)) (setResult_setResult ((f s).withEnv es) v v)

end

/-! ## What a group poll leaves of the flags and the registers -/

theorem setRawOk_x (g : Group) (b : Bool) (s : State) : (setRawOk g b s).x = s.x := by cases g <;> rfl

theorem setRawOk_getX (g : Group) (b : Bool) (s : State) (k : Fin 32) : (setRawOk g b s).getX k = s.getX k := by
  cases g <;> rfl

theorem setRawOk_ts (g : Group) (b : Bool) (s : State) : (setRawOk g b s).sa.ts = s.sa.ts := by cases g <;> rfl

theorem groupOk_setRawOk (g g' : Group) (b : Bool) (s : State) :
    groupOk g' (setRawOk g b s) = if g' = g then b else groupOk g' s := by
  cases g <;> cases g' <;> rfl

theorem groupOk_setRawOk_same (g : Group) (b : Bool) (s : State) : groupOk g (setRawOk g b s) = b :=
  (groupOk_setRawOk g g b s).trans (if_pos rfl)

theorem groupOk_setRawOk_of_ne {g g' : Group} (h : g' ≠ g) (b : Bool) (s : State) :
    groupOk g' (setRawOk g b s) = groupOk g' s :=
  (groupOk_setRawOk g g' b s).trans (if_neg h)

theorem groupOk_congr {s t : State} (h : t.sa = s.sa) (g : Group) : groupOk g t = groupOk g s := by
  cases g <;> simp only [groupOk, h]

/-- A read leaves the registers and the aggregator alone. -/
theorem readEndDone_keeps (a : BitVec 7) (reg : Byte) (n : Nat) (s : State) (r : ReadEnd) :
    (r.done a reg n s).x = s.x ∧ (r.done a reg n s).sa = s.sa := by
  cases r <;> simp [ReadEnd.done, readGivenUp, readDoneAfter, readTried, selectLost]

/-- Bytes of a group that are refused change no register; else they are decoded. -/
theorem burstDone_cases (g : Group) (bs : List Byte) (s : State) :
    ∃ u, burstDone g bs s = setRawOk g (burstErr g bs s).isNone u ∧ u.sa = s.sa ∧
      ((burstErr g bs s).isNone = false → u.x = s.x) := by
  cases g with
  | acc => exact ⟨_, rfl, rfl, fun h => nomatch h⟩
  | gyr => exact ⟨_, rfl, rfl, fun h => nomatch h⟩
  | mag =>
    simp only [burstDone, burstErr]
    split
    · exact ⟨s, rfl, rfl, fun _ => rfl⟩
    · split
      · exact ⟨_, rfl, rfl, fun _ => rfl⟩
      · exact ⟨_, rfl, rfl, fun h => nomatch h⟩

/-- After a poll the flag of the group says whether it was delivered; one that was not keeps its registers (R253). -/
theorem pollDone_cases (g : Group) (s : State) (o : Polled) :
    ∃ u, pollDone g s o = setRawOk g (o.delivered g s) u ∧ u.sa = s.sa ∧ (o.delivered g s = false → u.x = s.x) := by
  cases o with
  | unread => exact ⟨s, rfl, rfl, fun _ => rfl⟩
  | disconnected => exact ⟨s, rfl, rfl, fun _ => rfl⟩
  | read r =>
    obtain ⟨hx, hsa⟩ := readEndDone_keeps (groupAddr g s) (groupReg g s) (groupLen g) s r
    have hcfg := (readEndDone_fields (groupAddr g s) (groupReg g s) (groupLen g) s r).2.1
    simp only [pollDone, Polled.delivered, Polled.err]
    generalize r.done (groupAddr g s) (groupReg g s) (groupLen g) s = t at *
    cases r.err with
    | some k => exact ⟨t, rfl, hsa, fun _ => hx⟩
    | none =>
      have herr : burstErr g r.bytes t = burstErr g r.bytes s := by cases g <;> simp only [burstErr, hcfg]
      obtain ⟨u, hu, hsa', hx'⟩ := burstDone_cases g r.bytes t
      rw [herr] at hu hx'
      exact ⟨u, hu, hsa'.trans hsa, fun h => (hx' h).trans hx⟩

theorem groupOk_pollDone_same (g : Group) (s : State) (o : Polled) : groupOk g (pollDone g s o) = o.delivered g s := by
  obtain ⟨u, hu, -, -⟩ := pollDone_cases g s o
  rw [hu, groupOk_setRawOk_same]

theorem groupOk_pollDone_of_ne {g g' : Group} (h : g' ≠ g) (s : State) (o : Polled) :
    groupOk g' (pollDone g s o) = groupOk g' s := by
  obtain ⟨u, hu, hsa, -⟩ := pollDone_cases g s o
  rw [hu, groupOk_setRawOk_of_ne h, groupOk_congr hsa]

theorem pollDone_phase (g : Group) (s : State) (o : Polled) : (pollDone g s o).ss.phase = s.ss.phase := by
  obtain ⟨-, -, hss, -⟩ := pollDone_fields g s o
  rw [hss]

theorem pollsDone_phase (cs : List (Group × Polled)) (s : State) : (pollsDone cs s).ss.phase = s.ss.phase := by
  obtain ⟨hss, -⟩ := pollsDone_fields cs s
  rw [hss]

theorem pollDone_ts (g : Group) (s : State) (o : Polled) : (pollDone g s o).sa.ts = s.sa.ts := by
  obtain ⟨u, hu, hsa, -⟩ := pollDone_cases g s o
  rw [hu, setRawOk_ts, hsa]

theorem pollDone_x {g : Group} {s : State} {o : Polled} (h : o.delivered g s = false) :
    (pollDone g s o).x = s.x := by
  obtain ⟨u, hu, -, hx⟩ := pollDone_cases g s o
  rw [hu, setRawOk_x, hx h]

/-- Whether a group is delivered depends on the parameters alone. -/
theorem delivered_congr {s t : State} (h : s.cfg = t.cfg) (g : Group) (o : Polled) :
    o.delivered g s = o.delivered g t := by
  cases o <;> simp only [Polled.delivered, pollErr_congr h]

theorem pollFits_congr {s t : State} (hc : s.cfg = t.cfg) (hb : s.bt = t.bt) (hk : s.ctrl = t.ctrl) (g : Group)
    (o : Polled) : pollFits g s o = pollFits g t o := by
  simpa only [pollsFit, Bool.and_true] using pollsFit_congr [(g, o)] hc hb hk

/-! ## The capture time stamp -/

/-- After the capture time stamp of a poll (R261). -/
def stamped (s : State) : State := s.withSa { s.sa with ts := s.clock }

theorem neutral_stamped : Neutral stamped := neutral_stamp

theorem relabel_of_phase {s : State} {p : SsPhase} (h : s.ss.phase = p) (es : List Event) (q : Option SeqPos) :
    relabel es q p s = (s.withEnv es).withSeq q := by
  rw [withEnv_relabel, h]

/-- The stamp, nothing outside coming before the poll (R261). -/
theorem stampRaw_quiet {s : State} (h : turnAhead s.env = false) :
    ∃ q, stampRaw s = .ret () (relabel s.env q s.ss.phase (stamped s)) := by
  obtain ⟨q, hq⟩ := readTime_relabel (q := s.seq) (p := s.ss.phase) (s := s) h
  obtain ⟨q', hq'⟩ := corePoint_relabel (q := q) (p := s.ss.phase) (s := stamped s) h
  rw [relabel_self] at hq
  exact ⟨q', by rw [stampRaw, hq]; exact hq'⟩

/-! ## O33: one group -/

/-- The result of the poll of one group (R254 to R256). -/
def pollOneResult (g : Group) (s : State) (o : Polled) : Word := if o.delivered g s then 1 else 0

theorem delivered_of_err {g : Group} {s : State} {o : Polled} (h : o.err g s ≠ none) : o.delivered g s = false := by
  cases o with
  | unread => rfl
  | disconnected => rfl
  | read r => exact Option.isNone_eq_false_iff.mpr (Option.isSome_iff_ne_none.mpr h)

/-- A group poll delivers, or does not read, or fails (R253). -/
theorem pollResult_cases (g : Group) (s : State) (o : Polled) :
    (pollResult g s o = .ok ∧ o.err g s = none ∧ o.delivered g s = true) ∨
    (pollResult g s o = .refused ∧ o.err g s = none ∧ o.delivered g s = false) ∨
    ∃ e, pollResult g s o = .failed e ∧ o.err g s = some e ∧ o.delivered g s = false := by
  cases h : o.err g s with
  | some e => exact .inr (.inr ⟨e, pollResult_some h, rfl, delivered_of_err (by simp [h])⟩)
  | none =>
    cases o with
    | unread => exact .inr (.inl ⟨rfl, rfl, rfl⟩)
    | disconnected => nomatch h
    | read r => exact .inl ⟨by simp [pollResult, h], rfl, Option.isNone_iff_eq_none.mpr h⟩

/-- The routine of SA.POLLA, SA.POLLG, SA.POLLM (R254 to R256). -/
theorem pollOne_full {g : Group} {o : Polled} {s : State} {es : List Event} (hf : pollFits g s o = true)
    (he : s.env = pollAns g s o ++ es) (ht : turnAhead es = false) (hc : s.clock.toNat + o.delay < 2 ^ 64) :
    ∃ q, pollOne g s = reporting (o.err g s)
      (setResult (((pollDone g (stamped s) o).withEnv es).withSeq q) (pollOneResult g s o)) := by
  obtain ⟨q, hstamp⟩ := stampRaw_quiet (s := s) (he ▸ turnAhead_pollAns ht)
  obtain ⟨q', hpoll⟩ := pollGroup_relabel (g := g) (o := o) (s := stamped s) (es := es) (q := q) (p := s.ss.phase)
    ((pollFits_congr rfl rfl rfl g o).trans hf) hc
  refine ⟨q', ?_⟩
  have hans : pollAns g (stamped s) o = pollAns g s o := pollAns_congr rfl rfl g o
  have herr : pollResult g (stamped s) o = pollResult g s o := by
    simp only [pollResult, pollErr_congr (show (stamped s).cfg = s.cfg from rfl)]
  rw [hans, herr, relabel_of_phase (p := s.ss.phase) (pollDone_phase g (stamped s) o)] at hpoll
  rw [pollOne, hstamp, he, Res.ret_andThen, hpoll, Res.ret_andThen, pollOneResult]
  obtain ⟨hr, he, hd⟩ | ⟨hr, he, hd⟩ | ⟨e, hr, he, hd⟩ := pollResult_cases g s o <;> rw [hr, he, hd] <;> rfl

/-- The three commands are the same routine under their opcodes (R254 to R256). -/
theorem exec_pollCommand (g : Group) (s : State) :
    ∃ op, exec (pollCommand g) s = command op true resultZero (pollOne g) s := by
  cases g with
  | acc => exact ⟨0x20, rfl⟩
  | gyr => exact ⟨0x21, rfl⟩
  | mag => exact ⟨0x22, rfl⟩

/-- Settles O33: the poll of one group after its stamp (`pollOne_full`), and what it leaves (`pollDone_cases`). -/
theorem saPollOne : Obligations.SaPollOne := by
  intro s g o es hb ht hf hc he t
  obtain ⟨op, hexec⟩ := exec_pollCommand g s
  have hdel : o.delivered g (stamped s) = o.delivered g s := delivered_congr rfl g o
  refine ⟨?_, fun h k => ?_, ?_, fun g' hg' => ?_, pollDone_ts g (stamped s) o⟩
  · let u := nextPhase (startCommand op s)
    obtain ⟨q, hbody⟩ := pollOne_full (g := g) (o := o) (s := u) (es := es)
      ((pollFits_congr rfl rfl rfl g o).trans hf) (he.trans (congrArg (· ++ es) (pollAns_congr rfl rfl g o))) ht hc
    have herr : o.err g u = o.err g s := pollErr_congr rfl g o
    have hval : pollOneResult g u o = pollOneResult g s o := by
      rw [pollOneResult, pollOneResult, delivered_congr (show u.cfg = s.cfg from rfl)]
    rw [herr, hval] at hbody
    rw [hexec, command_reports ((neutral_pollDone g o).after neutral_stamped) hb (he ▸ turnAhead_pollAns ht) ht hbody
      fun h v => ?_]
    · cases h : o.err g s with
      | none => rfl
      | some e => rw [pollOneResult, delivered_of_err (by simp [h])]; rfl
    · rw [pollOneResult, delivered_of_err h]
      exact setResult_setResult v 0 0
  · exact congrArg (fun x : Vector Word 32 => x.get k) (pollDone_x (hdel.trans h))
  · exact (groupOk_congr (State.withEnv_sa _ es) g).trans ((groupOk_pollDone_same g (stamped s) o).trans hdel)
  · calc groupOk g' t = groupOk g' (pollDone g (stamped s) o) := groupOk_congr rfl g'
      _ = groupOk g' (stamped s) := groupOk_pollDone_of_ne hg' _ o
      _ = groupOk g' s := by cases g' <;> rfl

/-! ## O34: the three groups -/

/-- The flags after the three polls, whose number is the result of SA.POLL (R257). -/
theorem rawOkNum_pollsDone (a g m : Polled) (s : State) : rawOkNum (pollsDone (outcomes a g m) s).sa =
    bit (a.delivered .acc s) + 2 * bit (g.delivered .gyr s) + 4 * bit (m.delivered .mag s) := by
  have hcfg : (pollDone .acc s a).cfg = s.cfg := (pollDone_fields .acc s a).2.1
  have hcfg' : (pollDone .gyr (pollDone .acc s a) g).cfg = s.cfg := (pollDone_fields .gyr _ g).2.1.trans hcfg
  have hA : (pollsDone (outcomes a g m) s).sa.okA = a.delivered .acc s := calc
    groupOk .acc (pollsDone (outcomes a g m) s) = groupOk .acc (pollDone .gyr (pollDone .acc s a) g) :=
      groupOk_pollDone_of_ne (by decide) _ m
    _ = groupOk .acc (pollDone .acc s a) := groupOk_pollDone_of_ne (by decide) _ g
    _ = a.delivered .acc s := groupOk_pollDone_same .acc s a
  have hG : (pollsDone (outcomes a g m) s).sa.okG = g.delivered .gyr s := calc
    groupOk .gyr (pollsDone (outcomes a g m) s) = groupOk .gyr (pollDone .gyr (pollDone .acc s a) g) :=
      groupOk_pollDone_of_ne (by decide) _ m
    _ = g.delivered .gyr (pollDone .acc s a) := groupOk_pollDone_same .gyr _ g
    _ = g.delivered .gyr s := delivered_congr hcfg .gyr g
  have hM : (pollsDone (outcomes a g m) s).sa.okM = m.delivered .mag s :=
    (groupOk_pollDone_same .mag _ m).trans (delivered_congr hcfg' .mag m)
  rw [rawOkNum, hA, hG, hM, Nat.mul_comm _ 2, Nat.mul_comm _ 4]

/-- The routine of SA.POLL (R257). -/
theorem pollFull_full {a g m : Polled} {s : State} {es : List Event} (hf : pollsFit (outcomes a g m) s = true)
    (he : s.env = pollsAns (outcomes a g m) s ++ es) (ht : turnAhead es = false)
    (hc : s.clock.toNat + pollsDelay (outcomes a g m) < 2 ^ 64) :
    ∃ q, pollFull s = reporting (pollsErr (outcomes a g m) s)
      (setResult (((pollsDone (outcomes a g m) (stamped s)).withEnv es).withSeq q)
        (BitVec.ofNat 32 (rawOkNum (pollsDone (outcomes a g m) (stamped s)).sa))) := by
  obtain ⟨q, hstamp⟩ := stampRaw_quiet (s := s) (he ▸ turnAhead_pollsAns ht _ s)
  obtain ⟨q', hpolls⟩ := pollAll_full ht (outcomes a g m) (s := stamped s) (q := q) (p := s.ss.phase) (first := none)
    ((pollsFit_congr _ (s := stamped s) (t := s) rfl rfl rfl).trans hf) hc
  refine ⟨q', ?_⟩
  have hans : pollsAns (outcomes a g m) (stamped s) = pollsAns (outcomes a g m) s := pollsAns_congr _ rfl rfl
  have herr : pollsErr (outcomes a g m) (stamped s) = pollsErr (outcomes a g m) s := pollsErr_congr _ rfl
  rw [hans, herr, Option.none_or, ← he,
    relabel_of_phase (p := s.ss.phase) (pollsDone_phase (outcomes a g m) (stamped s))] at hpolls
  rw [pollFull, hstamp, Res.ret_andThen, show [Group.acc, .gyr, .mag] = (outcomes a g m).map Prod.fst from rfl,
    hpolls, Res.ret_andThen]
  cases pollsErr (outcomes a g m) s <;> rfl

/-- Settles O34: the three polls after the stamp (`pollFull_full`), the flags they leave as the result. -/
theorem saPollFull : Obligations.SaPollFull := by
  intro s a g m es hb ht hf hc he t
  let u := nextPhase (startCommand 0x23 s)
  obtain ⟨q, hbody⟩ := pollFull_full (s := u) (es := es) ((pollsFit_congr _ (s := u) (t := s) rfl rfl rfl).trans hf)
    (he.trans (congrArg (· ++ es) (pollsAns_congr _ rfl rfl))) ht hc
  have herr : pollsErr (outcomes a g m) u = pollsErr (outcomes a g m) s := pollsErr_congr _ rfl
  have hdel : ∀ g (o : Polled), o.delivered g (stamped u) = o.delivered g s := delivered_congr rfl
  rw [herr, rawOkNum_pollsDone, hdel, hdel, hdel] at hbody
  have hrun := command_reports (result := resultKept) ((neutral_pollsDone (outcomes a g m)).after neutral_stamped) hb
    (he ▸ turnAhead_pollsAns ht _ s) ht hbody fun _ _ => rfl
  rw [show exec .saPoll s = command 0x23 true resultKept pollFull s from rfl, hrun]
  cases pollsErr (outcomes a g m) s <;> rfl

end Sys2Proof.Machine
end

section
/-! PROOF of O35. SensorAggregator (spec/45_aggregator.md R253 to R257), whatever the bus answers: what its routines
raise (`Res.Raises`), what the poll of a group came to (`PollCame`), and what that leaves of each group. -/

namespace Sys2Proof.Machine

open Sys2Proof

/-! ## The errors of a group's read -/

/-- Whatever a routine raises satisfies `E`. -/
def Res.Raises {α : Type} (E : Err → Prop) : Res α → Prop
  | .ret _ _ => True
  | .raise e _ => E e
  | .stop _ => True

section
variable {α β : Type} {E : Err → Prop} {r : Res α}

theorem Res.raises_of_not_raise (h : ∀ e t, r ≠ .raise e t) : r.Raises E := by
  cases r with
  | ret a s => trivial
  | raise e s => exact absurd rfl (h e s)
  | stop o => trivial

theorem Res.Raises.andThen {f : α → State → Res β} (h : r.Raises E) (hf : ∀ a t, (f a t).Raises E) :
    (r.andThen f).Raises E := by
  cases r with
  | ret a s => exact hf a s
  | raise e s => exact h
  | stop o => trivial

theorem Res.Raises.weaken {E' : Err → Prop} (h : r.Raises E) (hE : ∀ e, E e → E' e) : r.Raises E' := by
  cases r with
  | ret a s => trivial
  | raise e s => exact hE e h
  | stop o => trivial

theorem awaitAnswer_not_raise {accept : Answer → Option β} {e : Err} {t : State} (es : List Event) :
    ∀ s, awaitAnswer accept es s ≠ .raise e t := by
  induction es with
  | nil => exact fun s h => nomatch h
  | cons x es ih =>
    intro s
    cases x with
    | outside o =>
      simp only [awaitAnswer]
      cases ho : outsideMove o (s.withEnv es) with
      | ret a u => exact ih u
      | raise e u => exact absurd ho outsideMove_not_raise
      | stop o => exact fun h => nomatch h
    | turn => exact ih s
    | answer a =>
      simp only [awaitAnswer]
      split
      · exact fun h => nomatch h
      · exact ih s

/-- A bus primitive answers or is never answered; its routine makes the errors of it (spec/20_memory.md R62). -/
theorem raises_busPrimitive (sent : PortEvent) (accept : Answer → Option β) (s : State) :
    (busPrimitive sent accept s).Raises E :=
  (Res.raises_of_not_raise fun _ _ => corePoint_not_raise).andThen fun _ _ =>
    Res.raises_of_not_raise fun _ _ => awaitAnswer_not_raise _ _

end

/-- An error of BusTransport (spec/60_exceptions.md R320). -/
def IsIo (e : Err) : Prop := ∃ k, e.kind = .io k

theorem raises_raiseIo {α : Type} (k : IoKind) (s : State) : (raiseIo k s : Res α).Raises IsIo := ⟨k, rfl⟩

theorem raises_btSelect (a : BitVec 7) (s : State) : (btSelect a s).Raises IsIo := by
  simp only [btSelect]
  split
  · trivial
  · refine (raises_busPrimitive _ _ s).andThen fun ok t => ?_
    split
    · trivial
    · exact raises_raiseIo _ _

theorem raises_afterShort {left : Nat} {again : State → Res (List Byte)} (h : ∀ t, (again t).Raises IsIo)
    (s : State) : (afterShort left s again).Raises IsIo := by
  simp only [afterShort]
  split
  · exact raises_raiseIo _ _
  · exact (Res.raises_of_not_raise fun _ _ => waitFor_not_raise).andThen fun _ t => h t

theorem raises_readAttempts (reg : Byte) (n left : Nat) : ∀ s, (readAttempts reg n left s).Raises IsIo := by
  induction left with
  | zero => exact fun s => raises_raiseIo _ _
  | succ left ih =>
    intro s
    simp only [readAttempts]
    refine (raises_busPrimitive _ _ _).andThen fun w t => ?_
    split
    · exact raises_raiseIo _ _
    · split
      · refine (raises_busPrimitive _ _ t).andThen fun r u => ?_
        split
        · exact raises_raiseIo _ _
        · split
          · trivial
          · exact raises_afterShort ih u
      · exact raises_afterShort ih t

/-- A read raises transport errors only (spec/41_bus_transport.md R150, R151, R154). -/
theorem raises_memRead (a : BitVec 7) (reg : Byte) (n : Nat) (s : State) : (memRead a reg n s).Raises IsIo := by
  simp only [memRead]
  split
  · exact raises_raiseIo _ _
  · exact (raises_btSelect a s).andThen fun _ t => raises_readAttempts reg n _ _

/-- A read of a driver raises transport errors of its device (spec/60_exceptions.md R321). -/
theorem raises_devRead (dev : Dev) (reg : Byte) (n : Nat) (s : State) :
    (devRead dev reg n s).Raises fun e => ∃ j, e = ⟨.io j, dev⟩ := by
  have h := raises_memRead (busAddr s.cfg dev) reg n s
  rw [devRead, onDev]
  cases hr : memRead (busAddr s.cfg dev) reg n s with
  | ret a t => trivial
  | raise e t =>
    rw [hr] at h
    obtain ⟨j, hj⟩ := h
    exact ⟨j, congrArg (Err.mk · dev) hj⟩
  | stop o => trivial

theorem raises_rdCheck (dev : Dev) (s : State) : (rdCheck dev s).Raises fun e => e = ⟨.disconnected, dev⟩ := by
  simp only [rdCheck]
  split
  · trivial
  · rfl

/-- The errors the poll of a group can fail with (spec/45_aggregator.md R253). -/
def PollError (g : Group) (e : Err) : Prop :=
  ∃ k : ErrKind, e = ⟨k, groupDev g⟩ ∧
    ((∃ j, k = .io j) ∨ k = .disconnected ∨ g = .mag ∧ (k = .notReady ∨ k = .overflow))

section
variable {g : Group} {e : Err}

theorem PollError.of_io (h : ∃ j, e = ⟨.io j, groupDev g⟩) : PollError g e :=
  have ⟨j, hj⟩ := h
  ⟨.io j, hj, .inl ⟨j, rfl⟩⟩

theorem PollError.of_disconnected (h : e = ⟨.disconnected, groupDev g⟩) : PollError g e :=
  ⟨.disconnected, h, .inr (.inl rfl)⟩

end

theorem raises_groupRead (g : Group) (s : State) : (groupRead g s).Raises (PollError g) := by
  have check : (rdCheck (groupDev g) s).Raises (PollError g) :=
    (raises_rdCheck _ s).weaken fun _ => .of_disconnected
  have read : ∀ reg n t, (devRead (groupDev g) reg n t).Raises (PollError g) := fun reg n t =>
    (raises_devRead _ reg n t).weaken fun _ => .of_io
  cases g with
  | acc => exact check.andThen fun _ t => (read _ _ t).andThen fun _ _ => trivial
  | gyr => exact check.andThen fun _ t => (read _ _ t).andThen fun _ _ => trivial
  | mag =>
    refine check.andThen fun _ t => (read _ _ t).andThen fun bs u => ?_
    split
    · exact ⟨.notReady, rfl, .inr (.inr ⟨rfl, .inl rfl⟩)⟩
    · split
      · exact ⟨.overflow, rfl, .inr (.inr ⟨rfl, .inr rfl⟩)⟩
      · trivial

/-! ## What the bus and time leave alone -/

/-- From `s` the core has come to `t` by bus operations alone, and time has passed. -/
structure BusMoved (s t : State) : Prop where
  cmd : t.cmd = s.cmd
  x : t.x = s.x
  ctrl : t.ctrl = s.ctrl
  sa : t.sa = s.sa
  clock : s.clock ≤ t.clock

theorem BusMoved.refl (s : State) : BusMoved s s := ⟨rfl, rfl, rfl, rfl, BitVec.le_refl _⟩

theorem BusMoved.trans {s t u : State} (h : BusMoved s t) (h' : BusMoved t u) : BusMoved s u :=
  ⟨h'.cmd.trans h.cmd, h'.x.trans h.x, h'.ctrl.trans h.ctrl, h'.sa.trans h.sa, BitVec.le_trans h.clock h'.clock⟩

theorem BusMoved.getX {s t : State} (h : BusMoved s t) (k : Fin 32) : t.getX k = s.getX k := by
  rw [State.getX, State.getX, h.x]

/-- What does not look at more than `BusMoved` keeps. -/
theorem busUnaware_of_busMoved {C : State → Prop} (h : ∀ s t, BusMoved s t → C s → C t) : BusUnaware C where
  env := fun s _ => ⟨h s _ ⟨rfl, rfl, rfl, rfl, BitVec.le_refl _⟩, h _ s ⟨rfl, rfl, rfl, rfl, BitVec.le_refl _⟩⟩
  port := fun s _ => h s _ ⟨rfl, rfl, rfl, rfl, BitVec.le_refl _⟩
  seq := fun s _ => h s _ ⟨rfl, rfl, rfl, rfl, BitVec.le_refl _⟩
  clock := fun s _ hc => h s _ ⟨rfl, rfl, rfl, rfl, hc⟩
  bt := fun s _ => h s _ ⟨rfl, rfl, rfl, rfl, BitVec.le_refl _⟩
  buf := fun s _ => h s _ ⟨rfl, rfl, rfl, rfl, BitVec.le_refl _⟩
  free := fun s _ => h s _ ⟨rfl, rfl, rfl, rfl, BitVec.le_refl _⟩
  rmw := fun s _ => h s _ ⟨rfl, rfl, rfl, rfl, BitVec.le_refl _⟩

theorem busUnaware_busMoved (u : State) : BusUnaware (BusMoved u) :=
  busUnaware_of_busMoved fun _ _ h hu => hu.trans h

/-! ## What the poll of a group came to -/

/-- A routine that raises nothing: if it returns `a` it leaves `R a`, and it is not abandoned for a next state. -/
def Res.Gives {α : Type} (R : α → State → Prop) : Res α → Prop
  | .ret a s => R a s
  | .raise _ _ => False
  | .stop (.next _) => False
  | .stop (.fault _) => True
  | .stop (.refused _) => True

section
variable {α β : Type} {P : α → State → Prop} {r : Res α}

theorem Res.Gives.andThen {R : β → State → Prop} {f : α → State → Res β} (h : r.Gives P)
    (hf : ∀ a t, P a t → (f a t).Gives R) : (r.andThen f).Gives R := by
  cases r with
  | ret a s => exact hf a s h
  | raise e s => exact h.elim
  | stop o => cases o <;> exact h

theorem Res.Gives.andThen_post {R : State → Prop} {E : Err → State → Prop} {f : α → State → Res β} (h : r.Gives P)
    (hf : ∀ a t, P a t → (f a t).Post R E) : (r.andThen f).Post R E := by
  cases r with
  | ret a s => exact hf a s h
  | raise e s => exact h.elim
  | stop o => cases o <;> exact h

/-- `try` a routine whose states and errors are known (spec/00_scope.md R11). -/
theorem Res.Keeps.handle_gives {Q : State → Prop} {E : Err → Prop} {R : β → State → Prop} {f : α → State → Res β}
    {k : Err → State → Res β} (h : r.Keeps Q fun _ => False) (he : r.Raises E)
    (hf : ∀ a t, Q t → (f a t).Gives R) (hk : ∀ e t, E e → Q t → (k e t).Gives R) : (r.handle f k).Gives R := by
  cases r with
  | ret a s => exact hf a s h
  | raise e s => exact hk e s he h
  | stop o => cases o <;> exact h

end

theorem corePoint_gives {P : State → Prop} (st : Stable P fun _ => False) {s : State} (h : P s) :
    (corePoint s).Gives fun _ => P := by
  have hp := st.corePoint h
  cases hc : corePoint s with
  | ret a t => rw [hc] at hp; exact hp
  | raise e t => exact absurd hc corePoint_not_raise
  | stop o => rw [hc] at hp; cases o <;> exact hp

/-- The poll of the group `g` from `u` came to a result and a state (spec/45_aggregator.md R253). -/
inductive PollCame (g : Group) (u : State) : PollResult → State → Prop where
  | ok {v : State} (attached : groupAttached u g = true) (moved : BusMoved u v) (r : Raw3) :
      PollCame g u .ok (setRawOk g true (putRaw g v r))
  | refused (unattached : groupAttached u g = false) : PollCame g u .refused (setRawOk g false u)
  | failed {v : State} {e : Err} (attached : groupAttached u g = true) (moved : BusMoved u v) (error : PollError g e) :
      PollCame g u (.failed e) (setRawOk g false v)

/-- The read of a group leaves alone what the bus does: of the rest it writes `mg_ovf` only (spec/44_mag.md R233). -/
theorem groupRead_moved (g : Group) {u : State} (h : Quiet (BusMoved u) u) :
    (groupRead g u).Keeps (Quiet (BusMoved u)) fun _ => False := by
  have st := (busUnaware_busMoved u).stableBus
  cases g with
  | acc => exact agRead6_keeps st h
  | gyr => exact agRead6_keeps st h
  | mag =>
    exact mgBurst_keeps st
      (fun _ _ ⟨hb, hq, hm⟩ => ⟨hb, hq, hm.trans ⟨rfl, rfl, rfl, rfl, BitVec.le_refl _⟩⟩) h

theorem Quiet.setRawOk {C D : State → Prop} {t : State} (h : Quiet C t) (g : Group) (b : Bool)
    (hD : D (setRawOk g b t)) : Quiet D (Machine.setRawOk g b t) := by
  obtain ⟨hb, hq, -⟩ := h
  cases g <;> exact ⟨hb, hq, hD⟩

theorem Quiet.putRaw {C : State → Prop} {t : State} (h : Quiet C t) (g : Group) (r : Raw3) :
    Quiet (fun _ => True) (putRaw g t r) := by
  obtain ⟨hb, hq, -⟩ := h
  cases g <;> exact ⟨hb, hq, trivial⟩

/-- The poll of a group raises nothing, whatever the bus answers (R253). -/
theorem pollGroup_gives (g : Group) {C : State → Prop} {u : State} (h : Quiet C u) :
    (pollGroup g u).Gives fun r => Quiet (PollCame g u r) := by
  obtain ⟨hb, hq, -⟩ := h
  have hu : Quiet (BusMoved u) u := ⟨hb, hq, .refl u⟩
  rw [pollGroup]
  split
  · rename_i ha
    refine (groupRead_moved g hu).handle_gives (raises_groupRead g u) (fun r t ht => ?_) fun e t he ht => ?_
    · exact (ht.putRaw g r).setRawOk g true (.ok ha ht.2.2 r)
    · exact ht.setRawOk g false (.failed ha ht.2.2 he)
  · rename_i ha
    exact hu.setRawOk g false (.refused (Bool.eq_false_iff.mpr ha))

/-! ## What the polls leave of each group -/

/-- The raw registers of `g` are as in `s`. -/
def RawKept (s : State) (g : Group) (t : State) : Prop := ∀ k ∈ groupRegs g, t.getX k = s.getX k

theorem RawKept.setResult {s t : State} {g : Group} (h : RawKept s g t) (v : Word) : RawKept s g (setResult t v) := by
  have h31 : ∀ k ∈ groupRegs g, 31 ≠ k := by cases g <;> decide
  exact fun k hk => (setResult_getX t v k).trans ((if_neg (h31 k hk)).trans (h k hk))

/-- No group's raw registers are another's (spec/45_aggregator.md R250). -/
theorem putRaw_getX_of_ne {g g' : Group} (h : g' ≠ g) {k : Fin 32} (hk : k ∈ groupRegs g') (s : State) (r : Raw3) :
    (putRaw g s r).getX k = s.getX k := by
  have hne : ∀ g g' : Group, g' ≠ g → ∀ i ∈ groupRegs g, ∀ k ∈ groupRegs g', i ≠ k :=
    fun g g' => by cases g <;> cases g' <;> decide
  have hk' := fun i hi => hne g g' h i hi k hk
  cases g <;> exact (State.setX3_getX ..).trans ((if_neg (hk' _ (by decide))).trans
    ((if_neg (hk' _ (by decide))).trans (if_neg (hk' _ (by decide)))))

/-- The capture time stamp is a reading of the timebase since `s` (R261). -/
def StampedSince (s t : State) : Prop := s.clock ≤ t.sa.ts ∧ t.sa.ts ≤ t.clock

/-- What a poll that came after the errors `first` leaves of its group (R253, R257). -/
structure Settled (s : State) (first : Option Err) (g : Group) (t : State) : Prop where
  kept : groupOk g t = false → RawKept s g t
  attached : groupOk g t = true → groupAttached s g = true
  delivered : first = none → groupAttached s g = true → groupOk g t = true

/-- In the course of a poll command that began in `s`, with the groups of `todo` still to poll and the first error
`first`. -/
structure Polling (s : State) (todo : List Group) (first : Option Err) (t : State) : Prop where
  unfailed : t.cmd.fail = false
  ctrl : t.ctrl = s.ctrl
  stamp : StampedSince s t
  pending : ∀ g ∈ todo, RawKept s g t
  settled : ∀ g ∉ todo, Settled s first g t

section
variable {s t u w : State} {g g' : Group} {r : PollResult} {first : Option Err} {todo : List Group}

theorem BusMoved.groupOk (h : BusMoved t u) (g : Group) : groupOk g u = groupOk g t := groupOk_congr h.sa g

theorem BusMoved.rawKept (h : BusMoved t u) (hk : RawKept s g t) : RawKept s g u :=
  fun k hg => (h.getX k).trans (hk k hg)

theorem BusMoved.stampedSince (h : BusMoved t u) (hs : StampedSince s t) : StampedSince s u := by
  obtain ⟨hlo, hhi⟩ := hs
  exact ⟨h.sa ▸ hlo, h.sa ▸ BitVec.le_trans hhi h.clock⟩

theorem BusMoved.polling (h : BusMoved t u) (hp : Polling s todo first t) : Polling s todo first u where
  unfailed := h.cmd ▸ hp.unfailed
  ctrl := h.ctrl.trans hp.ctrl
  stamp := h.stampedSince hp.stamp
  pending := fun g hg => h.rawKept (hp.pending g hg)
  settled := fun g hg =>
    have ⟨hkept, hatt, hdel⟩ := hp.settled g hg
    ⟨fun ho => h.rawKept (hkept (h.groupOk g ▸ ho)), fun ho => hatt (h.groupOk g ▸ ho),
      fun hn ha => (h.groupOk g).trans (hdel hn ha)⟩

end

/-- From `u` to `w` nothing was written but what the poll of `g` may write (R253). -/
structure PollFrame (g : Group) (u w : State) : Prop where
  cmd : w.cmd = u.cmd
  ctrl : w.ctrl = u.ctrl
  ts : w.sa.ts = u.sa.ts
  clock : u.clock ≤ w.clock
  ok : ∀ g' ≠ g, groupOk g' w = groupOk g' u
  raw : ∀ g' ≠ g, ∀ k ∈ groupRegs g', w.getX k = u.getX k

section
variable {s u v w : State} {g : Group} {gs : List Group} {r : PollResult} {first : Option Err}

theorem BusMoved.pollFrame (h : BusMoved u v) (g : Group) : PollFrame g u v where
  cmd := h.cmd
  ctrl := h.ctrl
  ts := congrArg Aggregator.ts h.sa
  clock := h.clock
  ok := fun g' _ => h.groupOk g'
  raw := fun _ _ k _ => h.getX k

theorem PollFrame.setRawOk (h : PollFrame g u v) (b : Bool) : PollFrame g u (setRawOk g b v) := by
  obtain ⟨hctrl, -, -, -, -, hcmd, hclock⟩ := setRawOk_fields g b v
  exact {
    cmd := hcmd.trans h.cmd
    ctrl := hctrl.trans h.ctrl
    ts := (setRawOk_ts g b v).trans h.ts
    clock := hclock ▸ h.clock
    ok := fun g' hg => (groupOk_setRawOk_of_ne hg b v).trans (h.ok g' hg)
    raw := fun g' hg k hk => (setRawOk_getX g b v k).trans (h.raw g' hg k hk) }

theorem PollFrame.putRaw (h : PollFrame g u v) (r : Raw3) : PollFrame g u (putRaw g v r) := by
  have raw := fun g' hg k hk => (putRaw_getX_of_ne (g := g) hg hk v r).trans (h.raw g' hg k hk)
  cases g <;> exact { h with raw := raw }

theorem PollCame.frame (h : PollCame g u r w) : PollFrame g u w := by
  cases h with
  | ok _ hv raw => exact ((hv.pollFrame g).putRaw raw).setRawOk true
  | refused _ => exact ((BusMoved.refl u).pollFrame g).setRawOk false
  | failed _ hv _ => exact (hv.pollFrame g).setRawOk false

/-- The group that was polled: an error is kept unless there was one before (R257). -/
theorem PollCame.settled (h : PollCame g u r w) (hctrl : u.ctrl = s.ctrl) (hraw : RawKept s g u) :
    Settled s (firstError first r) g w := by
  have hatt : groupAttached u g = groupAttached s g := groupAttached_congr g hctrl
  cases h with
  | @ok v ha hv raw =>
    have hok := groupOk_setRawOk_same g true (putRaw g v raw)
    exact ⟨fun h => (Bool.false_ne_true (h.symm.trans hok)).elim, fun _ => hatt ▸ ha, fun _ _ => hok⟩
  | refused ha =>
    have hok := groupOk_setRawOk_same g false u
    exact ⟨fun _ k hk => (setRawOk_getX g false u k).trans (hraw k hk),
      fun h => (Bool.false_ne_true (hok.symm.trans h)).elim,
      fun _ h => (Bool.false_ne_true ((hatt ▸ ha).symm.trans h)).elim⟩
  | @failed v e ha hv he =>
    have hok := groupOk_setRawOk_same g false v
    have hfirst : firstError first (.failed e) ≠ none := by cases first <;> exact Option.some_ne_none _
    exact ⟨fun _ k hk => (setRawOk_getX g false v k).trans (hv.rawKept hraw k hk),
      fun h => (Bool.false_ne_true (hok.symm.trans h)).elim, fun h => (hfirst h).elim⟩

theorem eq_none_of_firstError (h : firstError first r = none) : first = none := by
  cases first with
  | none => rfl
  | some e => exact h

/-- The next poll of a command (R257). -/
theorem Polling.next (h : Polling s (g :: gs) first u) (hg : g ∉ gs) (hp : PollCame g u r w) :
    Polling s gs (firstError first r) w := by
  have frame := hp.frame
  obtain ⟨hlo, hhi⟩ := h.stamp
  refine ⟨frame.cmd ▸ h.unfailed, frame.ctrl.trans h.ctrl,
    ⟨frame.ts ▸ hlo, frame.ts ▸ BitVec.le_trans hhi frame.clock⟩, fun g' hg' k hk => ?_, fun g' hg' => ?_⟩
  · have hne : g' ≠ g := by rintro rfl; exact hg hg'
    exact (frame.raw g' hne k hk).trans (h.pending g' (.tail g hg') k hk)
  · by_cases hne : g' = g
    · subst hne
      exact hp.settled h.ctrl (h.pending g' (.head gs))
    · obtain ⟨hkept, hatt, hdel⟩ := h.settled g' (by simp [hne, hg'])
      have hok := frame.ok g' hne
      exact ⟨fun ho k hk => (frame.raw g' hne k hk).trans (hkept (hok ▸ ho) k hk), fun ho => hatt (hok ▸ ho),
        fun hn ha => hok.trans (hdel (eq_none_of_firstError hn) ha)⟩

end

/-! ## O35: the routines, whatever the bus answers -/

/-- A poll command that began in `s`, before its stamp. -/
structure Unstamped (s t : State) : Prop where
  unfailed : t.cmd.fail = false
  ctrl : t.ctrl = s.ctrl
  x : t.x = s.x
  clock : s.clock ≤ t.clock

theorem busUnaware_unstamped (s : State) : BusUnaware (Unstamped s) :=
  busUnaware_of_busMoved fun _ _ h hu =>
    ⟨h.cmd ▸ hu.unfailed, h.ctrl.trans hu.ctrl, h.x.trans hu.x, BitVec.le_trans hu.clock h.clock⟩

theorem busUnaware_polling (s : State) (todo : List Group) (first : Option Err) :
    BusUnaware (Polling s todo first) :=
  busUnaware_of_busMoved fun _ _ h hp => h.polling hp

/-- The stamp is taken before anything is polled (R261). -/
theorem stampRaw_gives {s u : State} (h : Quiet (Unstamped s) u) :
    (stampRaw u).Gives fun _ => Quiet (Polling s [.acc, .gyr, .mag] none) := by
  have now : (readTime u).Gives fun now t => Quiet (Unstamped s) t ∧ now = t.clock :=
    (corePoint_gives (busUnaware_unstamped s).stable h).andThen fun _ _ ht => ⟨ht, rfl⟩
  refine now.andThen fun _ t ⟨⟨hb, hq, hu⟩, hnow⟩ => corePoint_gives (busUnaware_polling s _ none).stable ⟨hb, hq, ?_⟩
  subst hnow
  exact {
    unfailed := hu.unfailed
    ctrl := hu.ctrl
    stamp := ⟨hu.clock, BitVec.le_refl _⟩
    pending := fun _ _ k _ => congrArg (fun x : Vector Word 32 => x.get k) hu.x
    settled := fun g hg => absurd (by cases g <;> decide) hg }

/-- The polls of SA.POLL, each group once (R257). -/
theorem pollAll_gives {s : State} (gs : List Group) : ∀ {first : Option Err} {u : State}, gs.Nodup →
    Quiet (Polling s gs first) u → (pollAll gs first u).Gives fun first' => Quiet (Polling s [] first') := by
  induction gs with
  | nil => exact fun _ h => h
  | cons g gs ih =>
    intro first u hd h
    obtain ⟨hg, hgs⟩ := List.nodup_cons.mp hd
    refine (corePoint_gives (busUnaware_polling s _ first).stable h).andThen fun _ t ht => ?_
    refine (pollGroup_gives g ht).andThen fun r w ⟨hb, hq, hw⟩ => ih hgs ⟨hb, hq, ?_⟩
    exact ht.2.2.next hg hw

/-- The routine of SA.POLLA, SA.POLLG, SA.POLLM returned: the group is delivered exactly if it is attached (R253). -/
structure PollReturned (s : State) (g : Group) (t : State) : Prop where
  unfailed : t.cmd.fail = false
  stamp : StampedSince s t
  kept : groupOk g t = false → RawKept s g t
  ok : groupOk g t = groupAttached s g
  result : t.getX 31 = if groupAttached s g then 1 else 0

/-- It raised `e` (R253). -/
structure PollRaised (s : State) (g : Group) (e : Err) (t : State) : Prop where
  stamp : StampedSince s t
  kept : RawKept s g t
  attached : groupAttached s g = true
  ok : groupOk g t = false
  error : PollError g e

theorem busUnaware_pollReturned (s : State) (g : Group) : BusUnaware (PollReturned s g) :=
  busUnaware_of_busMoved fun _ _ h hp => {
    unfailed := h.cmd ▸ hp.unfailed
    stamp := h.stampedSince hp.stamp
    kept := fun ho => h.rawKept (hp.kept (h.groupOk g ▸ ho))
    ok := (h.groupOk g).trans hp.ok
    result := (h.getX 31).trans hp.result }

theorem busUnaware_pollRaised (s : State) (g : Group) (e : Err) : BusUnaware (PollRaised s g e) :=
  busUnaware_of_busMoved fun _ _ h hp =>
    { hp with stamp := h.stampedSince hp.stamp, kept := h.rawKept hp.kept, ok := (h.groupOk g).trans hp.ok }

theorem pollOne_post (g : Group) {s u : State} (h : Quiet (Unstamped s) u) :
    (pollOne g u).Post (Quiet (PollReturned s g)) fun e => Quiet (PollRaised s g e) := by
  refine (stampRaw_gives h).andThen_post fun _ t ht => (pollGroup_gives g ht).andThen_post fun r w hw => ?_
  obtain ⟨-, -, hp⟩ := ht
  obtain ⟨hb, hq, hc⟩ := hw
  have hraw : RawKept s g t := hp.pending g (by cases g <;> decide)
  have hatt : groupAttached t g = groupAttached s g := groupAttached_congr g hp.ctrl
  have frame := hc.frame
  have settled := hc.settled (first := none) hp.ctrl hraw
  have unfailed : w.cmd.fail = false := frame.cmd ▸ hp.unfailed
  have stamp : StampedSince s w := by
    obtain ⟨hlo, hhi⟩ := hp.stamp
    exact ⟨frame.ts ▸ hlo, frame.ts ▸ BitVec.le_trans hhi frame.clock⟩
  have returned : groupOk g w = groupAttached s g →
      Quiet (PollReturned s g) (setResult w (if groupAttached s g then 1 else 0)) := fun hok =>
    ⟨hb, hq, unfailed, stamp, fun ho => (settled.kept ho).setResult _, hok, (setResult_getX w _ 31).trans (if_pos rfl)⟩
  cases hc with
  | ok ha hv raw =>
    have hs : groupAttached s g = true := hatt ▸ ha
    rw [hs] at returned
    exact returned (groupOk_setRawOk_same g true _)
  | refused ha =>
    have hs : groupAttached s g = false := hatt ▸ ha
    rw [hs] at returned
    exact returned (groupOk_setRawOk_same g false _)
  | @failed v e ha hv he =>
    have hok := groupOk_setRawOk_same g false v
    exact ⟨hb, hq, stamp, (settled.kept hok).setResult 0, hatt ▸ ha, hok, he⟩

/-- The end of the routine of SA.POLL, with the first error (R257). -/
def PollsEnded (s : State) (first : Option Err) (t : State) : Prop :=
  Polling s [] first t ∧ t.getX 31 = BitVec.ofNat 32 (rawOkNum t.sa)

theorem busUnaware_pollsEnded (s : State) (first : Option Err) : BusUnaware (PollsEnded s first) :=
  busUnaware_of_busMoved fun _ _ h ⟨hp, hx⟩ => ⟨h.polling hp, by rw [h.getX, h.sa, hx]⟩

theorem Polling.setResult {s t : State} {first : Option Err} (h : Polling s [] first t) (v : Word) :
    Polling s [] first (setResult t v) where
  unfailed := h.unfailed
  ctrl := h.ctrl
  stamp := h.stamp
  pending := fun _ hg => nomatch hg
  settled := fun g hg =>
    have ⟨hkept, hatt, hdel⟩ := h.settled g hg
    ⟨fun ho => (hkept ho).setResult v, hatt, hdel⟩

theorem pollFull_post {s u : State} (h : Quiet (Unstamped s) u) :
    (pollFull u).Post (Quiet (PollsEnded s none)) fun e => Quiet (PollsEnded s (some e)) := by
  refine (stampRaw_gives h).andThen_post fun _ t ht =>
    (pollAll_gives [.acc, .gyr, .mag] (by decide) ht).andThen_post fun first w ⟨hb, hq, hw⟩ => ?_
  have ended : Quiet (PollsEnded s first) (setResult w (BitVec.ofNat 32 (rawOkNum w.sa))) :=
    ⟨hb, hq, hw.setResult _, (setResult_getX w _ 31).trans (if_pos rfl)⟩
  cases first with
  | none => exact ended
  | some e => exact ended

/-! ## O35: the commands -/

/-- How SA.POLLA, SA.POLLG, SA.POLLM end. -/
def PollOneEnded (s : State) (g : Group) (t : State) : Prop :=
  PollReturned s g t ∨ ∃ e, PollRaised s g e t ∧ t.cmd.fail = true ∧ t.cmd.err = errword e ∧ t.getX 31 = 0

theorem exec_pollCommand_ended {g : Group} {s t : State} (hb : s.cmd.busy = false) (hq : hostQuiet s.env = true)
    (h : exec (pollCommand g) s = .next t) : PollOneEnded s g t := by
  obtain ⟨op, hexec⟩ := exec_pollCommand g s
  rw [hexec] at h
  refine (command_post (K := PollOneEnded s g) (busUnaware_unstamped s).stable (busUnaware_pollReturned s g).stable
    (fun e => (busUnaware_pollRaised s g e).stable) hb rfl ⟨rfl, hq, rfl, rfl, rfl, BitVec.le_refl _⟩
    (fun u hu => pollOne_post g hu) (fun w ⟨_, _, hw⟩ => ?_) fun e w ⟨_, _, hw⟩ => ?_).next h
  · exact .inl ⟨hw.unfailed, hw.stamp, hw.kept, hw.ok, hw.result⟩
  · exact .inr ⟨e, ⟨hw.stamp, hw.kept.setResult 0, hw.attached, hw.ok, hw.error⟩, rfl, rfl,
      (setResult_getX w 0 31).trans (if_pos rfl)⟩

/-- How SA.POLL ends, with the first error. -/
structure PollFullEnded (s : State) (first : Option Err) (t : State) : Prop where
  fail : t.cmd.fail = first.isSome
  stamp : StampedSince s t
  settled : ∀ g, Settled s first g t
  result : t.getX 31 = BitVec.ofNat 32 (rawOkNum t.sa)

/-- The completion of a command writes the flags and the sequencer only (R329, R330). -/
theorem PollsEnded.completed {s w : State} {first : Option Err} (h : PollsEnded s first w) {c : CmdStatus}
    (hc : c.fail = first.isSome) (q : Option SeqPos) : PollFullEnded s first ((w.withCmd c).withSeq q) where
  fail := hc
  stamp := h.1.stamp
  settled := fun g =>
    have ⟨hkept, hatt, hdel⟩ := h.1.settled g List.not_mem_nil
    ⟨hkept, hatt, hdel⟩
  result := h.2

theorem exec_saPoll_ended {s t : State} (hb : s.cmd.busy = false) (hq : hostQuiet s.env = true)
    (h : exec .saPoll s = .next t) : ∃ first, PollFullEnded s first t := by
  refine (command_post (op := 0x23) (legal := true) (result := resultKept) (body := pollFull)
    (K := fun t => ∃ first, PollFullEnded s first t) (busUnaware_unstamped s).stable
    (busUnaware_pollsEnded s none).stable (fun e => (busUnaware_pollsEnded s (some e)).stable) hb rfl
    ⟨rfl, hq, rfl, rfl, rfl, BitVec.le_refl _⟩ (fun u hu => pollFull_post hu)
    (fun w ⟨_, _, hw⟩ => ?_) fun e w ⟨_, _, hw⟩ => ?_).next h
  · exact ⟨none, hw.completed (c := { w.cmd with busy := false, done := true }) hw.1.unfailed none⟩
  · exact ⟨some e, hw.completed (c := { w.cmd with busy := false, done := true, fail := true, err := errword e }) rfl none⟩

/-- Settles O35: the ends of the two routines (`pollOne_post`, `pollFull_post`), read group by group. -/
theorem saPollOutcome : Obligations.SaPollOutcome := by
  refine ⟨fun g s t hb hq h => ?_, fun s t hb hq h => ?_⟩
  · obtain hr | ⟨e, hr, hf, herr, hx⟩ := exec_pollCommand_ended hb hq h
    · obtain ⟨hlo, hhi⟩ := hr.stamp
      refine ⟨hr.kept, hlo, hhi, ?_⟩
      cases ha : groupAttached s g with
      | true => exact .inl ⟨hr.unfailed, rfl, hr.ok.trans ha, hr.result.trans (if_pos ha)⟩
      | false =>
        exact .inr (.inl ⟨hr.unfailed, rfl, hr.ok.trans ha, hr.result.trans (if_neg (Bool.eq_false_iff.mp ha))⟩)
    · obtain ⟨hlo, hhi⟩ := hr.stamp
      obtain ⟨k, rfl, hk⟩ := hr.error
      exact ⟨fun _ => hr.kept, hlo, hhi, .inr (.inr ⟨hf, hr.attached, hr.ok, hx, k, herr, hk⟩)⟩
  · obtain ⟨first, hr⟩ := exec_saPoll_ended hb hq h
    obtain ⟨hlo, hhi⟩ := hr.stamp
    have unattached : ∀ g, groupAttached s g = false → groupOk g t = false := fun g ha => by
      rw [Bool.eq_false_iff] at ha ⊢
      exact fun ho => ha ((hr.settled g).attached ho)
    refine ⟨?_, (hr.settled .acc).kept, (hr.settled .gyr).kept, (hr.settled .mag).kept, unattached .acc,
      unattached .gyr, unattached .mag, fun hf => ?_, hlo, hhi⟩
    · rw [hr.result, rawOkNum, Nat.mul_comm _ 2, Nat.mul_comm _ 4]
    · have hnone : first = none := Option.isNone_iff_eq_none.mp (Option.isSome_eq_false_iff.mp (hr.fail.symm.trans hf))
      exact ⟨(hr.settled .acc).delivered hnone, (hr.settled .gyr).delivered hnone, (hr.settled .mag).delivered hnone⟩

end Sys2Proof.Machine
end

section
/-! PROOF of O36 and O37. CA.APPLY (spec/46_calibration.md R270 to R278): the three groups are one operation
(`calibrateGroup`), whose operands no group writes and whose results no other group writes; so a group of the mask
comes to what it comes to alone. -/

namespace Sys2Proof.Machine

open Sys2Proof

/-! ## The groups -/

/-- The first of a group's three scaled registers; the calibrated ones are 9 further on (R271). -/
def firstScaled : Group → Fin 32
  | .acc => 9
  | .gyr => 12
  | .mag => 15

/-- The registers CA.APPLY computes for a group (R271). -/
def computedRegs (g : Group) : List (Fin 32) :=
  [firstScaled g, firstScaled g + 1, firstScaled g + 2, firstScaled g + 9, firstScaled g + 10, firstScaled g + 11]

/-- `SC_A`, `SC_G` or `SC_M` (R272). -/
def scaledOf : Group → State → Fx3
  | .acc, s => scaledA s
  | .gyr, s => scaledG s
  | .mag, s => scaledM s

/-- What the offset step, and for the magnetometer the matrix step, make of the scaled values (R273, R274). -/
def calibratedOf : Group → State → Fx3
  | .acc, s => addOffset (scaledOf .acc s) s.cal.aoff
  | .gyr, s => addOffset (scaledOf .gyr s) s.cal.goff
  | .mag, s => matTimes s.cal.mmat (addOffset (scaledOf .mag s) s.cal.moff)

/-- A group of `CA_APPLY` (R275). -/
def calibrateGroup (g : Group) (s : State) : State :=
  putFx (putFx s (firstScaled g) (firstScaled g + 1) (firstScaled g + 2) (scaledOf g s))
    (firstScaled g + 9) (firstScaled g + 10) (firstScaled g + 11) (calibratedOf g s)

/-- A group of `CA_APPLY`, if its mask bit is set. -/
def calibrateWhen (on : Bool) (g : Group) (s : State) : State := if on then calibrateGroup g s else s

/-- The bit of a group in the mask of CA.APPLY (R275). -/
def maskHas (mask : BitVec 3) : Group → Bool
  | .acc => mask.getLsbD 0
  | .gyr => mask.getLsbD 1
  | .mag => mask.getLsbD 2

/-- `CA_APPLY(mask)` (R275). -/
def caApplyMask (mask : BitVec 3) (s : State) : State :=
  caApply (maskHas mask .acc) (maskHas mask .gyr) (maskHas mask .mag) s

theorem caApplyMask_eq (mask : BitVec 3) (s : State) : caApplyMask mask s =
    calibrateWhen (maskHas mask .mag) .mag
      (calibrateWhen (maskHas mask .gyr) .gyr (calibrateWhen (maskHas mask .acc) .acc s)) := rfl

theorem caApplyMask_env (mask : BitVec 3) (s : State) : (caApplyMask mask s).env = s.env :=
  have ⟨_, _, _, _, _, _, _, _, henv, _⟩ := caApply_fields _ _ _ s
  henv

theorem caApplyMask_cmd (mask : BitVec 3) (s : State) :
    (caApplyMask mask s).cmd = { s.cmd with fxSat := (caApplyMask mask s).cmd.fxSat } :=
  have ⟨_, _, _, _, _, _, _, _, _, hcmd⟩ := caApply_fields _ _ _ s
  hcmd

/-! ## What a group writes -/

theorem calibrateGroup_getX_of_notMem {g : Group} {n : Fin 32} (hn : n ∉ computedRegs g) (s : State) :
    (calibrateGroup g s).getX n = s.getX n := by
  simp only [computedRegs, List.mem_cons, List.not_mem_nil, or_false, not_or] at hn
  obtain ⟨h0, h1, h2, h9, h10, h11⟩ := hn
  rw [calibrateGroup, putFx_getX_of_ne (Ne.symm h9) (Ne.symm h10) (Ne.symm h11),
    putFx_getX_of_ne (Ne.symm h0) (Ne.symm h1) (Ne.symm h2)]

/-- The scaled values and the calibrated ones are in the registers of their group. -/
def Stored (g : Group) (v w : Fx3) (t : State) : Prop :=
  t.getX (firstScaled g) = v.x.val ∧ t.getX (firstScaled g + 1) = v.y.val ∧ t.getX (firstScaled g + 2) = v.z.val ∧
  t.getX (firstScaled g + 9) = w.x.val ∧ t.getX (firstScaled g + 10) = w.y.val ∧
  t.getX (firstScaled g + 11) = w.z.val

theorem stored_calibrateGroup (g : Group) (s : State) :
    Stored g (scaledOf g s) (calibratedOf g s) (calibrateGroup g s) := by
  simp only [Stored, calibrateGroup, putFx, putFx3_getX]
  cases g <;> exact ⟨rfl, rfl, rfl, rfl, rfl, rfl⟩

theorem Stored.congr {g : Group} {v w : Fx3} {t u : State} (h : Stored g v w u)
    (hx : ∀ k ∈ computedRegs g, t.getX k = u.getX k) : Stored g v w t := by
  simp only [computedRegs, List.forall_mem_cons] at hx
  obtain ⟨h0, h1, h2, h9, h10, h11, -⟩ := hx
  rw [Stored, h0, h1, h2, h9, h10, h11]
  exact h

/-- The raw registers, the caches and the profile are all that the results depend on (R271 to R274). -/
theorem scaledOf_congr {s t : State} (hx : ∀ n : Fin 32, n.val < 9 → t.getX n = s.getX n) (hag : t.ag = s.ag)
    (hmg : t.mg = s.mg) (g : Group) : scaledOf g t = scaledOf g s := by
  cases g <;> simp [scaledOf, scaledA, scaledG, scaledM, rawOf, hx, hag, hmg]

theorem calibratedOf_congr {s t : State} (hx : ∀ n : Fin 32, n.val < 9 → t.getX n = s.getX n) (hag : t.ag = s.ag)
    (hmg : t.mg = s.mg) (hcal : t.cal = s.cal) (g : Group) : calibratedOf g t = calibratedOf g s := by
  cases g <;> simp only [calibratedOf, scaledOf_congr hx hag hmg, hcal]

theorem notMem_computedRegs_of_raw (g : Group) : ∀ n : Fin 32, n.val < 9 → n ∉ computedRegs g := by
  cases g <;> decide

theorem notMem_computedRegs_of_ne {g g' : Group} (h : g' ≠ g) : ∀ n ∈ computedRegs g, n ∉ computedRegs g' := by
  revert h
  cases g <;> cases g' <;> decide

theorem calibrateWhen_getX_of_notMem {g : Group} {n : Fin 32} (hn : n ∉ computedRegs g) (on : Bool) (s : State) :
    (calibrateWhen on g s).getX n = s.getX n := by
  cases on with
  | false => rfl
  | true => exact calibrateGroup_getX_of_notMem hn s

theorem calibrateWhen_fields (on : Bool) (g : Group) (s : State) : (calibrateWhen on g s).ag = s.ag ∧
    (calibrateWhen on g s).mg = s.mg ∧ (calibrateWhen on g s).cal = s.cal := by
  cases on <;> exact ⟨rfl, rfl, rfl⟩

theorem calibratedOf_calibrateWhen (on : Bool) (g g' : Group) (s : State) :
    calibratedOf g (calibrateWhen on g' s) = calibratedOf g s :=
  have ⟨hag, hmg, hcal⟩ := calibrateWhen_fields on g' s
  calibratedOf_congr (fun n hn => calibrateWhen_getX_of_notMem (notMem_computedRegs_of_raw g' n hn) on s) hag hmg hcal g

/-! ## What the three groups come to together -/

/-- What becomes of the registers of a group, in the mask or not, from the state `s` to `t`. -/
def Calibrated (on : Bool) (g : Group) (s t : State) : Prop :=
  if on then Stored g (scaledOf g s) (calibratedOf g s) t else ∀ k ∈ computedRegs g, t.getX k = s.getX k

theorem calibrated_calibrateWhen (on : Bool) (g : Group) (s : State) :
    Calibrated on g s (calibrateWhen on g s) := by
  cases on with
  | false => exact fun _ _ => rfl
  | true => exact stored_calibrateGroup g s

theorem Calibrated.congr {on : Bool} {g : Group} {s t u : State} (h : Calibrated on g s u)
    (hx : ∀ k ∈ computedRegs g, t.getX k = u.getX k) : Calibrated on g s t := by
  cases on with
  | false => exact fun k hk => (hx k hk).trans (h k hk)
  | true => exact Stored.congr h hx

/-- It is the same from any state with the same registers, caches and profile. -/
theorem Calibrated.of_congr {on : Bool} {g : Group} {s t u : State} (h : Calibrated on g u t)
    (hraw : ∀ k : Fin 32, k.val < 9 → u.getX k = s.getX k) (hx : ∀ k ∈ computedRegs g, u.getX k = s.getX k)
    (hag : u.ag = s.ag) (hmg : u.mg = s.mg) (hcal : u.cal = s.cal) : Calibrated on g s t := by
  rw [Calibrated, scaledOf_congr hraw hag hmg, calibratedOf_congr hraw hag hmg hcal] at h
  cases on with
  | false => exact fun k hk => Eq.trans (h k hk) (hx k hk)
  | true => exact h

/-- Another group after it changes nothing of a group's registers, -/
theorem Calibrated.then_other {on on' : Bool} {g g' : Group} {s t : State} (h : Calibrated on g s t) (hne : g' ≠ g) :
    Calibrated on g s (calibrateWhen on' g' t) :=
  h.congr fun k hk => calibrateWhen_getX_of_notMem (notMem_computedRegs_of_ne hne k hk) on' t

/-- nor does another group before it. -/
theorem Calibrated.of_other {on on' : Bool} {g g' : Group} {s t : State}
    (h : Calibrated on g (calibrateWhen on' g' s) t) (hne : g' ≠ g) : Calibrated on g s t :=
  have ⟨hag, hmg, hcal⟩ := calibrateWhen_fields on' g' s
  h.of_congr (fun k hk => calibrateWhen_getX_of_notMem (notMem_computedRegs_of_raw g' k hk) on' s)
    (fun k hk => calibrateWhen_getX_of_notMem (notMem_computedRegs_of_ne hne k hk) on' s) hag hmg hcal

theorem calibrated_caApplyMask (mask : BitVec 3) (s : State) (g : Group) :
    Calibrated (maskHas mask g) g s (caApplyMask mask s) := by
  rw [caApplyMask_eq]
  cases g with
  | acc => exact ((calibrated_calibrateWhen _ .acc _).then_other (by decide)).then_other (by decide)
  | gyr => exact ((calibrated_calibrateWhen _ .gyr _).then_other (by decide)).of_other (by decide)
  | mag => exact ((calibrated_calibrateWhen _ .mag _).of_other (by decide)).of_other (by decide)

/-! ## The saturation flag -/

/-- Whether any of three values saturated (R132). -/
def Fx3.sat (v : Fx3) : Bool := v.x.sat || v.y.sat || v.z.sat

theorem fxAdd_sat_of_or {a b : Fx} (h : a.sat = true ∨ b.sat = true) : (fxAdd a b).sat = true := by
  rw [fxAdd, fxResult_or_sat_iff, ← or_assoc]
  exact .inl h

theorem fxMul_sat_of_right {a b : Fx} (h : b.sat = true) : (fxMul a b).sat = true := by
  rw [fxMul, fxResult_or_sat_iff]
  exact .inr (.inl h)

theorem Fx3.sat_iff {v : Fx3} : v.sat = true ↔ v.x.sat = true ∨ v.y.sat = true ∨ v.z.sat = true := by
  rw [Fx3.sat, Bool.or_eq_true, Bool.or_eq_true, or_assoc]

theorem addOffset_sat {v : Fx3} (h : v.sat = true) (o : Vec3) : (addOffset v o).sat = true := by
  rw [Fx3.sat_iff] at h ⊢
  exact h.imp (fun hx => fxAdd_sat_of_or (.inl hx))
    (Or.imp (fun hy => fxAdd_sat_of_or (.inl hy)) fun hz => fxAdd_sat_of_or (.inl hz))

/-- Each row takes all three values. -/
theorem rowTimes_sat {v : Fx3} (h : v.sat = true) (r : Vec3) : (rowTimes r v).sat = true := by
  rw [Fx3.sat_iff] at h
  obtain hx | hy | hz := h
  · exact fxAdd_sat_of_or (.inl (fxAdd_sat_of_or (.inl (fxMul_sat_of_right hx))))
  · exact fxAdd_sat_of_or (.inl (fxAdd_sat_of_or (.inr (fxMul_sat_of_right hy))))
  · exact fxAdd_sat_of_or (.inr (fxMul_sat_of_right hz))

theorem matTimes_sat {v : Fx3} (h : v.sat = true) (m : Mat3) : (matTimes m v).sat = true :=
  Fx3.sat_iff.mpr (.inl (rowTimes_sat h m.r0))

/-- A calibrated value carries the mark of the scaled one. -/
theorem calibratedOf_sat {g : Group} {s : State} (h : (scaledOf g s).sat = true) :
    (calibratedOf g s).sat = true := by
  cases g with
  | acc => exact addOffset_sat h _
  | gyr => exact addOffset_sat h _
  | mag => exact matTimes_sat (addOffset_sat h _) _

theorem calibrateWhen_fxSat (on : Bool) (g : Group) (s : State) :
    (calibrateWhen on g s).cmd.fxSat = (s.cmd.fxSat || (on && (calibratedOf g s).sat)) := by
  cases on with
  | false => exact (Bool.or_false _).symm
  | true =>
    have habsorb : ((scaledOf g s).sat || (calibratedOf g s).sat) = (calibratedOf g s).sat := by
      rw [Bool.or_eq_right_iff_imp]
      exact calibratedOf_sat
    calc
      (calibrateGroup g s).cmd.fxSat = ((s.cmd.fxSat || (scaledOf g s).sat) || (calibratedOf g s).sat) := rfl
      _ = (s.cmd.fxSat || (true && (calibratedOf g s).sat)) := by rw [Bool.or_assoc, habsorb, Bool.true_and]

theorem caApplyMask_fxSat (mask : BitVec 3) (s : State) :
    (caApplyMask mask s).cmd.fxSat =
      (s.cmd.fxSat || (maskHas mask .acc && (calibratedOf .acc s).sat) ||
        (maskHas mask .gyr && (calibratedOf .gyr s).sat) || (maskHas mask .mag && (calibratedOf .mag s).sat)) := by
  simp only [caApplyMask_eq, calibrateWhen_fxSat, calibratedOf_calibrateWhen]

/-! ## O36: the command -/

/-- What CA.APPLY leaves. -/
structure CaApplied (mask : BitVec 3) (s t : State) : Prop where
  result : t.getX 31 = mask.zeroExtend 32
  groups : ∀ g, Calibrated (maskHas mask g) g s t
  others : ∀ k : Fin 32, k.val < 9 ∨ 27 ≤ k.val ∧ k.val < 31 → t.getX k = s.getX k
  flags : t.cmd = { s.cmd with busy := false, done := true, fail := false, err := 0, fxSat := t.cmd.fxSat }
  sat : t.cmd.fxSat = (s.cmd.fxSat || (maskHas mask .acc && (calibratedOf .acc s).sat) ||
    (maskHas mask .gyr && (calibratedOf .gyr s).sat) || (maskHas mask .mag && (calibratedOf .mag s).sat))

theorem notMem_computedRegs_result (g : Group) : (31 : Fin 32) ∉ computedRegs g := by
  cases g <;> decide

/-- A completed CA.APPLY, from the state in which its routine begins. -/
theorem caApplied_completed (mask : BitVec 3) (s : State) : CaApplied mask s (completeCommand (nextPhase
    (setResult (caApplyMask mask (nextPhase (startCommand 0x28 s))) (mask.zeroExtend 32)))) := by
  generalize hu : nextPhase (startCommand 0x28 s) = u
  have hx : ∀ n, u.getX n = s.getX n := by rw [← hu]; exact fun _ => rfl
  have hstored : ∀ n : Fin 32, 31 ≠ n →
      (setResult (caApplyMask mask u) (mask.zeroExtend 32)).getX n = (caApplyMask mask u).getX n :=
    fun n hn => (setResult_getX _ _ n).trans (if_neg hn)
  refine ⟨(setResult_getX _ _ 31).trans (if_pos rfl), fun g => ?groups, fun k hk => ?others, ?flags, ?sat⟩
  case groups =>
    have hstart : Calibrated (maskHas mask g) g s (caApplyMask mask u) :=
      (calibrated_caApplyMask mask u g).of_congr (fun k _ => hx k) (fun k _ => hx k) (by rw [← hu]; rfl)
        (by rw [← hu]; rfl) (by rw [← hu]; rfl)
    exact hstart.congr fun k hk => hstored k fun h31 => notMem_computedRegs_result g (h31 ▸ hk)
  case others =>
    have hne : (31 : Fin 32) ≠ k := by rintro rfl; omega
    calc
      _ = (caApplyMask mask u).getX k := hstored k hne
      _ = u.getX k := caApply_getX _ _ _ u (by omega)
      _ = s.getX k := hx k
  case flags =>
    rw [completeCommand_cmd, nextPhase_cmd, setResult_cmd, caApplyMask_cmd, ← hu]
    rfl
  case sat =>
    rw [completeCommand_cmd, nextPhase_cmd, setResult_cmd, caApplyMask_fxSat, ← hu]
    rfl

theorem exec_caApply_quiet {s : State} (mask : BitVec 3) (hb : s.cmd.busy = false) (hq : turnAhead s.env = false) :
    ∃ t, exec (.caApply mask) s = .next t ∧ CaApplied mask s t := by
  have henv : (caApplyMask mask (nextPhase (startCommand 0x28 s))).env = s.env := caApplyMask_env mask _
  exact ⟨_, command_succeeds hb rfl hq rfl ((congrArg turnAhead henv).trans hq), caApplied_completed mask s⟩

/-- Settles O36: the three groups (`calibrated_caApplyMask`, `caApplyMask_fxSat`) in the frame of a command. -/
theorem CaApplied.caApply : Obligations.CaApply := by
  intro s mask hb hq
  obtain ⟨t, hexec, h⟩ := exec_caApply_quiet mask hb hq
  exact ⟨t, hexec, h.result, h.groups .acc, h.groups .gyr, h.groups .mag, h.others,
    congrArg CmdStatus.fail h.flags, congrArg CmdStatus.done h.flags, congrArg CmdStatus.busy h.flags,
    by rw [h.flags], h.sat⟩

/-! ## O37: the reset profile -/

theorem fxAdd_val_of_zero_right {a b : Fx} (h : b.val = 0) : (fxAdd a b).val = a.val := by
  have hsum : a.val.toInt + b.val.toInt = a.val.toInt := by rw [h]; exact Int.add_zero _
  rw [fxAdd, hsum, fxResult_toInt]

theorem fxAdd_val_of_zero_left {a b : Fx} (h : a.val = 0) : (fxAdd a b).val = b.val := by
  rw [fxAdd_comm, fxAdd_val_of_zero_right h]

theorem fxMul_val_of_one_left (a : Fx) : (fxMul (.of 65536) a).val = a.val := by rw [fxMul_comm, fxMul_one]

theorem fxMul_val_of_zero_left (a : Fx) : (fxMul (.of 0) a).val = 0 := by rw [fxMul_comm, fxMul_zero_val]

/-- The bits of three values, without their marks. -/
def Fx3.vals (v : Fx3) : Vec3 := ⟨v.x.val, v.y.val, v.z.val⟩

theorem addOffset_zero_vals (v : Fx3) : (addOffset v (Vec3.all 0)).vals = v.vals := by
  have hzero : ∀ a : Fx, (fxAdd a (.of 0)).val = a.val := fun _ => fxAdd_val_of_zero_right rfl
  simp only [Fx3.vals, addOffset, Vec3.all, hzero]

theorem matTimes_identity_vals (v : Fx3) :
    (matTimes ⟨⟨65536, 0, 0⟩, ⟨0, 65536, 0⟩, ⟨0, 0, 65536⟩⟩ v).vals = v.vals := by
  have hx : (rowTimes ⟨65536, 0, 0⟩ v).val = v.x.val := by
    rw [rowTimes, fxAdd_val_of_zero_right (fxMul_val_of_zero_left _),
      fxAdd_val_of_zero_right (fxMul_val_of_zero_left _), fxMul_val_of_one_left]
  have hy : (rowTimes ⟨0, 65536, 0⟩ v).val = v.y.val := by
    rw [rowTimes, fxAdd_val_of_zero_right (fxMul_val_of_zero_left _),
      fxAdd_val_of_zero_left (fxMul_val_of_zero_left _), fxMul_val_of_one_left]
  have hz : (rowTimes ⟨0, 0, 65536⟩ v).val = v.z.val := by
    have hrest : (fxAdd (fxMul (.of 0) v.x) (fxMul (.of 0) v.y)).val = 0 := by
      rw [fxAdd_val_of_zero_right (fxMul_val_of_zero_left _), fxMul_val_of_zero_left]
    rw [rowTimes, fxAdd_val_of_zero_left hrest, fxMul_val_of_one_left]
  simp only [Fx3.vals, matTimes, hx, hy, hz]

/-- With the reset profile calibration changes no value (R275). -/
theorem calibratedOf_vals_of_reset {s : State} (h : s.cal = State.reset.cal) (g : Group) :
    (calibratedOf g s).vals = (scaledOf g s).vals := by
  cases g with
  | acc => rw [calibratedOf, h]; exact addOffset_zero_vals _
  | gyr => rw [calibratedOf, h]; exact addOffset_zero_vals _
  | mag => rw [calibratedOf, h]; exact (matTimes_identity_vals _).trans (addOffset_zero_vals _)

/-- Stored values that agree are in the registers of both steps. -/
theorem Stored.registers_eq {g : Group} {v w : Fx3} {t : State} (h : Stored g v w t) (hv : w.vals = v.vals) :
    t.getX (firstScaled g + 9) = t.getX (firstScaled g) ∧ t.getX (firstScaled g + 10) = t.getX (firstScaled g + 1) ∧
    t.getX (firstScaled g + 11) = t.getX (firstScaled g + 2) := by
  obtain ⟨h0, h1, h2, h9, h10, h11⟩ := h
  simp only [Fx3.vals, Vec3.mk.injEq] at hv
  obtain ⟨hx, hy, hz⟩ := hv
  exact ⟨h9.trans (hx.trans h0.symm), h10.trans (hy.trans h1.symm), h11.trans (hz.trans h2.symm)⟩

/-- Settles O37: what CA.APPLY stores (`exec_caApply_quiet`), whose values agree (`calibratedOf_vals_of_reset`). -/
theorem caIdentityProfile : Obligations.CaIdentityProfile := by
  intro s t mask hb hq hcal hexec
  obtain ⟨t', hexec', h⟩ := exec_caApply_quiet mask hb hq
  obtain rfl : t' = t := Host.Outcome.next.inj (hexec'.symm.trans hexec)
  have hgroup : ∀ g, maskHas mask g = true →
      t'.getX (firstScaled g + 9) = t'.getX (firstScaled g) ∧
      t'.getX (firstScaled g + 10) = t'.getX (firstScaled g + 1) ∧
      t'.getX (firstScaled g + 11) = t'.getX (firstScaled g + 2) := fun g hon => by
    have hst := h.groups g
    rw [Calibrated, if_pos hon] at hst
    exact hst.registers_eq (calibratedOf_vals_of_reset hcal g)
  exact ⟨hgroup .acc, hgroup .gyr, hgroup .mag⟩

end Sys2Proof.Machine
end

section
/-! PROOF of O38, O39 and O43. The orientation filter (spec/47_estimator.md R285 to R294): what an accepted step
leaves, said once for a state that differs from the one spoken of by the time step in `x[30]`. OE.STEP takes that of
its start, a tick the one it has just stored. -/

namespace Sys2Proof.Machine

open Sys2Proof

/-! ## The values of R287, by the time step -/

/-- The new roll with the time step `dt` (R287). -/
def rollAfter (dt : Word) (s : State) : Fx :=
  blend (fxOf s 27) (fxOf s 22) (.of dt) (atan2d (s.getX 18) (s.getX 20))

/-- The new pitch with the time step `dt` (R287). -/
def pitchAfter (dt : Word) (s : State) : Fx :=
  blend (fxOf s 28) (fxOf s 21) (.of dt) (atan2d (s.getX 19) (s.getX 20))

/-- The new heading with the time step `dt` (R287). -/
def headingAfter (dt : Word) (s : State) : Fx := newHeading s (pitchAfter dt s).val (rollAfter dt s).val

/-- Whether an operation of a step with the time step `dt` saturates (R132, R287). -/
def stepSaturates (dt : Word) (s : State) : Bool :=
  (rollAfter dt s).sat || (pitchAfter dt s).sat || (headingAfter dt s).sat

theorem headingAfter_val (dt : Word) (s : State) : (headingAfter dt s).val =
    atan2d (tiltY s (pitchAfter dt s).val (rollAfter dt s).val).val (tiltX s (rollAfter dt s).val).val := by
  rw [headingAfter, newHeading]

theorem stepSaturates_eq (dt : Word) (s : State) : stepSaturates dt s =
    ((rollAfter dt s).sat || (pitchAfter dt s).sat ||
      ((tiltY s (pitchAfter dt s).val (rollAfter dt s).val).sat || (tiltX s (rollAfter dt s).val).sat)) := by
  rw [stepSaturates, headingAfter, newHeading]

section
variable {s u : State}

theorem sameXBut.of_ne_dt (h : sameXBut [30] s u) {k : Fin 32} (hk : k ≠ 30) : u.getX k = s.getX k :=
  h k (by simpa using hk)

theorem newRoll_eq_rollAfter (h : sameXBut [30] s u) : newRoll u = rollAfter (u.getX 30) s := by
  simp only [newRoll, rollAfter, fxOf, h.of_ne_dt (k := 27) (by decide), h.of_ne_dt (k := 22) (by decide),
    h.of_ne_dt (k := 18) (by decide), h.of_ne_dt (k := 20) (by decide)]

theorem newPitch_eq_pitchAfter (h : sameXBut [30] s u) : newPitch u = pitchAfter (u.getX 30) s := by
  simp only [newPitch, pitchAfter, fxOf, h.of_ne_dt (k := 28) (by decide), h.of_ne_dt (k := 21) (by decide),
    h.of_ne_dt (k := 19) (by decide), h.of_ne_dt (k := 20) (by decide)]

/-- The tilt compensation reads the magnetometer's registers only. -/
theorem newHeading_congr (h : sameXBut [30] s u) (pitch roll : Word) :
    newHeading u pitch roll = newHeading s pitch roll := by
  simp only [newHeading, tiltX, tiltY, fxOf, h.of_ne_dt (k := 24) (by decide), h.of_ne_dt (k := 25) (by decide),
    h.of_ne_dt (k := 26) (by decide)]

theorem newHeading_eq_headingAfter (h : sameXBut [30] s u) :
    newHeading u (newPitch u).val (newRoll u).val = headingAfter (u.getX 30) s := by
  rw [headingAfter, newHeading_congr h, newPitch_eq_pitchAfter h, newRoll_eq_rollAfter h]

end

/-! ## An accepted step -/

section
variable (s : State)

@[simp] theorem oeAccept_env : (oeAccept s).env = s.env := rfl
@[simp] theorem oeAccept_sa : (oeAccept s).sa = s.sa := rfl
@[simp] theorem oeAccept_ss : (oeAccept s).ss = s.ss := rfl
@[simp] theorem oeAccept_estTs : (oeAccept s).estTs = s.sa.ts := rfl
theorem oeAccept_getX (n : Fin 32) : (oeAccept s).getX n =
    if 29 = n then (newHeading s (newPitch s).val (newRoll s).val).val
    else if 28 = n then (newPitch s).val else if 27 = n then (newRoll s).val else s.getX n := by
  rw [oeAccept, State.withEstTs_getX, putFx3_getX]

end

theorem oeAccept_getX_of_notMem {s : State} {n : Fin 32} (hn : n ∉ [(27 : Fin 32), 28, 29]) :
    (oeAccept s).getX n = s.getX n := by
  simp only [List.mem_cons, List.not_mem_nil, or_false, not_or] at hn
  obtain ⟨h27, h28, h29⟩ := hn
  rw [oeAccept_getX, if_neg (Ne.symm h29), if_neg (Ne.symm h28), if_neg (Ne.symm h27)]

/-- The angles that a step with the time step `dt` makes of `s` stand in `t`. -/
structure Oriented (dt : Word) (s t : State) : Prop where
  roll : t.getX 27 = (rollAfter dt s).val
  pitch : t.getX 28 = (pitchAfter dt s).val
  heading : t.getX 29 = (headingAfter dt s).val

theorem Oriented.congr {dt : Word} {s t t' : State} (h : Oriented dt s t)
    (hx : ∀ k : Fin 32, k ≠ 31 → t'.getX k = t.getX k) : Oriented dt s t' where
  roll := (hx 27 (by decide)).trans h.roll
  pitch := (hx 28 (by decide)).trans h.pitch
  heading := (hx 29 (by decide)).trans h.heading

theorem oriented_oeAccept {s u : State} (h : sameXBut [30] s u) : Oriented (u.getX 30) s (oeAccept u) where
  roll := by rw [oeAccept_getX, if_neg (by decide), if_neg (by decide), if_pos rfl, newRoll_eq_rollAfter h]
  pitch := by rw [oeAccept_getX, if_neg (by decide), if_pos rfl, newPitch_eq_pitchAfter h]
  heading := by rw [oeAccept_getX, if_pos rfl, newHeading_eq_headingAfter h]

theorem oeAccept_cmd {s u : State} (h : sameXBut [30] s u) :
    (oeAccept u).cmd = { u.cmd with fxSat := u.cmd.fxSat || stepSaturates (u.getX 30) s } := by
  rw [stepSaturates, ← newRoll_eq_rollAfter h, ← newPitch_eq_pitchAfter h, ← newHeading_eq_headingAfter h]
  rfl

/-! ## O38 and O39: OE.STEP -/

theorem dtAccepted_iff (s : State) : dtAccepted s = true ↔ 0 < (s.getX 30).toInt := decide_eq_true_iff

theorem dtAccepted_eq_false {s : State} (h : (s.getX 30).toInt ≤ 0) : dtAccepted s = false :=
  decide_eq_false (not_lt.mpr h)

/-- OE.STEP is its start, the accepted step with 1 in `x[31]`, and its completion (R288). -/
theorem exec_oeStep_accepted {s : State} (hb : s.cmd.busy = false) (hq : turnAhead s.env = false)
    (hdt : 0 < (s.getX 30).toInt) :
    exec .oeStep s = .next (completeCommand (nextPhase
      (setResult (oeAccept (nextPhase (startCommand 0x29 s))) 1))) := by
  have htaken := oeStep_taken ((dtAccepted_iff (nextPhase (startCommand 0x29 s))).mpr hdt)
  exact command_succeeds hb rfl hq (by rw [htaken]; rfl) (by simpa using hq)

/-- What an accepted OE.STEP leaves. -/
structure OeStepped (s t : State) : Prop where
  oriented : Oriented (s.getX 30) s t
  others : sameXBut [27, 28, 29, 31] s t
  result : t.getX 31 = 1
  estTs : t.estTs = s.sa.ts
  flags : t.cmd = { s.cmd with
    busy := false, done := true, fail := false, err := 0
    fxSat := s.cmd.fxSat || stepSaturates (s.getX 30) s }

theorem exec_oeStep_quiet {s : State} (hb : s.cmd.busy = false) (hq : turnAhead s.env = false)
    (hdt : 0 < (s.getX 30).toInt) : ∃ t, exec .oeStep s = .next t ∧ OeStepped s t := by
  refine ⟨_, exec_oeStep_accepted hb hq hdt, ?_⟩
  generalize hu : nextPhase (startCommand 0x29 s) = u
  have hx : ∀ k, u.getX k = s.getX k := by rw [← hu]; exact fun _ => rfl
  have hsame : sameXBut [30] s u := fun k _ => hx k
  have hstored : ∀ k : Fin 32, k ≠ 31 → (setResult (oeAccept u) 1).getX k = (oeAccept u).getX k :=
    fun k hk => (setResult_getX _ _ k).trans (if_neg hk.symm)
  have hacc := oriented_oeAccept hsame
  rw [hx] at hacc
  refine ⟨hacc.congr hstored, fun k hk => ?others, (setResult_getX _ _ 31).trans (if_pos rfl), ?estTs, ?flags⟩
  case others =>
    calc
      _ = (oeAccept u).getX k := hstored k (by rintro rfl; exact hk (by decide))
      _ = u.getX k := oeAccept_getX_of_notMem (mt (List.mem_append_left [31]) hk)
      _ = s.getX k := hx k
  case estTs =>
    rw [← hu]
    rfl
  case flags =>
    rw [completeCommand_cmd, nextPhase_cmd, setResult_cmd, oeAccept_cmd hsame, hx, ← hu]
    rfl

/-- Settles O38: what OE.STEP leaves (`exec_oeStep_quiet`), the statement's terms being those of R287. -/
theorem oeStepAccepts : Obligations.OeStepAccepts := by
  intro s hb hq hdt f pa ra p r cp sp cr sr mxc myc
  obtain ⟨t, hexec, h⟩ := exec_oeStep_quiet hb hq hdt
  have hr : r = rollAfter (s.getX 30) s := rfl
  have hp : p = pitchAfter (s.getX 30) s := rfl
  have hmxc : mxc = tiltX s r.val := rfl
  have hmyc : myc = tiltY s p.val r.val := rfl
  clear_value mxc myc cp sp cr sr r p
  subst hmxc hmyc hr hp
  rw [← stepSaturates_eq, ← headingAfter_val]
  exact ⟨t, hexec, h.oriented.roll, h.oriented.pitch, h.oriented.heading, h.result, h.estTs, h.others,
    congrArg CmdStatus.fail h.flags, congrArg CmdStatus.done h.flags, congrArg CmdStatus.fxSat h.flags⟩

/-- Settles O39: a rejected step is no change (`oeStep_rejected`), in the frame of a command (`command_does`). -/
theorem oeStepRejects : Obligations.OeStepRejects := by
  intro s hb hq hdt
  have hrej := oeStep_rejected (dtAccepted_eq_false (s := nextPhase (startCommand 0x29 s)) hdt)
  have hnothing : Neutral fun u : State => u := ⟨fun _ _ _ => rfl, fun _ => rfl⟩
  exact command_does (es := s.env) (q := (nextPhase (startCommand 0x29 s)).seq) hnothing hb rfl hq hq
    (by rw [hrej]; rfl)

/-! ## O43: the filter step of a tick -/

/-- The time step of a tick (R305). -/
def tickDt (s : State) : Fx := fxFromUs ((s.sa.ts.toNat : Int) - (s.ss.lastTs.toNat : Int))

theorem setDt_eq (s : State) : setDt s = orSat (s.setX 30 (tickDt s).val) (tickDt s).sat := rfl

theorem setDt_getX_dt (s : State) : (setDt s).getX 30 = (tickDt s).val := by
  rw [setDt_eq, orSat_getX, State.setX_getX, if_pos rfl]

theorem sameXBut_setDt (s : State) : sameXBut [30] s (setDt s) := fun k hk => by
  rw [setDt_eq, orSat_getX, State.setX_getX, if_neg (fun h30 => hk (by simp [h30]))]

theorem setDt_fxSat (s : State) : (setDt s).cmd.fxSat = (s.cmd.fxSat || (tickDt s).sat) := rfl

theorem setDt_ss (s : State) : (setDt s).ss = s.ss := rfl
theorem setDt_sa (s : State) : (setDt s).sa = s.sa := rfl

theorem tickFuse_skipped {s : State} (hp : tickFuses s = false) : tickFuse s = (⟨false, false⟩, s) := by
  rw [tickFuse, if_neg (by simp [hp])]

theorem tickFuse_accepted {s : State} (hp : tickFuses s = true) (hdt : 0 < (tickDt s).val.toInt) :
    tickFuse s = (⟨true, false⟩, (oeAccept (setDt s)).withSs { s.ss with lastTs := s.sa.ts }) := by
  have htaken := oeStep_taken ((dtAccepted_iff (setDt s)).mpr (by rwa [setDt_getX_dt]))
  simp only [tickFuse, hp, htaken, if_true, oeAccept_ss, oeAccept_sa, setDt_ss, setDt_sa]

theorem tickFuse_rejected {s : State} (hp : tickFuses s = true) (hdt : (tickDt s).val.toInt ≤ 0) :
    tickFuse s = (⟨false, true⟩, setDt s) := by
  have hrej := oeStep_rejected (dtAccepted_eq_false (s := setDt s) (by rwa [setDt_getX_dt]))
  simp only [tickFuse, hp, hrej, if_true, Bool.false_eq_true, if_false]

theorem tickFuses_iff (s : State) :
    tickFuses s = true ↔ (s.sa.okA && s.sa.okG && s.sa.okM) = true ∨ s.ctrl.policyStale = true := by
  rw [tickFuses, Bool.or_eq_true]

/-- What the filter step of a tick leaves when it is accepted. -/
structure TickAccepted (s t : State) : Prop where
  oriented : Oriented (tickDt s).val s t
  others : sameXBut [27, 28, 29, 30] s t
  dt : t.getX 30 = (tickDt s).val
  lastTs : t.ss.lastTs = s.sa.ts
  estTs : t.estTs = s.sa.ts
  sat : t.cmd.fxSat = ((s.cmd.fxSat || (tickDt s).sat) || stepSaturates (tickDt s).val s)

theorem tickAccepted_tickFuse {s : State} (hp : tickFuses s = true) (hdt : 0 < (tickDt s).val.toInt) :
    TickAccepted s (tickFuse s).2 := by
  rw [tickFuse_accepted hp hdt]
  have hsame := sameXBut_setDt s
  have hacc := oriented_oeAccept hsame
  rw [setDt_getX_dt] at hacc
  refine ⟨hacc.congr fun k _ => State.withSs_getX .., fun k hk => ?others, ?dt, rfl, rfl, ?sat⟩
  case others =>
    calc
      _ = (oeAccept (setDt s)).getX k := State.withSs_getX ..
      _ = (setDt s).getX k := oeAccept_getX_of_notMem (mt (List.mem_append_left [30]) hk)
      _ = s.getX k := hsame k (mt (List.mem_append_right [27, 28, 29]) hk)
  case dt => rw [State.withSs_getX, oeAccept_getX_of_notMem (by decide), setDt_getX_dt]
  case sat => rw [State.withSs_cmd, oeAccept_cmd hsame, setDt_fxSat, setDt_getX_dt]

/-- Settles O43: skipped (`tickFuse_skipped`), accepted (`tickAccepted_tickFuse`) or rejected (`tickFuse_rejected`);
the statement's terms are those of R287. -/
theorem tickFusesByPolicy : Obligations.TickFusesByPolicy := by
  intro s all dt f pa ra p r cp sp cr sr mxc myc
  have hr : r = rollAfter dt.val s := rfl
  have hp : p = pitchAfter dt.val s := rfl
  have hmxc : mxc = tiltX s r.val := rfl
  have hmyc : myc = tiltY s p.val r.val := rfl
  have hdt : dt = tickDt s := rfl
  clear_value mxc myc cp sp cr sr r p dt
  subst hmxc hmyc hr hp hdt
  rw [← stepSaturates_eq, ← headingAfter_val]
  refine ⟨fun hall hpol => tickFuse_skipped (Bool.or_eq_false_iff.mpr ⟨hall, hpol⟩), fun h => ?_⟩
  have hfuse := (tickFuses_iff s).mpr h
  refine ⟨?timeStep, fun hpos => ?accepted, fun hle => ?rejected⟩
  case timeStep =>
    obtain hpos | hle := lt_or_ge 0 (tickDt s).val.toInt
    · exact (tickAccepted_tickFuse hfuse hpos).dt
    · rw [tickFuse_rejected hfuse hle]
      exact setDt_getX_dt s
  case accepted =>
    have ht := tickAccepted_tickFuse hfuse hpos
    exact ⟨congrArg Prod.fst (tickFuse_accepted hfuse hpos), ht.lastTs, ht.estTs, ht.others, ht.oriented.roll,
      ht.oriented.pitch, ht.oriented.heading, ht.sat⟩
  case rejected =>
    rw [tickFuse_rejected hfuse hle]
    exact ⟨rfl, rfl, rfl, sameXBut_setDt s, setDt_fxSat s⟩

end Sys2Proof.Machine
end

section
/-! PROOF of O6, O59 and O60. Errors and the `irq` level (spec/60_exceptions.md R321, R327, R338): what has no meaning
completes as `Illegal` at once, and `irq` is a level of the state, so its sources take it with them. -/

namespace Sys2Proof.Machine

open Sys2Proof

/-! ## O60: error words -/

/-- Settles O60: the words of twelve given errors. -/
theorem errorWords : Obligations.ErrorWords := by
  unfold Obligations.ErrorWords
  decide

/-! ## O6: the `Illegal` completion -/

/-- On an idle core what is not legal writes the flags of an illegal command (R327), and nothing else. -/
theorem turnedAway_illegal {legal : Bool} {s : State} {run : Host.Outcome State Fault Refusal}
    (hb : s.cmd.busy = false) (hl : legal = false) :
    turnedAway legal s run =
      .next (s.withCmd { s.cmd with busy := false, done := true, fail := true, err := 4 }) := by
  have hword : errword ⟨.illegal, .ag⟩ = 4 := by decide
  rw [turnedAway, if_neg (by rw [hb]; exact Bool.false_ne_true), if_neg (by rw [hl]; exact Bool.false_ne_true),
    illegalCommand, hword]

/-- An idle core that is not in reset completes a word that is no legal command as `Illegal` (R328). -/
theorem step_of_illegal_word {s : State} {w : Word} {r : DecodeError} {es : List Event} (hn : s.held = false)
    (hb : s.cmd.busy = false) (he : s.env = .outside (.host (.write 0 w)) :: es) (hd : decode w = .error r) :
    step s = .next ((s.withEnv es).withCmd { s.cmd with busy := false, done := true, fail := true, err := 4 }) := by
  have hc : commandWord (.write 0 w) = some w := rfl
  simp only [step, nextStep, hn, hb, Bool.false_eq_true, if_false, idleStep, he, idleMove, hc, fetchCommand, hd]
  exact turnedAway_illegal (s := s.withEnv es) hb rfl

/-- Only four commands have operands that R112 forbids, and each asks for them before it starts. -/
theorem exec_of_forbidden_operand {s : State} {i : Instr} (hb : s.cmd.busy = false) (hw : i.wellFormed = false) :
    exec i s = .next (s.withCmd { s.cmd with busy := false, done := true, fail := true, err := 4 }) := by
  cases i with
  | btRead a reg len => exact turnedAway_illegal hb hw
  | rdRbits dev reg first flen => exact turnedAway_illegal hb hw
  | rdWbits dev reg first flen val => exact turnedAway_illegal hb hw
  | mgSetmode mode => exact turnedAway_illegal hb hw
  | _ => cases hw

/-- Settles O6: the three ways to an `Illegal` completion are one (`turnedAway_illegal`). -/
theorem illegalCompletes : Obligations.IllegalCompletes := by
  refine ⟨fun s w r es hn hb he hd => step_of_illegal_word hn hb he hd,
    fun s i hb hw => exec_of_forbidden_operand hb hw, fun s n hb hp => ?_⟩
  exact turnedAway_illegal hb (decide_eq_false (not_not.mpr hp))

/-! ## O59: the `irq` level -/

/-- While `rst` is released the level is that of its two sources, each with its enable (R338). -/
theorem irq_released {s : State} (hn : s.held = false) :
    irq s = ((s.rcd.valid && s.ctrl.ieRec) || (s.cmd.done && s.ctrl.ieDone)) := by
  rw [irq, hn, Bool.not_false, Bool.true_and]

/-- The start of a command takes `done` away, so only the record is left as a source (R328). -/
theorem irq_startCommand {s : State} (hn : s.held = false) (op : BitVec 6) :
    irq (startCommand op s) = (s.rcd.valid && s.ctrl.ieRec) := by
  have hdone : (startCommand op s).cmd.done = false := rfl
  rw [irq_released ((startCommand_held s op).trans hn), hdone, Bool.false_and, Bool.or_false, startCommand_rcd,
    startCommand_ctrl]

/-- A write of REC_CTL takes the record away (spec/10_state.md R55). -/
theorem irq_of_recCtl_write {s t : State} {v : Word} (hn : s.held = false)
    (h : hostAccess s (.write 0x1A8 v) = .ok t) : t.rcd.valid = false ∧ irq t = (s.cmd.done && s.ctrl.ieDone) := by
  have ht : t = s.withRcd { s.rcd with valid := false } := hostAccess_write rfl h
  have hvalid : t.rcd.valid = false := by rw [ht]; rfl
  refine ⟨hvalid, ?_⟩
  rw [irq_released (by rw [ht]; exact hn), hvalid, Bool.false_and, Bool.false_or, ht]
  rfl

/-- Busy or not, a write of CTRL takes the two enables from its word and leaves the sources alone
(spec/10_state.md R44). -/
theorem hostAccess_write_ctrl_enables {s t : State} {v : Word} (h : hostAccess s (.write 0x010 v) = .ok t) :
    t.ctrl.ieRec = v.getLsbD 9 ∧ t.ctrl.ieDone = v.getLsbD 10 ∧ t.rcd = s.rcd ∧ t.cmd = s.cmd ∧ t.held = s.held := by
  have ht : t = hostWrite s v .ctrl := hostAccess_write rfl h
  cases hb : s.cmd.busy with
  | true => rw [ht, writeCtrl_busy hb]; exact ⟨rfl, rfl, rfl, rfl, rfl⟩
  | false => rw [ht, writeCtrl_idle hb]; exact ⟨rfl, rfl, rfl, rfl, rfl⟩

/-- A write of CTRL that disables the completion source leaves the record with its new enable. -/
theorem irq_of_ctrl_write {s t : State} {v : Word} (hn : s.held = false) (hv : v.getLsbD 10 = false)
    (h : hostAccess s (.write 0x010 v) = .ok t) : irq t = (s.rcd.valid && v.getLsbD 9) := by
  obtain ⟨hrec, hdone, hrcd, -, hheld⟩ := hostAccess_write_ctrl_enables h
  rw [irq_released (hheld.trans hn), hrec, hdone, hrcd, hv, Bool.and_false, Bool.or_false]

/-- Settles O59: the formula (`irq_released`, `irq_held`), its bit of STATUS, and its sources going away. -/
theorem irqLevel : Obligations.IrqLevel := by
  refine ⟨fun s => ?_, rfl, fun s t v hn h => irq_of_recCtl_write hn h, fun s op hn => irq_startCommand hn op,
    fun s t v hn hv h => irq_of_ctrl_write hn hv h⟩
  obtain ⟨hbit, -⟩ := word_of_bits (l := statusBits s) (show 13 ≤ 32 by decide) (statusWord_eq s)
  exact ⟨irq_released, irq_held, hbit 12, hbit 1, hbit 5⟩

end Sys2Proof.Machine
end

section
/-! PROOF of O44. The end of a tick (spec/48_scheduler.md R303 to R306): calibration and the filter step come first, and
what the record, the tick count and LASTTICK then hold is read off the state that the filter step leaves. -/

namespace Sys2Proof.Machine

open Sys2Proof

/-! ## LASTTICK -/

/-- The low bits of LASTTICK (spec/10_state.md R47). -/
def lasttickBits (a : Aggregator) (fused rej : Bool) : List Bool := [a.okA, a.okG, a.okM, fused, rej]

section
variable (a : Aggregator) (fused rej : Bool) (firsterr : Word)

theorem toNat_lasttickWord : (lasttickWord a fused rej firsterr).toNat =
    2 ^ 8 * (firsterr.toNat % 2 ^ 24) + bitsNum (lasttickBits a fused rej) := by
  have hlt : bitsNum (lasttickBits a fused rej) < 2 ^ 5 := bitsNum_lt _
  have hnum : bitsNum (lasttickBits a fused rej) = rawOkNum a + bit fused * 2 ^ 3 + bit rej * 2 ^ 4 := by
    simp only [lasttickBits, bitsNum, rawOkNum]
    omega
  rw [lasttickWord, ← hnum, BitVec.toNat_ofNat]
  omega

theorem getLsbD_lasttickWord {k : Nat} (hk : k < 8) :
    (lasttickWord a fused rej firsterr).getLsbD k = (lasttickBits a fused rej).getD k false := by
  have hlt : bitsNum (lasttickBits a fused rej) < 2 ^ 8 := (bitsNum_lt _).trans (by decide : 2 ^ 5 < 2 ^ 8)
  rw [BitVec.getLsbD, toNat_lasttickWord, Nat.testBit_two_pow_mul_add _ hlt, if_pos hk, testBit_bitsNum]

theorem lasttickWord_firsterr : (lasttickWord a fused rej firsterr).toNat / 2 ^ 8 = firsterr.toNat % 2 ^ 24 := by
  have hlt : bitsNum (lasttickBits a fused rej) < 2 ^ 5 := bitsNum_lt _
  rw [toNat_lasttickWord]
  omega

theorem lasttickWord_reserved : (lasttickWord a fused rej firsterr).toNat / 2 ^ 5 % 2 ^ 3 = 0 := by
  have hlt : bitsNum (lasttickBits a fused rej) < 2 ^ 5 := bitsNum_lt _
  rw [toNat_lasttickWord]
  omega

end

/-! ## The filter step after the calibration -/

/-- The state of a tick after its calibration: the groups that were delivered are calibrated (R303). -/
def calibrated (s : State) : State := caApply s.sa.okA s.sa.okG s.sa.okM s

section
variable (s : State)

theorem calibrated_sa : (calibrated s).sa = s.sa := (caApply_fields _ _ _ s).2.1

theorem tickFuses_calibrated : tickFuses (calibrated s) = tickFuses s := by
  obtain ⟨-, hsa, hctrl, -⟩ := caApply_fields s.sa.okA s.sa.okG s.sa.okM s
  rw [tickFuses, tickFuses, calibrated, hsa, hctrl]

theorem tickDt_calibrated : tickDt (calibrated s) = tickDt s := by
  obtain ⟨hss, hsa, -⟩ := caApply_fields s.sa.okA s.sa.okG s.sa.okM s
  rw [tickDt, tickDt, calibrated, hss, hsa]

theorem calibrated_getX {n : Fin 32} (hn : n.val < 9 ∨ 27 ≤ n.val) : (calibrated s).getX n = s.getX n :=
  caApply_getX _ _ _ s hn

/-- The filter step of a tick writes the angles and `x[30]` only. -/
theorem sameXBut_tickFuse : sameXBut [27, 28, 29, 30] s (tickFuse s).2 := by
  cases hp : tickFuses s with
  | false => rw [tickFuse_skipped hp]; exact fun _ _ => rfl
  | true =>
    obtain hpos | hle := lt_or_ge 0 (tickDt s).val.toInt
    · exact (tickAccepted_tickFuse hp hpos).others
    · rw [tickFuse_rejected hp hle]
      exact fun k hk => sameXBut_setDt s k (mt (List.mem_append_right [27, 28, 29]) hk)

end

/-! ## What the end of a tick leaves -/

section
variable (w : Word) (s : State)

theorem tickEnded_getX (n : Fin 32) : (tickEnded w s).getX n = (tickFuse (calibrated s)).2.getX n := rfl

/-- A tick writes the calibrated values, the angles and the time step, and no other register. -/
theorem sameXBut_tickEnded : sameXBut [9, 10, 11, 12, 13, 14, 15, 16, 17, 18, 19, 20, 21, 22, 23, 24, 25, 26, 27, 28,
    29, 30] s (tickEnded w s) := by
  have hfree : ∀ k : Fin 32, k ∉ [(9 : Fin 32), 10, 11, 12, 13, 14, 15, 16, 17, 18, 19, 20, 21, 22, 23, 24, 25, 26, 27,
      28, 29, 30] → (k.val < 9 ∨ 27 ≤ k.val) ∧ k ∉ [(27 : Fin 32), 28, 29, 30] := by decide
  intro k hk
  obtain ⟨hcal, hfuse⟩ := hfree k hk
  rw [tickEnded_getX, sameXBut_tickFuse _ k hfuse, calibrated_getX s hcal]

/-- The record of a tick (R306, spec/30_encoding.md R118): the angles that the tick leaves, the raw field if asked
for, the capture times, and whether a record was overwritten. -/
theorem tickEnded_rcd : (tickEnded w s).rcd =
    { roll := (tickEnded w s).getX 27
      pitch := (tickEnded w s).getX 28
      head := (tickEnded w s).getX 29
      mag := if s.ctrl.outRaw then ⟨s.getX 6, s.getX 7, s.getX 8⟩ else Vec3.all 0
      tStart := s.ss.tStart
      tEnd := s.clock
      valid := true
      ovr := s.rcd.ovr || s.rcd.valid } := by
  obtain ⟨hss, -, hctrl, hclock, hrcd, -⟩ := caApply_fields s.sa.okA s.sa.okG s.sa.okM s
  obtain ⟨fss, -, fctrl, fclock, frcd, -⟩ := tickFuse_fields (calibrated s)
  have hraw : ∀ n : Fin 32, n.val < 9 → (tickFuse (calibrated s)).2.getX n = s.getX n := fun n hn => by
    have hother : ∀ k : Fin 32, k.val < 9 → k ∉ [(27 : Fin 32), 28, 29, 30] := by decide
    rw [sameXBut_tickFuse _ n (hother n hn), calibrated_getX s (.inl hn)]
  have hemit : (tickEnded w s).rcd = (emitRecord ((tickFuse (calibrated s)).2.withSs
      { (tickFuse (calibrated s)).2.ss with tEnd := (tickFuse (calibrated s)).2.clock, phase := .emit })).rcd := rfl
  have hcal : (calibrated s).ss.tStart = s.ss.tStart := congrArg Sched.tStart hss
  have htStart : (tickFuse (calibrated s)).2.ss.tStart = s.ss.tStart := (congrArg Sched.tStart fss).trans hcal
  rw [hemit]
  simp only [emitRecord, State.withRcd_rcd, State.withSs_getX, State.withSs_ctrl, State.withSs_ss, State.withSs_rcd,
    tickEnded_getX, hraw 6 (by decide), hraw 7 (by decide), hraw 8 (by decide), htStart, fctrl.trans hctrl,
    fclock.trans hclock, frcd.trans hrcd]

theorem tickEnded_lasttick : (tickEnded w s).ss.lasttick =
    lasttickWord s.sa (tickFuse (calibrated s)).1.fused (tickFuse (calibrated s)).1.rej w := by
  obtain ⟨-, fsa, -⟩ := tickFuse_fields (calibrated s)
  have hlast : (tickEnded w s).ss.lasttick = lasttickWord (tickFuse (calibrated s)).2.sa
    (tickFuse (calibrated s)).1.fused (tickFuse (calibrated s)).1.rej w := rfl
  rw [hlast, fsa, calibrated_sa]

/-- Bits 3 and 4 of LASTTICK are FUSED and REJ, as the filter step gives them (spec/10_state.md R47). -/
theorem tickEnded_filterBits : (tickEnded w s).ss.lasttick.getLsbD 3 = (tickFuse (calibrated s)).1.fused ∧
    (tickEnded w s).ss.lasttick.getLsbD 4 = (tickFuse (calibrated s)).1.rej := by
  rw [tickEnded_lasttick]
  exact ⟨getLsbD_lasttickWord _ _ _ _ (by decide), getLsbD_lasttickWord _ _ _ _ (by decide)⟩

end

/-- A tick that skips or rejects the filter step records the angles as they were. -/
theorem tickEnded_angles_kept {w : Word} {s : State}
    (h : sameXBut [30] (calibrated s) (tickFuse (calibrated s)).2) : (tickEnded w s).rcd.roll = s.getX 27 ∧
    (tickEnded w s).rcd.pitch = s.getX 28 ∧ (tickEnded w s).rcd.head = s.getX 29 := by
  have hangle : ∀ n : Fin 32, 27 ≤ n.val → n ≠ 30 → (tickEnded w s).getX n = s.getX n := fun n hn h30 => by
    rw [tickEnded_getX, h.of_ne_dt h30, calibrated_getX s (.inr hn)]
  rw [tickEnded_rcd]
  exact ⟨hangle 27 (by decide) (by decide), hangle 28 (by decide) (by decide), hangle 29 (by decide) (by decide)⟩

/-- Settles O44: the record (`tickEnded_rcd`), the scheduler (`tickEnded_fields`), and LASTTICK with the filter step
skipped, accepted or rejected (`tickEnded_filterBits`). -/
theorem tickEmitsRecord : Obligations.TickEmitsRecord := by
  intro s firsterr t
  have hrcd : t.rcd = _ := tickEnded_rcd firsterr s
  have hlast : t.ss.lasttick = _ := tickEnded_lasttick firsterr s
  obtain ⟨hfused, hrej⟩ := tickEnded_filterBits firsterr s
  obtain ⟨⟨lastTs, lasttick, hss⟩, -⟩ := tickEnded_fields firsterr s
  have hbit : ∀ k < 3, t.ss.lasttick.getLsbD k = [s.sa.okA, s.sa.okG, s.sa.okM].getD k false := fun k hk => by
    rw [hlast, getLsbD_lasttickWord _ _ _ _ (by omega)]
    interval_cases k <;> rfl
  refine ⟨congrArg Rcd.roll hrcd, congrArg Rcd.pitch hrcd, congrArg Rcd.head hrcd, congrArg Rcd.mag hrcd,
    congrArg Rcd.tStart hrcd, congrArg Rcd.tEnd hrcd, congrArg Sched.tEnd hss, congrArg Rcd.valid hrcd, ?overwritten,
    congrArg Sched.ticks hss, hbit 0 (by decide), hbit 1 (by decide), hbit 2 (by decide), ?firsterr, ?reserved,
    fun hall hpol => ?skipped, fun h => ⟨fun hpos => ?accepted, fun hle => ?rejected⟩, sameXBut_tickEnded firsterr s⟩
  case overwritten => rw [congrArg Rcd.ovr hrcd, Bool.or_eq_true]
  case firsterr => rw [hlast]; exact lasttickWord_firsterr _ _ _ _
  case reserved => rw [hlast]; exact lasttickWord_reserved _ _ _ _
  case skipped =>
    have hfuse := tickFuse_skipped ((tickFuses_calibrated s).trans (Bool.or_eq_false_iff.mpr ⟨hall, hpol⟩))
    refine ⟨hfused.trans (by rw [hfuse]), hrej.trans (by rw [hfuse]), tickEnded_angles_kept ?_⟩
    rw [hfuse]
    exact fun _ _ => rfl
  case accepted =>
    have hfuse := tickFuse_accepted ((tickFuses_calibrated s).trans ((tickFuses_iff s).mpr h))
      (by rw [tickDt_calibrated]; exact hpos)
    exact ⟨hfused.trans (by rw [hfuse]), hrej.trans (by rw [hfuse])⟩
  case rejected =>
    have hfuse := tickFuse_rejected ((tickFuses_calibrated s).trans ((tickFuses_iff s).mpr h))
      (by rw [tickDt_calibrated]; exact hle)
    refine ⟨hfused.trans (by rw [hfuse]), hrej.trans (by rw [hfuse]), tickEnded_angles_kept ?_⟩
    rw [hfuse]
    exact sameXBut_setDt _

end Sys2Proof.Machine
end

section
/-! PROOF of O40 and O41. A turn of the loop of SS.RUN (spec/48_scheduler.md R302, R307, R308): cancelled, the last, or
going on. The start of SS.RUN differs from the state that the statement names only in what no turn looks at, the
sequencer's position (`relabel`), so its first turn is a turn like the others. -/

namespace Sys2Proof.Machine

open Sys2Proof

/-! ## A turn of the loop, whatever the labels of its state -/

/-- A turn that finds CANCEL set ends the loop without a tick (R308). -/
theorem loopTurn_cancelled {s : State} (hc : s.ctrl.cancel = true) (ht : turnAhead s.env = false) :
    afterTurn (loopTurn s) = .next (runEnded s) := by
  rw [loopTurn, corePoint_quiet ht, Res.ret_andThen, nextPhase_ctrl, if_pos hc, afterTurn,
    corePoint_quiet (s := loopEnd (nextPhase s)) ht]
  rfl

theorem tickCounted_relabel (rs : List (Group × Polled)) (es : List Event) (q : Option SeqPos) (p : SsPhase)
    (s : State) : tickCounted rs (relabel es q p s) = relabel es q .emit (tickCounted rs s) := by
  simp only [tickCounted, tickStarted_relabel, pollsDone_relabel, pollsErr_relabel, tickEnded_relabel]
  exact countTick_relabel es q .emit _

theorem runEnded_relabel (es : List Event) (q : Option SeqPos) (p : SsPhase) (s : State) :
    runEnded (relabel es q p s) = (runEnded s).withEnv es := rfl

section
variable {a g m : Polled} {s : State} {es : List Event} (q : Option SeqPos) (p : SsPhase)

/-- A cancelled turn, from a state with other labels. -/
theorem loopTurn_cancelled_relabel (hc : s.ctrl.cancel = true) (ht : turnAhead es = false) :
    afterTurn (loopTurn (relabel es q p s)) = .next ((runEnded s).withEnv es) := by
  rw [loopTurn_cancelled (by rw [relabel_ctrl]; exact hc) (by rw [relabel_env]; exact ht), runEnded_relabel]

/-- A turn that uses up the count, from a state with other labels. -/
theorem loopTurn_last_relabel (hc : s.ctrl.cancel = false)
    (hf : ticksFit (outcomes a g m) (tickStarted s) = true)
    (hk : s.clock.toNat + pollsDelay (outcomes a g m) < 2 ^ 64) (ht : turnAhead es = false)
    (hd : countDone (tickCounted (outcomes a g m) s) = true) :
    afterTurn (loopTurn (relabel (pollsAns (outcomes a g m) (tickStarted s) ++ es) q p s)) =
      .next ((runEnded (tickCounted (outcomes a g m) s)).withEnv es) := by
  have hturn := loopTurn_last (s := relabel (pollsAns (outcomes a g m) (tickStarted s) ++ es) q p s) (es := es) hc
    (by rw [tickStarted_relabel, ticksFit_relabel]; exact hf) hk ht
    (by rw [tickStarted_relabel, pollsAns_relabel, relabel_env])
    (by rw [tickCounted_relabel, countDone_relabel]; exact hd)
  rw [hturn, tickCounted_relabel, runEnded_relabel]
  rfl

/-- A turn after which the loop goes on, from a state with other labels. -/
theorem loopTurn_more_relabel (hc : s.ctrl.cancel = false)
    (hf : ticksFit (outcomes a g m) (tickStarted s) = true)
    (hk : s.clock.toNat + pollsDelay (outcomes a g m) < 2 ^ 64)
    (hd : countDone (tickCounted (outcomes a g m) s) = false)
    (hw : (tickCounted (outcomes a g m) s).ss.epoch.toNat
      + (tickCounted (outcomes a g m) s).ss.period.toNat < 2 ^ 64) :
    afterTurn (loopTurn (relabel (pollsAns (outcomes a g m) (tickStarted s)) q p s)) =
      .next (atLoopTop ((deadlineReached (tickCounted (outcomes a g m) s)).withEnv [])) := by
  have labels : ∀ (u : State) es q, u.ss.phase = .wait →
      atLoopTop ((relabel es q .wait u).withEnv []) = atLoopTop (u.withEnv []) := by
    intro u es q hu
    rw [← hu]
    rfl
  have hturn := loopTurn_more (s := relabel (pollsAns (outcomes a g m) (tickStarted s)) q p s) hc
    (by rw [tickStarted_relabel, ticksFit_relabel]; exact hf) hk
    (by rw [tickStarted_relabel, pollsAns_relabel, relabel_env])
    (by rw [tickCounted_relabel, countDone_relabel]; exact hd) (by rw [tickCounted_relabel]; exact hw)
  rw [hturn, tickCounted_relabel, deadlineReached_relabel, labels _ _ _ (deadlineReached_phase _)]

end

/-! ## The count and the deadline after a tick -/

section
variable (rs : List (Group × Polled)) {s : State}

/-- The tick of the last count ends the loop (R302). -/
theorem countDone_tickCounted_last (h0 : s.ss.count ≠ 0) (h1 : s.ss.left = 1) :
    countDone (tickCounted rs s) = true := by
  obtain ⟨lastTs, lasttick, hss⟩ := tickCounted_ss rs s
  rw [countDone, hss]
  show (decide (s.ss.count ≠ 0) && decide ((if s.ss.count = 0 then s.ss.left else s.ss.left - 1) = 0)) = true
  rw [if_neg h0, h1, decide_eq_true h0]
  rfl

/-- A tick leaves the deadline and the period alone. -/
theorem tickCounted_deadline (s : State) :
    (tickCounted rs s).ss.epoch = s.ss.epoch ∧ (tickCounted rs s).ss.period = s.ss.period := by
  obtain ⟨lastTs, lasttick, hss⟩ := tickCounted_ss rs s
  rw [hss]
  exact ⟨rfl, rfl⟩

end

/-! ## The statements -/

/-- A step of a core that runs SS.RUN is a turn of its loop. -/
theorem step_running {s : State} (hn : s.held = false) (hb : s.cmd.busy = true) (hr : s.ss.running = true) :
    step s = afterTurn (loopTurn s) := by
  rw [step, nextStep, if_neg (by rw [hn]; exact Bool.false_ne_true), if_pos hb, if_pos hr, continueRun]

/-- Settles O41: a step is a turn (`step_running`), and a turn is cancelled (`loopTurn_cancelled`), the last
(`loopTurn_last`) or goes on (`loopTurn_more`). -/
theorem runningTurn : Obligations.RunningTurn := by
  intro s a g m es hn hb hr ht
  rw [step_running hn hb hr]
  refine ⟨fun hc he => loopTurn_cancelled hc (by rw [he]; exact ht), fun hc hf hk he => ⟨fun h0 h1 => ?last,
    fun hl hes hw => ?more⟩⟩
  case last => exact loopTurn_last hc hf hk ht he (countDone_tickCounted_last _ h0 h1)
  case more =>
    subst hes
    obtain ⟨hepoch, hperiod⟩ := tickCounted_deadline (outcomes a g m) s
    exact loopTurn_more hc hf hk (by rw [he, List.append_nil]) (countDone_tickCounted _ hl)
      (by rw [hepoch, hperiod]; exact hw)

/-- Settles O40: SS.RUN is its start (`ssRun_begins`) and a turn, as for O41. -/
theorem ssRunTurn : Obligations.SsRunTurn := by
  intro s count a g m es hb hp ht s0
  refine ⟨fun hc he => ?cancelled, fun hc hf hk he => ?ticks⟩
  case cancelled =>
    have hquiet : turnAhead s.env = false := by rw [he]; exact ht
    obtain ⟨q, hbegin⟩ := ssRun_begins (count := count) hb hp hquiet
    rw [hbegin, loopTurn_cancelled_relabel (s := s0) q _ hc hquiet]
    rfl
  case ticks =>
    obtain ⟨q, hbegin⟩ := ssRun_begins (count := count) hb hp (by rw [he]; exact turnAhead_pollsAns ht _ _)
    rw [hbegin, he]
    refine ⟨fun h1 => ?last, fun h1 hes hw => ?more⟩
    case last =>
      have hcount : s0.ss.count ≠ 0 := fun h0 => absurd (h1.symm.trans h0) (by decide)
      exact loopTurn_last_relabel q _ hc hf hk ht (countDone_tickCounted_last _ hcount h1)
    case more =>
      subst hes
      obtain ⟨hepoch, hperiod⟩ := tickCounted_deadline (outcomes a g m) s0
      rw [List.append_nil]
      exact loopTurn_more_relabel q _ hc hf hk (countDone_tickCounted _ (.inr h1)) (by rw [hepoch, hperiod]; exact hw)

end Sys2Proof.Machine
end

section
/-! PROOF of O42. SS.RUN on schedule (spec/48_scheduler.md R302, R307, R310): with no group ready and nothing outside, a
tick takes no time, so the wait after each turn ends exactly at the deadline. `OnSchedule` says where the run stands,
at the top of the loop and after a tick; the run is the induction over its turns. -/

namespace Sys2Proof.Machine

open Sys2Proof

/-! ## What a tick without polls leaves alone -/

theorem caApply_held (a g m : Bool) (s : State) : (caApply a g m s).held = s.held := by
  cases a <;> cases g <;> cases m <;> simp [caApply, calibrateA, calibrateG, calibrateM, putFx]

theorem tickFuse_held (s : State) : (tickFuse s).2.held = s.held := by
  cases hp : tickFuses s with
  | false => rw [tickFuse_skipped hp]
  | true =>
    obtain hpos | hle := lt_or_ge 0 (tickDt s).val.toInt
    · rw [tickFuse_accepted hp hpos, State.withSs_held]
      rfl
    · rw [tickFuse_rejected hp hle]
      rfl

theorem tickEnded_held (w : Word) (s : State) : (tickEnded w s).held = s.held :=
  (tickFuse_held (calibrated s)).trans (caApply_held _ _ _ s)

/-- The polls of a tick in which no group is read. -/
theorem pollsDone_unread_fields (s : State) :
    (pollsDone (outcomes .unread .unread .unread) s).held = s.held ∧
    (pollsDone (outcomes .unread .unread .unread) s).cmd = s.cmd ∧
    (pollsDone (outcomes .unread .unread .unread) s).env = s.env ∧
    (pollsDone (outcomes .unread .unread .unread) s).mg = s.mg := by
  simp [outcomes, pollsDone, pollDone, setRawOk]

/-- A counted tick is the tick and its count. -/
theorem tickCounted_eq (rs : List (Group × Polled)) (s : State) : tickCounted rs s =
    countTick (tickEnded (firstErrWord (pollsErr rs (tickStarted s))) (pollsDone rs (tickStarted s))) := by
  simp only [tickCounted, countTick]

/-- A counted tick without polls: what it leaves of the flags, the control bits and the drivers. -/
theorem tickCounted_unread_fields {s c : State} (h : tickCounted (outcomes .unread .unread .unread) s = c) :
    c.held = s.held ∧ c.cmd = { s.cmd with fxSat := c.cmd.fxSat } ∧ c.env = s.env ∧ c.ctrl = s.ctrl ∧
    c.ag = s.ag ∧ c.mg = s.mg := by
  obtain ⟨hheld, hcmd, henv, hmg⟩ := pollsDone_unread_fields (tickStarted s)
  obtain ⟨-, hctrl, -, hag, -⟩ := pollsDone_fields (outcomes .unread .unread .unread) (tickStarted s)
  rw [tickCounted_eq] at h
  generalize pollsDone (outcomes .unread .unread .unread) (tickStarted s) = u at *
  generalize firstErrWord (pollsErr (outcomes .unread .unread .unread) (tickStarted s)) = w at *
  obtain ⟨-, -, tag, tmg, tenv, tctrl, -, tcmd⟩ := tickEnded_fields w u
  have theld := tickEnded_held w u
  generalize tickEnded w u = v at *
  subst h
  refine ⟨theld.trans hheld, ?cmd, tenv.trans henv, tctrl.trans hctrl, tag.trans hag, tmg.trans hmg⟩
  case cmd => exact tcmd.trans (by rw [hcmd]; rfl)

/-! ## Where the run stands -/

/-- SS.RUN of `count` ticks, started in `s`, has run `k` ticks and moved its deadline on `n` times, and it is that
time now. -/
structure OnSchedule (s : State) (count : BitVec 16) (k n : Nat) (u : State) : Prop where
  held : u.held = false
  busy : u.cmd.busy = true
  fail : u.cmd.fail = false
  env : u.env = []
  cancel : u.ctrl.cancel = false
  unready : ∀ g, groupReady u g = false
  running : u.ss.running = true
  counts : u.ss.count = count
  left : u.ss.left.toNat = count.toNat - k
  ran : u.ss.ran = k
  ticks : u.ss.ticks = s.ss.ticks + BitVec.ofNat 32 k
  period : u.ss.period = s.ss.period
  epoch : u.ss.epoch = u.clock
  clock : u.clock.toNat = s.clock.toNat + n * s.ss.period.toNat

section
variable {s u : State} {count : BitVec 16} {k n : Nat}

theorem OnSchedule.relabel (q : Option SeqPos) (p : SsPhase) (h : OnSchedule s count k n u) :
    OnSchedule s count k n (relabel [] q p u) where
  held := h.held
  busy := h.busy
  fail := h.fail
  env := rfl
  cancel := h.cancel
  unready := fun g => (groupReady_relabel [] q p u g).trans (h.unready g)
  running := h.running
  counts := h.counts
  left := h.left
  ran := h.ran
  ticks := h.ticks
  period := h.period
  epoch := h.epoch
  clock := h.clock

/-- The start of SS.RUN. -/
theorem onSchedule_runBegun (count : BitVec 16) (hn : s.held = false) (hc : s.ctrl.cancel = false) (he : s.env = [])
    (hg : ∀ g, groupReady s g = false) : OnSchedule s count 0 0 (runBegun count s) where
  held := hn
  busy := rfl
  fail := rfl
  env := he
  cancel := hc
  unready := fun g => (groupReady_congr (s := s) (t := runBegun count s) rfl rfl rfl g).trans (hg g)
  running := rfl
  counts := rfl
  left := rfl
  ran := rfl
  ticks := (BitVec.add_zero _).symm
  period := rfl
  epoch := rfl
  clock := by rw [Nat.zero_mul]; rfl

/-- A tick takes no time, and is counted. -/
theorem onSchedule_tickCounted (h : OnSchedule s count k n u) (hk : k < count.toNat) :
    OnSchedule s count (k + 1) n (tickCounted (outcomes .unread .unread .unread) u) := by
  obtain ⟨hclock, -, -, -, -⟩ := tickCounted_unread u
  obtain ⟨lastTs, lasttick, hss⟩ := tickCounted_ss (outcomes .unread .unread .unread) u
  obtain ⟨hheld, hcmd, henv, hctrl, hag, hmg⟩ := tickCounted_unread_fields (s := u) rfl
  generalize tickCounted (outcomes .unread .unread .unread) u = c at *
  have hcount : u.ss.count ≠ 0 := by
    rw [h.counts]
    rintro rfl
    exact absurd hk (Nat.not_lt_zero k)
  have hleft : c.ss.left = u.ss.left - 1 := (congrArg Sched.left hss).trans (if_neg hcount)
  have hticks : c.ss.ticks = u.ss.ticks + 1 := congrArg Sched.ticks hss
  have hcountLeft := h.left
  exact {
    held := hheld.trans h.held
    busy := (congrArg CmdStatus.busy hcmd).trans h.busy
    fail := (congrArg CmdStatus.fail hcmd).trans h.fail
    env := henv.trans h.env
    cancel := by rw [hctrl, h.cancel]
    unready := fun g => (groupReady_congr hctrl hag (by rw [hmg]) g).trans (h.unready g)
    running := (congrArg Sched.running hss).trans h.running
    counts := (congrArg Sched.count hss).trans h.counts
    left := by rw [hleft]; bv_omega
    ran := (congrArg Sched.ran hss).trans (by rw [h.ran])
    ticks := by rw [hticks, h.ticks, BitVec.add_assoc, BitVec.ofNat_add]; rfl
    period := (congrArg Sched.period hss).trans h.period
    epoch := (congrArg Sched.epoch hss).trans (h.epoch.trans hclock.symm)
    clock := (congrArg BitVec.toNat hclock).trans h.clock }

/-- The wait for a deadline that is not past ends at the deadline; it changes only the clock and what is sent out. -/
theorem deadlineWaited_of_le (h : u.clock ≤ u.ss.epoch) :
    ∃ port, deadlineWaited u = (u.withPort port).withClock u.ss.epoch := by
  rw [deadlineWaited]
  split
  · exact ⟨_, rfl⟩
  · have heq : u.ss.epoch = u.clock := by bv_omega
    exact ⟨u.port, by rw [heq]; rfl⟩

/-- The deadline is moved on by the period and waited for. -/
theorem onSchedule_deadlineReached (h : OnSchedule s count k n u)
    (hw : u.ss.epoch.toNat + u.ss.period.toNat < 2 ^ 64) : OnSchedule s count k (n + 1) (deadlineReached u) := by
  have hnext : (BitVec.ofNat 64 (u.ss.epoch.toNat + u.ss.period.toNat)).toNat = u.clock.toNat + s.ss.period.toNat := by
    rw [BitVec.toNat_ofNat, Nat.mod_eq_of_lt hw, h.epoch, h.period]
  obtain ⟨port, hwaited⟩ := deadlineWaited_of_le (u := u.withSs { u.ss with
    epoch := BitVec.ofNat 64 (u.ss.epoch.toNat + u.ss.period.toNat), phase := .wait })
    (BitVec.le_def.mpr (hnext ▸ Nat.le_add_right _ _))
  rw [deadlineReached, hwaited]
  exact {
    held := h.held
    busy := h.busy
    fail := h.fail
    env := h.env
    cancel := h.cancel
    unready := fun g => (groupReady_congr (s := u) rfl rfl rfl g).trans (h.unready g)
    running := h.running
    counts := h.counts
    left := h.left
    ran := h.ran
    ticks := h.ticks
    period := h.period
    epoch := rfl
    clock := hnext.trans (by rw [h.clock, Nat.succ_mul, Nat.add_assoc]) }

/-! ## The turns -/

/-- A turn before the last: the core waits for the next deadline. -/
theorem turn_onSchedule (h : OnSchedule s count k k u) (hk : k + 1 < count.toNat)
    (hw : s.clock.toNat + count.toNat * s.ss.period.toNat < 2 ^ 64) :
    ∃ v, afterTurn (loopTurn u) = .next v ∧ OnSchedule s count (k + 1) (k + 1) v := by
  have hticked := onSchedule_tickCounted h (Nat.lt_of_succ_lt hk)
  have hfits : (tickCounted (outcomes .unread .unread .unread) u).ss.epoch.toNat +
      (tickCounted (outcomes .unread .unread .unread) u).ss.period.toNat < 2 ^ 64 := by
    rw [hticked.epoch, hticked.period, hticked.clock, Nat.add_assoc, ← Nat.succ_mul]
    exact Nat.lt_of_le_of_lt (Nat.add_le_add_left (Nat.mul_le_mul_right _ hk.le) _) hw
  have hnotLast : u.ss.left ≠ 1 := by
    intro hl
    have hleft := h.left
    rw [hl, show (1 : BitVec 16).toNat = 1 from rfl] at hleft
    omega
  refine ⟨_, loopTurn_more h.cancel (ticksFit_unread h.unready) u.clock.isLt h.env
    (countDone_tickCounted _ (.inr hnotLast)) hfits, ?_⟩
  rw [atLoopTop, withEnv_relabel]
  exact (onSchedule_deadlineReached hticked hfits).relabel _ _

/-- What the run leaves when it has completed (R302, R310). -/
structure RunCompleted (s : State) (count : BitVec 16) (t : State) : Prop where
  busy : t.cmd.busy = false
  done : t.cmd.done = true
  fail : t.cmd.fail = false
  running : t.ss.running = false
  result : t.getX 31 = count.zeroExtend 32
  ticks : t.ss.ticks = s.ss.ticks + count.zeroExtend 32
  clock : t.clock.toNat = s.clock.toNat + (count.toNat - 1) * s.ss.period.toNat
  tStart : t.ss.tStart = t.clock
  epoch : t.ss.epoch = t.clock
  left : t.ss.left = 0
  period : t.ss.period = s.ss.period

/-- The last turn: a tick, and the run is completed. -/
theorem turn_completes (h : OnSchedule s count k k u) (hk : k + 1 = count.toNat) :
    ∃ t, afterTurn (loopTurn u) = .next t ∧ RunCompleted s count t := by
  have hticked := onSchedule_tickCounted h (by omega)
  have hstart : (tickCounted (outcomes .unread .unread .unread) u).ss.tStart =
      (tickCounted (outcomes .unread .unread .unread) u).clock := by
    obtain ⟨lastTs, lasttick, hss⟩ := tickCounted_ss (outcomes .unread .unread .unread) u
    obtain ⟨hclock, -⟩ := tickCounted_unread u
    exact (congrArg Sched.tStart hss).trans hclock.symm
  have hcount : u.ss.count ≠ 0 := by
    rw [h.counts]
    rintro rfl
    cases hk
  have hleft : u.ss.left = 1 := BitVec.eq_of_toNat_eq (h.left.trans (by rw [← hk]; exact Nat.add_sub_cancel_left k 1))
  refine ⟨_, loopTurn_last (es := []) h.cancel (ticksFit_unread h.unready) u.clock.isLt rfl h.env
    (countDone_tickCounted_last _ hcount hleft), ?_⟩
  generalize tickCounted (outcomes .unread .unread .unread) u = c at *
  have hran : BitVec.ofNat 32 c.ss.ran = count.zeroExtend 32 := by
    rw [hticked.ran, hk]
    exact BitVec.ofNat_toNat 32 count
  exact {
    busy := rfl
    done := rfl
    fail := hticked.fail
    running := rfl
    result := (setResult_getX c _ 31).trans hran
    ticks := hticked.ticks.trans (by rw [← hran, hticked.ran])
    clock := hticked.clock.trans (by rw [← hk, Nat.add_sub_cancel])
    tStart := hstart
    epoch := hticked.epoch
    left := BitVec.eq_of_toNat_eq (hticked.left.trans (by rw [hk, Nat.sub_self]; rfl))
    period := hticked.period }

/-! ## The run -/

/-- A run of a machine goes on from the state its first step leads to. -/
theorem run_succ_of_step {M : Host.Core} {m : Nat} {u v : M.State} (h : M.step u = .next v) :
    M.run (m + 1) u = M.run m v := by
  rw [Host.Core.run, h]

/-- From the top of the loop with `m` turns left after the next, that turn and `m` more steps complete the run. -/
theorem run_onSchedule (hw : s.clock.toNat + count.toNat * s.ss.period.toNat < 2 ^ 64) (m : Nat) :
    ∀ {k : Nat} {u : State}, OnSchedule s count k k u → k + m + 1 = count.toNat →
      ∃ v t, afterTurn (loopTurn u) = .next v ∧ Host.Core.run core m v = .next t ∧ RunCompleted s count t := by
  induction m with
  | zero =>
    intro k u h hk
    obtain ⟨t, hturn, ht⟩ := turn_completes h hk
    exact ⟨t, t, hturn, rfl, ht⟩
  | succ m ih =>
    intro k u h hk
    obtain ⟨v, hturn, hv⟩ := turn_onSchedule h (by omega) hw
    obtain ⟨v', t, hnext, hrun, ht⟩ := ih hv (by omega)
    have hstep : step v = .next v' := (step_running hv.held hv.busy hv.running).trans hnext
    exact ⟨v, t, hturn, (run_succ_of_step (M := core) hstep).trans hrun, ht⟩

end

/-- Settles O42: the start of SS.RUN is on schedule (`onSchedule_runBegun`), and the rest is the induction over the
turns (`run_onSchedule`). -/
theorem ssRunCounted : Obligations.SsRunCounted := by
  intro s count hn hb hc h0 hp he hg hw
  obtain ⟨q, hbegin⟩ := ssRun_begins (count := count) hb hp (by rw [he]; rfl)
  rw [he] at hbegin
  have hpos : count.toNat ≠ 0 := fun h => h0 (BitVec.eq_of_toNat_eq h)
  obtain ⟨u, t, hfirst, hrun, ht⟩ := run_onSchedule hw (count.toNat - 1)
    ((onSchedule_runBegun count hn hc he hg).relabel q s.ss.phase) (by omega)
  exact ⟨u, t, hbegin.trans hfirst, hrun, ht.busy, ht.done, ht.fail, ht.running, ht.result, ht.ticks, ht.clock,
    ht.tStart, ht.epoch, ht.left, ht.period⟩

end Sys2Proof.Machine
end
